-- ==== Sys2Proof/Word.lean ====
section
/-! DEFINITION. The widths the manual fixes for its words: bytes of the management port, words of the host and
array buses, word addresses (section 1.4 of 00_scope.md; R1). -/

namespace Sys2Proof

/-- A byte of the management port, or one byte lane of an array word (R1, R173). -/
abbrev Byte := BitVec 8

/-- A word of the host bus and of the array bus: 32 bits, byte lanes 0 to 3 (R1). -/
abbrev Word := BitVec 32

/-- A word address of the host port or of the array port: 21 bits (R1). -/
abbrev WordAddr := BitVec 21

/-- A set of byte lanes: bit l stands for lane l (R127, R135). -/
abbrev Lanes := BitVec 4

/-- A set of block numbers of a page: bit b stands for block b (R19, R177, R179). -/
abbrev BlockSet := BitVec 16

end Sys2Proof
end

