-- ==== Sys2Proof/Syntax.lean ====
section
/-! DEFINITION. The commands of the block: one constructor of `Instr` for each row of spec/opcode_table.json, with the
values that the outside world supplies in that step (assumption log 1). -/

namespace Sys2Proof

/-- Direction of a host request, with what is sampled for a write: HDATA and HLANE (R102). -/
inductive HostOp where
  /-- HWRITE is 0. HLANE and HDATA are not sampled. -/
  | read
  /-- HWRITE is 1, with HDATA and HLANE as sampled. -/
  | write (data : Word) (lanes : Lanes)
  deriving DecidableEq, Repr

/-- Levels of the input lines at the end of power-on reset (R8, R9, R103, R156). `true` is the high level. -/
structure PinLevels where
  /-- RST_N, active low. -/
  rstN : Bool
  /-- SUPPLY_FALL, active high. -/
  supplyFall : Bool
  /-- MSEL_N, active low. -/
  mselN : Bool
  /-- HREQ, active high. -/
  hreq : Bool
  deriving DecidableEq, Repr

/-- The order in which the engine takes the completion of the transfer in progress at a trip and its own pause: either
may come first (R78, R149). It decides nothing in any other step (assumption log 3). -/
inductive TakenOrder where
  /-- The completion is taken first and has its full effect. -/
  | completionFirst
  /-- The pause is taken first and the completion counts for nothing in the engine. -/
  | pauseFirst
  deriving DecidableEq, Repr

/-- What a power loss makes of the word write in progress: it may reach the array whole, torn or not at all
(row POWER_LOSS; R80, R136, R181). -/
inductive LossOutcome where
  | whole
  | torn
  | unreached
  deriving DecidableEq, Repr

/-- The operations and events of the part, one constructor for each row of spec/opcode_table.json, in its order. -/
inductive Instr where
  /-- POWER_ON_RESET (R8): power is applied, with the levels of the input lines as they then stand. -/
  | powerOnReset (pins : PinLevels)
  /-- RST_N_FALL (R18). -/
  | rstNFall
  /-- RST_N_RISE (R18). -/
  | rstNRise
  /-- WARM_RESET_POINT (R18). -/
  | warmResetPoint
  /-- SUPPLY_FALL_ASSERT (R143). -/
  | supplyFallAssert
  /-- SUPPLY_FALL_DEASSERT (R143). -/
  | supplyFallDeassert
  /-- TRIP (R145): the filter timer reaches the filter time. -/
  | trip
  /-- GATE_OPEN (R9): the gate timer reaches the resume delay, with `size` on the SIZE pins (R2). -/
  | gateOpen (size : BitVec 3)
  /-- RESUME_DELAY_MET (R151). -/
  | resumeDelayMet
  /-- REARM_DELAY_MET (R147). -/
  | rearmDelayMet
  /-- HOLD_TIMEOUT (R123). -/
  | holdTimeout
  /-- HOST_REQUEST (R104): HREQ rises with these values on HADDR, HTAG, HWRITE, HDATA and HLANE. -/
  | hostRequest (addr : WordAddr) (tag : BitVec 3) (op : HostOp)
  /-- HREQ_FALL (R102). -/
  | hreqFall
  /-- FRAME_START (R156): MSEL_N falls. -/
  | frameStart
  /-- FRAME_END (R160): MSEL_N rises. -/
  | frameEnd
  /-- BAD_COMMAND (R159): byte 0 is complete and holds an unknown code. -/
  | badCommand (code : Byte)
  /-- STATUS (R164). -/
  | status
  /-- READ_CONTEXT c (R59). -/
  | readContext (c : Byte)
  /-- LOOKUP p (R39). -/
  | lookup (page : BitVec 16)
  /-- READ_EVENTS n (R169). -/
  | readEvents (n : Byte)
  /-- READ_FAULTS (R99). -/
  | readFaults
  /-- GET_CONFIG item (R166). -/
  | getConfig (item : Byte)
  /-- GET_REGION i (R110). -/
  | getRegion (i : Byte)
  /-- OPEN c (R45). -/
  | openContext (c : Byte)
  /-- COMMIT c (R46). -/
  | commit (c : Byte)
  /-- ABORT c (R55). -/
  | abort (c : Byte)
  /-- SET_CONFIG item value (R165). -/
  | setConfig (item : Byte) (value : BitVec 16)
  /-- SET_REGION i FIRST LAST ATTRIBUTE (R109). -/
  | setRegion (i : Byte) (first last : BitVec 16) (kind : Byte)
  /-- CLEAR_FAULTS (R100). -/
  | clearFaults
  /-- FORMAT F (R14). -/
  | format (frames : BitVec 16)
  /-- RESUME (R152). -/
  | resume
  /-- RESTART (R172). -/
  | restart
  /-- TAKE_WORK (R65). -/
  | takeWork
  /-- ARRAY_GRANT (R138). -/
  | arrayGrant
  /-- HOST_READ_COMPLETE (R115): the array asserts ARDY for a host read. -/
  | hostReadComplete
  /-- FILL_READ (R130). -/
  | fillRead
  /-- FILL_WRITE (R130). -/
  | fillWrite
  /-- DRAIN_WRITE (R131). -/
  | drainWrite
  /-- ANCHOR_READ (R10). -/
  | anchorRead
  /-- SUM_READ (R67). -/
  | sumRead (order : TakenOrder)
  /-- JOURNAL_WRITE (R69). -/
  | journalWrite (order : TakenOrder)
  /-- MARK_WRITE (R71). -/
  | markWrite (order : TakenOrder)
  /-- COPY_READ (R73). -/
  | copyRead (order : TakenOrder)
  /-- COPY_WRITE (R73). -/
  | copyWrite (order : TakenOrder)
  /-- RETIRE_WRITE (R74). -/
  | retireWrite (order : TakenOrder)
  /-- SCAN_READ (R90). -/
  | scanRead (order : TakenOrder)
  /-- VERIFY_READ (R93). -/
  | verifyRead (order : TakenOrder)
  /-- APPLY_COPY_READ (R93). -/
  | applyCopyRead (order : TakenOrder)
  /-- APPLY_COPY_WRITE (R93). -/
  | applyCopyWrite (order : TakenOrder)
  /-- RECOVERY_RETIRE_WRITE (R95). -/
  | recoveryRetireWrite (order : TakenOrder)
  /-- FORMAT_WRITE (R15). -/
  | formatWrite (order : TakenOrder)
  /-- POWER_LOSS (R80): the supply is lost, with what it makes of the word write in progress. -/
  | powerLoss (outcome : LossOutcome)
  /-- BYTE_COMPLETE (R156): MDI at the rising edges of MCLK since the last command, the first edge first. The edge that
  gives the eighth bit of a byte completes it; fewer bits stay in the byte in progress (assumption log 12). -/
  | byteComplete (bits : List Bool)
  deriving DecidableEq, Repr

end Sys2Proof
end

