-- ==== Sys2Proof/Config.lean ====
section
/-! DEFINITION. What an implementation fixes and the manual leaves open: the free values of the model. -/

namespace Sys2Proof

/-- FREE VALUE (assumption log 4). The bits in which the n-th array word torn by a power loss differs from the word
that was being written. R80, R84 and R181 say that a word write cut by a power loss may leave the word torn and give
no value for a torn word. Nothing in Lean can evaluate it, so a claim holds whatever it is. -/
opaque Config.tornBits : Nat → Word

/-- FREE VALUE (assumption log 25). The level on MDO while MSEL_N is low and no frame has begun, which is so when
power-on reset ends with MSEL_N low. R156 says that MDO is then driven and gives it no level. -/
opaque Config.mdoBeforeFrame : Nat → Bool

end Sys2Proof
end

