-- ==== Sys2Proof/Machine/State.lean ====
section
/-! DEFINITION. The state of the bridge as plain data, block by block as section 1.3 of 00_scope.md names the blocks, with
the array it masters, and the machine right after power-on reset. Optional fields of the manual are `Option`s or the
arguments of the constructor in which they are present. -/

namespace Sys2Proof.Machine

/-- A step of this model never ends in a fault: the manual describes no event that stops the part. The type therefore
has no constructor, and nothing raises it. -/
inductive Fault where
  deriving DecidableEq, Repr

/-- The reasons for which the model gives a command no meaning. -/
inductive Refusal where
  /-- Raised by a refused arm of `exec` for a command that has no meaning yet. Safe: the model stops. No arm of this
  model raises it. -/
  | notModelled (mnemonic : String)
  deriving DecidableEq, Repr

/-! ### Bridge control (R5) -/

/-- The seven operating states of section 1.6 of chapter 1. -/
inductive BridgeState where
  | starting | unformatted | recovering | serving | formatting | frozen | resetting
  deriving DecidableEq, Repr

/-- The geometry of a formatted array: A, F and H (R3, R5). -/
structure Geometry where
  /-- A -/
  arrayPages : Nat
  /-- F -/
  frames : Nat
  /-- H -/
  homePages : Nat
  deriving DecidableEq, Repr

/-- Bridge control (R5), with what its own procedures need: the words the anchor read has returned (R10), the level of
RST_N (R18) and whether the warm-reset point of the present RESETTING has passed (R18). -/
structure Bridge where
  state : BridgeState
  /-- Present only in FROZEN. -/
  returnState : Option BridgeState
  /-- Strap size: A from the last SIZE sample, in pages (R2). -/
  strapPages : Nat
  geometry : Option Geometry
  /-- The anchor words read so far, present while the anchor read is under way (R10). -/
  anchorRead : Option (List Word)
  /-- Level of RST_N. -/
  rstN : Bool
  /-- In RESETTING: the warm-reset point has passed. -/
  warmPointPassed : Bool
  deriving DecidableEq, Repr

/-! ### Contexts, the page map and the frame pool -/

/-- The four update contexts (R41). -/
inductive ContextId where
  | c1 | c2 | c3 | c4
  deriving DecidableEq, Repr

/-- The two allocation failures that put a context in FAILED (R41, R53). -/
inductive FailReason where
  | poolExhausted | contextFull
  deriving DecidableEq, Repr

/-- STATE of a context record. FAIL_REASON and FAIL_ADDRESS are present only in FAILED (R41, R42). -/
inductive ContextState where
  | idle
  | opened
  | failed (reason : FailReason) (addr : WordAddr)
  | queued
  | committing
  deriving DecidableEq, Repr

/-- One context record (R41). -/
structure ContextRecord where
  state : ContextState
  entryCount : Nat
  lastSequence : Word
  deriving DecidableEq, Repr

/-- The context table: one record for each context (R41). -/
structure ContextTable where
  c1 : ContextRecord
  c2 : ContextRecord
  c3 : ContextRecord
  c4 : ContextRecord
  deriving DecidableEq, Repr

/-- STATE of a page-map entry, with OWNER or RECORD_POSITION where it is present (R19). -/
inductive EntryState where
  | context (owner : ContextId)
  | pending (position : Nat)
  | copied (position : Nat)
  deriving DecidableEq, Repr

/-- One page-map entry (R19). -/
structure MapEntry where
  homePage : Nat
  frame : Nat
  state : EntryState
  written : BlockSet
  deriving DecidableEq, Repr

/-! ### The commit engine (R60, R61, R89) -/

/-- The ten engine stages (R60). -/
inductive Stage where
  | idle | drain | sum | write | mark | copy | retire | scan | apply | format
  deriving DecidableEq, Repr

/-- The two journal slots (R3). -/
inductive Slot where
  | slot0 | slot1
  deriving DecidableEq, Repr

/-- One item of ENTRIES (R61). -/
structure RecordItem where
  homePage : Nat
  frame : Nat
  written : BlockSet
  /-- Absent until SUM computes it. -/
  checksum : Option Word
  deriving DecidableEq, Repr

/-- The current record (R61). -/
structure CurrentRecord where
  sequence : Word
  slot : Slot
  /-- Absent in recovery. -/
  context : Option ContextId
  entryCount : Nat
  items : List RecordItem
  recordChecksum : Option Word
  deriving DecidableEq, Repr

/-- What recovery records of a journal slot (R89): SEQUENCE and ENTRY_COUNT only when marked, the entries only when
live. -/
inductive SlotImage where
  | unmarked
  | retired (sequence : Word) (entryCount : Nat)
  | live (sequence : Word) (entryCount : Nat) (entries : List RecordItem) (recordChecksum : Word)
  deriving DecidableEq, Repr

/-- What the engine does with a block in a stage that visits blocks: sum its words, read them for a copy, or write them
home (R67, R73, R93). -/
inductive Pass where
  | checksum | copyRead | copyWrite
  deriving DecidableEq, Repr

/-- The engine's position inside a stage (R60): the next entry, block and word. `slotIndex` is the slot being scanned
in SCAN and the place in the apply list in APPLY and in RETIRE of recovery. `word` counts the writes of WRITE and of the
present FORMAT step. -/
structure Position where
  slotIndex : Nat
  entry : Nat
  block : Nat
  word : Nat
  pass : Pass
  deriving DecidableEq, Repr

/-- The pause of the engine (R78): none, still to be taken by an engine whose transfer is in progress, or taken (the
pause indication is present). -/
inductive Pause where
  | running | requested | paused
  deriving DecidableEq, Repr

/-- The running two-sum of R86. -/
structure Sums where
  first : Nat
  second : Nat
  deriving DecidableEq, Repr

/-- The commit engine (R60, R89). -/
structure Engine where
  stage : Stage
  lastSequence : Word
  record : Option CurrentRecord
  pause : Pause
  /-- F of the FORMAT under way. -/
  formatFrames : Option Nat
  /-- FORMAT step 1 to 5. -/
  formatStep : Option Nat
  pos : Position
  /-- The checksum being formed in SUM or in a verify pass. -/
  sums : Sums
  /-- The words of the block being copied, as read so far (R73). -/
  copyStore : List Word
  /-- The words of the slot being scanned, as read so far (R90). -/
  scanWords : List Word
  image0 : Option SlotImage
  image1 : Option SlotImage
  applyList : List Slot
  tallyPosition : Nat
  faultList : List Nat
  faultCount : Nat
  deriving DecidableEq, Repr

/-! ### The host access path (R103, R107) -/

/-- The host fault reasons (R175). -/
inductive FaultReason where
  | outOfRange | protectedPage | badTag | contextClosed | contextFailed | conflict
  | poolExhausted | contextFull | regionDenied | notReady | frozen | holdTimeout
  deriving DecidableEq, Repr

/-- Why a request is held (R103). -/
inductive HoldReason where
  | bufferFull | readWait | record
  deriving DecidableEq, Repr

/-- The phase of the outstanding request, with the hold reason when HELD (R103). Classification takes no time of its
own, so no state between two steps shows `classifying`. -/
inductive HostPhase where
  | classifying
  | held (reason : HoldReason)
  | readGrant
  | readTransfer
  deriving DecidableEq, Repr

/-- The record of the outstanding request (R102, R103). -/
structure Request where
  addr : WordAddr
  tag : BitVec 3
  op : HostOp
  phase : HostPhase
  /-- The resolved array word address, once a read is resolved. -/
  resolved : Option WordAddr
  /-- The region test has passed (R108). -/
  regionPassed : Bool
  deriving DecidableEq, Repr

/-- The host port and the outstanding request (R102, R103, R121). -/
structure HostPort where
  /-- Level of HREQ. -/
  hreq : Bool
  hdone : Bool
  hfault : Bool
  hreason : BitVec 4
  /-- HDATA as the bridge last drove it. -/
  hdata : Word
  outstanding : Option Request
  /-- Present while the hold timer runs: the hold timeout in µs taken when it started. -/
  holdTimer : Option Nat
  deriving DecidableEq, Repr

/-- The kinds of region descriptor (R107). -/
inductive RegionKind where
  | readOnly | contextOnly | directOnly
  deriving DecidableEq, Repr

/-- A region descriptor (R107). ATTRIBUTE is present only when ENABLED is set, so ENABLED is its presence. -/
structure Region where
  kind : Option RegionKind
  first : Nat
  last : Nat
  deriving DecidableEq, Repr

/-! ### The posted-write buffer and the array sequencer (R127, R128, R136) -/

/-- TARGET of a posted write (R127). -/
inductive Target where
  | home
  | frame (k : Nat)
  deriving DecidableEq, Repr

/-- A posted-write entry (R127). TAG 0 is `none`. -/
structure PostedEntry where
  target : Target
  addr : WordAddr
  data : Word
  lanes : Lanes
  tag : Option ContextId
  fill : Option WordAddr
  deriving DecidableEq, Repr

/-- The drain position (R128). -/
inductive DrainPos where
  | fillRead (i : Nat)
  | fillWrite (i : Nat)
  | write
  deriving DecidableEq, Repr

/-- What the head entry carries: its drain position, whether it is begun, and the fill store as filled so far (R128). -/
structure DrainHead where
  pos : DrainPos
  begun : Bool
  store : List Word
  deriving DecidableEq, Repr

/-- The posted-write buffer, oldest entry first (R127, R128). -/
structure PostedBuffer where
  entries : List PostedEntry
  head : Option DrainHead
  deriving DecidableEq, Repr

/-- What a transfer of the array port is for: one purpose for each completion row of the table. -/
inductive Purpose where
  | hostRead
  | fillRead | fillWrite | drainWrite
  | anchorRead
  | sumRead | journalWrite | markWrite | copyRead | copyWrite | retireWrite
  | scanRead | verifyRead | applyCopyRead | applyCopyWrite | recoveryRetireWrite
  | formatWrite
  deriving DecidableEq, Repr

/-- The transfer in progress (R135, R136): what the sequencer holds and the bridge drives on the array port. -/
structure Transfer where
  purpose : Purpose
  /-- AWRITE -/
  isWrite : Bool
  /-- AADDR -/
  addr : WordAddr
  /-- ADATA of a write; 0 for a read -/
  data : Word
  /-- ALANE -/
  lanes : Lanes
  /-- An anchor read whose data is to be discarded at completion (R10). -/
  abandoned : Bool
  deriving DecidableEq, Repr

/-- The turn of the sequencer (R140). -/
inductive Turn where
  | engine | drain
  deriving DecidableEq, Repr

/-! ### The supply monitor (R143) -/

/-- The monitor phase (R143). -/
inductive MonitorPhase where
  | gating | armed | reported | resumeWait | ignoring
  deriving DecidableEq, Repr

/-- The delay timer (R143): stopped, running against the resume delay (ms) taken at its start, or at that delay. -/
inductive DelayTimer where
  | stopped
  | running (ms : Nat)
  | met
  deriving DecidableEq, Repr

/-- The supply monitor (R143). -/
structure Monitor where
  phase : MonitorPhase
  /-- SUPPLY_FALL as last sampled: `true` is asserted. -/
  level : Bool
  /-- Present while the filter timer runs: the filter time (µs) taken at its start (R144). -/
  filterTimer : Option Nat
  delayTimer : DelayTimer
  deriving DecidableEq, Repr

/-! ### The management port (R156, R165, R167) -/

/-- The frame phase (R156). -/
inductive FramePhase where
  | idle | command | arguments | response | ignoring
  deriving DecidableEq, Repr

/-- The framing of the management port (R156): what the frame in progress holds. -/
structure MgmtPort where
  /-- Level of MSEL_N. -/
  mselN : Bool
  phase : FramePhase
  /-- The command code, once byte 0 is complete. -/
  code : Option Byte
  /-- The argument bytes received so far. -/
  args : List Byte
  /-- The bits of the byte in progress taken from MDI so far, the most significant first. -/
  bits : List Bool
  /-- How many bytes of the frame are complete. -/
  bytes : Nat
  /-- The status byte and the response bytes after it, fixed at decode. -/
  response : List Byte
  deriving DecidableEq, Repr

/-- Trip mode, configuration item 3 (R145). -/
inductive TripMode where
  | freeze | report
  deriving DecidableEq, Repr

/-- The six configuration items (R165). -/
structure Settings where
  /-- Item 1, µs; 0 sets no limit. -/
  holdTimeout : Nat
  /-- Item 2, code 0 to 4. -/
  tripFilter : Nat
  /-- Item 3. -/
  tripMode : TripMode
  /-- Item 4. -/
  autoResume : Bool
  /-- Item 5, ms. -/
  resumeDelay : Nat
  /-- Item 6. -/
  irqEnable : Bool
  deriving DecidableEq, Repr

/-- The reasons for which an anchor is invalid (R7). -/
inductive AnchorReason where
  | checksum | mismatch | geometry
  deriving DecidableEq, Repr

/-- The events, each with the fields its kind uses (R167). -/
inductive Event where
  | committed (c : ContextId) (sequence : Word) (entries : Nat)
  | contextFailed (c : ContextId) (reason : FailReason) (addr : WordAddr)
  | hostFault (tag : BitVec 3) (reason : FaultReason) (addr : WordAddr)
  | trip
  | supplyLow
  | resumed
  | recoveryDone (sequence : Word) (faults : Nat)
  | anchorInvalid (reason : AnchorReason)
  | formatDone (frames : Nat)
  deriving DecidableEq, Repr

/-! ### The whole machine -/

/-- The array content, byte by byte: the byte of lane l of word w stands under 4 × w + l. Only bytes that differ from
the content of an unwritten byte are listed, by rising address. -/
abbrev Memory := List Host.Cell

/-- The whole machine: every block's state, the array, and the commands that wait (first in, first out). -/
structure State where
  /-- The supply is present. The model's own field: a power loss clears it, power-on reset sets it (assumption log 5). -/
  powered : Bool
  bridge : Bridge
  /-- The page map, by ascending HOME_PAGE (R19, R20). -/
  pageMap : List MapEntry
  /-- The free-frame list, head first (R34). -/
  freeFrames : List Nat
  contexts : ContextTable
  /-- The commit queue, head first (R50). -/
  commitQueue : List ContextId
  engine : Engine
  host : HostPort
  /-- Region descriptors 0 to 7 (R107). -/
  regions : Vector Region 8
  buffer : PostedBuffer
  /-- The transfer in progress on the array port, if any (R136). -/
  port : Option Transfer
  turn : Turn
  monitor : Monitor
  mgmt : MgmtPort
  settings : Settings
  /-- The event queue, oldest first (R168). -/
  events : List Event
  overflow : Bool
  array : Memory
  /-- How many free values have been used: the model's own field (assumption log 4). -/
  freeCount : Nat
  /-- The commands that wait, first in, first out: the model's own field. -/
  pending : List Instr
  deriving DecidableEq, Repr

/-- A context record at reset (R43). -/
def ContextRecord.reset : ContextRecord :=
  { state := .idle, entryCount := 0, lastSequence := 0 }

/-- The context table at reset (R43). -/
def ContextTable.reset : ContextTable := ⟨.reset, .reset, .reset, .reset⟩

/-- The position at the start of a stage. -/
def Position.start : Position :=
  { slotIndex := 0, entry := 0, block := 0, word := 0, pass := .checksum }

/-- The engine at power-on reset and at the warm-reset point (R62, R89). -/
def Engine.reset : Engine :=
  { stage := .idle, lastSequence := 0, record := none, pause := .running, formatFrames := none, formatStep := none,
    pos := .start, sums := ⟨0, 0⟩, copyStore := [], scanWords := [], image0 := none, image1 := none, applyList := [],
    tallyPosition := 0, faultList := [], faultCount := 0 }

/-- The configuration items at power-on reset (R165). -/
def Settings.reset : Settings :=
  { holdTimeout := 2000, tripFilter := 2, tripMode := .freeze, autoResume := true, resumeDelay := 20,
    irqEnable := false }

/-- A disabled region descriptor with zero bounds (R109, R111). -/
def Region.disabled : Region := { kind := none, first := 0, last := 0 }

/-- The machine right after power-on reset (R8), with RST_N and MSEL_N high, SUPPLY_FALL deasserted and HREQ low
(assumption log 6): STARTING, with the gate timer started at the resume delay of 20 ms (R9). -/
def State.reset : State :=
  { powered := true
    bridge := { state := .starting, returnState := none, strapPages := 0, geometry := none, anchorRead := none,
                rstN := true, warmPointPassed := false }
    pageMap := []
    freeFrames := []
    contexts := .reset
    commitQueue := []
    engine := .reset
    host := { hreq := false, hdone := false, hfault := false, hreason := 0, hdata := 0, outstanding := none,
              holdTimer := none }
    regions := .replicate 8 .disabled
    buffer := { entries := [], head := none }
    port := none
    turn := .drain
    monitor := { phase := .gating, level := false, filterTimer := none, delayTimer := .running 20 }
    mgmt := { mselN := true, phase := .idle, code := none, args := [], bits := [], bytes := 0, response := [] }
    settings := .reset
    events := []
    overflow := false
    array := []
    freeCount := 0
    pending := [] }

end Sys2Proof.Machine
end

