-- ==== Sys2Proof/Machine/Array.lean ====
section
/-! DEFINITION. The array behind the array port: what an unwritten byte reads as, byte and word access by lanes, the
canonical form, and a word write torn by a power loss. -/

namespace Sys2Proof.Machine

/-- DESIGN CHOICE (assumption log 2), unsafe. What a byte of the array that nothing has written reads as: FFh, the
erased memory of R7 and R86. The manual gives no array content before the first write. -/
def blankByte : Byte := 0xFF

/-- The byte address of lane `l` of word `w`: lane 0 comes first in byte order (R1). -/
def byteAddr (w : WordAddr) (l : Nat) : Nat := 4 * w.toNat + l

/-- How many byte addresses the 21-bit word address space has (R1). -/
def byteSpace : Nat := 4 * 2 ^ 21

/-- One byte of the array. -/
def readByte : Memory → Nat → Byte
  | [], _ => blankByte
  | (k, v) :: m, a => if k = a then v else readByte m a

/-- One byte written; the canonical form is kept: writing the content of an unwritten byte removes the entry. -/
def writeByte : Memory → Nat → Byte → Memory
  | [], a, b => if b = blankByte then [] else [(a, b)]
  | (k, v) :: m, a, b =>
    if a < k then (if b = blankByte then (k, v) :: m else (a, b) :: (k, v) :: m)
    else if a = k then (if b = blankByte then m else (a, b) :: m)
    else (k, v) :: writeByte m a b

/-- The canonical form: addresses strictly rising and inside the word address space, and no byte that an unwritten
address would read as. -/
abbrev Memory.wf (m : Memory) : Prop :=
  m.Pairwise (fun a b => a.1 < b.1) ∧ ∀ c ∈ m, c.2 ≠ blankByte ∧ c.1 < byteSpace

/-- Lane `l` of a word: lane 0 is bits 7:0 (R1). -/
def laneOf (w : Word) (l : Nat) : Byte := w.extractLsb' (8 * l) 8

/-- A word from its lanes 0 to 3 (R1). -/
def ofLanes (b0 b1 b2 b3 : Byte) : Word := (b3 ++ b2 ++ b1 ++ b0 : BitVec 32)

/-- One word of the array: a read returns all four lanes (R135). -/
def readWord (m : Memory) (a : WordAddr) : Word :=
  ofLanes (readByte m (byteAddr a 0)) (readByte m (byteAddr a 1)) (readByte m (byteAddr a 2)) (readByte m (byteAddr a 3))

/-- Lane `l` written when it is enabled. -/
def writeLane (m : Memory) (a : WordAddr) (w : Word) (lanes : Lanes) (l : Nat) : Memory :=
  if lanes.getLsbD l then writeByte m (byteAddr a l) (laneOf w l) else m

/-- A word write: it changes the enabled lanes of the addressed word and leaves the others as they were (R135). -/
def writeWord (m : Memory) (a : WordAddr) (w : Word) (lanes : Lanes) : Memory :=
  writeLane (writeLane (writeLane (writeLane m a w lanes 0) a w lanes 1) a w lanes 2) a w lanes 3

/-- The bits of a word that lie in the enabled lanes. -/
def laneMask (lanes : Lanes) : Word :=
  ofLanes (if lanes.getLsbD 0 then 0xFF else 0) (if lanes.getLsbD 1 then 0xFF else 0)
    (if lanes.getLsbD 2 then 0xFF else 0) (if lanes.getLsbD 3 then 0xFF else 0)

/-- A word torn by a power loss: it differs from the word being written in some bits of the enabled lanes (a word that
does not differ is written whole, R84), and which bits is the free value `bits` (assumption log 4). -/
def tornWord (data : Word) (lanes : Lanes) (bits : Word) : Word :=
  data ^^^ (if bits &&& laneMask lanes = 0 then laneMask lanes else bits &&& laneMask lanes)

/-- What a power loss makes of a word write in progress (row POWER_LOSS; R80, R136). -/
def cutWrite (m : Memory) (t : Transfer) (n : Nat) : LossOutcome → Memory
  | .whole => writeWord m t.addr t.data t.lanes
  | .torn => writeWord m t.addr (tornWord t.data t.lanes (Config.tornBits n)) t.lanes
  | .unreached => m

end Sys2Proof.Machine
end

