-- ==== Sys2Proof/Machine/Checksum.lean ====
section
/-! DEFINITION. The running two-sum over byte streams (R86) and the three kinds of checksum formed with it (R87). -/

namespace Sys2Proof.Machine

/-- The sums at the start of a stream (R86). -/
def Sums.zero : Sums := ⟨0, 0⟩

/-- One byte of the stream (R86). -/
def feedByte (s : Sums) (x : Byte) : Sums :=
  { first := (s.first + x.toNat) % 65535, second := (s.second + (s.first + x.toNat) % 65535) % 65535 }

/-- A stream of bytes (R86). -/
def feedBytes (s : Sums) (xs : List Byte) : Sums := xs.foldl feedByte s

/-- The byte stream of a word: its lanes in order 0 to 3 (R1). -/
def wordBytes (w : Word) : List Byte := [laneOf w 0, laneOf w 1, laneOf w 2, laneOf w 3]

/-- The four bytes of a word, in lane order. -/
def feedWord (s : Sums) (w : Word) : Sums := feedBytes s (wordBytes w)

/-- A stream formed from words in the order given. -/
def feedWords (s : Sums) (ws : List Word) : Sums := ws.foldl feedWord s

/-- The checksum at the end of a stream: second sum × 65536 + first sum (R86). -/
def Sums.checksum (s : Sums) : Word := BitVec.ofNat 32 (s.second * 65536 + s.first)

/-- The checksum of a stream of words. -/
def checksumOf (ws : List Word) : Word := (feedWords .zero ws).checksum

end Sys2Proof.Machine
end

