-- ==== Sys2Proof/Machine/Layout.lean ====
section
/-! DEFINITION. Where things stand in the array: pages, blocks, the partition, the anchor, the journal slots and the words
stored in them (R1 to R7, R69, R83, R179), and the order of blocks in a block set. -/

namespace Sys2Proof.Machine

/-! ### Pages and blocks (R1) -/

/-- The page number of a word address (R1). -/
def pageOf (a : WordAddr) : Nat := a.toNat / 128

/-- The word of the page (R1). -/
def wordInPage (a : WordAddr) : Nat := a.toNat % 128

/-- The block number within the page (R1). -/
def blockOf (a : WordAddr) : Nat := a.toNat % 128 / 8

/-- The block of the array a word lies in, counted over all pages: what the conflict test compares (R115, R133). -/
def arrayBlock (a : WordAddr) : Nat := a.toNat / 8

/-- Word `w` of page `p` (R1). -/
def wordAt (p w : Nat) : WordAddr := BitVec.ofNat 21 (p * 128 + w)

/-- Word `i` of block `b` of page `p` (R1). -/
def blockWord (p b i : Nat) : WordAddr := wordAt p (b * 8 + i)

/-- Word `i` of the block that holds `a` (R130). -/
def sameBlockWord (a : WordAddr) (i : Nat) : WordAddr := BitVec.ofNat 21 (a.toNat / 8 * 8 + i)

/-- Block `b` is in the set. -/
def hasBlock (bs : BlockSet) (b : Nat) : Bool := bs.getLsbD b

/-- The set with block `b` added (R31). -/
def addToBlocks (bs : BlockSet) (b : Nat) : BlockSet := bs ||| BitVec.ofNat 16 (2 ^ b)

/-- The blocks of a set in ascending order. -/
def blockList (bs : BlockSet) : List Nat := (List.range 16).filter (hasBlock bs)

/-- The lowest block of a set. -/
def firstBlock (bs : BlockSet) : Option Nat := (blockList bs).head?

/-- The lowest block of a set above `b`. -/
def nextBlock (bs : BlockSet) (b : Nat) : Option Nat := (blockList bs).find? (fun x => b < x)

/-! ### The partition (R2 to R4) -/

/-- A for the value on SIZE: 128 × 2^n pages (R2). -/
def sizePages (n : BitVec 3) : Nat := 128 * 2 ^ n.toNat

/-- A frame count is acceptable for an array of A pages (R4). -/
def frameCountAcceptable (arrayPages frames : Nat) : Bool :=
  decide (16 ≤ frames ∧ frames ≤ 256 ∧ 64 + 9 + frames ≤ arrayPages)

/-- The geometry of an array of A pages with F frames: H = A − 9 − F (R3). -/
def geometryOf (arrayPages frames : Nat) : Geometry :=
  { arrayPages, frames, homePages := arrayPages - 9 - frames }

/-- The frames of a geometry in ascending order (R35). -/
def allFrames (g : Geometry) : List Nat := List.range g.frames

/-- The header page of a slot (R3, R64). -/
def headerPage (arrayPages : Nat) : Slot → Nat
  | .slot0 => arrayPages - 9
  | .slot1 => arrayPages - 5

/-- Word `w` of the header page of a slot. -/
def headerWord (arrayPages : Nat) (slot : Slot) (w : Nat) : WordAddr := wordAt (headerPage arrayPages slot) w

/-- The mark word of a slot: header word 8 (R64). -/
def markAddr (arrayPages : Nat) (slot : Slot) : WordAddr := headerWord arrayPages slot 8

/-- The retire word of a slot: header word 16 (R64). -/
def retireAddr (arrayPages : Nat) (slot : Slot) : WordAddr := headerWord arrayPages slot 16

/-- Word `j` of the entry area of a slot: entry page j div 128, word j mod 128 (R69). -/
def areaWord (arrayPages : Nat) (slot : Slot) (j : Nat) : WordAddr :=
  wordAt (headerPage arrayPages slot + 1 + j / 128) (j % 128)

/-- Word `w` of the anchor page, the last page of the array (R3, R6). -/
def anchorAddr (arrayPages w : Nat) : WordAddr := wordAt (arrayPages - 1) w

/-- The slot of a record with this sequence number: sequence mod 2 (R64). -/
def slotOf (sequence : Word) : Slot := if sequence.toNat % 2 = 0 then .slot0 else .slot1

/-! ### The anchor (R6, R7) -/

/-- Words 0 to 4 of the anchor as FORMAT writes them (R6). -/
def anchorWords (arrayPages frames : Nat) : List Word :=
  let g := geometryOf arrayPages frames
  let ws := [1, BitVec.ofNat 32 g.arrayPages, BitVec.ofNat 32 g.frames, BitVec.ofNat 32 g.homePages]
  ws ++ [checksumOf ws]

/-- What the anchor test gives (R7). -/
inductive AnchorVerdict where
  | valid (g : Geometry)
  | invalid (reason : AnchorReason)
  deriving DecidableEq, Repr

/-- The anchor test: three steps in order, invalid with the reason of the first that fails (R7). -/
def testAnchor (strapPages : Nat) (ws : List Word) : AnchorVerdict :=
  let w := fun i => ws.getD i 0
  if w 4 ≠ checksumOf [w 0, w 1, w 2, w 3] ∨ w 0 ≠ 1 then .invalid .checksum
  else if (w 1).toNat ≠ strapPages then .invalid .mismatch
  else if 16 ≤ (w 2).toNat ∧ (w 2).toNat ≤ 256 ∧ (w 3).toNat + 9 + (w 2).toNat = (w 1).toNat ∧ 64 ≤ (w 3).toNat then
    .valid { arrayPages := (w 1).toNat, frames := (w 2).toNat, homePages := (w 3).toNat }
  else .invalid .geometry

/-! ### The words of a journal record (R68, R69, R179) -/

/-- The three entry words of an item (R179). -/
def itemWords (it : RecordItem) : List Word :=
  [BitVec.ofNat 32 (it.frame % 256 * 65536 + it.homePage % 65536), it.written.zeroExtend 32, it.checksum.getD 0]

/-- An item from its three entry words as read back (R89, R179). -/
def itemOfWords (w0 w1 w2 : Word) : RecordItem :=
  { homePage := w0.toNat % 65536, frame := w0.toNat / 65536 % 256, written := w1.truncate 16, checksum := some w2 }

/-- The items of an entry area, three words each (R179). -/
def itemsOfWords : List Word → List RecordItem
  | w0 :: w1 :: w2 :: ws => itemOfWords w0 w1 w2 :: itemsOfWords ws
  | _ => []

/-- The number of a context, 1 to 4. -/
def ContextId.number : ContextId → Nat
  | .c1 => 1
  | .c2 => 2
  | .c3 => 3
  | .c4 => 4

/-- The context with this number, if any. -/
def contextOfNumber : Nat → Option ContextId
  | 1 => some .c1
  | 2 => some .c2
  | 3 => some .c3
  | 4 => some .c4
  | _ => none

/-- The header words SEQUENCE, CONTEXT and ENTRY_COUNT (R83). -/
def headerWords (r : CurrentRecord) : List Word :=
  [r.sequence, BitVec.ofNat 32 ((r.context.map ContextId.number).getD 0), BitVec.ofNat 32 r.entryCount]

/-- Every entry word of a record, item 0 first (R69). -/
def entryWords (r : CurrentRecord) : List Word := r.items.flatMap itemWords

/-- The record checksum of a record (R68). -/
def recordChecksumOf (r : CurrentRecord) : Word := checksumOf (headerWords r ++ entryWords r)

/-- The writes of WRITE in order: mark word 0, header words 0 to 3, then the entry area (R69). -/
def journalWrites (arrayPages : Nat) (r : CurrentRecord) : List (WordAddr × Word) :=
  (markAddr arrayPages r.slot, 0)
    :: ((headerWords r ++ [r.recordChecksum.getD 0]).zipIdx.map fun (w, i) => (headerWord arrayPages r.slot i, w))
    ++ (entryWords r).zipIdx.map fun (w, j) => (areaWord arrayPages r.slot j, w)

/-- The four slot-word writes of FORMAT step 2 (R15). -/
def invalidateWrites (arrayPages : Nat) : List (WordAddr × Word) :=
  [(markAddr arrayPages .slot0, 0), (retireAddr arrayPages .slot0, 0),
   (markAddr arrayPages .slot1, 0), (retireAddr arrayPages .slot1, 0)]

/-- The five anchor-word writes of FORMAT step 3 (R15). -/
def anchorWrites (arrayPages frames : Nat) : List (WordAddr × Word) :=
  (anchorWords arrayPages frames).zipIdx.map fun (w, i) => (anchorAddr arrayPages i, w)

/-! ### A slot as SCAN reads it (R84, R90) -/

/-- The header words SCAN reads, in order (R90). -/
def scanHeaderOffsets : List Nat := [0, 1, 2, 3, 8, 16]

/-- Tests 1 to 3 of the marked test on the six header words as SCAN reads them (R84). -/
def headerTests (ws : List Word) : Bool :=
  let w := fun i => ws.getD i 0
  decide (w 0 ≠ 0 ∧ w 4 = w 0 ∧ 1 ≤ (w 2).toNat ∧ (w 2).toNat ≤ 128)

/-- How many words of a slot SCAN reads, once its six header words are known (R90). -/
def scanLength (ws : List Word) : Nat := if headerTests ws then 6 + 3 * (ws.getD 2 0).toNat else 6

/-- The image of a slot from the words SCAN has read: the six header words, then the entry words (R84, R85, R90). -/
def imageOf (ws : List Word) : SlotImage :=
  let w := fun i => ws.getD i 0
  if headerTests ws && decide (w 3 = checksumOf ([w 0, w 1, w 2] ++ ws.drop 6)) then
    if w 5 = w 0 then .retired (w 0) (w 2).toNat
    else .live (w 0) (w 2).toNat (itemsOfWords (ws.drop 6)) (w 3)
  else .unmarked

/-- The sequence of a marked slot (R88). -/
def SlotImage.sequence? : SlotImage → Option Word
  | .unmarked => none
  | .retired q _ => some q
  | .live q _ _ _ => some q

/-- The slot is live (R85). -/
def SlotImage.isLive : SlotImage → Bool
  | .live _ _ _ _ => true
  | _ => false

end Sys2Proof.Machine
end

