-- ==== Sys2Proof/Machine/PageMap.lean ====
section
/-! DEFINITION. The page map and the free-frame list: lookups, walks, claims and views (chapter 2; R113, R114), and the
context table by number (R41). -/

namespace Sys2Proof.Machine

/-! ### The context table -/

/-- The record of a context. -/
def ContextTable.get (t : ContextTable) : ContextId → ContextRecord
  | .c1 => t.c1
  | .c2 => t.c2
  | .c3 => t.c3
  | .c4 => t.c4

/-- The table with the record of one context replaced. -/
def ContextTable.set (t : ContextTable) (c : ContextId) (r : ContextRecord) : ContextTable :=
  match c with
  | .c1 => { t with c1 := r }
  | .c2 => { t with c2 := r }
  | .c3 => { t with c3 := r }
  | .c4 => { t with c4 := r }

/-- The contexts in ascending number. -/
def allContexts : List ContextId := [.c1, .c2, .c3, .c4]

/-- The context a host tag or an argument byte names, if it names one (R102, R173). -/
def contextOf {w : Nat} (b : BitVec w) : Option ContextId := contextOfNumber b.toNat

/-! ### Lookups and walks (R20, R22) -/

/-- The entry for a home page (R20). -/
def lookupPage (m : List MapEntry) (p : Nat) : Option MapEntry := m.find? (fun e => e.homePage = p)

/-- The entry is held by context `c`. -/
def ownedBy (c : ContextId) (e : MapEntry) : Bool := decide (e.state = .context c)

/-- The record position of an entry of the current record, if it is one (R19). -/
def MapEntry.position? (e : MapEntry) : Option Nat :=
  match e.state with
  | .context _ => none
  | .pending n => some n
  | .copied n => some n

/-- The entry belongs to the current record: PENDING or COPIED. -/
def inRecord (e : MapEntry) : Bool := e.position?.isSome

/-- The first walk: the entries of `c`, in ascending HOME_PAGE (R22). -/
def entriesOf (m : List MapEntry) (c : ContextId) : List MapEntry := m.filter (ownedBy c)

/-- An entry put in its place in a list by ascending record position. -/
def insertByPosition (e : MapEntry) : List MapEntry → List MapEntry
  | [] => [e]
  | x :: xs => if e.position?.getD 0 ≤ x.position?.getD 0 then e :: x :: xs else x :: insertByPosition e xs

/-- The second walk: the entries of the record, in ascending RECORD_POSITION (R22). -/
def entriesOfRecord (m : List MapEntry) : List MapEntry := (m.filter inRecord).foldr insertByPosition []

/-! ### The claims (R21) -/

/-- An entry put in its place by ascending HOME_PAGE. -/
def insertEntry (e : MapEntry) : List MapEntry → List MapEntry
  | [] => [e]
  | x :: xs => if e.homePage < x.homePage then e :: x :: xs else x :: insertEntry e xs

/-- One entry changed. -/
def updatePage (m : List MapEntry) (p : Nat) (f : MapEntry → MapEntry) : List MapEntry :=
  m.map fun e => if e.homePage = p then f e else e

/-- The Add block claim (R31). -/
def addBlockClaim (m : List MapEntry) (p b : Nat) : List MapEntry :=
  updatePage m p fun e => { e with written := addToBlocks e.written b }

/-- The Mark claim for `c`, positions from `n` up in the order of the first walk (R23). -/
def markClaim (c : ContextId) : Nat → List MapEntry → List MapEntry
  | _, [] => []
  | n, e :: es =>
    if ownedBy c e then { e with state := .pending n } :: markClaim c (n + 1) es else e :: markClaim c n es

/-- An entry made COPIED (R24). -/
def MapEntry.toCopied (e : MapEntry) : MapEntry :=
  match e.state with
  | .pending n => { e with state := .copied n }
  | _ => e

/-- The Copied claim for a home page (R24). -/
def copiedClaim (m : List MapEntry) (p : Nat) : List MapEntry := updatePage m p MapEntry.toCopied

/-! ### The page map against the geometry -/

/-- F of the geometry; 0 while it is absent (R5). -/
def State.frames (s : State) : Nat := (s.bridge.geometry.map Geometry.frames).getD 0

/-- H of the geometry; 0 while it is absent (R5). -/
def State.homePages (s : State) : Nat := (s.bridge.geometry.map Geometry.homePages).getD 0

/-- A of the geometry; 0 while it is absent (R5). -/
def State.arrayPages (s : State) : Nat := (s.bridge.geometry.map Geometry.arrayPages).getD 0

/-- The word of frame `k` at the place of home word `w`: frame k is page H + k (R3, R113). -/
def State.frameWord (s : State) (k : Nat) (w : WordAddr) : WordAddr := wordAt (s.homePages + k) (wordInPage w)

/-- The committed view of a word address (R113). -/
def State.committedView (s : State) (w : WordAddr) : WordAddr :=
  match lookupPage s.pageMap (pageOf w) with
  | some e =>
    match e.state with
    | .pending _ => if hasBlock e.written (blockOf w) then s.frameWord e.frame w else w
    | _ => w
  | none => w

/-- The context view of `c` at a word address (R114). -/
def State.contextView (s : State) (c : ContextId) (w : WordAddr) : WordAddr :=
  match lookupPage s.pageMap (pageOf w) with
  | some e => if ownedBy c e && hasBlock e.written (blockOf w) then s.frameWord e.frame w else s.committedView w
  | none => s.committedView w

/-- The record of a context set (R41). -/
def State.setContext (s : State) (c : ContextId) (r : ContextRecord) : State :=
  { s with contexts := s.contexts.set c r }

/-- A granted allocation: the entry for page `p` with frame `k` and block `b`, the frame off the head of the list, the
owner's count one more (R30). -/
def State.allocate (s : State) (c : ContextId) (k p b : Nat) : State :=
  let r := s.contexts.get c
  { s with
    pageMap := insertEntry { homePage := p, frame := k, state := .context c, written := addToBlocks 0 b } s.pageMap
    freeFrames := s.freeFrames.tail
    contexts := s.contexts.set c { r with entryCount := r.entryCount + 1 } }

/-- The Abort claim at the map: every entry of `c` removed, its frames to the tail of the list in ascending HOME_PAGE
(R33). -/
def State.abortClaim (s : State) (c : ContextId) : State :=
  { s with
    pageMap := s.pageMap.filter (fun e => !ownedBy c e)
    freeFrames := s.freeFrames ++ (entriesOf s.pageMap c).map MapEntry.frame }

/-- The Retire claim: every entry of the record removed, its frames to the tail of the list in record order (R25). -/
def State.retireClaim (s : State) : State :=
  { s with
    pageMap := s.pageMap.filter (fun e => !inRecord e)
    freeFrames := s.freeFrames ++ (entriesOfRecord s.pageMap).map MapEntry.frame }

end Sys2Proof.Machine
end

