-- ==== Sys2Proof/Machine/Flags.lean ====
section
/-! DEFINITION. The codes of named values (R175), event records and the event queue with its overflow flag (R167, R168,
R178), and the output lines that follow the state: IRQ_N (R171) and the array port (R135). -/

namespace Sys2Proof.Machine

/-! ### Codes (R175) -/

/-- Bridge state codes. -/
def BridgeState.code : BridgeState → Nat
  | .starting => 1
  | .unformatted => 2
  | .recovering => 3
  | .serving => 4
  | .formatting => 5
  | .frozen => 6
  | .resetting => 7

/-- Context state codes. -/
def ContextState.code : ContextState → Nat
  | .idle => 0
  | .opened => 1
  | .failed _ _ => 2
  | .queued => 3
  | .committing => 4

/-- Engine stage codes. -/
def Stage.code : Stage → Nat
  | .idle => 0
  | .drain => 1
  | .sum => 2
  | .write => 3
  | .mark => 4
  | .copy => 5
  | .retire => 6
  | .scan => 7
  | .apply => 8
  | .format => 9

/-- Page-map entry state codes; 0 is no entry. -/
def EntryState.code : EntryState → Nat
  | .context _ => 1
  | .pending _ => 2
  | .copied _ => 3

/-- Region kind codes; 0 is NONE. -/
def RegionKind.code : RegionKind → Nat
  | .readOnly => 1
  | .contextOnly => 2
  | .directOnly => 3

/-- Anchor reason codes. -/
def AnchorReason.code : AnchorReason → Nat
  | .checksum => 1
  | .mismatch => 2
  | .geometry => 3

/-- Host fault reason codes. -/
def FaultReason.code : FaultReason → Nat
  | .outOfRange => 1
  | .protectedPage => 2
  | .badTag => 3
  | .contextClosed => 4
  | .contextFailed => 5
  | .conflict => 6
  | .poolExhausted => 7
  | .contextFull => 8
  | .regionDenied => 9
  | .notReady => 10
  | .frozen => 11
  | .holdTimeout => 12

/-- The host fault of the same name as an allocation failure (R53). -/
def FailReason.fault : FailReason → FaultReason
  | .poolExhausted => .poolExhausted
  | .contextFull => .contextFull

/-- The faults that queue HOST_FAULT (R126). -/
def FaultReason.reportable : FaultReason → Bool
  | .outOfRange | .protectedPage | .badTag | .contextClosed | .contextFailed | .conflict | .regionDenied
  | .holdTimeout => true
  | .contextFull | .poolExhausted | .notReady | .frozen => false

/-! ### Bytes of responses -/

/-- A one-byte field. -/
def byteField (n : Nat) : List Byte := [BitVec.ofNat 8 n]

/-- A two-byte field, most significant byte first (R173). -/
def twoBytes (n : Nat) : List Byte := [BitVec.ofNat 8 (n / 256), BitVec.ofNat 8 n]

/-- A four-byte field, most significant byte first (R173). -/
def fourBytes (n : Nat) : List Byte :=
  [BitVec.ofNat 8 (n / 16777216), BitVec.ofNat 8 (n / 65536), BitVec.ofNat 8 (n / 256), BitVec.ofNat 8 n]

/-! ### Events -/

/-- The five fields of an event record; a field its kind does not use reads 0 (R167). -/
structure EventRecord where
  kind : Nat
  context : Nat
  reason : Nat
  count : Nat
  value : Nat
  deriving DecidableEq, Repr

/-- The record of an event (R167, R175). -/
def Event.record : Event → EventRecord
  | .committed c q n => ⟨1, c.number, 0, n, q.toNat⟩
  | .contextFailed c r a => ⟨2, c.number, r.fault.code, 0, a.toNat⟩
  | .hostFault t r a => ⟨3, t.toNat, r.code, 0, a.toNat⟩
  | .trip => ⟨4, 0, 0, 0, 0⟩
  | .supplyLow => ⟨5, 0, 0, 0, 0⟩
  | .resumed => ⟨6, 0, 0, 0, 0⟩
  | .recoveryDone q n => ⟨7, 0, 0, n, q.toNat⟩
  | .anchorInvalid r => ⟨8, 0, r.code, 0, 0⟩
  | .formatDone f => ⟨9, 0, 0, 0, f⟩

/-- The eight bytes of an event record (R178). -/
def Event.bytes (e : Event) : List Byte :=
  let r := e.record
  byteField r.kind ++ byteField r.context ++ byteField r.reason ++ byteField r.count ++ fourBytes r.value

/-- The capacity of the event queue (R168). -/
def eventCapacity : Nat := 16

/-- An event occurs: its record joins the tail, or is discarded with the overflow flag set when the queue holds 16
(R168). -/
def pushEvent (s : State) (e : Event) : State :=
  if s.events.length < eventCapacity then { s with events := s.events ++ [e] } else { s with overflow := true }

/-! ### Output lines -/

/-- The level of IRQ_N: low (`false`) while the interrupt enable is on and the event queue holds a record; released
otherwise (R171). -/
def State.irqN (s : State) : Bool := !(s.powered && s.settings.irqEnable && !s.events.isEmpty)

/-- AREQ: raised from the start of a transfer to its completion (R135). -/
def State.areq (s : State) : Bool := s.port.isSome

/-- AADDR while AREQ is raised (R135). -/
def State.aaddr (s : State) : Option WordAddr := s.port.map Transfer.addr

/-- AWRITE while AREQ is raised (R135). -/
def State.awrite (s : State) : Option Bool := s.port.map Transfer.isWrite

/-- ALANE while AREQ is raised (R135). -/
def State.alane (s : State) : Option Lanes := s.port.map Transfer.lanes

/-- ADATA as the bridge drives it in a write (R135). -/
def State.adata (s : State) : Option Word := s.port.bind fun t => if t.isWrite then some t.data else none

end Sys2Proof.Machine
end

