-- ==== Sys2Proof/Machine/Operands.lean ====
section
/-! DEFINITION. The operands of management commands: codes, argument bytes and the decode point (R156, R157, R173), the
status byte and the response records (R161, R174, R176, R177), the configuration items by number (R165), and the bits a
frame takes and shifts out (R156, R158). -/

namespace Sys2Proof.Machine

/-! ### Command codes (R157, R173) -/

/-- How many argument bytes follow a command code; `none` for a code that names no command (R157, R173). -/
def argumentCount (code : Byte) : Option Nat :=
  match code.toNat with
  | 0x01 => some 0   -- STATUS
  | 0x02 => some 1   -- READ_CONTEXT
  | 0x03 => some 2   -- LOOKUP
  | 0x04 => some 1   -- READ_EVENTS
  | 0x05 => some 0   -- READ_FAULTS
  | 0x06 => some 1   -- GET_CONFIG
  | 0x07 => some 1   -- GET_REGION
  | 0x10 => some 1   -- OPEN
  | 0x11 => some 1   -- COMMIT
  | 0x12 => some 1   -- ABORT
  | 0x20 => some 3   -- SET_CONFIG
  | 0x21 => some 6   -- SET_REGION
  | 0x22 => some 0   -- CLEAR_FAULTS
  | 0x30 => some 2   -- FORMAT
  | 0x31 => some 0   -- RESUME
  | 0x3F => some 0   -- RESTART
  | _ => none

/-- The high byte of a two-byte argument (R173). -/
def highByte (v : BitVec 16) : Byte := v.extractLsb' 8 8

/-- The low byte of a two-byte argument (R173). -/
def lowByte (v : BitVec 16) : Byte := v.extractLsb' 0 8

/-! ### Status codes (R161, R174) -/

/-- The six statuses. -/
inductive Status where
  | accepted | badCommand | badArgument | wrongState | tooLate | exhausted
  deriving DecidableEq, Repr

/-- The status byte (R174). -/
def Status.byte : Status → Byte
  | .accepted => 0
  | .badCommand => 1
  | .badArgument => 2
  | .wrongState => 3
  | .tooLate => 4
  | .exhausted => 5

/-! ### Bits and bytes of a frame (R156) -/

/-- The bits of a byte on MDI or MDO, most significant bit first. -/
def msbFirst (b : Byte) : List Bool := (List.range 8).map fun i => b.getMsbD i

/-- The byte whose bits, most significant first, are these eight. -/
def byteOfBits (bs : List Bool) : Byte := BitVec.ofNat 8 (bs.foldl (fun n b => 2 * n + b.toNat) 0)

/-- The byte in progress can complete as `b`: the bits taken from MDI so far are the first of its bits. -/
def MgmtPort.completesAs (m : MgmtPort) (b : Byte) : Bool := m.bits.isPrefixOf (msbFirst b)

/-- The framing after a byte completes: one byte more, and no bit of the next one. -/
def MgmtPort.nextByte (m : MgmtPort) : MgmtPort := { m with bits := [], bytes := m.bytes + 1 }

/-! ### Decode and answer -/

/-- The frame stands at the decode point of this command: the byte that completes now is byte 0, holding the code, for
a command with no arguments, or the last of the argument bytes `args`, the earlier ones having been received (R157). -/
def atDecode (s : State) (code : Byte) (args : List Byte) : Bool :=
  s.powered &&
    (if args = [] then decide (s.mgmt.phase = .command)
     else decide (s.mgmt.phase = .arguments ∧ s.mgmt.code = some code ∧ s.mgmt.args = args.dropLast)) &&
    s.mgmt.completesAs (args.getLast?.getD code)

/-- What a decode gives: the state it leaves, the status, and the response data. -/
structure Answer where
  state : State
  status : Status
  data : List Byte

/-- The command is accepted, with its effect and its response data. -/
def accepted (s : State) (data : List Byte := []) : Answer := ⟨s, .accepted, data⟩

/-- The command is refused: no state changes and there is no response data (R158, R161). -/
def refused (s : State) (st : Status) : Answer := ⟨s, st, []⟩

/-- The frame after a decode: RESPONSE, with the status byte and the response held to be shifted out (R156, R158). -/
def respond (s : State) (code : Byte) (args : List Byte) (response : List Byte) : State :=
  { s with mgmt := { s.mgmt.nextByte with phase := .response, code := some code, args := args, response := response } }

/-- The decode of a command (R157, R162): at its decode point the command takes effect and is answered. A command whose
decode point the frame does not stand at is not decoded (assumption log 7). -/
def decodeCommand (s : State) (code : Byte) (args : List Byte) (effect : State → Answer) : State :=
  if atDecode s code args then
    let a := effect s
    respond a.state code args (a.status.byte :: a.data)
  else s

/-- The byte the bridge shifts out as byte `i` of the frame in progress (R158): 00h before the status byte, then the
status byte and the response, then 00h. There is none without a frame. -/
def State.mdoByte (s : State) (i : Nat) : Option Byte :=
  match s.mgmt.phase with
  | .idle => none
  | .command | .arguments => some 0
  | .response | .ignoring =>
    some (if i < 1 + s.mgmt.args.length then 0 else s.mgmt.response.getD (i - (1 + s.mgmt.args.length)) 0)

/-- The level on MDO, `none` where it is not driven: while MSEL_N is high and without the supply. In a frame it is the bit
of the byte being shifted out that stands at the place of the next bit to be taken, most significant first: from the fall
of MSEL_N for the first, and from the falling edge of MCLK after each bit taken (R156, R158). -/
def State.mdo (s : State) : Option Bool :=
  if s.powered = false ∨ s.mgmt.mselN = true then none
  else
    match s.mdoByte s.mgmt.bytes with
    | some b => some (b.getMsbD s.mgmt.bits.length)
    | none => some (Config.mdoBeforeFrame s.freeCount)

/-! ### Configuration items (R165) -/

/-- The value of an item, if the number is known (R166). -/
def Settings.item (c : Settings) (i : Nat) : Option Nat :=
  match i with
  | 1 => some c.holdTimeout
  | 2 => some c.tripFilter
  | 3 => some (if c.tripMode = .freeze then 0 else 1)
  | 4 => some (if c.autoResume then 1 else 0)
  | 5 => some c.resumeDelay
  | 6 => some (if c.irqEnable then 1 else 0)
  | _ => none

/-- The items with one set; `none` where the item is unknown or the value outside its range (R165). -/
def Settings.setItem (c : Settings) (i v : Nat) : Option Settings :=
  match i with
  | 1 => if v ≤ 65535 then some { c with holdTimeout := v } else none
  | 2 => if v ≤ 4 then some { c with tripFilter := v } else none
  | 3 => if v ≤ 1 then some { c with tripMode := if v = 0 then .freeze else .report } else none
  | 4 => if v ≤ 1 then some { c with autoResume := decide (v = 1) } else none
  | 5 => if 1 ≤ v ∧ v ≤ 255 then some { c with resumeDelay := v } else none
  | 6 => if v ≤ 1 then some { c with irqEnable := decide (v = 1) } else none
  | _ => none

/-- The filter time in µs of the trip filter code (R144). -/
def Settings.filterTime (c : Settings) : Nat :=
  match c.tripFilter with
  | 0 => 0
  | 1 => 2
  | 2 => 4
  | 3 => 8
  | _ => 16

/-! ### Response records -/

/-- The values of a list in `n` places, those beyond its end 0. -/
def padTo (n : Nat) (xs : List Nat) : List Nat := (xs ++ List.replicate n 0).take n

/-- The status record, 29 bytes (R164, R176). -/
def statusRecord (s : State) : List Byte :=
  byteField s.bridge.state.code
    ++ byteField ((s.bridge.returnState.map BridgeState.code).getD 0)
    ++ byteField (if s.monitor.level then 1 else 0)
    ++ allContexts.flatMap (fun c => byteField (s.contexts.get c).state.code)
    ++ byteField s.commitQueue.length
    ++ (padTo 4 (s.commitQueue.map ContextId.number)).flatMap byteField
    ++ byteField s.engine.stage.code
    ++ twoBytes s.freeFrames.length
    ++ byteField s.buffer.entries.length
    ++ fourBytes s.engine.lastSequence.toNat
    ++ byteField s.events.length
    ++ byteField (if s.overflow then 1 else 0)
    ++ byteField s.engine.faultCount
    ++ twoBytes s.arrayPages ++ twoBytes s.frames ++ twoBytes s.homePages

/-- QUEUE_POSITION: 1 to 4 counting from the head, 0 for a context that is not in the queue (R59). -/
def queuePosition (q : List ContextId) (c : ContextId) : Nat :=
  match q.findIdx? (· = c) with
  | some i => i + 1
  | none => 0

/-- The context record, 13 bytes (R59, R177). -/
def contextRecordBytes (s : State) (c : ContextId) : List Byte :=
  let r := s.contexts.get c
  byteField c.number
    ++ byteField r.state.code
    ++ byteField r.entryCount
    ++ byteField (queuePosition s.commitQueue c)
    ++ (match r.state with
        | .failed reason addr => byteField reason.fault.code ++ fourBytes addr.toNat
        | _ => byteField 0 ++ fourBytes 0)
    ++ fourBytes r.lastSequence.toNat

/-- The lookup record of page `p`, 9 bytes (R40, R177). -/
def lookupRecord (s : State) (p : Nat) : List Byte :=
  match lookupPage s.pageMap p with
  | none => byteField 0 ++ twoBytes p ++ byteField 0 ++ byteField 0 ++ byteField 0 ++ twoBytes 0 ++ byteField 0
  | some e =>
    byteField 1 ++ twoBytes p ++ byteField e.state.code
      ++ byteField (match e.state with | .context c => c.number | _ => 0)
      ++ byteField e.frame ++ twoBytes e.written.toNat ++ byteField (e.position?.getD 0)

/-- The fault record, 18 bytes (R99, R177). -/
def faultRecord (s : State) : List Byte :=
  byteField s.engine.faultCount ++ byteField (min s.engine.faultCount 8)
    ++ (padTo 8 s.engine.faultList).flatMap twoBytes

/-- The region record of descriptor `i`, 7 bytes (R110, R177). -/
def regionRecord (i : Nat) (r : Region) : List Byte :=
  byteField i ++ byteField (if r.kind.isSome then 1 else 0) ++ twoBytes r.first ++ twoBytes r.last
    ++ byteField ((r.kind.map RegionKind.code).getD 0)

/-- The descriptor of an index from 0 to 7. -/
def State.region? (s : State) (i : Nat) : Option Region := s.regions[i]?

end Sys2Proof.Machine
end

