-- ==== Sys2Proof/Machine/Access.lean ====
section
/-! DEFINITION. The host access path as shared operations: the classification of a request (R104 to R120), completion and
host faults (R102, R126), holds and their releases (R121, R122), and the completion of an outstanding request by a change
of bridge state (R124). -/

namespace Sys2Proof.Machine

/-! ### The posted-write buffer -/

/-- The capacity of the posted-write buffer (R127). -/
def bufferCapacity : Nat := 8

/-- What a new head carries: the first position of its kind, not begun, with an empty fill store (R128). -/
def freshHead (e : PostedEntry) : DrainHead :=
  { pos := if e.fill.isSome then .fillRead 0 else .write, begun := false, store := [] }

/-- The buffer with these entries and a new head (R128). -/
def bufferFrom (es : List PostedEntry) : PostedBuffer := { entries := es, head := es.head?.map freshHead }

/-- An entry joins the buffer at its tail; it becomes the head at once when the buffer was empty (R129). -/
def appendPosted (b : PostedBuffer) (e : PostedEntry) : PostedBuffer :=
  match b.entries with
  | [] => bufferFrom [e]
  | _ :: _ => { b with entries := b.entries ++ [e] }

/-- An entry conflicts with a read when the word it writes lies in the block of the resolved word (R115, R133). -/
def conflicts (b : PostedBuffer) (a : WordAddr) : Bool := b.entries.any fun e => arrayBlock e.addr == arrayBlock a

/-- The buffer holds an entry tagged `c` (R66). -/
def holdsTag (b : PostedBuffer) (c : ContextId) : Bool := b.entries.any fun e => decide (e.tag = some c)

/-! ### Classification (R104) -/

/-- The request is a write. -/
def Request.isWrite (r : Request) : Bool :=
  match r.op with
  | .read => false
  | .write _ _ => true

/-- Step 1: the bridge state (R105). -/
def stateStep (s : State) : Option FaultReason :=
  match s.bridge.state with
  | .serving | .unformatted => none
  | .frozen => some .frozen
  | .starting | .recovering | .formatting | .resetting => some .notReady

/-- Step 2: the tag (R106). -/
def tagStep (r : Request) : Option FaultReason := if r.tag.toNat ≤ 4 then none else some .badTag

/-- Step 3: the address against the range of the bridge state (R106). -/
def addressStep (s : State) (r : Request) : Option FaultReason :=
  if s.bridge.state = .unformatted then
    if s.bridge.strapPages * 128 ≤ r.addr.toNat then some .outOfRange
    else if (s.bridge.strapPages - 1) * 128 ≤ r.addr.toNat then some .protectedPage
    else none
  else if s.homePages * 128 ≤ r.addr.toNat then some .outOfRange
  else none

/-- The governing descriptor of a page: the lowest-numbered enabled one that covers it (R107). -/
def governing (s : State) (p : Nat) : Option RegionKind :=
  (s.regions.toList.find? fun g => g.kind.isSome && decide (g.first ≤ p ∧ p ≤ g.last)).bind Region.kind

/-- The descriptor allows the write (R107). -/
def regionAllows (k : Option RegionKind) (tagged : Bool) : Bool :=
  match k with
  | none => true
  | some .readOnly => false
  | some .contextOnly => tagged
  | some .directOnly => !tagged

/-- Step 4: the region descriptors, for writes, once (R107, R108). -/
def regionStep (s : State) (r : Request) : Option FaultReason :=
  if r.isWrite && !r.regionPassed && !regionAllows (governing s (pageOf r.addr)) (decide (r.tag ≠ 0)) then
    some .regionDenied
  else none

/-- Step 5: the state of the named context (R112, R117). -/
def contextStep (s : State) (r : Request) : Option FaultReason :=
  match contextOf r.tag with
  | none => none
  | some c =>
    match (s.contexts.get c).state with
    | .idle => some .contextClosed
    | .opened => none
    | .failed _ _ => if r.isWrite then some .contextFailed else none
    | .queued | .committing => if r.isWrite then some .contextClosed else none

/-- Steps 1 to 5 in order: the fault of the first that fails (R104). -/
def faultSteps (s : State) (r : Request) : Option FaultReason :=
  (stateStep s).or ((tagStep r).or ((addressStep s r).or ((regionStep s r).or (contextStep s r))))

/-- Where an accepted write goes (R118 to R120). -/
inductive WritePlan where
  /-- To home, at the write's address. -/
  | home
  /-- To frame `k` of `c`'s entry, whose set holds the block. -/
  | toFrame (c : ContextId) (k : Nat)
  /-- To frame `k` of `c`'s entry, with the block added and a fill. -/
  | grow (c : ContextId) (k : Nat)
  /-- To frame `k`, granted for `c`'s first write to the page, with a fill. -/
  | allocate (c : ContextId) (k : Nat)
  deriving DecidableEq, Repr

/-- The outcome of a classification (R104). -/
inductive Verdict where
  | fault (f : FaultReason)
  /-- A refused allocation: the write and the context fail (R28, R29). -/
  | allocationFault (c : ContextId) (f : FailReason)
  /-- A write with no lanes (R117). -/
  | withoutEffect
  | hold (h : HoldReason) (resolved : Option WordAddr)
  | grantRead (a : WordAddr)
  | post (p : WritePlan)
  deriving DecidableEq, Repr

/-- The array word a read is resolved to: by its view in SERVING, to the same address in UNFORMATTED (R112, R115). -/
def resolveRead (s : State) (r : Request) : WordAddr :=
  if s.bridge.state = .unformatted then r.addr
  else
    match contextOf r.tag with
    | none => s.committedView r.addr
    | some c => s.contextView c r.addr

/-- Step 7 for a read that has passed step 5, with the conflict test (R115). -/
def classifyRead (s : State) (r : Request) : Verdict :=
  let a := resolveRead s r
  if conflicts s.buffer a then .hold .readWait (some a) else .grantRead a

/-- Step 8: the buffer has a free entry, or the write is held (R120). -/
def ifBufferFree (s : State) (v : Verdict) : Verdict :=
  if bufferCapacity ≤ s.buffer.entries.length then .hold .bufferFull none else v

/-- The most page-map entries a context owns (R26). -/
def contextCapacity : Nat := 128

/-- The allocation request of `c`: the two tests in order, then the head frame (R27). -/
def requestFrame (s : State) (c : ContextId) : Verdict :=
  if contextCapacity ≤ (s.contexts.get c).entryCount then .allocationFault c .contextFull
  else
    match s.freeFrames with
    | [] => .allocationFault c .poolExhausted
    | k :: _ => .post (.allocate c k)

/-- Steps 7 and 8 for a write with at least one lane (R118 to R120). -/
def classifyWrite (s : State) (r : Request) : Verdict :=
  if s.bridge.state = .unformatted then ifBufferFree s (.post .home)
  else
    match contextOf r.tag, lookupPage s.pageMap (pageOf r.addr) with
    | none, none => ifBufferFree s (.post .home)
    | some c, none => ifBufferFree s (requestFrame s c)
    | tag, some e =>
      match e.state with
      | .pending _ | .copied _ => .hold .record none
      | .context owner =>
        if tag = some owner then
          ifBufferFree s (.post (if hasBlock e.written (blockOf r.addr) then .toFrame owner e.frame else .grow owner e.frame))
        else .fault .conflict

/-- The classification of a request by the eight steps in order (R104). -/
def classify (s : State) (r : Request) : Verdict :=
  match faultSteps s r with
  | some f => .fault f
  | none =>
    match r.op with
    | .read => classifyRead s r
    | .write _ lanes => if lanes = 0 then .withoutEffect else classifyWrite s r

/-! ### Completion (R102, R126) -/

/-- The outstanding request completes: HDONE is asserted, and falls at once when HREQ is already low (R102). HDATA is
driven for a read: the word, or 0 with a fault. -/
def completeHost (s : State) (r : Request) (f : Option FaultReason) (w : Word) : State :=
  { s with
    host := { s.host with
      outstanding := none
      holdTimer := none
      hdone := s.host.hreq
      hfault := f.isSome
      hreason := BitVec.ofNat 4 ((f.map FaultReason.code).getD 0)
      hdata := if r.isWrite then s.host.hdata else if f.isSome then 0 else w } }

/-- The request completes DONE, with the word of a read. -/
def completeDone (s : State) (r : Request) (w : Word := 0) : State := completeHost s r none w

/-- The request completes with a fault, and HOST_FAULT is queued for a reportable reason (R126). -/
def completeFault (s : State) (r : Request) (f : FaultReason) : State :=
  let s' := completeHost s r (some f) 0
  if f.reportable then pushEvent s' (.hostFault r.tag f r.addr) else s'

/-- A refused allocation fails the write and the context, and queues CONTEXT_FAILED (R28, R29, R53). -/
def failContext (s : State) (r : Request) (c : ContextId) (f : FailReason) : State :=
  let s' := completeHost s r (some f.fault) 0
  pushEvent (s'.setContext c { s'.contexts.get c with state := .failed f r.addr }) (.contextFailed c f r.addr)

/-! ### The outcome of a classification carried out -/

/-- The posted-write entry of a plan (R120, R127). -/
def postedEntry (s : State) (r : Request) (data : Word) (lanes : Lanes) : WritePlan → PostedEntry
  | .home => { target := .home, addr := r.addr, data, lanes, tag := none, fill := none }
  | .toFrame c k => { target := .frame k, addr := s.frameWord k r.addr, data, lanes, tag := some c, fill := none }
  | .grow c k | .allocate c k =>
    { target := .frame k, addr := s.frameWord k r.addr, data, lanes, tag := some c,
      fill := some (blockWord (pageOf r.addr) (blockOf r.addr) 0) }

/-- The claim at the page map that a plan takes with the append (R30, R31, R120). -/
def planClaim (s : State) (r : Request) : WritePlan → State
  | .home | .toFrame _ _ => s
  | .grow _ _ => { s with pageMap := addBlockClaim s.pageMap (pageOf r.addr) (blockOf r.addr) }
  | .allocate c k => s.allocate c k (pageOf r.addr) (blockOf r.addr)

/-- A write accepted: its claim, its posted-write entry, and completion DONE, in one claim (R120). -/
def acceptWrite (s : State) (r : Request) (data : Word) (lanes : Lanes) (p : WritePlan) : State :=
  let e := postedEntry s r data lanes p
  let s' := planClaim s r p
  completeDone { s' with buffer := appendPosted s'.buffer e } r

/-- A request held: the hold timer starts with the hold timeout in force, or runs on (R121). -/
def holdRequest (s : State) (r : Request) (h : HoldReason) (resolved : Option WordAddr) : State :=
  { s with
    host := { s.host with
      outstanding := some { r with phase := .held h, resolved := resolved, regionPassed := r.regionPassed || r.isWrite }
      holdTimer := some (s.host.holdTimer.getD s.settings.holdTimeout) } }

/-- A read resolved and without conflict waits for the sequencer; the hold timer stops (R115, R121). -/
def grantRead (s : State) (r : Request) (a : WordAddr) : State :=
  { s with host := { s.host with outstanding := some { r with phase := .readGrant, resolved := some a }, holdTimer := none } }

/-- The outcome of a classification. -/
def settle (s : State) (r : Request) : Verdict → State
  | .fault f => completeFault s r f
  | .allocationFault c f => failContext s r c f
  | .withoutEffect => completeDone s r
  | .hold h a => holdRequest s r h a
  | .grantRead a => grantRead s r a
  | .post p =>
    match r.op with
    | .write data lanes => acceptWrite s r data lanes p
    | .read => s

/-- A request classified, on arrival or on release, as one claim (R104). -/
def classifyRequest (s : State) (r : Request) : State := settle s r (classify s r)

/-! ### Releases (R122) -/

/-- A request held for this reason is released and classified again. -/
def releaseHeld (s : State) (h : HoldReason) : State :=
  match s.host.outstanding with
  | some r => if r.phase = .held h then classifyRequest s { r with phase := .classifying } else s
  | none => s

/-- A read held READ_WAIT is released when no conflicting entry remains (R122, R133). -/
def releaseReadWait (s : State) : State :=
  match s.host.outstanding with
  | some r =>
    if decide (r.phase = .held .readWait) && !(r.resolved.map (conflicts s.buffer)).getD false then
      classifyRequest s { r with phase := .classifying }
    else s
  | none => s

/-- What a departure from the buffer releases at the access path (R131). -/
def releaseDeparture (s : State) : State := releaseReadWait (releaseHeld s .bufferFull)

/-! ### A change of bridge state (R124) -/

/-- The phase of the request is HELD or READ_GRANT. -/
def HostPhase.waiting : HostPhase → Bool
  | .held _ | .readGrant => true
  | .classifying | .readTransfer => false

/-- A change of bridge state completes a request that is HELD or in READ_GRANT with a fault that queues no event; a
read in READ_TRANSFER goes on (R124). -/
def faultWaiting (s : State) (f : FaultReason) : State :=
  match s.host.outstanding with
  | some r => if r.phase.waiting then completeFault s r f else s
  | none => s

end Sys2Proof.Machine
end

