-- ==== Sys2Proof/Machine/Engine.lean ====
section
/-! DEFINITION. The commit engine as shared operations: the transfer it asks for in each stage (R67 to R76, R90 to R95,
R15), its positions, the beginnings of its stages, recovery's walk through the apply list with its tallies (R91 to R95),
and the restart of a paused stage (R16, R79, R97). -/

namespace Sys2Proof.Machine

/-- The engine runs: a state in which its procedures run, and no pause (R77, R78). -/
def engineRuns (s : State) : Bool :=
  decide (s.engine.pause = .running) &&
    (match s.bridge.state with
     | .serving | .recovering | .formatting => true
     | .starting | .unformatted | .frozen | .resetting => false)

/-! ### Transfers -/

/-- A word read. -/
def readTransfer (p : Purpose) (a : WordAddr) : Transfer :=
  { purpose := p, isWrite := false, addr := a, data := 0, lanes := 0xF, abandoned := false }

/-- A word write with all four lanes enabled (R76). -/
def writeTransfer (p : Purpose) (a : WordAddr) (w : Word) : Transfer :=
  { purpose := p, isWrite := true, addr := a, data := w, lanes := 0xF, abandoned := false }

/-- The item at the engine's position. -/
def Engine.item? (e : Engine) : Option RecordItem := e.record.bind fun r => r.items[e.pos.entry]?

/-- The word of the frame of an item at a position: word of block of page H + FRAME (R67, R73, R93). -/
def frameWordAt (s : State) (it : RecordItem) (p : Position) : WordAddr :=
  blockWord (s.homePages + it.frame) p.block p.word

/-- The word of the home page of an item at a position (R73, R93). -/
def homeWordAt (it : RecordItem) (p : Position) : WordAddr := blockWord it.homePage p.block p.word

/-- The slot with this index: 0 or 1. -/
def slotOfIndex : Nat → Option Slot
  | 0 => some .slot0
  | 1 => some .slot1
  | _ => none

/-- The image of a slot (R89). -/
def Engine.image (e : Engine) : Slot → Option SlotImage
  | .slot0 => e.image0
  | .slot1 => e.image1

/-- The sequence of a slot's image; 0 where there is none. -/
def Engine.imageSequence (e : Engine) (sl : Slot) : Word := ((e.image sl).bind SlotImage.sequence?).getD 0

/-- The next read of SCAN: six header words of the slot, then its entry words (R90). -/
def scanTransfer (s : State) : Option Transfer :=
  (slotOfIndex s.engine.pos.slotIndex).map fun sl =>
    let k := s.engine.scanWords.length
    readTransfer .scanRead
      (match scanHeaderOffsets[k]? with
       | some w => headerWord s.arrayPages sl w
       | none => areaWord s.arrayPages sl (k - 6))

/-- A copy transfer at the engine's position, read or write, under its two purposes (R73, R93). -/
def blockTransfer (s : State) (rd wr : Purpose) : Option Transfer :=
  s.engine.item?.map fun it =>
    match s.engine.pos.pass with
    | .copyWrite => writeTransfer wr (homeWordAt it s.engine.pos) (s.engine.copyStore.getD s.engine.pos.word 0)
    | .checksum | .copyRead => readTransfer rd (frameWordAt s it s.engine.pos)

/-- The retire write: of the current record in a commit, of the slot reached in recovery (R74, R95). -/
def retireTransfer (s : State) : Option Transfer :=
  if s.bridge.state = .recovering then
    (s.engine.applyList[s.engine.pos.slotIndex]?).map fun sl =>
      writeTransfer .recoveryRetireWrite (retireAddr s.arrayPages sl) (s.engine.imageSequence sl)
  else
    s.engine.record.map fun r => writeTransfer .retireWrite (retireAddr s.arrayPages r.slot) r.sequence

/-- The FORMAT writes of the present step: the slot words of step 2, the anchor words of step 3 (R15). -/
def formatWrites (s : State) : List (WordAddr × Word) :=
  match s.engine.formatStep with
  | some 2 => invalidateWrites s.bridge.strapPages
  | some 3 => anchorWrites s.bridge.strapPages (s.engine.formatFrames.getD 0)
  | _ => []

/-- The transfer a running engine asks for in its stage (R76, R137). IDLE and DRAIN, and FORMAT at its drain step,
ask for none. -/
def stageTransfer (s : State) : Option Transfer :=
  match s.engine.stage with
  | .idle | .drain => none
  | .sum => blockTransfer s .sumRead .sumRead
  | .write =>
    (s.engine.record.bind fun r => (journalWrites s.arrayPages r)[s.engine.pos.word]?).map fun (a, w) =>
      writeTransfer .journalWrite a w
  | .mark => s.engine.record.map fun r => writeTransfer .markWrite (markAddr s.arrayPages r.slot) r.sequence
  | .copy => blockTransfer s .copyRead .copyWrite
  | .retire => retireTransfer s
  | .scan => scanTransfer s
  | .apply =>
    if s.engine.pos.pass = .checksum then blockTransfer s .verifyRead .verifyRead
    else blockTransfer s .applyCopyRead .applyCopyWrite
  | .format => ((formatWrites s)[s.engine.pos.word]?).map fun (a, w) => writeTransfer .formatWrite a w

/-- The transfer the engine client asks for: the anchor read of bridge control in STARTING, or that of a running engine
(R10, R137). -/
def engineAsks (s : State) : Option Transfer :=
  if s.bridge.state = .starting then
    s.bridge.anchorRead.map fun ws => readTransfer .anchorRead (anchorAddr s.bridge.strapPages ws.length)
  else if engineRuns s then stageTransfer s
  else none

/-! ### Positions -/

/-- The position at the first word of the first written block of item `i`. -/
def itemStart (items : List RecordItem) (slotIndex i : Nat) (pass : Pass) : Position :=
  { slotIndex, entry := i, block := ((items[i]?).bind fun it => firstBlock it.written).getD 0, word := 0, pass }

/-- The next word of an item in a checksum pass, in ascending block and word; `none` past its last (R67). -/
def nextWord (it : RecordItem) (p : Position) : Option Position :=
  if p.word < 7 then some { p with word := p.word + 1 }
  else (nextBlock it.written p.block).map fun b => { p with block := b, word := 0 }

/-- The next word of an item in a copy: eight reads of a block, then its eight writes, block by block; `none` past the
last write (R73). -/
def nextCopy (it : RecordItem) (p : Position) : Option Position :=
  if p.word < 7 then some { p with word := p.word + 1 }
  else if p.pass = .copyRead then some { p with word := 0, pass := .copyWrite }
  else (nextBlock it.written p.block).map fun b => { p with block := b, word := 0, pass := .copyRead }

/-- The engine with its position at the given one. -/
def setPos (s : State) (p : Position) : State := { s with engine := { s.engine with pos := p } }

/-- The engine in a stage, at a position. -/
def enterStage (s : State) (st : Stage) (p : Position) : State :=
  { s with engine := { s.engine with stage := st, pos := p } }

/-- The word a copy read returned, kept for the copy write of the same word (R73). -/
def storeCopyWord (s : State) (w : Word) : State :=
  { s with engine := { s.engine with copyStore := s.engine.copyStore.take s.engine.pos.word ++ [w] } }

/-- A word added to the checksum being formed. -/
def addToSums (s : State) (w : Word) : State :=
  { s with engine := { s.engine with sums := feedWord s.engine.sums w } }

/-! ### The stages of a commit -/

/-- The record with no checksums (R61, R79). -/
def CurrentRecord.clearChecksums (r : CurrentRecord) : CurrentRecord :=
  { r with items := r.items.map fun it => { it with checksum := none }, recordChecksum := none }

/-- SUM begins at the first block of item 0, with every checksum absent (R66, R67, R79). -/
def beginSum (s : State) : State :=
  match s.engine.record with
  | some r =>
    { s with engine := { s.engine with
        stage := .sum, record := some r.clearChecksums, sums := .zero, pos := itemStart r.items 0 0 .checksum } }
  | none => s

/-- DRAIN ends when the buffer holds no entry tagged with the committing context, in a running engine (R66, R78). -/
def endDrain (s : State) : State :=
  match s.engine.record.bind CurrentRecord.context with
  | some c =>
    if decide (s.engine.stage = .drain) && engineRuns s && !holdsTag s.buffer c then beginSum s else s
  | none => s

/-- The record with the checksum of one item set. -/
def CurrentRecord.setChecksum (r : CurrentRecord) (i : Nat) (q : Word) : CurrentRecord :=
  { r with items := r.items.modify i fun it => { it with checksum := some q } }

/-- A SUM read taken: its bytes are added; the last read of an item sets its CHECKSUM, and the last read of the last
item forms the record checksum and begins WRITE (R67, R68, R69). -/
def sumWord (s : State) (w : Word) : State :=
  match s.engine.record, s.engine.item? with
  | some r, some it =>
    let s1 := addToSums s w
    match nextWord it s.engine.pos with
    | some p => setPos s1 p
    | none =>
      let r1 := r.setChecksum s.engine.pos.entry s1.engine.sums.checksum
      if s.engine.pos.entry + 1 < r.items.length then
        { s1 with engine := { s1.engine with
            record := some r1, sums := .zero, pos := itemStart r.items 0 (s.engine.pos.entry + 1) .checksum } }
      else
        { s1 with engine := { s1.engine with
            record := some { r1 with recordChecksum := some (recordChecksumOf r1) }, stage := .write, pos := .start } }
  | _, _ => s

/-- A WRITE write taken: the position advances, and after the last one MARK begins (R69). -/
def journalWritten (s : State) : State :=
  match s.engine.record with
  | some r =>
    if s.engine.pos.word + 1 < (journalWrites s.arrayPages r).length then
      setPos s { s.engine.pos with word := s.engine.pos.word + 1 }
    else enterStage s .mark .start
  | none => s

/-- The commit point: the Mark claim, the context IDLE with its LAST_SEQUENCE, the engine's last sequence number and
COPY, and COMMITTED, as one step (R23, R52, R71, R72). -/
def commitPoint (s : State) : State :=
  match s.engine.record, s.engine.record.bind CurrentRecord.context with
  | some r, some c =>
    pushEvent
      { s with
        pageMap := markClaim c 0 s.pageMap
        contexts := s.contexts.set c { state := .idle, entryCount := 0, lastSequence := r.sequence }
        engine := { s.engine with
          lastSequence := r.sequence, stage := .copy, copyStore := [], pos := itemStart r.items 0 0 .copyRead } }
      (.committed c r.sequence r.entryCount)
  | _, _ => s

/-- A COPY write taken: the last write of an item takes the Copied claim, and the last write of the last item begins
RETIRE (R24, R73). -/
def copyWritten (s : State) : State :=
  match s.engine.record, s.engine.item? with
  | some r, some it =>
    match nextCopy it s.engine.pos with
    | some p => setPos s p
    | none =>
      let s1 := { s with pageMap := copiedClaim s.pageMap it.homePage }
      if s.engine.pos.entry + 1 < r.items.length then
        setPos s1 (itemStart r.items 0 (s.engine.pos.entry + 1) .copyRead)
      else enterStage s1 .retire .start
  | _, _ => s

/-- A copy read taken, in COPY or in APPLY. -/
def copyWordRead (s : State) (w : Word) : State :=
  match s.engine.item? with
  | some it =>
    match nextCopy it s.engine.pos with
    | some p => setPos (storeCopyWord s w) p
    | none => s
  | none => s

/-- The retire of a commit: the Retire claim, the current record absent and the engine IDLE; then the write held with
reason RECORD is released (R25, R74). -/
def retireCommit (s : State) : State :=
  let s1 := s.retireClaim
  releaseHeld { s1 with engine := { s1.engine with record := none, stage := .idle, pos := .start } } .record

/-! ### Recovery -/

/-- SCAN begins: the slot images absent, the apply list empty (R90, R97). -/
def beginScan (s : State) : State :=
  { s with engine := { s.engine with
      stage := .scan, record := none, image0 := none, image1 := none, applyList := [], scanWords := [], pos := .start } }

/-- Recovery begins: the fault list and the fault count cleared, the tally position 0, and SCAN (R62, R90). -/
def beginRecovery (s : State) : State :=
  beginScan { s with engine := { s.engine with
    lastSequence := 0, tallyPosition := 0, faultList := [], faultCount := 0 } }

/-- The capacity of the recovery fault list (R89). -/
def faultListCapacity : Nat := 8

/-- The tally of an entry by its index in apply order (R94). -/
def tally (s : State) (index : Nat) (faulty : Bool) (homePage : Nat) : State :=
  if s.engine.tallyPosition ≤ index then
    if faulty then
      { s with engine := { s.engine with
          tallyPosition := s.engine.tallyPosition + 1
          faultList := if s.engine.faultList.length < faultListCapacity then s.engine.faultList ++ [homePage]
                       else s.engine.faultList
          faultCount := min 255 (s.engine.faultCount + 1) } }
    else { s with engine := { s.engine with tallyPosition := s.engine.tallyPosition + 1 } }
  else s

/-- The entries of a slot's image. -/
def SlotImage.entries : SlotImage → List RecordItem
  | .live _ _ es _ => es
  | _ => []

/-- The record loaded from a slot's image; CONTEXT is absent (R61, R92). -/
def recordOfImage (sl : Slot) : SlotImage → Option CurrentRecord
  | .live q n es k =>
    some { sequence := q, slot := sl, context := none, entryCount := n, items := es, recordChecksum := some k }
  | _ => none

/-- The entry is invalid (R92). -/
def invalidItem (s : State) (it : RecordItem) : Bool :=
  decide (s.homePages ≤ it.homePage ∨ s.frames ≤ it.frame ∨ it.written = 0)

/-- The entries of the slots of the apply list from the `j`-th slot and its `i`-th entry on, each with its place. -/
def applySteps (e : Engine) (j i : Nat) : List (Nat × Nat × Slot × RecordItem) :=
  e.applyList.zipIdx.flatMap fun (sl, k) =>
    ((((e.image sl).map SlotImage.entries).getD []).zipIdx.filterMap fun (it, n) =>
      if j < k ∨ (j = k ∧ i ≤ n) then some (k, n, sl, it) else none)

/-- The index in apply order of entry `i` of the `j`-th slot: every entry of the first slot counts before the second
(R94). -/
def applyIndex (e : Engine) (j i : Nat) : Nat :=
  ((e.applyList.take j).map fun sl => (((e.image sl).map SlotImage.entries).getD []).length).sum + i

/-- The current record is the image of this slot (R92). -/
def loadSlot (s : State) (sl : Slot) : State :=
  { s with engine := { s.engine with record := (s.engine.image sl).bind (recordOfImage sl) } }

/-- APPLY goes through entries that need no transfer: an invalid entry is tallied as faulty; the verify pass of the
first valid one begins; past the last entry, RETIRE begins (R92, R93, R94). -/
def seekEntry : List (Nat × Nat × Slot × RecordItem) → State → State
  | [], s => enterStage s .retire .start
  | (j, i, sl, it) :: rest, s =>
    let s1 := loadSlot s sl
    if invalidItem s1 it then seekEntry rest (tally s1 (applyIndex s1.engine j i) true it.homePage)
    else
      { s1 with engine := { s1.engine with
          stage := .apply, sums := .zero
          pos := { slotIndex := j, entry := i, block := (firstBlock it.written).getD 0, word := 0, pass := .checksum } } }

/-- APPLY from the `j`-th slot of the apply list and its `i`-th entry on. -/
def applyFrom (s : State) (j i : Nat) : State := seekEntry (applySteps s.engine j i) s

/-- The applied sequence: that of the last slot of the apply list, 0 when the list is empty (R95). -/
def appliedSequence (e : Engine) : Word := (e.applyList.getLast?.map e.imageSequence).getD 0

/-- The report of the end of recovery. Bridge control takes it in RECOVERING: RECOVERY_DONE, SERVING, and the engine
IDLE (R12, R95). In any other state it is not taken. -/
def reportRecovery (s : State) : State :=
  if s.bridge.state = .recovering then
    pushEvent
      { s with
        bridge := { s.bridge with state := .serving }
        engine := { s.engine with
          stage := .idle, record := none, image0 := none, image1 := none, applyList := [], pos := .start } }
      (.recoveryDone (appliedSequence s.engine) s.engine.faultCount)
  else s

/-- The largest sequence of the marked slots; 0 when neither is marked (R88). -/
def largestSequence (e : Engine) : Word :=
  if (e.imageSequence .slot0).toNat ≤ (e.imageSequence .slot1).toNat then e.imageSequence .slot1
  else e.imageSequence .slot0

/-- The image of a slot is live. -/
def Engine.slotLive (e : Engine) (sl : Slot) : Bool := ((e.image sl).map SlotImage.isLive).getD false

/-- The live slots in ascending sequence, slot 0 first when the two are equal (R89, R96). -/
def liveSlots (e : Engine) : List Slot :=
  let order := if (e.imageSequence .slot0).toNat ≤ (e.imageSequence .slot1).toNat then [Slot.slot0, Slot.slot1]
               else [Slot.slot1, Slot.slot0]
  order.filter e.slotLive

/-- The end of SCAN: the last sequence number and the apply list are set; APPLY begins, or recovery ends at once when
nothing is live (R88, R91). -/
def endScan (s : State) : State :=
  let s1 := { s with engine := { s.engine with lastSequence := largestSequence s.engine, applyList := liveSlots s.engine } }
  if s1.engine.applyList = [] then reportRecovery s1 else applyFrom s1 0 0

/-- The image of a slot recorded. -/
def setImage (e : Engine) (sl : Slot) (im : SlotImage) : Engine :=
  match sl with
  | .slot0 => { e with image0 := some im }
  | .slot1 => { e with image1 := some im }

/-- A SCAN read taken: the word is kept; the last read of a slot builds its image, and the last read of slot 1 ends
SCAN (R90, R91). -/
def scanWord (s : State) (w : Word) : State :=
  match slotOfIndex s.engine.pos.slotIndex with
  | some sl =>
    let ws := s.engine.scanWords ++ [w]
    if ws.length < 6 ∨ ws.length < scanLength ws then { s with engine := { s.engine with scanWords := ws } }
    else
      let e1 := setImage s.engine sl (imageOf ws)
      let s1 := { s with engine := { e1 with
        scanWords := [], pos := { s.engine.pos with slotIndex := s.engine.pos.slotIndex + 1 } } }
      if sl = .slot0 then s1 else endScan s1
  | none => s

/-- A verify read taken: its bytes are added; at the last one the checksum is compared and the outcome tallied, and the
copy pass begins or APPLY goes on (R93, R94). -/
def verifyWord (s : State) (w : Word) : State :=
  match s.engine.item? with
  | some it =>
    let p := s.engine.pos
    let s1 := addToSums s w
    match nextWord it p with
    | some q => setPos s1 q
    | none =>
      let faulty := decide (it.checksum ≠ some s1.engine.sums.checksum)
      let s2 := tally s1 (applyIndex s1.engine p.slotIndex p.entry) faulty it.homePage
      if faulty then applyFrom s2 p.slotIndex (p.entry + 1)
      else
        { s2 with engine := { s2.engine with
            copyStore := [], pos := { p with block := (firstBlock it.written).getD 0, word := 0, pass := .copyRead } } }
  | none => s

/-- A copy write of APPLY taken: after the last write of the entry, APPLY goes on to the next (R93). -/
def applyWritten (s : State) : State :=
  match s.engine.item? with
  | some it =>
    match nextCopy it s.engine.pos with
    | some p => setPos s p
    | none => applyFrom s s.engine.pos.slotIndex (s.engine.pos.entry + 1)
  | none => s

/-- A recovery retire write taken: on to the next slot, and after the last the end of recovery is reported (R95). -/
def recoveryRetired (s : State) : State :=
  let s1 := setPos s { s.engine.pos with slotIndex := s.engine.pos.slotIndex + 1 }
  if s1.engine.pos.slotIndex < s1.engine.applyList.length then s1 else reportRecovery s1

/-! ### FORMAT (R15) -/

/-- A FORMAT step begins. -/
def enterFormatStep (s : State) (k : Nat) : State :=
  { s with engine := { s.engine with formatStep := some k, pos := .start } }

/-- FORMAT step 1 ends when the buffer is empty, in a running engine (R15, R131). -/
def endFormatDrain (s : State) : State :=
  if decide (s.engine.stage = .format ∧ s.engine.formatStep = some 1) && engineRuns s && s.buffer.entries.isEmpty then
    enterFormatStep s 2
  else s

/-- FORMAT steps 4 and 5: the new geometry is taken up, FORMAT_DONE is queued, the engine is IDLE and the bridge SERVING
(R15, R35). -/
def finishFormat (s : State) : State :=
  let g := geometryOf s.bridge.strapPages (s.engine.formatFrames.getD 0)
  pushEvent
    { s with
      bridge := { s.bridge with state := .serving, geometry := some g }
      pageMap := []
      freeFrames := allFrames g
      engine := { s.engine with
        stage := .idle, lastSequence := 0, record := none, formatFrames := none, formatStep := none, image0 := none,
        image1 := none, applyList := [], pos := .start } }
    (.formatDone g.frames)

/-- A FORMAT write taken in FORMATTING: on to the next word, the next step, or the end (R15). -/
def formatWritten (s : State) : State :=
  if s.engine.pos.word + 1 < (formatWrites s).length then
    setPos s { s.engine.pos with word := s.engine.pos.word + 1 }
  else if s.engine.formatStep = some 2 then enterFormatStep s 3
  else finishFormat s

/-! ### The restart of a paused stage -/

/-- The index of the first item of the record whose entry is not COPIED (R79). -/
def firstNotCopied (s : State) (items : List RecordItem) : Nat :=
  (items.findIdx? fun it =>
    match (lookupPage s.pageMap it.homePage).map MapEntry.state with
    | some (.copied _) => false
    | _ => true).getD items.length

/-- The restart of a commit's paused stage on resume into SERVING (R79). IDLE takes work, and MARK and RETIRE write
their word again, from the state as it is kept. -/
def restartCommit (s : State) : State :=
  match s.engine.stage with
  | .drain => endDrain s
  | .sum => beginSum s
  | .write => setPos s .start
  | .copy =>
    match s.engine.record with
    | some r => setPos s (itemStart r.items 0 (firstNotCopied s r.items) .copyRead)
    | none => s
  | .idle | .mark | .retire | .scan | .apply | .format => s

/-- The restart of recovery on resume into RECOVERING (R97). -/
def restartRecovery (s : State) : State :=
  match s.engine.stage with
  | .scan | .apply => beginScan s
  | .retire => setPos s .start
  | .idle | .drain | .sum | .write | .mark | .copy | .format => s

/-- The restart of FORMAT at step 1 on resume into FORMATTING (R16). -/
def restartFormat (s : State) : State := endFormatDrain (enterFormatStep s 1)

/-- The engine starts its paused stage again in the state resumed to (R79, R97, R16). -/
def restartStage (s : State) : State :=
  match s.bridge.state with
  | .serving => restartCommit s
  | .recovering => restartRecovery s
  | .formatting => restartFormat s
  | .starting | .unformatted | .frozen | .resetting => s

end Sys2Proof.Machine
end

