-- ==== Sys2Proof/Machine/Ops.lean ====
section
/-! DEFINITION. The shared operations of bridge control, the supply monitor and the array sequencer: timers and trips
(R143 to R147), FROZEN and resume (R146, R151, R153), RESETTING and STARTING (R9, R18), the grant decision (R138 to R140),
and the completion of a transfer (R135, R78, R80). -/

namespace Sys2Proof.Machine

/-- An event of a powered part: without its supply the part does nothing (assumption log 5). -/
def whenPowered (s : State) (effect : State → State) : State := if s.powered then effect s else s

/-! ### Resets -/

/-- Every piece of volatile state at its power-on value (R8), with these levels on the input lines, before bridge
control looks at RST_N. The array content and the model's own fields are kept. -/
def powerOnState (s : State) (pins : PinLevels) : State :=
  { State.reset with
    bridge := { State.reset.bridge with rstN := pins.rstN }
    host := { State.reset.host with hreq := pins.hreq }
    monitor := { State.reset.monitor with
      level := pins.supplyFall
      delayTimer := if pins.supplyFall then .stopped else .running Settings.reset.resumeDelay }
    mgmt := { State.reset.mgmt with mselN := pins.mselN }
    array := s.array
    freeCount := s.freeCount
    pending := s.pending }

/-- The delay timer at a start: it runs against the resume delay in force if SUPPLY_FALL is deasserted, and otherwise
waits for the next deassertion (R143). -/
def startDelay (s : State) : State :=
  { s with monitor := { s.monitor with
      delayTimer := if s.monitor.level then .stopped else .running s.settings.resumeDelay } }

/-- Entry to STARTING: the monitor is GATING and the gate timer starts as R9 gives it (R143, R154). -/
def enterStarting (s : State) : State :=
  startDelay
    { s with
      bridge := { s.bridge with state := .starting, returnState := none, anchorRead := none, warmPointPassed := false }
      monitor := { s.monitor with phase := .gating } }

/-- The anchor read is abandoned: the words read are discarded, and the data of a read in progress will be (R9, R10). -/
def abandonAnchorRead (s : State) : State :=
  { s with
    bridge := { s.bridge with anchorRead := none }
    port := s.port.map fun t => if t.purpose = .anchorRead then { t with abandoned := true } else t }

/-- Entry to RESETTING, from any other state (R18): a waiting host request faults NOT_READY, the anchor read is
abandoned, the return state becomes absent, and the monitor is IGNORING. The engine begins no further transfer because
it does not run in RESETTING (R80). -/
def enterResetting (s : State) : State :=
  if s.bridge.state = .resetting then s
  else
    let s1 := abandonAnchorRead (faultWaiting s .notReady)
    { s1 with
      bridge := { s1.bridge with state := .resetting, returnState := none, warmPointPassed := false }
      monitor := { s1.monitor with phase := .ignoring, filterTimer := none } }

/-- The warm-reset point: volatile state takes its warm-reset values; the configuration items, the region descriptors
and the framing of the management port are kept (R18, R37, R43, R62, R89, R142, R170). -/
def warmResetState (s : State) : State :=
  { s with
    bridge := { s.bridge with strapPages := 0, geometry := none, anchorRead := none, warmPointPassed := true }
    pageMap := []
    freeFrames := []
    contexts := .reset
    commitQueue := []
    engine := .reset
    host := { s.host with holdTimer := none }
    buffer := { entries := [], head := none }
    turn := .drain
    monitor := { s.monitor with filterTimer := none, delayTimer := .stopped }
    events := []
    overflow := false }

/-! ### Trips -/

/-- A transfer of the commit engine is in progress. -/
def engineTransferring (s : State) : Bool :=
  match s.port with
  | some t =>
    match t.purpose with
    | .hostRead | .fillRead | .fillWrite | .drainWrite | .anchorRead => false
    | _ => true
  | none => false

/-- A trip in FREEZE mode, as one step (R146): FROZEN with the state left as return state, waiting requests faulted
FROZEN, the engine paused at a transfer boundary (R78), TRIP queued, and the monitor in RESUME_WAIT. -/
def enterFrozen (s : State) : State :=
  let s1 := faultWaiting s .frozen
  startDelay
    (pushEvent
      { s1 with
        bridge := { s1.bridge with state := .frozen, returnState := some s.bridge.state }
        engine := { s1.engine with pause := if engineTransferring s then .requested else .paused }
        monitor := { s1.monitor with phase := .resumeWait, filterTimer := none } }
      .trip)

/-- A trip in REPORT mode (R147). -/
def reportSupplyLow (s : State) : State :=
  startDelay (pushEvent { s with monitor := { s.monitor with phase := .reported, filterTimer := none } } .supplyLow)

/-- A trip against the trip mode and the bridge state as they stand (R145). -/
def takeTrip (s : State) : State :=
  match s.bridge.state with
  | .unformatted | .recovering | .serving | .formatting =>
    match s.settings.tripMode with
    | .freeze => enterFrozen s
    | .report => reportSupplyLow s
  | .starting | .frozen | .resetting => s

/-- The filter timer at a start, with the filter time in force; with a filter time of 0 the trip is taken at once
(R144). -/
def startFilter (s : State) : State :=
  if s.settings.filterTime = 0 then takeTrip s
  else { s with monitor := { s.monitor with filterTimer := some s.settings.filterTime } }

/-- The phase becomes ARMED: the delay timer stops, and the filter starts if the line is asserted (R143, R144). -/
def enterArmed (s : State) : State :=
  let s1 := { s with monitor := { s.monitor with phase := .armed, filterTimer := none, delayTimer := .stopped } }
  if s.monitor.level then startFilter s1 else s1

/-! ### Resume -/

/-- The drain is finished: the buffer is empty and no transfer is in progress (R150). -/
def drainFinished (s : State) : Bool := s.buffer.entries.isEmpty && s.port.isNone

/-- A resume, as one step (R153). -/
def resumeBridge (s : State) : State :=
  match s.bridge.returnState with
  | some r =>
    let s1 := { s with
      bridge := { s.bridge with state := r, returnState := none }
      engine := { s.engine with pause := .running } }
    enterArmed (pushEvent (restartStage s1) .resumed)
  | none => s

/-- The conditions of an auto-resume, in FROZEN (R151). -/
def autoResumeDue (s : State) : Bool :=
  decide (s.bridge.state = .frozen) && s.settings.autoResume && decide (s.monitor.delayTimer = .met) && drainFinished s

/-- With auto-resume on, the bridge resumes at the first moment its three conditions hold together (R151). -/
def autoResume (s : State) : State := if autoResumeDue s then resumeBridge s else s

/-! ### The sequencer -/

/-- The drain is urgent (R139). -/
def drainUrgent (s : State) : Bool :=
  decide (bufferCapacity ≤ s.buffer.entries.length)
    || decide (s.host.outstanding.map Request.phase = some (.held .readWait))
    || decide (s.engine.stage = .drain)
    || decide (s.engine.stage = .format ∧ s.engine.formatStep = some 1)

/-- The transfer the read path asks for: the word of a read in READ_GRANT (R137). -/
def readAsks (s : State) : Option Transfer :=
  match s.host.outstanding with
  | some r => if r.phase = .readGrant then r.resolved.map (readTransfer .hostRead) else none
  | none => none

/-- The transfer the drain asks for: the one the drain position of the head entry names (R130, R137). -/
def drainAsks (s : State) : Option Transfer :=
  match s.buffer.entries, s.buffer.head with
  | e :: _, some h =>
    some
      (match h.pos with
       | .fillRead i => readTransfer .fillRead (e.fill.getD 0 + BitVec.ofNat 21 i)
       | .fillWrite i => writeTransfer .fillWrite (sameBlockWord e.addr i) (h.store.getD i 0)
       | .write =>
         { purpose := .drainWrite, isWrite := true, addr := e.addr, data := e.data, lanes := e.lanes, abandoned := false })
  | _, _ => none

/-- Which client a decision grants (R137). -/
inductive Grant where
  | drain (t : Transfer)
  | read (t : Transfer)
  | engine (t : Transfer)
  deriving DecidableEq, Repr

/-- The grant decision: the first step that applies (R138, R141). -/
def decideGrant (s : State) : Option Grant :=
  if s.bridge.state = .frozen ∨ s.bridge.state = .resetting then (drainAsks s).map .drain
  else
    match drainAsks s, readAsks s, engineAsks s with
    | some d, rd, en =>
      if drainUrgent s then some (.drain d)
      else
        match rd, en with
        | some r, _ => some (.read r)
        | none, some e => some (if s.turn = .engine then .drain d else .engine e)
        | none, none => some (.drain d)
    | none, some r, _ => some (.read r)
    | none, none, some e => some (.engine e)
    | none, none, none => none

/-- The granted transfer begins: a drain grant makes the head entry begun, a read grant puts the request in
READ_TRANSFER, and the turn records an engine or drain grant (R115, R128, R135, R140). -/
def beginTransfer (s : State) : Grant → State
  | .drain t =>
    { s with
      port := some t, turn := .drain
      buffer := { s.buffer with head := s.buffer.head.map fun h => { h with begun := true } } }
  | .read t =>
    { s with
      port := some t
      host := { s.host with outstanding := s.host.outstanding.map fun r => { r with phase := .readTransfer } } }
  | .engine t => { s with port := some t, turn := .engine }

/-! ### The completion of a transfer -/

/-- A transfer completes on the array, and the port is free again (R135). -/
def completeTransfer (s : State) (t : Transfer) : State :=
  { s with array := if t.isWrite then writeWord s.array t.addr t.data t.lanes else s.array, port := none }

/-- The array asserts ARDY for a transfer of this purpose: it completes on the array, and its completion has its effect
with the word read. In any state with no such transfer in progress there is no such completion (assumption log 7). -/
def onCompletion (s : State) (p : Purpose) (effect : Transfer → Word → State → State) : State :=
  match s.port with
  | some t =>
    if s.powered && decide (t.purpose = p) then effect t (readWord s.array t.addr) (completeTransfer s t) else s
  | none => s

/-- The completion of an engine transfer counts in the engine: always in a running engine; in FROZEN when it is taken
before the pause; never in RESETTING (R78, R80). -/
def engineCounts (s : State) (o : TakenOrder) : Bool :=
  match s.bridge.state with
  | .frozen => decide (s.engine.pause = .requested ∧ o = .completionFirst)
  | .resetting => false
  | .starting | .unformatted | .recovering | .serving | .formatting => decide (s.engine.pause = .running)

/-- In FROZEN an engine whose transfer has completed is paused (R78). -/
def takePause (s : State) : State :=
  if s.bridge.state = .frozen then { s with engine := { s.engine with pause := .paused } } else s

/-- The completion of an engine transfer of stage `st`: on the array in every case, in the engine when it counts; then
the pause in FROZEN, and the resume that may have waited for this transfer (R78, R80, R151). -/
def onEngineCompletion (s : State) (p : Purpose) (st : Stage) (o : TakenOrder) (effect : Word → State → State) :
    State :=
  onCompletion s p fun _ w s1 =>
    autoResume (takePause (if engineCounts s1 o && decide (s1.engine.stage = st) then effect w s1 else s1))

end Sys2Proof.Machine
end

