-- ==== Sys2Proof/Machine/Commit.lean ====
section
/-! DEFINITION. A commit from take to retire: TAKE_WORK, SUM_READ, JOURNAL_WRITE, MARK_WRITE, COPY_READ, COPY_WRITE and
RETIRE_WRITE (chapter 4). -/

namespace Sys2Proof.Machine

/-- An item of ENTRIES from a page-map entry, without its checksum (R61, R65). -/
def itemOfEntry (e : MapEntry) : RecordItem :=
  { homePage := e.homePage, frame := e.frame, written := e.written, checksum := none }

/-- The current record formed at the take of `c` (R61, R65). -/
def recordFor (s : State) (c : ContextId) : CurrentRecord :=
  let q := s.engine.lastSequence + 1
  { sequence := q, slot := slotOf q, context := some c, entryCount := (s.contexts.get c).entryCount
    items := (entriesOf s.pageMap c).map itemOfEntry, recordChecksum := none }

/-- The take of `c` from the head of the queue: COMMITTING, the current record, DRAIN; DRAIN ends at once when the
buffer holds no entry tagged `c` (R51, R65, R66). -/
def takeContext (s : State) (c : ContextId) (rest : List ContextId) : State :=
  endDrain
    { s with
      commitQueue := rest
      contexts := s.contexts.set c { s.contexts.get c with state := .committing }
      engine := { s.engine with stage := .drain, record := some (recordFor s c), pos := .start } }

/-- TAKE_WORK (R65): an IDLE engine in SERVING takes the head of the commit queue. -/
def execTakeWork (s : State) : Host.Outcome State Fault Refusal :=
  .next (whenPowered s fun s =>
    match s.commitQueue with
    | c :: rest =>
      if s.engine.stage = .idle ∧ s.bridge.state = .serving ∧ engineRuns s = true then takeContext s c rest else s
    | [] => s)

/-- SUM_READ (R67). -/
def execSumRead (o : TakenOrder) (s : State) : Host.Outcome State Fault Refusal :=
  .next (onEngineCompletion s .sumRead .sum o fun w s1 => sumWord s1 w)

/-- JOURNAL_WRITE (R69). -/
def execJournalWrite (o : TakenOrder) (s : State) : Host.Outcome State Fault Refusal :=
  .next (onEngineCompletion s .journalWrite .write o fun _ s1 => journalWritten s1)

/-- MARK_WRITE (R70, R71): the commit point. -/
def execMarkWrite (o : TakenOrder) (s : State) : Host.Outcome State Fault Refusal :=
  .next (onEngineCompletion s .markWrite .mark o fun _ s1 => commitPoint s1)

/-- COPY_READ (R73). -/
def execCopyRead (o : TakenOrder) (s : State) : Host.Outcome State Fault Refusal :=
  .next (onEngineCompletion s .copyRead .copy o fun w s1 => copyWordRead s1 w)

/-- COPY_WRITE (R73). -/
def execCopyWrite (o : TakenOrder) (s : State) : Host.Outcome State Fault Refusal :=
  .next (onEngineCompletion s .copyWrite .copy o fun _ s1 => copyWritten s1)

/-- RETIRE_WRITE (R74). -/
def execRetireWrite (o : TakenOrder) (s : State) : Host.Outcome State Fault Refusal :=
  .next (onEngineCompletion s .retireWrite .retire o fun _ s1 => retireCommit s1)

end Sys2Proof.Machine
end

