-- ==== Sys2Proof/Machine/Context.lean ====
section
/-! DEFINITION. The context commands OPEN, COMMIT and ABORT (chapter 3). -/

namespace Sys2Proof.Machine

/-- Steps 1 and 2 of the check of a context command; step 3 is the command's own (R44). -/
def contextCommand (s : State) (c : Byte) (step3 : ContextId → Answer) : Answer :=
  if s.bridge.state ≠ .serving then refused s .wrongState
  else
    match contextOf c with
    | none => refused s .badArgument
    | some k => step3 k

/-- OPEN c (R45). -/
def execOpenContext (c : Byte) (s : State) : Host.Outcome State Fault Refusal :=
  .next (decodeCommand s 0x10 [c] fun s => contextCommand s c fun k =>
    match (s.contexts.get k).state with
    | .idle => accepted (s.setContext k { s.contexts.get k with state := .opened, entryCount := 0 })
    | .opened | .failed _ _ | .queued | .committing => refused s .wrongState)

/-- The number of contexts that are QUEUED or COMMITTING (R46). -/
def commitsAhead (s : State) : Nat :=
  (allContexts.filter fun c =>
    decide ((s.contexts.get c).state = .queued ∨ (s.contexts.get c).state = .committing)).length

/-- The prospective sequence of a COMMIT (R46). -/
def prospectiveSequence (s : State) : Nat := s.engine.lastSequence.toNat + 1 + commitsAhead s

/-- An accepted COMMIT of an OPEN context: an empty commit at decode, or an append to the commit queue (R47, R48). -/
def commitContext (s : State) (k : ContextId) : State :=
  let r := s.contexts.get k
  if r.entryCount = 0 then pushEvent (s.setContext k { r with state := .idle }) (.committed k 0 0)
  else { s.setContext k { r with state := .queued } with commitQueue := s.commitQueue ++ [k] }

/-- COMMIT c (R46). -/
def execCommit (c : Byte) (s : State) : Host.Outcome State Fault Refusal :=
  .next (decodeCommand s 0x11 [c] fun s => contextCommand s c fun k =>
    match (s.contexts.get k).state with
    | .opened => if 0xFFFFFFFF < prospectiveSequence s then refused s .exhausted else accepted (commitContext s k)
    | .idle | .failed _ _ | .queued | .committing => refused s .wrongState)

/-- The buffer after an ABORT of `c`: every entry tagged `c` is removed, except a begun head (R55, R134). -/
def discardTagged (b : PostedBuffer) (c : ContextId) : PostedBuffer :=
  let keep := fun e : PostedEntry => decide (e.tag ≠ some c)
  match b.entries with
  | [] => b
  | e :: es =>
    if keep e || (b.head.map DrainHead.begun).getD false then { b with entries := e :: es.filter keep }
    else bufferFrom (es.filter keep)

/-- The read is tagged `c` and resolved to a word of a frame of one of these entries (R56, R116). -/
def readsFrameOf (s : State) (r : Request) (c : ContextId) (removed : List MapEntry) : Bool :=
  decide (contextOf r.tag = some c) &&
    (r.resolved.map fun a => removed.any fun e => pageOf a == s.homePages + e.frame).getD false

/-- What an accepted ABORT of `c` does to the outstanding request (R56, R116). `removed` are the map entries it removed,
`freed` says that the discard freed a buffer entry. -/
def abortHost (s : State) (c : ContextId) (removed : List MapEntry) (freed : Bool) : State :=
  match s.host.outstanding with
  | none => s
  | some r =>
    match r.phase with
    | .held .bufferFull => if freed then releaseHeld s .bufferFull else s
    | .held .readWait =>
      if readsFrameOf s r c removed then completeFault s r .contextClosed
      else
        match r.resolved with
        | some a => if conflicts s.buffer a then s else grantRead s r a
        | none => s
    | .readGrant => if readsFrameOf s r c removed then completeFault s r .contextClosed else s
    | .held .record | .classifying | .readTransfer => s

/-- An accepted ABORT of `c`, as one claim: queue, buffer, page map, context record, and then the outstanding request
(R55, R56). -/
def abortContext (s : State) (c : ContextId) : State :=
  let b := discardTagged s.buffer c
  let s1 := ({ s with commitQueue := s.commitQueue.filter (fun x => decide (x ≠ c)), buffer := b }).abortClaim c
  let s2 := s1.setContext c { s.contexts.get c with state := .idle, entryCount := 0 }
  abortHost s2 c (entriesOf s.pageMap c) (decide (b.entries.length < s.buffer.entries.length))

/-- ABORT c (R54, R55). -/
def execAbort (c : Byte) (s : State) : Host.Outcome State Fault Refusal :=
  .next (decodeCommand s 0x12 [c] fun s => contextCommand s c fun k =>
    match (s.contexts.get k).state with
    | .opened | .failed _ _ | .queued => accepted (abortContext s k)
    | .committing => refused s .tooLate
    | .idle => refused s .wrongState)

end Sys2Proof.Machine
end

