-- ==== Sys2Proof/Machine/Control.lean ====
section
/-! DEFINITION. The management commands that set the part or change its state: SET_CONFIG, SET_REGION, CLEAR_FAULTS,
FORMAT, RESUME and RESTART. -/

namespace Sys2Proof.Machine

/-- What setting an item does at the decode besides setting it: FREEZE set while REPORTED re-arms (R147), and auto-resume
turned on may resume (R151). -/
def itemEffect (s : State) (item : Nat) : State :=
  match item with
  | 3 => if s.monitor.phase = .reported ∧ s.settings.tripMode = .freeze then enterArmed s else s
  | 4 => autoResume s
  | _ => s

/-- SET_CONFIG item value (R155, R165). -/
def execSetConfig (item : Byte) (value : BitVec 16) (s : State) : Host.Outcome State Fault Refusal :=
  .next (decodeCommand s 0x20 [item, highByte value, lowByte value] fun s =>
    match s.settings.setItem item.toNat value.toNat with
    | none => refused s .badArgument
    | some c => accepted (itemEffect { s with settings := c } item.toNat))

/-- The kind of a region code other than NONE (R175). -/
def regionKindOf (code : Nat) : Option RegionKind :=
  match code with
  | 1 => some .readOnly
  | 2 => some .contextOnly
  | 3 => some .directOnly
  | _ => none

/-- The page below which LAST of an enabled descriptor must lie: H in SERVING, A − 1 in UNFORMATTED (R109). -/
def regionLimit (s : State) : Nat :=
  if s.bridge.state = .unformatted then s.bridge.strapPages - 1 else s.homePages

/-- SET_REGION i, FIRST, LAST, ATTRIBUTE (R109). -/
def execSetRegion (i : Byte) (first last : BitVec 16) (kind : Byte) (s : State) : Host.Outcome State Fault Refusal :=
  .next (decodeCommand s 0x21 [i, highByte first, lowByte first, highByte last, lowByte last, kind] fun s =>
    if s.bridge.state ≠ .serving ∧ s.bridge.state ≠ .unformatted then refused s .wrongState
    else if 7 < i.toNat ∨ 3 < kind.toNat then refused s .badArgument
    else
      match regionKindOf kind.toNat with
      | none => accepted { s with regions := s.regions.setIfInBounds i.toNat .disabled }
      | some k =>
        if first.toNat ≤ last.toNat ∧ last.toNat < regionLimit s then
          accepted { s with
            regions := s.regions.setIfInBounds i.toNat { kind := some k, first := first.toNat, last := last.toNat } }
        else refused s .badArgument)

/-- CLEAR_FAULTS (R100). -/
def execClearFaults (s : State) : Host.Outcome State Fault Refusal :=
  .next (decodeCommand s 0x22 [] fun s =>
    if s.bridge.state = .recovering ∨ (s.bridge.state = .frozen ∧ s.bridge.returnState = some .recovering) then
      refused s .wrongState
    else accepted { s with engine := { s.engine with faultList := [], faultCount := 0 } })

/-- The state conditions of FORMAT (R14). -/
def formatAdmitted (s : State) : Bool :=
  match s.bridge.state with
  | .unformatted => true
  | .serving =>
    allContexts.all (fun c => decide ((s.contexts.get c).state = .idle)) && s.commitQueue.isEmpty
      && decide (s.engine.stage = .idle)
  | .starting | .recovering | .formatting | .frozen | .resetting => false

/-- An accepted FORMAT: a waiting request faults NOT_READY, the bridge enters FORMATTING and the engine its FORMAT stage
at step 1 (R14, R15). -/
def enterFormatting (s : State) (frames : Nat) : State :=
  let s1 := faultWaiting s .notReady
  endFormatDrain
    { s1 with
      bridge := { s1.bridge with state := .formatting }
      engine := { s1.engine with stage := .format, formatFrames := some frames, formatStep := some 1, pos := .start } }

/-- FORMAT F (R14). -/
def execFormat (frames : BitVec 16) (s : State) : Host.Outcome State Fault Refusal :=
  .next (decodeCommand s 0x30 [highByte frames, lowByte frames] fun s =>
    if formatAdmitted s then
      if frameCountAcceptable s.bridge.strapPages frames.toNat then accepted (enterFormatting s frames.toNat)
      else refused s .badArgument
    else refused s .wrongState)

/-- RESUME (R152). -/
def execResume (s : State) : Host.Outcome State Fault Refusal :=
  .next (decodeCommand s 0x31 [] fun s =>
    if s.bridge.state = .frozen ∧ s.monitor.level = false ∧ drainFinished s = true then accepted (resumeBridge s)
    else refused s .wrongState)

/-- RESTART (R172): RESETTING is entered as on a fall of RST_N; in RESETTING it has no further effect. -/
def execRestart (s : State) : Host.Outcome State Fault Refusal :=
  .next (decodeCommand s 0x3F [] fun s => accepted (enterResetting s))

end Sys2Proof.Machine
end

