-- ==== Sys2Proof/Machine/Frame.lean ====
section
/-! DEFINITION. The framing of the management port: FRAME_START, FRAME_END, BAD_COMMAND and BYTE_COMPLETE. -/

namespace Sys2Proof.Machine

/-- FRAME_START (R156): MSEL_N falls and a frame begins. -/
def execFrameStart (s : State) : Host.Outcome State Fault Refusal :=
  .next (whenPowered s fun s =>
    if s.mgmt.mselN then
      { s with mgmt :=
          { mselN := false, phase := .command, code := none, args := [], bits := [], bytes := 0, response := [] } }
    else s)

/-- FRAME_END (R156, R160): MSEL_N rises; what the frame held is dropped, the bits of an incomplete byte with it, before
its decode point with no effect. -/
def execFrameEnd (s : State) : Host.Outcome State Fault Refusal :=
  .next (whenPowered s fun s =>
    if s.mgmt.mselN then s
    else { s with mgmt :=
        { mselN := true, phase := .idle, code := none, args := [], bits := [], bytes := 0, response := [] } })

/-- BAD_COMMAND (R159): byte 0 completes with a code that names no command; the status is BAD_COMMAND and the rest of
the frame is ignored. -/
def execBadCommand (code : Byte) (s : State) : Host.Outcome State Fault Refusal :=
  .next (whenPowered s fun s =>
    if s.mgmt.phase = .command ∧ argumentCount code = none ∧ s.mgmt.completesAs code = true then
      { s with mgmt := { s.mgmt.nextByte with
          phase := .ignoring, code := some code, args := [], response := [Status.badCommand.byte] } }
    else s)

/-- The frame after a byte completes: before the decode point the command code of a command with arguments, or an argument
byte short of the last (R156, R157), and after it a byte that is ignored (R158, R159). A byte at the decode point is the
row of its command, and one with an unknown code is BAD_COMMAND: here its last bit is not taken (assumption log 7). -/
def takeByte (m : MgmtPort) (b : Byte) : MgmtPort :=
  match m.phase with
  | .command =>
    match argumentCount b with
    | some (_ + 1) => { m.nextByte with phase := .arguments, code := some b, args := [] }
    | _ => m
  | .arguments =>
    match m.code.bind argumentCount with
    | some n => if m.args.length + 1 < n then { m.nextByte with args := m.args ++ [b] } else m
    | none => m
  | .response | .ignoring => m.nextByte
  | .idle => m

/-- The frame after one bit is taken from MDI at a rising edge of MCLK; the eighth completes the byte. Without a frame no
bit is taken (R156). -/
def takeBit (m : MgmtPort) (b : Bool) : MgmtPort :=
  if m.phase = .idle then m
  else if m.bits.length < 7 then { m with bits := m.bits ++ [b] }
  else takeByte m (byteOfBits (m.bits ++ [b]))

/-- BYTE_COMPLETE (R156). -/
def execByteComplete (bits : List Bool) (s : State) : Host.Outcome State Fault Refusal :=
  .next (whenPowered s fun s => { s with mgmt := bits.foldl takeBit s.mgmt })

end Sys2Proof.Machine
end

