-- ==== Sys2Proof/Machine/HostPort.lean ====
section
/-! DEFINITION. The host port: HOST_REQUEST, HREQ_FALL, HOLD_TIMEOUT and HOST_READ_COMPLETE. -/

namespace Sys2Proof.Machine

/-- The request as sampled at arrival (R102). -/
def sampledRequest (addr : WordAddr) (tag : BitVec 3) (op : HostOp) : Request :=
  { addr, tag, op, phase := .classifying, resolved := none, regionPassed := false }

/-- HOST_REQUEST (R102, R104): HREQ rises. With no request outstanding a request arrives, is sampled and classified. -/
def execHostRequest (addr : WordAddr) (tag : BitVec 3) (op : HostOp) (s : State) : Host.Outcome State Fault Refusal :=
  .next (whenPowered s fun s =>
    if s.host.hreq then s
    else
      let s1 := { s with host := { s.host with hreq := true } }
      if s.host.outstanding.isSome then s1 else classifyRequest s1 (sampledRequest addr tag op))

/-- HREQ_FALL (R102): HDONE falls with HREQ; before completion the request goes on. -/
def execHreqFall (s : State) : Host.Outcome State Fault Refusal :=
  .next (whenPowered s fun s => { s with host := { s.host with hreq := false, hdone := false } })

/-- The hold timer can expire: a timeout of 0 sets no limit (R121). -/
def holdExpires (s : State) : Bool :=
  match s.host.holdTimer with
  | some t => decide (t ≠ 0)
  | none => false

/-- The request is HELD. -/
def HostPhase.isHeld : HostPhase → Bool
  | .held _ => true
  | .classifying | .readGrant | .readTransfer => false

/-- HOLD_TIMEOUT (R123): the hold timer of a held request reaches the hold timeout. -/
def execHoldTimeout (s : State) : Host.Outcome State Fault Refusal :=
  .next (whenPowered s fun s =>
    match s.host.outstanding with
    | some r => if r.phase.isHeld && holdExpires s then completeFault s r .holdTimeout else s
    | none => s)

/-- HOST_READ_COMPLETE (R115): the transfer of a host read completes, and the request completes DONE with the word. -/
def execHostReadComplete (s : State) : Host.Outcome State Fault Refusal :=
  .next (onCompletion s .hostRead fun _ w s1 =>
    autoResume
      (match s1.host.outstanding with
       | some r => if r.phase = .readTransfer then completeDone s1 r w else s1
       | none => s1))

end Sys2Proof.Machine
end

