-- ==== Sys2Proof/Machine/Power.lean ====
section
/-! DEFINITION. Power and reset: POWER_ON_RESET, RST_N_FALL, RST_N_RISE, WARM_RESET_POINT and POWER_LOSS. -/

namespace Sys2Proof.Machine

/-- POWER_ON_RESET (R8): every piece of volatile state at its power-on value, in STARTING; with RST_N low the bridge goes
at once to RESETTING. -/
def execPowerOnReset (pins : PinLevels) (s : State) : Host.Outcome State Fault Refusal :=
  .next (let s1 := powerOnState s pins
         if pins.rstN then s1 else enterResetting s1)

/-- RST_N_FALL (R18): RESETTING is entered from any other state; in RESETTING only the level changes. -/
def execRstNFall (s : State) : Host.Outcome State Fault Refusal :=
  .next (whenPowered s fun s =>
    if s.bridge.rstN then enterResetting { s with bridge := { s.bridge with rstN := false } } else s)

/-- RST_N_RISE (R18): after the warm-reset point STARTING is entered; before it the level takes effect at that point. -/
def execRstNRise (s : State) : Host.Outcome State Fault Refusal :=
  .next (whenPowered s fun s =>
    if s.bridge.rstN then s
    else
      let s1 := { s with bridge := { s.bridge with rstN := true } }
      if s.bridge.state = .resetting ∧ s.bridge.warmPointPassed = true then enterStarting s1 else s1)

/-- WARM_RESET_POINT (R18): in RESETTING, once the buffer is empty and no transfer is in progress; STARTING follows at
once when RST_N is high. -/
def execWarmResetPoint (s : State) : Host.Outcome State Fault Refusal :=
  .next (whenPowered s fun s =>
    if s.bridge.state = .resetting ∧ s.bridge.warmPointPassed = false ∧ drainFinished s = true then
      let s1 := warmResetState s
      if s.bridge.rstN then enterStarting s1 else s1
    else s)

/-- The part without its supply: no volatile state, the array as it is left (R80, R142). -/
def unpoweredState (s : State) (array : Memory) (freeCount : Nat) : State :=
  { State.reset with
    powered := false
    monitor := { State.reset.monitor with delayTimer := .stopped }
    array := array
    freeCount := freeCount
    pending := s.pending }

/-- POWER_LOSS (R80, R136, R142): the transfer in progress is cut, a word write reaching the array whole, torn or not at
all, and all volatile state is lost. -/
def execPowerLoss (o : LossOutcome) (s : State) : Host.Outcome State Fault Refusal :=
  .next (whenPowered s fun s =>
    match s.port with
    | some t =>
      if t.isWrite then
        unpoweredState s (cutWrite s.array t s.freeCount o) (if o = .torn then s.freeCount + 1 else s.freeCount)
      else unpoweredState s s.array s.freeCount
    | none => unpoweredState s s.array s.freeCount)

end Sys2Proof.Machine
end

