-- ==== Sys2Proof/Machine/Query.lean ====
section
/-! DEFINITION. The management commands that answer with a record: STATUS, READ_CONTEXT, LOOKUP, READ_EVENTS,
READ_FAULTS, GET_CONFIG and GET_REGION. -/

namespace Sys2Proof.Machine

/-- STATUS (R164): accepted in every bridge state. -/
def execStatus (s : State) : Host.Outcome State Fault Refusal :=
  .next (decodeCommand s 0x01 [] fun s => accepted s (statusRecord s))

/-- READ_CONTEXT c (R59). -/
def execReadContext (c : Byte) (s : State) : Host.Outcome State Fault Refusal :=
  .next (decodeCommand s 0x02 [c] fun s =>
    match contextOf c with
    | none => refused s .badArgument
    | some k => accepted s (contextRecordBytes s k))

/-- LOOKUP p (R39). -/
def execLookup (page : BitVec 16) (s : State) : Host.Outcome State Fault Refusal :=
  .next (decodeCommand s 0x03 [highByte page, lowByte page] fun s =>
    match s.bridge.geometry with
    | none => refused s .wrongState
    | some g => if g.homePages ≤ page.toNat then refused s .badArgument else accepted s (lookupRecord s page.toNat))

/-- The removal of up to `n` records from the head of the event queue; the overflow flag clears when the queue is left
empty (R169). -/
def popEvents (s : State) (n : Nat) : State :=
  { s with
    events := s.events.drop n
    overflow := if s.events.drop n = [] then false else s.overflow }

/-- READ_EVENTS n (R169). -/
def execReadEvents (n : Byte) (s : State) : Host.Outcome State Fault Refusal :=
  .next (decodeCommand s 0x04 [n] fun s =>
    if 1 ≤ n.toNat ∧ n.toNat ≤ 16 then
      let es := s.events.take n.toNat
      accepted (popEvents s n.toNat) (byteField es.length ++ es.flatMap Event.bytes)
    else refused s .badArgument)

/-- READ_FAULTS (R99). -/
def execReadFaults (s : State) : Host.Outcome State Fault Refusal :=
  .next (decodeCommand s 0x05 [] fun s => accepted s (faultRecord s))

/-- GET_CONFIG item (R166). -/
def execGetConfig (item : Byte) (s : State) : Host.Outcome State Fault Refusal :=
  .next (decodeCommand s 0x06 [item] fun s =>
    match s.settings.item item.toNat with
    | none => refused s .badArgument
    | some v => accepted s (twoBytes v))

/-- GET_REGION i (R110). -/
def execGetRegion (i : Byte) (s : State) : Host.Outcome State Fault Refusal :=
  .next (decodeCommand s 0x07 [i] fun s =>
    match s.region? i.toNat with
    | none => refused s .badArgument
    | some r => accepted s (regionRecord i.toNat r))

end Sys2Proof.Machine
end

