-- ==== Sys2Proof/Machine/Recovery.lean ====
section
/-! DEFINITION. Recovery and FORMAT: SCAN_READ, VERIFY_READ, APPLY_COPY_READ, APPLY_COPY_WRITE, RECOVERY_RETIRE_WRITE and
FORMAT_WRITE (chapter 5, R15). -/

namespace Sys2Proof.Machine

/-- SCAN_READ (R90, R91). -/
def execScanRead (o : TakenOrder) (s : State) : Host.Outcome State Fault Refusal :=
  .next (onEngineCompletion s .scanRead .scan o fun w s1 => scanWord s1 w)

/-- VERIFY_READ (R93, R94). -/
def execVerifyRead (o : TakenOrder) (s : State) : Host.Outcome State Fault Refusal :=
  .next (onEngineCompletion s .verifyRead .apply o fun w s1 => verifyWord s1 w)

/-- APPLY_COPY_READ (R93). -/
def execApplyCopyRead (o : TakenOrder) (s : State) : Host.Outcome State Fault Refusal :=
  .next (onEngineCompletion s .applyCopyRead .apply o fun w s1 => copyWordRead s1 w)

/-- APPLY_COPY_WRITE (R93). -/
def execApplyCopyWrite (o : TakenOrder) (s : State) : Host.Outcome State Fault Refusal :=
  .next (onEngineCompletion s .applyCopyWrite .apply o fun _ s1 => applyWritten s1)

/-- RECOVERY_RETIRE_WRITE (R95). -/
def execRecoveryRetireWrite (o : TakenOrder) (s : State) : Host.Outcome State Fault Refusal :=
  .next (onEngineCompletion s .recoveryRetireWrite .retire o fun _ s1 => recoveryRetired s1)

/-- FORMAT_WRITE (R15). In FROZEN a completion taken before the pause stores its word and takes no further effect (R16),
so only a completion in FORMATTING has one. -/
def execFormatWrite (o : TakenOrder) (s : State) : Host.Outcome State Fault Refusal :=
  .next (onEngineCompletion s .formatWrite .format o fun _ s1 =>
    if s1.bridge.state = .formatting then formatWritten s1 else s1)

end Sys2Proof.Machine
end

