-- ==== Sys2Proof/Machine/Sequencer.lean ====
section
/-! DEFINITION. The array sequencer, the drain of the posted-write buffer and the anchor read: ARRAY_GRANT, FILL_READ,
FILL_WRITE, DRAIN_WRITE and ANCHOR_READ. -/

namespace Sys2Proof.Machine

/-- ARRAY_GRANT (R138): with the port free and a client asking, one transfer of one client begins. -/
def execArrayGrant (s : State) : Host.Outcome State Fault Refusal :=
  .next (whenPowered s fun s =>
    match s.port, decideGrant s with
    | none, some g => beginTransfer s g
    | _, _ => s)

/-- The buffer with what its head carries replaced. -/
def setHead (s : State) (h : DrainHead) : State := { s with buffer := { s.buffer with head := some h } }

/-- FILL_READ (R128, R130): the word of FILL_READ i goes to word i of the fill store, and the position advances. -/
def execFillRead (s : State) : Host.Outcome State Fault Refusal :=
  .next (onCompletion s .fillRead fun _ w s1 =>
    match s1.buffer.head with
    | some h =>
      match h.pos with
      | .fillRead i =>
        setHead s1 { h with
          pos := if i < 7 then .fillRead (i + 1) else .fillWrite 0
          store := h.store.take i ++ [w] }
      | .fillWrite _ | .write => s1
    | none => s1)

/-- FILL_WRITE (R128, R130): the position advances. -/
def execFillWrite (s : State) : Host.Outcome State Fault Refusal :=
  .next (onCompletion s .fillWrite fun _ _ s1 =>
    match s1.buffer.head with
    | some h =>
      match h.pos with
      | .fillWrite i => setHead s1 { h with pos := if i < 7 then .fillWrite (i + 1) else .write }
      | .fillRead _ | .write => s1
    | none => s1)

/-- The head entry leaves the buffer, and the departure is handed on: to a held request, to the engine in DRAIN or at
its FORMAT drain step, and to bridge control in FROZEN (R131). -/
def departHead (s : State) : State :=
  autoResume (endFormatDrain (endDrain (releaseDeparture { s with buffer := bufferFrom s.buffer.entries.tail })))

/-- DRAIN_WRITE (R131). -/
def execDrainWrite (s : State) : Host.Outcome State Fault Refusal :=
  .next (onCompletion s .drainWrite fun _ _ s1 => departHead s1)

/-- The fifth anchor read has completed: the anchor is tested, and the bridge enters UNFORMATTED with ANCHOR_INVALID
queued and the geometry still absent, or RECOVERING with the geometry loaded, the free-frame list built and recovery begun; the monitor is ARMED
(R7, R10, R35, R90, R154). -/
def judgeAnchor (s : State) (ws : List Word) : State :=
  let s1 := { s with bridge := { s.bridge with anchorRead := none } }
  match testAnchor s.bridge.strapPages ws with
  | .invalid r =>
    enterArmed
      (pushEvent { s1 with bridge := { s1.bridge with state := .unformatted } } (.anchorInvalid r))
  | .valid g =>
    enterArmed
      (beginRecovery
        { s1 with
          bridge := { s1.bridge with state := .recovering, geometry := some g }
          pageMap := [], freeFrames := allFrames g })

/-- ANCHOR_READ (R10): a word of the anchor; an abandoned read's data is discarded. -/
def execAnchorRead (s : State) : Host.Outcome State Fault Refusal :=
  .next (onCompletion s .anchorRead fun t w s1 =>
    match s1.bridge.anchorRead with
    | some ws =>
      if t.abandoned || decide (s1.bridge.state ≠ .starting) then s1
      else if ws.length < 4 then { s1 with bridge := { s1.bridge with anchorRead := some (ws ++ [w]) } }
      else judgeAnchor s1 (ws ++ [w])
    | none => s1)

end Sys2Proof.Machine
end

