-- ==== Sys2Proof/Machine/Supply.lean ====
section
/-! DEFINITION. The supply monitor's line and timers: SUPPLY_FALL_ASSERT, SUPPLY_FALL_DEASSERT, TRIP, GATE_OPEN,
RESUME_DELAY_MET and REARM_DELAY_MET. -/

namespace Sys2Proof.Machine

/-- The delay timer runs. -/
def DelayTimer.isRunning : DelayTimer → Bool
  | .running _ => true
  | .stopped | .met => false

/-- The delay timer stopped and cleared (R143). -/
def stopDelay (s : State) : State := { s with monitor := { s.monitor with delayTimer := .stopped } }

/-- What an assertion of SUPPLY_FALL does in the present phase (R9, R10, R143, R144). -/
def lineAsserted (s : State) : State :=
  match s.monitor.phase with
  | .gating => stopDelay (abandonAnchorRead s)
  | .armed => startFilter s
  | .reported | .resumeWait => stopDelay s
  | .ignoring => s

/-- What a deassertion of SUPPLY_FALL does in the present phase (R143, R144). -/
def lineDeasserted (s : State) : State :=
  match s.monitor.phase with
  | .armed => { s with monitor := { s.monitor with filterTimer := none } }
  | .gating | .reported | .resumeWait => startDelay s
  | .ignoring => s

/-- SUPPLY_FALL_ASSERT (R143): the line rises. -/
def execSupplyFallAssert (s : State) : Host.Outcome State Fault Refusal :=
  .next (whenPowered s fun s =>
    if s.monitor.level then s else lineAsserted { s with monitor := { s.monitor with level := true } })

/-- SUPPLY_FALL_DEASSERT (R143): the line falls. -/
def execSupplyFallDeassert (s : State) : Host.Outcome State Fault Refusal :=
  .next (whenPowered s fun s =>
    if s.monitor.level then lineDeasserted { s with monitor := { s.monitor with level := false } } else s)

/-- TRIP (R144, R145): the running filter timer of ARMED reaches the filter time. -/
def execTrip (s : State) : Host.Outcome State Fault Refusal :=
  .next (whenPowered s fun s =>
    if s.monitor.phase = .armed ∧ s.monitor.filterTimer.isSome = true then takeTrip s else s)

/-- GATE_OPEN (R2, R9, R10): the running gate timer reaches the resume delay; SIZE is sampled and the anchor read
begins. -/
def execGateOpen (size : BitVec 3) (s : State) : Host.Outcome State Fault Refusal :=
  .next (whenPowered s fun s =>
    if s.bridge.state = .starting ∧ s.monitor.delayTimer.isRunning = true then
      { s with
        bridge := { s.bridge with strapPages := sizePages size, anchorRead := some [] }
        monitor := { s.monitor with delayTimer := .met } }
    else s)

/-- RESUME_DELAY_MET (R150, R151): the running resume timer of RESUME_WAIT reaches the resume delay. -/
def execResumeDelayMet (s : State) : Host.Outcome State Fault Refusal :=
  .next (whenPowered s fun s =>
    if s.monitor.phase = .resumeWait ∧ s.monitor.delayTimer.isRunning = true then
      autoResume { s with monitor := { s.monitor with delayTimer := .met } }
    else s)

/-- REARM_DELAY_MET (R147): the running re-arm timer of REPORTED reaches the resume delay. -/
def execRearmDelayMet (s : State) : Host.Outcome State Fault Refusal :=
  .next (whenPowered s fun s =>
    if s.monitor.phase = .reported ∧ s.monitor.delayTimer.isRunning = true then enterArmed s else s)

end Sys2Proof.Machine
end

