-- ==== Sys2Proof/Machine/Dispatch.lean ====
section
/-! DEFINITION. The dispatch of a command to its meaning: one arm for each row of spec/opcode_table.json. -/

namespace Sys2Proof.Machine

def exec (i : Instr) (s : State) : Host.Outcome State Fault Refusal :=
  match i with
  | .powerOnReset pins => Sys2Proof.Machine.execPowerOnReset pins s
  | .rstNFall => Sys2Proof.Machine.execRstNFall s
  | .rstNRise => Sys2Proof.Machine.execRstNRise s
  | .warmResetPoint => Sys2Proof.Machine.execWarmResetPoint s
  | .supplyFallAssert => Sys2Proof.Machine.execSupplyFallAssert s
  | .supplyFallDeassert => Sys2Proof.Machine.execSupplyFallDeassert s
  | .trip => Sys2Proof.Machine.execTrip s
  | .gateOpen size => Sys2Proof.Machine.execGateOpen size s
  | .resumeDelayMet => Sys2Proof.Machine.execResumeDelayMet s
  | .rearmDelayMet => Sys2Proof.Machine.execRearmDelayMet s
  | .holdTimeout => Sys2Proof.Machine.execHoldTimeout s
  | .hostRequest addr tag op => Sys2Proof.Machine.execHostRequest addr tag op s
  | .hreqFall => Sys2Proof.Machine.execHreqFall s
  | .frameStart => Sys2Proof.Machine.execFrameStart s
  | .frameEnd => Sys2Proof.Machine.execFrameEnd s
  | .badCommand code => Sys2Proof.Machine.execBadCommand code s
  | .status => Sys2Proof.Machine.execStatus s
  | .readContext c => Sys2Proof.Machine.execReadContext c s
  | .lookup page => Sys2Proof.Machine.execLookup page s
  | .readEvents n => Sys2Proof.Machine.execReadEvents n s
  | .readFaults => Sys2Proof.Machine.execReadFaults s
  | .getConfig item => Sys2Proof.Machine.execGetConfig item s
  | .getRegion n => Sys2Proof.Machine.execGetRegion n s
  | .openContext c => Sys2Proof.Machine.execOpenContext c s
  | .commit c => Sys2Proof.Machine.execCommit c s
  | .abort c => Sys2Proof.Machine.execAbort c s
  | .setConfig item value => Sys2Proof.Machine.execSetConfig item value s
  | .setRegion n first last kind => Sys2Proof.Machine.execSetRegion n first last kind s
  | .clearFaults => Sys2Proof.Machine.execClearFaults s
  | .format frames => Sys2Proof.Machine.execFormat frames s
  | .resume => Sys2Proof.Machine.execResume s
  | .restart => Sys2Proof.Machine.execRestart s
  | .takeWork => Sys2Proof.Machine.execTakeWork s
  | .arrayGrant => Sys2Proof.Machine.execArrayGrant s
  | .hostReadComplete => Sys2Proof.Machine.execHostReadComplete s
  | .fillRead => Sys2Proof.Machine.execFillRead s
  | .fillWrite => Sys2Proof.Machine.execFillWrite s
  | .drainWrite => Sys2Proof.Machine.execDrainWrite s
  | .anchorRead => Sys2Proof.Machine.execAnchorRead s
  | .sumRead o => Sys2Proof.Machine.execSumRead o s
  | .journalWrite o => Sys2Proof.Machine.execJournalWrite o s
  | .markWrite o => Sys2Proof.Machine.execMarkWrite o s
  | .copyRead o => Sys2Proof.Machine.execCopyRead o s
  | .copyWrite o => Sys2Proof.Machine.execCopyWrite o s
  | .retireWrite o => Sys2Proof.Machine.execRetireWrite o s
  | .scanRead o => Sys2Proof.Machine.execScanRead o s
  | .verifyRead o => Sys2Proof.Machine.execVerifyRead o s
  | .applyCopyRead o => Sys2Proof.Machine.execApplyCopyRead o s
  | .applyCopyWrite o => Sys2Proof.Machine.execApplyCopyWrite o s
  | .recoveryRetireWrite o => Sys2Proof.Machine.execRecoveryRetireWrite o s
  | .formatWrite o => Sys2Proof.Machine.execFormatWrite o s
  | .powerLoss outcome => Sys2Proof.Machine.execPowerLoss outcome s
  | .byteComplete bits => Sys2Proof.Machine.execByteComplete bits s

end Sys2Proof.Machine
end

