-- ==== Sys2Proof/Safety.lean ====
section
/-! DEFINITION. What the machine keeps at every step, in the terms of the manual's rules: the invariants that the
statements of Certificates/Slice0 name, and the terms in which those statements say what a command does. -/

namespace Sys2Proof.Machine

/-- The bridge state whose work the blocks hold: the return state in FROZEN, and the bridge state otherwise (R5). -/
def State.activeState (s : State) : BridgeState := s.bridge.returnState.getD s.bridge.state

/-- The blocks of an update may hold something: in SERVING, in FROZEN entered from it, and in RESETTING until the
warm-reset point (R36, R43). -/
def State.mayHoldUpdates (s : State) : Prop :=
  s.activeState = .serving ∨ (s.activeState = .resetting ∧ s.bridge.warmPointPassed = false)

/-- The array is in its canonical form. -/
def ArrayCanonical (s : State) : Prop := Memory.wf s.array

/-- Each frame number from 0 to F − 1 is on the free-frame list exactly once or in exactly one page-map entry, and never
both; without a geometry both are empty (R34, R36). -/
def FramesAccounted (s : State) : Prop :=
  (s.freeFrames ++ s.pageMap.map MapEntry.frame).Perm (List.range s.frames)

/-- The page map holds each home page once, below H, with at least one written block (R19, R20). -/
structure PageMapOrdered (s : State) : Prop where
  ascending : s.pageMap.Pairwise (fun a b => a.homePage < b.homePage)
  inHomeArea : ∀ e ∈ s.pageMap, e.homePage < s.homePages
  someBlock : ∀ e ∈ s.pageMap, e.written ≠ 0

/-- The engine stages in which the context of the current record has not passed its commit point (R42, R60). -/
def Stage.beforeCommitPoint : Stage → Bool
  | .drain | .sum | .write | .mark => true
  | .idle | .copy | .retire | .scan | .apply | .format => false

/-- The commit queue holds each QUEUED context once and no other, and the context of a record on its way to its commit
point is COMMITTING (R42, R50, R51). -/
structure CommitQueueExact (s : State) : Prop where
  once : s.commitQueue.Nodup
  queued : ∀ c, c ∈ s.commitQueue ↔ (s.contexts.get c).state = .queued
  committing : ∀ r c, s.engine.stage.beforeCommitPoint = true → s.engine.record = some r → r.context = some c →
    (s.contexts.get c).state = .committing

/-- The ENTRY_COUNT of each context is the number of page-map entries it owns, at most 128, and 0 when it is IDLE; all
four are IDLE where no update can be under way (R26, R41, R43). -/
structure ContextsAccounted (s : State) : Prop where
  counted : ∀ c, (s.contexts.get c).entryCount = (entriesOf s.pageMap c).length
  capped : ∀ c, (s.contexts.get c).entryCount ≤ contextCapacity
  idleEmpty : ∀ c, (s.contexts.get c).state = .idle → (s.contexts.get c).entryCount = 0
  quiet : ¬ s.mayHoldUpdates → ∀ c, (s.contexts.get c).state = .idle

/-- Entries are PENDING or COPIED only from a commit point to the retire, and the map is empty where no update can be
under way (R21, R36, R75). -/
structure RecordEntriesConfined (s : State) : Prop where
  confined : s.engine.stage ≠ .copy → s.engine.stage ≠ .retire → ∀ e ∈ s.pageMap, inRecord e = false
  quiet : ¬ s.mayHoldUpdates → s.pageMap = []

/-- What an item of a record and a page-map entry have in common: HOME_PAGE, FRAME and WRITTEN_BLOCKS (R61). -/
def RecordItem.place (it : RecordItem) : Nat × Nat × BlockSet := (it.homePage, it.frame, it.written)

/-- The same of a page-map entry (R19). -/
def MapEntry.place (e : MapEntry) : Nat × Nat × BlockSet := (e.homePage, e.frame, e.written)

/-- Until its commit point the current record names exactly the entries its context owns, in ascending HOME_PAGE, and
their number (R48, R61, R65). -/
def RecordMatchesMap (s : State) : Prop :=
  ∀ r c, s.engine.stage.beforeCommitPoint = true → s.engine.record = some r → r.context = some c →
    r.items.map RecordItem.place = (entriesOf s.pageMap c).map MapEntry.place ∧ r.entryCount = r.items.length

/-- The lists of fixed capacity stay within it, the buffer has a head exactly when it holds an entry, and the fault list
holds the first eight of the pages counted; the byte in progress of a frame is incomplete (R89, R127, R128, R156, R168). -/
structure WithinCapacity (s : State) : Prop where
  events : s.events.length ≤ eventCapacity
  buffer : s.buffer.entries.length ≤ bufferCapacity
  head : s.buffer.head.isSome = true ↔ s.buffer.entries ≠ []
  faultList : s.engine.faultList.length = min faultListCapacity s.engine.faultCount
  faultCount : s.engine.faultCount ≤ 255
  bits : s.mgmt.bits.length < 8

/-- Every configuration item is within its range (R155, R165). -/
structure SettingsInRange (s : State) : Prop where
  holdTimeout : s.settings.holdTimeout ≤ 65535
  tripFilter : s.settings.tripFilter ≤ 4
  resumeDelay : 1 ≤ s.settings.resumeDelay ∧ s.settings.resumeDelay ≤ 255

/-- A state in which a trip is taken, and to which a resume may return (R5, R145). -/
def BridgeState.trippable : BridgeState → Bool
  | .unformatted | .recovering | .serving | .formatting => true
  | .starting | .frozen | .resetting => false

/-- The monitor phase, the return state, the geometry and the pause agree with the bridge state (R5, R78, R143). -/
structure BridgeConsistent (s : State) : Prop where
  gating : s.monitor.phase = .gating ↔ s.bridge.state = .starting
  resumeWait : s.monitor.phase = .resumeWait ↔ s.bridge.state = .frozen
  ignoring : s.monitor.phase = .ignoring ↔ s.bridge.state = .resetting
  frozen : s.bridge.returnState.isSome = true ↔ s.bridge.state = .frozen
  returnState : ∀ r, s.bridge.returnState = some r → r.trippable = true
  present : s.activeState = .recovering ∨ s.activeState = .serving → s.bridge.geometry.isSome = true
  absent : s.activeState = .starting ∨ s.activeState = .unformatted
      ∨ (s.activeState = .resetting ∧ s.bridge.warmPointPassed = true) → s.bridge.geometry = none
  pausedInFrozen : s.bridge.state = .frozen → s.engine.pause ≠ .running
  runsElsewhere : s.engine.pause ≠ .running →
    s.bridge.state = .frozen ∨ (s.bridge.state = .resetting ∧ s.bridge.warmPointPassed = false)

/-- A geometry is acceptable: 16 ≤ F ≤ 256, H ≥ 64 and A = H + 9 + F (R3, R4). -/
def Geometry.acceptable (g : Geometry) : Prop :=
  16 ≤ g.frames ∧ g.frames ≤ 256 ∧ 64 ≤ g.homePages ∧ g.arrayPages = g.homePages + 9 + g.frames

/-- The geometry is acceptable, and so is the frame count of a FORMAT under way (R3, R4, R14). -/
structure GeometryAcceptable (s : State) : Prop where
  geometry : ∀ g, s.bridge.geometry = some g → g.acceptable
  format : s.activeState = .formatting →
    s.engine.stage = .format ∧ ∃ f, s.engine.formatFrames = some f ∧ frameCountAcceptable s.bridge.strapPages f = true

/-! ### Terms of the statements -/

/-- The transfer whose completion a command reports; `none` for every other command (R115, R130, R131, R10, R67 to R74,
R90 to R95, R15). -/
def completionOf : Instr → Option Purpose
  | .hostReadComplete => some .hostRead
  | .fillRead => some .fillRead
  | .fillWrite => some .fillWrite
  | .drainWrite => some .drainWrite
  | .anchorRead => some .anchorRead
  | .sumRead _ => some .sumRead
  | .journalWrite _ => some .journalWrite
  | .markWrite _ => some .markWrite
  | .copyRead _ => some .copyRead
  | .copyWrite _ => some .copyWrite
  | .retireWrite _ => some .retireWrite
  | .scanRead _ => some .scanRead
  | .verifyRead _ => some .verifyRead
  | .applyCopyRead _ => some .applyCopyRead
  | .applyCopyWrite _ => some .applyCopyWrite
  | .recoveryRetireWrite _ => some .recoveryRetireWrite
  | .formatWrite _ => some .formatWrite
  | .powerOnReset _ | .rstNFall | .rstNRise | .warmResetPoint | .supplyFallAssert | .supplyFallDeassert | .trip
  | .gateOpen _ | .resumeDelayMet | .rearmDelayMet | .holdTimeout | .hostRequest _ _ _ | .hreqFall | .frameStart
  | .frameEnd | .badCommand _ | .status | .readContext _ | .lookup _ | .readEvents _ | .readFaults | .getConfig _
  | .getRegion _ | .openContext _ | .commit _ | .abort _ | .setConfig _ _ | .setRegion _ _ _ _ | .clearFaults
  | .format _ | .resume | .restart | .takeWork | .arrayGrant | .powerLoss _ | .byteComplete _ => none

/-- The commands carried out one after the other, stopping at the first that faults or is refused. -/
def execAll : List Instr → State → Host.Outcome State Fault Refusal
  | [], s => .next s
  | c :: cs, s =>
    match exec c s with
    | .next t => execAll cs t
    | .fault f => .fault f
    | .refused r => .refused r

/-- The transfer of this purpose is in progress in a powered part (R136). -/
def transferring (s : State) (t : Transfer) : Prop := s.powered = true ∧ s.port = some t

/-- The array as the completion of a transfer leaves it (R135). -/
def arrayAfter (s : State) (t : Transfer) : Memory :=
  if t.isWrite then writeWord s.array t.addr t.data t.lanes else s.array

/-- The host port when the outstanding request completes DONE, with this word on HDATA (R102). -/
def hostDone (h : HostPort) (w : Word) : HostPort :=
  { hreq := h.hreq, hdone := h.hreq, hfault := false, hreason := 0, hdata := w, outstanding := none, holdTimer := none }

/-- The host port when the outstanding request completes with a fault, with this word on HDATA (R102, R175). -/
def hostFaulted (h : HostPort) (f : FaultReason) (w : Word) : HostPort :=
  { hreq := h.hreq, hdone := h.hreq, hfault := true, hreason := BitVec.ofNat 4 f.code, hdata := w, outstanding := none,
    holdTimer := none }

/-- HREQ can rise and find no request outstanding, so that a request arrives (R102). -/
def requestArrives (s : State) : Prop := s.powered = true ∧ s.host.hreq = false ∧ s.host.outstanding = none

/-- The host port as a request arrives. -/
def raised (h : HostPort) : HostPort := { h with hreq := true }

/-- HDATA as a faulting request leaves it: 0 for a read, not driven for a write (R102). -/
def faultData (h : HostPort) : HostOp → Word
  | .read => 0
  | .write _ _ => h.hdata

/-- The answer of a refused command: its status byte alone, and no other state changes (R158, R161). -/
def refusedWith (s : State) (code : Byte) (args : List Byte) (st : Status) : State :=
  { s with mgmt := { s.mgmt with
      phase := .response, code := some code, args := args, bits := [], bytes := s.mgmt.bytes + 1, response := [st.byte] } }

/-- The answer of an accepted command with this response data, in the state its effect leaves (R158, R161). -/
def acceptedWith (s : State) (code : Byte) (args data : List Byte) : State :=
  { s with mgmt := { s.mgmt with
      phase := .response, code := some code, args := args, bits := [], bytes := s.mgmt.bytes + 1, response := 0 :: data } }

/-- The bits of a byte as MDI and MDO carry them, the most significant first (R156). -/
def mdiBits (b : Byte) : List Bool :=
  [b.getLsbD 7, b.getLsbD 6, b.getLsbD 5, b.getLsbD 4, b.getLsbD 3, b.getLsbD 2, b.getLsbD 1, b.getLsbD 0]

/-- The machine after an arriving request has faulted with a reportable reason (R102, R126). -/
def requestFaulted (s : State) (addr : WordAddr) (tag : BitVec 3) (op : HostOp) (f : FaultReason) : State :=
  pushEvent { s with host := hostFaulted (raised s.host) f (faultData s.host op) } (.hostFault tag f addr)

/-- The machine after an arriving write has completed DONE; HDATA is not driven (R102). -/
def writeDone (s : State) : State := { s with host := hostDone (raised s.host) s.host.hdata }

/-- Step 3 admits the address: below H × 128 in SERVING, below the anchor page in UNFORMATTED (R106). -/
def addressAdmitted (s : State) (addr : WordAddr) : Prop :=
  (s.bridge.state = .serving ∧ addr.toNat < s.homePages * 128) ∨
  (s.bridge.state = .unformatted ∧ addr.toNat < (s.bridge.strapPages - 1) * 128)

/-- The descriptor is enabled and covers page `p` (R107). -/
def Region.covers (g : Region) (p : Nat) : Prop := g.kind.isSome = true ∧ g.first ≤ p ∧ p ≤ g.last

/-- The lowest-numbered enabled descriptor that covers the page denies a write of this tag (R107). -/
def regionDenies (s : State) (addr : WordAddr) (tag : BitVec 3) : Prop :=
  ∃ i : Fin 8, s.regions[i].covers (pageOf addr) ∧ (∀ j : Fin 8, j < i → ¬ s.regions[j].covers (pageOf addr)) ∧
    (s.regions[i].kind = some .readOnly ∨ (s.regions[i].kind = some .contextOnly ∧ tag = 0) ∨
      (s.regions[i].kind = some .directOnly ∧ tag ≠ 0))

/-- Steps 1 to 5 admit a write of this tag: 0, or the number of an OPEN context (R104, R107, R117). -/
def writeAdmitted (s : State) (addr : WordAddr) (tag : BitVec 3) : Prop :=
  addressAdmitted s addr ∧ ¬ regionDenies s addr tag ∧
  (tag = 0 ∨ ∃ c, contextOf tag = some c ∧ (s.contexts.get c).state = .opened)

/-- The map has no entry for the page (R20). -/
def noEntryFor (s : State) (p : Nat) : Prop := ∀ e ∈ s.pageMap, e.homePage ≠ p

/-- The buffer with an entry appended; it becomes the head of an empty buffer, at its first position (R128, R129). -/
def withPosted (b : PostedBuffer) (e : PostedEntry) : PostedBuffer :=
  { entries := b.entries ++ [e]
    head := if b.entries = [] then
        some { pos := if e.fill.isSome then .fillRead 0 else .write, begun := false, store := [] }
      else b.head }

/-- The buffer after its head entry has left (R131). -/
def afterDeparture (b : PostedBuffer) : PostedBuffer :=
  { entries := b.entries.tail
    head := match b.entries.tail with
      | [] => none
      | e :: _ => some { pos := if e.fill.isSome then .fillRead 0 else .write, begun := false, store := [] } }

/-- No auto-resume can follow once the transfer in progress has completed and nothing else changes (R151). -/
def noResumeDue (s : State) : Prop :=
  s.bridge.state ≠ .frozen ∨ s.settings.autoResume = false ∨ s.monitor.delayTimer ≠ .met ∨ s.buffer.entries ≠ []

/-- The host port as a trip in FREEZE mode leaves it: a waiting request faults FROZEN (R124). -/
def hostAtTrip (h : HostPort) : HostPort :=
  match h.outstanding with
  | some r => if r.phase.waiting then hostFaulted h .frozen (faultData h r.op) else h
  | none => h

/-- The delay timer as it starts: it runs against the resume delay in force with the line deasserted, and waits for the
next deassertion otherwise (R143). -/
def delayFrom (s : State) : DelayTimer := if s.monitor.level then .stopped else .running s.settings.resumeDelay

/-- The machine after a trip (R145 to R147): in FREEZE mode FROZEN with the state left as return state and the engine
paused, at once or after its transfer in progress; in REPORT mode SUPPLY_LOW and REPORTED. -/
def tripped (s : State) : State :=
  match s.settings.tripMode with
  | .freeze => pushEvent { s with
      bridge := { s.bridge with state := .frozen, returnState := some s.bridge.state }
      engine := { s.engine with
        pause := match s.port.map Transfer.purpose with
          | none | some .hostRead | some .fillRead | some .fillWrite | some .drainWrite | some .anchorRead => .paused
          | some _ => .requested }
      host := hostAtTrip s.host
      monitor := { s.monitor with phase := .resumeWait, filterTimer := none, delayTimer := delayFrom s } } .trip
  | .report => pushEvent { s with
      monitor := { s.monitor with phase := .reported, filterTimer := none, delayTimer := delayFrom s } } .supplyLow

/-- The machine with the monitor ARMED and no timer running. -/
def armedIdle (s : State) : State :=
  { s with monitor := { s.monitor with phase := .armed, filterTimer := none, delayTimer := .stopped } }

/-- The monitor becomes ARMED: with the line asserted the filter timer starts against the time of its code, and with code
0 the trip is taken at once (R143, R144; assumption log 15). -/
def armsTo (s u : State) : Prop :=
  (s.monitor.level = false ∧ u = armedIdle s) ∨
  (s.monitor.level = true ∧ ∃ us, (s.settings.tripFilter, us) ∈ [(1, 2), (2, 4), (3, 8), (4, 16)] ∧
    u = { armedIdle s with monitor := { (armedIdle s).monitor with filterTimer := some us } }) ∨
  (s.monitor.level = true ∧ s.settings.tripFilter = 0 ∧ s.bridge.state.trippable = true ∧ u = tripped (armedIdle s))

/-- The machine after a resume into `r` whose restarted engine is `e`, with the line deasserted (R153). -/
def resumedInto (s : State) (r : BridgeState) (e : Engine) : State :=
  pushEvent { s with
    bridge := { s.bridge with state := r, returnState := none }
    engine := { e with pause := .running }
    monitor := { s.monitor with phase := .armed, filterTimer := none, delayTimer := .stopped } } .resumed

/-- The engine that a resume into this state starts from the paused one, the buffer being empty (R79, R97, R16). -/
def restartsAs (s : State) (e : Engine) : BridgeState → Prop
  | .unformatted => e = s.engine
  | .serving =>
    (s.engine.stage ∈ [.idle, .mark, .retire] ∧ e = s.engine) ∨
    (s.engine.stage ∈ [.drain, .sum] ∧ ∃ r c it b, s.engine.record = some r ∧ r.context = some c ∧
      r.items[0]? = some it ∧ firstBlock it.written = some b ∧
      e = { s.engine with
            stage := .sum, sums := { first := 0, second := 0 }
            record := some { r with
              items := r.items.map fun it => { it with checksum := none }, recordChecksum := none }
            pos := { slotIndex := 0, entry := 0, block := b, word := 0, pass := .checksum } }) ∨
    (s.engine.stage = .write ∧
      e = { s.engine with pos := { slotIndex := 0, entry := 0, block := 0, word := 0, pass := .checksum } }) ∨
    (s.engine.stage = .copy ∧ ∃ r i it b, s.engine.record = some r ∧ r.items[i]? = some it ∧
      firstBlock it.written = some b ∧
      (∀ j jt, j < i → r.items[j]? = some jt → ∃ n, (lookupPage s.pageMap jt.homePage).map MapEntry.state = some (.copied n)) ∧
      (∀ n, (lookupPage s.pageMap it.homePage).map MapEntry.state ≠ some (.copied n)) ∧
      e = { s.engine with pos := { slotIndex := 0, entry := i, block := b, word := 0, pass := .copyRead } })
  | .recovering =>
    (s.engine.stage ∈ [.scan, .apply] ∧
      e = { s.engine with
            stage := .scan, record := none, image0 := none, image1 := none, applyList := [], scanWords := []
            pos := { slotIndex := 0, entry := 0, block := 0, word := 0, pass := .checksum } }) ∨
    (s.engine.stage = .retire ∧
      e = { s.engine with pos := { slotIndex := 0, entry := 0, block := 0, word := 0, pass := .checksum } })
  | .formatting => s.engine.stage = .format ∧
      e = { s.engine with
            formatStep := some 2, pos := { slotIndex := 0, entry := 0, block := 0, word := 0, pass := .checksum } }
  | .starting | .frozen | .resetting => False

/-- The hold timer runs exactly while a request is HELD; a request waits only in SERVING and UNFORMATTED; a read is in
READ_TRANSFER exactly while its transfer is in progress; and a request that has left classification is resolved where its
phase needs it (R103, R121, R124). -/
structure RequestAccounted (s : State) : Prop where
  timer : s.host.holdTimer.isSome = true ↔ ∃ r h, s.host.outstanding = some r ∧ r.phase = .held h
  served : ∀ r, s.host.outstanding = some r → r.phase.waiting = true →
    s.bridge.state = .serving ∨ s.bridge.state = .unformatted
  transfer : (∃ r, s.host.outstanding = some r ∧ r.phase = .readTransfer) ↔
    s.port.map Transfer.purpose = some .hostRead
  settled : ∀ r, s.host.outstanding = some r → r.phase ≠ .classifying ∧
    ((r.phase = .readGrant ∨ r.phase = .held .readWait) → r.resolved.isSome = true ∧ r.op = .read)

/-! ### Releases (R122) -/

/-- A read of this tag is resolved to this array word: by its view in SERVING, to its own address in UNFORMATTED (R112,
R115). -/
def readResolves (s : State) (addr : WordAddr) (tag : BitVec 3) (a : WordAddr) : Prop :=
  (tag = 0 ∧ a = if s.bridge.state = .unformatted then addr else s.committedView addr) ∨
    ∃ c, s.bridge.state = .serving ∧ contextOf tag = some c ∧ (s.contexts.get c).state ≠ .idle ∧ a = s.contextView c addr

/-- The machine after the outstanding write has faulted with a reportable reason; HDATA is not driven (R102, R126). -/
def writeFaulted (s : State) (r : Request) (f : FaultReason) : State :=
  pushEvent { s with host := hostFaulted s.host f s.host.hdata } (.hostFault r.tag f r.addr)

/-- The machine after the outstanding write has failed with its context, its allocation refused (R28, R29, R53). -/
def allocationRefused (s : State) (r : Request) (c : ContextId) (f : FaultReason) (g : FailReason) : State :=
  pushEvent { s with
    host := hostFaulted s.host f s.host.hdata
    contexts := s.contexts.set c { s.contexts.get c with state := .failed g r.addr } } (.contextFailed c g r.addr)

/-- The outstanding write is accepted with this entry (R120). -/
def posted (s : State) (x : PostedEntry) : State :=
  { s with host := hostDone s.host s.host.hdata, buffer := withPosted s.buffer x }

/-- The outstanding request stays HELD, its hold timer running on (R121). -/
def heldAgain (s : State) (r : Request) (h : HoldReason) (a : Option WordAddr) : State :=
  { s with host := { s.host with outstanding := some { r with phase := .held h, resolved := a } } }

/-- Step 5 admits a write of this tag: 0, or the number of an OPEN context (R117). -/
def tagAdmitted (s : State) (tag : BitVec 3) : Prop :=
  tag = 0 ∨ ∃ c, contextOf tag = some c ∧ (s.contexts.get c).state = .opened

/-- What the classification of a released write makes of the machine: its steps 5, 7 and 8, since step 4 is not taken again
and the state and the address have not changed (R104, R108, R117 to R122). -/
inductive WriteSettles (s : State) (r : Request) (data : Word) (lanes : Lanes) : State → Prop where
  | closed (c : ContextId) : contextOf r.tag = some c → (s.contexts.get c).state ∈ [.idle, .queued, .committing] →
      WriteSettles s r data lanes (writeFaulted s r .contextClosed)
  | failed (c : ContextId) (g : FailReason) (a : WordAddr) : contextOf r.tag = some c →
      (s.contexts.get c).state = .failed g a → WriteSettles s r data lanes (writeFaulted s r .contextFailed)
  | conflict (e : MapEntry) (owner : ContextId) : lanes ≠ 0 → tagAdmitted s r.tag → s.bridge.state = .serving →
      lookupPage s.pageMap (pageOf r.addr) = some e → e.state = .context owner → contextOf r.tag ≠ some owner →
      WriteSettles s r data lanes (writeFaulted s r .conflict)
  | record (e : MapEntry) (n us : Nat) : lanes ≠ 0 → tagAdmitted s r.tag → s.bridge.state = .serving →
      lookupPage s.pageMap (pageOf r.addr) = some e → e.state = .pending n ∨ e.state = .copied n →
      s.host.holdTimer = some us → WriteSettles s r data lanes (heldAgain s r .record none)
  | full (us : Nat) : lanes ≠ 0 → tagAdmitted s r.tag →
      (s.bridge.state = .unformatted ∨ noEntryFor s (pageOf r.addr) ∨ ∃ e c, lookupPage s.pageMap (pageOf r.addr) = some e ∧
        e.state = .context c ∧ contextOf r.tag = some c) →
      8 ≤ s.buffer.entries.length → s.host.holdTimer = some us → WriteSettles s r data lanes (heldAgain s r .bufferFull none)
  | home : lanes ≠ 0 → r.tag = 0 → (s.bridge.state = .unformatted ∨ noEntryFor s (pageOf r.addr)) →
      s.buffer.entries.length < 8 → WriteSettles s r data lanes
        (posted s { target := .home, addr := r.addr, data := data, lanes := lanes, tag := none, fill := none })
  | allocate (c : ContextId) (k : Nat) (rest : List Nat) (before after : List MapEntry) : lanes ≠ 0 →
      s.bridge.state = .serving → contextOf r.tag = some c → (s.contexts.get c).state = .opened →
      s.buffer.entries.length < 8 → s.pageMap = before ++ after → (∀ e ∈ before, e.homePage < pageOf r.addr) →
      (∀ e ∈ after, pageOf r.addr < e.homePage) → (s.contexts.get c).entryCount < 128 → s.freeFrames = k :: rest →
      WriteSettles s r data lanes { posted s
          { target := .frame k, addr := BitVec.ofNat 21 ((s.homePages + k) * 128 + r.addr.toNat % 128), data := data,
            lanes := lanes, tag := some c
            fill := some (BitVec.ofNat 21 (pageOf r.addr * 128 + blockOf r.addr * 8)) } with
        freeFrames := rest
        pageMap := before ++ { homePage := pageOf r.addr, frame := k, state := .context c,
                               written := BitVec.ofNat 16 (2 ^ blockOf r.addr) } :: after
        contexts := s.contexts.set c { s.contexts.get c with entryCount := (s.contexts.get c).entryCount + 1 } }
  | contextFull (c : ContextId) : lanes ≠ 0 → s.bridge.state = .serving → contextOf r.tag = some c →
      (s.contexts.get c).state = .opened → s.buffer.entries.length < 8 → noEntryFor s (pageOf r.addr) →
      128 ≤ (s.contexts.get c).entryCount → WriteSettles s r data lanes (allocationRefused s r c .contextFull .contextFull)
  | poolExhausted (c : ContextId) : lanes ≠ 0 → s.bridge.state = .serving → contextOf r.tag = some c →
      (s.contexts.get c).state = .opened → s.buffer.entries.length < 8 → noEntryFor s (pageOf r.addr) →
      (s.contexts.get c).entryCount < 128 → s.freeFrames = [] →
      WriteSettles s r data lanes (allocationRefused s r c .poolExhausted .poolExhausted)
  | ownEntry (e : MapEntry) (c : ContextId) (before after : List MapEntry) (x : PostedEntry) (u : State) : lanes ≠ 0 →
      s.bridge.state = .serving → contextOf r.tag = some c → (s.contexts.get c).state = .opened →
      s.buffer.entries.length < 8 → s.pageMap = before ++ e :: after → e.homePage = pageOf r.addr → e.state = .context c →
      (∀ y ∈ before ++ after, y.homePage ≠ pageOf r.addr) →
      x = { target := .frame e.frame, addr := BitVec.ofNat 21 ((s.homePages + e.frame) * 128 + r.addr.toNat % 128)
            data := data, lanes := lanes, tag := some c, fill := none } →
      u = (if e.written.getLsbD (blockOf r.addr) then posted s x else
        { posted s { x with fill := some (BitVec.ofNat 21 (pageOf r.addr * 128 + blockOf r.addr * 8)) } with
          pageMap := before ++ { e with written := e.written ||| BitVec.ofNat 16 (2 ^ blockOf r.addr) } :: after }) →
      WriteSettles s r data lanes u

/-- What the classification of a released read makes of the machine: step 5, the resolution and the conflict test (R104,
R112, R115, R122). -/
inductive ReadSettles (s : State) (r : Request) : State → Prop where
  | closed (c : ContextId) : contextOf r.tag = some c → (s.contexts.get c).state = .idle →
      ReadSettles s r (pushEvent { s with host := hostFaulted s.host .contextClosed 0 }
        (.hostFault r.tag .contextClosed r.addr))
  | granted (a : WordAddr) : readResolves s r.addr r.tag a → (∀ e ∈ s.buffer.entries, e.addr.toNat / 8 ≠ a.toNat / 8) →
      ReadSettles s r { s with host := { s.host with
        outstanding := some { r with phase := .readGrant, resolved := some a }, holdTimer := none } }
  | held (a : WordAddr) (us : Nat) : readResolves s r.addr r.tag a →
      (∃ e ∈ s.buffer.entries, e.addr.toNat / 8 = a.toNat / 8) → s.host.holdTimer = some us →
      ReadSettles s r (heldAgain s r .readWait (some a))

/-- What a departure from the buffer makes of the outstanding request in the state it leaves: a write held BUFFER_FULL and
a read held READ_WAIT with no conflicting entry left are released; any other request stays as it was (R122, R131). -/
inductive RequestReleased (s : State) : State → Prop where
  | other : (∀ r, s.host.outstanding = some r → r.phase ≠ .held .bufferFull ∧ r.phase ≠ .held .readWait) →
      RequestReleased s s
  | write (r : Request) (data : Word) (lanes : Lanes) (v : State) : s.host.outstanding = some r →
      r.phase = .held .bufferFull → r.op = .write data lanes → r.regionPassed = true → addressAdmitted s r.addr →
      WriteSettles s r data lanes v → RequestReleased s v
  | read (r : Request) (a : WordAddr) (v : State) : s.host.outstanding = some r → r.phase = .held .readWait → r.op = .read →
      r.resolved = some a → addressAdmitted s r.addr → (∀ e ∈ s.buffer.entries, e.addr.toNat / 8 ≠ a.toNat / 8) →
      ReadSettles s r v → RequestReleased s v
  | waits (r : Request) (a : WordAddr) : s.host.outstanding = some r → r.phase = .held .readWait → r.resolved = some a →
      (∃ e ∈ s.buffer.entries, e.addr.toNat / 8 = a.toNat / 8) → RequestReleased s s

/-- The engine's procedures run: SERVING, RECOVERING or FORMATTING, and no pause (R77, R78). -/
def procedureRuns (s : State) : Prop :=
  s.bridge.state ∈ [.serving, .recovering, .formatting] ∧ s.engine.pause = .running

/-- What a departure from the buffer makes of the engine: DRAIN ends when no entry of the committing context is left, and
step 1 of FORMAT when the buffer is empty, while the engine's procedures run (R15, R66, R131). -/
inductive DrainStepEnded (s : State) : State → Prop where
  | other : s.engine.stage ≠ .drain → ¬ (s.engine.stage = .format ∧ s.engine.formatStep = some 1) → DrainStepEnded s s
  | stopped : ¬ procedureRuns s → DrainStepEnded s s
  | waits (r : CurrentRecord) (c : ContextId) : s.engine.stage = .drain → s.engine.record = some r → r.context = some c →
      (∃ e ∈ s.buffer.entries, e.tag = some c) → DrainStepEnded s s
  | sum (r : CurrentRecord) (c : ContextId) (it : RecordItem) (b : Nat) : s.engine.stage = .drain →
      s.engine.record = some r → r.context = some c → r.items[0]? = some it → firstBlock it.written = some b →
      procedureRuns s → (∀ e ∈ s.buffer.entries, e.tag ≠ some c) →
      DrainStepEnded s { s with engine := { s.engine with
        stage := .sum, sums := { first := 0, second := 0 }
        record := some { r with items := r.items.map fun it => { it with checksum := none }, recordChecksum := none }
        pos := { slotIndex := 0, entry := 0, block := b, word := 0, pass := .checksum } } }
  | formatWaits : s.engine.stage = .format → s.buffer.entries ≠ [] → DrainStepEnded s s
  | formatGoesOn : s.engine.stage = .format → s.engine.formatStep = some 1 → s.buffer.entries = [] → procedureRuns s →
      DrainStepEnded s { s with engine := { s.engine with
        formatStep := some 2, pos := { slotIndex := 0, entry := 0, block := 0, word := 0, pass := .checksum } } }

/-- The completion commands of the engine's transfers, taken in this order with the pause (R78). -/
def engineCompletions (o : TakenOrder) : List Instr :=
  [.sumRead o, .journalWrite o, .markWrite o, .copyRead o, .copyWrite o, .retireWrite o, .scanRead o, .verifyRead o,
   .applyCopyRead o, .applyCopyWrite o, .recoveryRetireWrite o, .formatWrite o]

/-- The command codes that take no argument (R157, R173). -/
def codesWithoutArguments : List Byte := [0x01, 0x05, 0x22, 0x31, 0x3F]

/-- The command codes that take arguments, each with how many bytes (R157, R173). -/
def codesWithArguments : List (Byte × Nat) :=
  [(0x02, 1), (0x03, 2), (0x04, 1), (0x06, 1), (0x07, 1), (0x10, 1), (0x11, 1), (0x12, 1), (0x20, 3), (0x21, 6),
   (0x30, 2)]

/-- A four-byte field, most significant byte first (R173). -/
def bigEndian (w : Word) : List Byte :=
  [w.extractLsb' 24 8, w.extractLsb' 16 8, w.extractLsb' 8 8, w.extractLsb' 0 8]

/-- Place `i` of QUEUE in the status record: a context number, 0 beyond QUEUE_LENGTH (R164). -/
def queuePlace (s : State) (i : Nat) : Byte :=
  match s.commitQueue[i]? with
  | some c => BitVec.ofNat 8 c.number
  | none => 0

/-- FAIL_REASON and FAIL_ADDRESS of the context record (R59, R177). -/
def failFields : ContextState → List Byte
  | .failed .poolExhausted a => 7 :: bigEndian (a.zeroExtend 32)
  | .failed .contextFull a => 8 :: bigEndian (a.zeroExtend 32)
  | .idle | .opened | .queued | .committing => [0, 0, 0, 0, 0]

/-- The buffer that an accepted ABORT of `c` leaves: the entries tagged `c` removed, but for a begun head (R134). -/
def afterAbort (b : PostedBuffer) (c : ContextId) : PostedBuffer :=
  match b.entries with
  | [] => b
  | x :: xs =>
    if x.tag ≠ some c ∨ b.head.map DrainHead.begun = some true then
      { b with entries := x :: xs.filter fun e => e.tag ≠ some c }
    else afterDeparture { b with entries := x :: xs.filter fun e => e.tag ≠ some c }

/-- The machine after an accepted ABORT of `c` with no request to release (R55). -/
def aborted (s : State) (c : ContextId) : State :=
  { s with
    commitQueue := s.commitQueue.filter fun x => x ≠ c
    buffer := afterAbort s.buffer c
    pageMap := s.pageMap.filter fun e => e.state ≠ .context c
    freeFrames := s.freeFrames ++ (s.pageMap.filter fun e => e.state = .context c).map MapEntry.frame
    contexts := s.contexts.set c { s.contexts.get c with state := .idle, entryCount := 0 } }

/-- The completion of the engine's transfer counts, and leaves the pause at `p`: in a running engine, or in FROZEN when it
is taken before the pause and no resume is due (R78). -/
def completionCounts (s : State) (o : TakenOrder) (p : Pause) : Prop :=
  (s.bridge.state ∈ [.serving, .recovering, .formatting] ∧ s.engine.pause = .running ∧ p = .running) ∨
  (s.bridge.state = .frozen ∧ s.engine.pause = .requested ∧ o = .completionFirst ∧ p = .paused ∧ noResumeDue s)

/-- The drain is urgent (R139). -/
def urgentDrain (s : State) : Prop :=
  8 ≤ s.buffer.entries.length ∨ (∃ r, s.host.outstanding = some r ∧ r.phase = .held .readWait) ∨
  s.engine.stage = .drain ∨ (s.engine.stage = .format ∧ s.engine.formatStep = some 1)

/-- The drain is granted this transfer (R128, R140). -/
def drainGranted (s : State) (t : Transfer) : State :=
  { s with
    port := some t, turn := .drain
    buffer := { s.buffer with head := s.buffer.head.map fun h => { h with begun := true } } }

/-- The read path is granted this transfer (R115, R140). -/
def readGranted (s : State) (t : Transfer) : State :=
  { s with
    port := some t
    host := { s.host with outstanding := s.host.outstanding.map fun r => { r with phase := .readTransfer } } }

/-- The engine is granted this transfer (R140). -/
def engineGranted (s : State) (t : Transfer) : State := { s with port := some t, turn := .engine }

/-- A word read of this purpose. -/
def readOf (p : Purpose) (a : WordAddr) : Transfer :=
  { purpose := p, isWrite := false, addr := a, data := 0, lanes := 0xF, abandoned := false }

/-- A word write of this purpose, all four lanes enabled. -/
def writeOf (p : Purpose) (a : WordAddr) (w : Word) : Transfer :=
  { purpose := p, isWrite := true, addr := a, data := w, lanes := 0xF, abandoned := false }

/-- Word `w` of page `p` (R1). -/
def pageWord (p w : Nat) : WordAddr := BitVec.ofNat 21 (p * 128 + w)

/-- The machine after the transfer in progress has completed on the array, with its engine so (R135). -/
def completed (s : State) (t : Transfer) (e : Engine) : State :=
  { s with array := arrayAfter s t, port := none, engine := e }

/-- The entry is one of the current record: PENDING or COPIED (R19). -/
def MapEntry.ofRecord (e : MapEntry) (n : Nat) : Prop := e.state = .pending n ∨ e.state = .copied n

/-- The entry of a record that APPLY can verify: its page and frame exist and it names a block (R92). -/
def validItem (s : State) (it : RecordItem) : Prop :=
  it.homePage < s.homePages ∧ it.frame < s.frames ∧ it.written ≠ 0

/-- The engine after the outcome of the entry with this index in apply order has been tallied (R94). -/
def tallied (e : Engine) (index : Nat) (faulty : Bool) (homePage : Nat) : Engine :=
  if index < e.tallyPosition then e
  else if faulty then
    { e with
      tallyPosition := e.tallyPosition + 1
      faultList := if e.faultList.length < 8 then e.faultList ++ [homePage] else e.faultList
      faultCount := if e.faultCount < 255 then e.faultCount + 1 else 255 }
  else { e with tallyPosition := e.tallyPosition + 1 }

/-- The index in apply order of entry `i` of the `j`-th slot of the apply list: every entry of the first slot counts before
the second (R94). -/
def applyPlace (e : Engine) (j i index : Nat) : Prop :=
  (j = 0 ∧ index = i) ∨
  (j = 1 ∧ ∃ sl q n es k, e.applyList[0]? = some sl ∧ e.image sl = some (.live q n es k) ∧ index = es.length + i)

/-- APPLY goes on from entry `i` of the `j`-th slot of the apply list: it verifies that entry when it is valid, tallies it
as faulty when it is not and goes on, passes from the end of a slot to the next slot, and from the end of the list to
RETIRE (R91 to R95). -/
inductive AppliesFrom (s : State) : Engine → Nat → Nat → Engine → Prop where
  | verify (e : Engine) (j i : Nat) (sl : Slot) (q k : Word) (n : Nat) (es : List RecordItem) (it : RecordItem) (b : Nat) :
      e.applyList[j]? = some sl → e.image sl = some (.live q n es k) → es[i]? = some it → validItem s it →
      firstBlock it.written = some b →
      AppliesFrom s e j i { e with
        stage := .apply, sums := { first := 0, second := 0 }
        record := some { sequence := q, slot := sl, context := none, entryCount := n, items := es, recordChecksum := some k }
        pos := { slotIndex := j, entry := i, block := b, word := 0, pass := .checksum } }
  | invalid (e e' : Engine) (j i index : Nat) (sl : Slot) (q k : Word) (n : Nat) (es : List RecordItem) (it : RecordItem) :
      e.applyList[j]? = some sl → e.image sl = some (.live q n es k) → es[i]? = some it → ¬ validItem s it →
      applyPlace e j i index →
      AppliesFrom s (tallied { e with record := some { sequence := q, slot := sl, context := none, entryCount := n, items := es
                                                       recordChecksum := some k } } index true it.homePage) j (i + 1) e' →
      AppliesFrom s e j i e'
  | nextSlot (e e' : Engine) (j i : Nat) (sl : Slot) (q k : Word) (n : Nat) (es : List RecordItem) :
      e.applyList[j]? = some sl → e.image sl = some (.live q n es k) → es.length ≤ i → AppliesFrom s e (j + 1) 0 e' →
      AppliesFrom s e j i e'
  | done (e : Engine) (j i : Nat) : e.applyList.length ≤ j →
      AppliesFrom s e j i { e with
        stage := .retire, pos := { slotIndex := 0, entry := 0, block := 0, word := 0, pass := .checksum } }

end Sys2Proof.Machine
end

