-- ==== Sys2Proof/Certificates/Slice0/Obligations.lean ====
section
/-! DEFINITION. The statements of the model for the provers. Each says what one or more commands do, for every state that
meets its premises, or what every step keeps. -/

open Sys2Proof Sys2Proof.Machine

/-! ### The step and the commands as a whole -/

/-- The command at the front of the queue is carried out with the queue's rest. On an empty queue the block idles, which
is the model's choice (assumption log 8). -/
def Obligations.StepRunsFrontCommand : Prop :=
  (∀ (s : State) c rest, s.pending = c :: rest → step s = exec c { s with pending := rest }) ∧
  ∀ s : State, s.pending = [] → step s = .next s

/-- No command faults or is refused, none touches the queue, and a part without its supply ignores all but POWER_ON_RESET.
The queue and the last clause are the model's choice (assumption log 5). -/
def Obligations.EveryCommandCompletes : Prop :=
  (∀ c s, ∃ t, exec c s = .next t ∧ t.pending = s.pending) ∧
  ∀ c s, s.powered = false → (∀ pins, c ≠ .powerOnReset pins) → exec c s = .next s

/-! ### Checksums and the records of the array -/

/-- R86. The two-sum over a byte stream, its range, and the streams the rule names. -/
def Obligations.ChecksumRule : Prop :=
  (feedBytes .zero [] = { first := 0, second := 0 }) ∧
  (∀ xs x, feedBytes .zero (xs ++ [x]) =
    { first := ((feedBytes .zero xs).first + x.toNat) % 65535
      second := ((feedBytes .zero xs).second + ((feedBytes .zero xs).first + x.toNat) % 65535) % 65535 }) ∧
  (∀ xs, (feedBytes .zero xs).first ≤ 65534 ∧ (feedBytes .zero xs).second ≤ 65534 ∧
    (feedBytes .zero xs).checksum.toNat = (feedBytes .zero xs).second * 65536 + (feedBytes .zero xs).first ∧
    (feedBytes .zero xs).checksum.extractLsb' 16 16 ≠ 0xFFFF ∧ (feedBytes .zero xs).checksum.extractLsb' 0 16 ≠ 0xFFFF ∧
    (feedBytes .zero xs).checksum ≠ 0xFFFFFFFF) ∧
  (∀ n, (feedBytes .zero (List.replicate n 0)).checksum = 0) ∧
  (feedBytes .zero (List.replicate 257 0xFF)).first = 0 ∧
  ∀ ws : List Word, checksumOf ws = (feedBytes .zero (ws.flatMap fun w =>
    [w.extractLsb' 0 8, w.extractLsb' 8 8, w.extractLsb' 16 8, w.extractLsb' 24 8])).checksum

/-- The anchor test accepts the anchor that FORMAT writes, with its geometry, and whatever it accepts has the strap size
and an acceptable geometry (R3, R4, R6, R7). -/
def Obligations.AnchorRoundTrip : Prop :=
  (∀ n frames, frameCountAcceptable (sizePages n) frames = true →
    testAnchor (sizePages n) (anchorWords (sizePages n) frames)
      = .valid { arrayPages := sizePages n, frames := frames, homePages := sizePages n - 9 - frames }) ∧
  ∀ strap ws g, testAnchor strap ws = .valid g → g.arrayPages = strap ∧ g.acceptable

/-- SCAN reads back the record that WRITE and MARK wrote: it is live with the same sequence, entries and checksums while
its retire word is another number, retired when it is its sequence, and unmarked while its mark word is another number
(R69, R83 to R85, R90, R179). That the image keeps the record checksum is the model's inference (assumption log 17). -/
def Obligations.RecordRoundTrip : Prop :=
  ∀ (r : CurrentRecord) (mark retire : Word),
    r.sequence ≠ 0 → 1 ≤ r.items.length → r.items.length ≤ 128 → r.entryCount = r.items.length →
    (∀ it ∈ r.items, it.homePage < 65536 ∧ it.frame < 256 ∧ it.checksum.isSome = true) →
    imageOf (headerWords r ++ [recordChecksumOf r, mark, retire] ++ entryWords r) =
      if mark = r.sequence then
        if retire = r.sequence then .retired r.sequence r.entryCount
        else .live r.sequence r.entryCount r.items (recordChecksumOf r)
      else .unmarked

/-- Every byte of the array keeps its value, but for the enabled lanes of the word that a completing write addresses, and
the array keeps its canonical form. POWER_LOSS has a statement of its own (R135). -/
def Obligations.BytesChangedOnlyByCompletions : Prop :=
  (∀ c s u, ArrayCanonical s → exec c s = .next u → ArrayCanonical u) ∧
  ∀ c s u, ArrayCanonical s → (∀ o, c ≠ .powerLoss o) → exec c s = .next u →
    ∀ v l, l < 4 → readByte u.array (byteAddr v l) =
      match completionOf c, s.port with
      | some p, some t =>
        if s.powered = true ∧ t.purpose = p ∧ t.isWrite = true ∧ v = t.addr ∧ t.lanes.getLsbD l = true then laneOf t.data l
        else readByte s.array (byteAddr v l)
      | _, _ => readByte s.array (byteAddr v l)

/-! ### Power and reset -/

/-- POWER_ON_RESET (R8): every piece of volatile state at its power-on value, the array as it was, and RESETTING at once
with RST_N low. HFAULT, HREASON, HDATA, the level of the lines, and the engine's position, sums, copy words and scan words
are the model's choice (assumption logs 6, 9 and 17), and so is the command in a powered part (log 19). -/
def Obligations.PowerOnReset : Prop :=
  ∀ pins s, ∀ u : State,
    u = { powered := true
          bridge := { state := .starting, returnState := none, strapPages := 0, geometry := none, anchorRead := none,
                      rstN := pins.rstN, warmPointPassed := false }
          pageMap := [], freeFrames := [], contexts := .reset, commitQueue := [], engine := .reset
          host := { hreq := pins.hreq, hdone := false, hfault := false, hreason := 0, hdata := 0, outstanding := none,
                    holdTimer := none }
          regions := .replicate 8 { kind := none, first := 0, last := 0 }
          buffer := { entries := [], head := none }, port := none, turn := .drain
          monitor := { phase := .gating, level := pins.supplyFall, filterTimer := none,
                       delayTimer := if pins.supplyFall then .stopped else .running 20 }
          mgmt := { mselN := pins.mselN, phase := .idle, code := none, args := [], bits := [], bytes := 0, response := [] }
          settings := { holdTimeout := 2000, tripFilter := 2, tripMode := .freeze, autoResume := true, resumeDelay := 20,
                        irqEnable := false }
          events := [], overflow := false, array := s.array, freeCount := s.freeCount, pending := s.pending } →
    exec (.powerOnReset pins) s = .next
      (if pins.rstN then u
       else { u with bridge := { u.bridge with state := .resetting }, monitor := { u.monitor with phase := .ignoring } })

/-- The machine right after reset has every property that the invariant statements name. -/
def Obligations.ResetIsConsistent : Prop :=
  ArrayCanonical State.reset ∧ FramesAccounted State.reset ∧ PageMapOrdered State.reset ∧ CommitQueueExact State.reset ∧
  ContextsAccounted State.reset ∧ RecordEntriesConfined State.reset ∧ RecordMatchesMap State.reset ∧
  WithinCapacity State.reset ∧ SettingsInRange State.reset ∧ BridgeConsistent State.reset ∧ GeometryAcceptable State.reset ∧
  RequestAccounted State.reset

/-- RST_N_FALL and RESTART enter RESETTING from any other state: the return state goes, the anchor read is abandoned and the
monitor is IGNORING, everything else is kept, and in RESETTING they have no further effect (R10, R18, R143, R172). That the
filter timer stops there and the delay timer is kept is the model's inference (assumption log 18). A waiting request is the
matter of WaitingRequestFaulted. -/
def Obligations.ResettingEntered : Prop :=
  ∀ s : State, s.powered = true →
    (s.bridge.state ≠ .resetting → (∀ r, s.host.outstanding = some r → r.phase.waiting = false) →
      ∀ u : State,
        u = { s with
              bridge := { s.bridge with
                state := .resetting, returnState := none, anchorRead := none, warmPointPassed := false }
              port := s.port.map fun t => if t.purpose = .anchorRead then { t with abandoned := true } else t
              monitor := { s.monitor with phase := .ignoring, filterTimer := none } } →
        (s.bridge.rstN = true → exec .rstNFall s = .next { u with bridge := { u.bridge with rstN := false } }) ∧
        (atDecode s 0x3F [] = true → exec .restart s = .next (acceptedWith u 0x3F [] []))) ∧
    (s.bridge.state = .resetting →
      (s.bridge.rstN = true → exec .rstNFall s = .next { s with bridge := { s.bridge with rstN := false } }) ∧
      (atDecode s 0x3F [] = true → exec .restart s = .next (acceptedWith s 0x3F [] [])))

/-- A request that is HELD or in READ_GRANT completes with fault NOT_READY at the entry to RESETTING and at an accepted
FORMAT, and with fault FROZEN at a trip in FREEZE mode, with no HOST_FAULT (R124, R126). -/
def Obligations.WaitingRequestFaulted : Prop :=
  ∀ (s : State) (r : Request), s.powered = true → s.host.outstanding = some r → r.phase.waiting = true →
    (s.bridge.state ≠ .resetting → s.bridge.rstN = true →
      ∃ u, exec .rstNFall s = .next u ∧ u.bridge.state = .resetting ∧
        u.host = hostFaulted s.host .notReady (faultData s.host r.op) ∧ u.events = s.events ∧ u.overflow = s.overflow) ∧
    (s.bridge.state ≠ .resetting → atDecode s 0x3F [] = true →
      ∃ u, exec .restart s = .next u ∧ u.bridge.state = .resetting ∧
        u.host = hostFaulted s.host .notReady (faultData s.host r.op) ∧ u.events = s.events ∧ u.overflow = s.overflow) ∧
    (∀ frames, formatAdmitted s = true → frameCountAcceptable s.bridge.strapPages frames.toNat = true →
      atDecode s 0x30 [highByte frames, lowByte frames] = true →
      ∃ u, exec (.format frames) s = .next u ∧ u.bridge.state = .formatting ∧
        u.host = hostFaulted s.host .notReady (faultData s.host r.op) ∧ u.events = s.events ∧ u.overflow = s.overflow) ∧
    (s.bridge.state.trippable = true → s.monitor.phase = .armed → s.monitor.filterTimer.isSome = true →
      s.settings.tripMode = .freeze →
      ∃ u, exec .trip s = .next u ∧ u.bridge.state = .frozen ∧
        u.host = hostFaulted s.host .frozen (faultData s.host r.op) ∧
        u.events = (pushEvent s .trip).events ∧ u.overflow = (pushEvent s .trip).overflow)

/-- RST_N_RISE and WARM_RESET_POINT (R18): the values the warm-reset point gives and what it keeps, and the entry to
STARTING once the point has passed and RST_N is high. The values of the engine's position, sums, copy words and scan words
are the model's choice (assumption log 17), and so is that HFAULT, HREASON and HDATA are kept (log 9). -/
def Obligations.WarmResetSequence : Prop :=
  ∀ s : State, s.powered = true → s.bridge.state = .resetting →
    (s.bridge.rstN = false → s.bridge.warmPointPassed = false →
      exec .rstNRise s = .next { s with bridge := { s.bridge with rstN := true } }) ∧
    (s.bridge.rstN = false → s.bridge.warmPointPassed = true →
      exec .rstNRise s = .next { s with
        bridge := { s.bridge with
          state := .starting, returnState := none, anchorRead := none, rstN := true, warmPointPassed := false }
        monitor := { s.monitor with
          phase := .gating
          delayTimer := if s.monitor.level then .stopped else .running s.settings.resumeDelay } }) ∧
    (s.bridge.warmPointPassed = false → s.buffer.entries = [] → s.port = none →
      ∀ u : State,
        u = { s with
              bridge := { s.bridge with
                strapPages := 0, geometry := none, anchorRead := none, warmPointPassed := true }
              pageMap := [], freeFrames := [], contexts := .reset, commitQueue := [], engine := .reset
              host := { s.host with holdTimer := none }
              buffer := { entries := [], head := none }, turn := .drain
              monitor := { s.monitor with filterTimer := none, delayTimer := .stopped }
              events := [], overflow := false } →
        exec .warmResetPoint s = .next
          (if s.bridge.rstN then
            { u with
              bridge := { u.bridge with state := .starting, returnState := none, warmPointPassed := false }
              monitor := { u.monitor with
                phase := .gating
                delayTimer := if s.monitor.level then .stopped else .running s.settings.resumeDelay } }
           else u))

/-- POWER_LOSS (R80, R136, R142, R181): volatile state is lost, and the array keeps what reached it. A write in progress
reaches it whole, not at all, or torn: then some enabled lane holds another byte than the one being written, whatever the
free value is (assumption log 4). That the volatile fields of the part without its supply hold their reset values, with the
delay timer stopped, is the model's choice (assumption log 5). -/
def Obligations.PowerLossCutsTheArrayPath : Prop :=
  ∀ (o : LossOutcome) (s : State), s.powered = true → ∃ u, exec (.powerLoss o) s = .next u ∧
    u = { State.reset with
          powered := false
          monitor := { State.reset.monitor with delayTimer := .stopped }
          array := u.array, freeCount := u.freeCount, pending := s.pending } ∧
    ((∀ t, s.port = some t → t.isWrite = false) → u.array = s.array) ∧
    ∀ t, s.port = some t → t.isWrite = true →
      (o = .whole → u.array = writeWord s.array t.addr t.data t.lanes) ∧
      (o = .unreached → u.array = s.array) ∧
      (o = .torn → t.lanes ≠ 0 → ∃ w, u.array = writeWord s.array t.addr w t.lanes ∧
        ∃ l, l < 4 ∧ t.lanes.getLsbD l = true ∧ laneOf w l ≠ laneOf t.data l)

/-! ### The supply monitor -/

/-- SUPPLY_FALL_ASSERT and SUPPLY_FALL_DEASSERT in each phase of the monitor (R9, R10, R143, R144, R147, R150). With the
filter at code 0 an assertion in ARMED takes the trip in the same step, with its effect by trip mode (R144 to R147), which
is the model's inference (assumption log 15); so does an entry to ARMED with the line asserted, by `armsTo` in DelaysMet,
SetConfigApplies and AnchorJudged. -/
def Obligations.SupplyLineMoves : Prop :=
  ∀ s : State, s.powered = true →
    (s.monitor.level = false →
      (s.monitor.phase = .gating → exec .supplyFallAssert s = .next { s with
        bridge := { s.bridge with anchorRead := none }
        port := s.port.map fun t => if t.purpose = .anchorRead then { t with abandoned := true } else t
        monitor := { s.monitor with level := true, delayTimer := .stopped } }) ∧
      (∀ k us, (k, us) ∈ [(1, 2), (2, 4), (3, 8), (4, 16)] → s.settings.tripFilter = k → s.monitor.phase = .armed →
        exec .supplyFallAssert s = .next { s with
          monitor := { s.monitor with level := true, filterTimer := some us } }) ∧
      (s.settings.tripFilter = 0 → s.monitor.phase = .armed → s.bridge.state.trippable = true →
        exec .supplyFallAssert s = .next (tripped { s with monitor := { s.monitor with level := true } })) ∧
      (s.monitor.phase = .reported ∨ s.monitor.phase = .resumeWait →
        exec .supplyFallAssert s = .next { s with
          monitor := { s.monitor with level := true, delayTimer := .stopped } }) ∧
      (s.monitor.phase = .ignoring →
        exec .supplyFallAssert s = .next { s with monitor := { s.monitor with level := true } })) ∧
    (s.monitor.level = true →
      (s.monitor.phase = .armed → exec .supplyFallDeassert s = .next { s with
        monitor := { s.monitor with level := false, filterTimer := none } }) ∧
      (s.monitor.phase = .gating ∨ s.monitor.phase = .reported ∨ s.monitor.phase = .resumeWait →
        exec .supplyFallDeassert s = .next { s with
          monitor := { s.monitor with level := false, delayTimer := .running s.settings.resumeDelay } }) ∧
      (s.monitor.phase = .ignoring → exec .supplyFallDeassert s = .next { s with
        monitor := { s.monitor with level := false } }))

/-- TRIP (R124, R145 to R147): in FREEZE mode FROZEN with the state left as return state, a waiting request faulted FROZEN
and the engine paused, at once or after its transfer in progress; in REPORT mode SUPPLY_LOW and REPORTED; all else kept. -/
def Obligations.TripTaken : Prop :=
  ∀ s : State, s.powered = true → s.bridge.state.trippable = true → s.monitor.phase = .armed →
    s.monitor.filterTimer.isSome = true → exec .trip s = .next (tripped s)

/-- GATE_OPEN samples SIZE and begins the anchor read; RESUME_DELAY_MET meets the delay and, where the drain is not
finished or auto-resume is off, does nothing else; REARM_DELAY_MET returns to ARMED, where a line that is asserted starts the
filter, and with filter code 0 trips at once (R2, R9, R10, R144, R147, R150, R151; assumption log 15). -/
def Obligations.DelaysMet : Prop :=
  ∀ (s : State) (ms : Nat), s.powered = true → s.monitor.delayTimer = .running ms →
    (∀ size, s.bridge.state = .starting → exec (.gateOpen size) s = .next { s with
      bridge := { s.bridge with strapPages := 128 * 2 ^ size.toNat, anchorRead := some [] }
      monitor := { s.monitor with delayTimer := .met } }) ∧
    (s.monitor.phase = .resumeWait →
      (s.settings.autoResume = false ∨ s.buffer.entries ≠ [] ∨ s.port.isSome = true) →
      exec .resumeDelayMet s = .next { s with monitor := { s.monitor with delayTimer := .met } }) ∧
    (∀ u, s.monitor.phase = .reported → armsTo s u → exec .rearmDelayMet s = .next u)

/-- RESUME and RESUME_DELAY_MET when the drain is finished: the bridge enters its return state with RESUMED queued, the
monitor ARMED, and the engine's paused stage started again; RESUME is refused otherwise (R79, R97, R16, R151 to R153).
That a restart of SCAN makes the current record absent and empties the scan words is the model's inference (assumption logs
17 and 20). -/
def Obligations.ResumeRestartsStage : Prop :=
  (∀ s : State, atDecode s 0x31 [] = true →
    (s.bridge.state ≠ .frozen ∨ s.monitor.level = true ∨ s.buffer.entries ≠ [] ∨ s.port.isSome = true) →
    exec .resume s = .next (refusedWith s 0x31 [] .wrongState)) ∧
  ∀ (s : State) r e, s.bridge.state = .frozen → s.bridge.returnState = some r → s.monitor.level = false →
    s.buffer.entries = [] → s.port = none → restartsAs s e r →
    (atDecode s 0x31 [] = true → exec .resume s = .next (acceptedWith (resumedInto s r e) 0x31 [] [])) ∧
    (∀ ms, s.powered = true → s.settings.autoResume = true → s.monitor.phase = .resumeWait →
      s.monitor.delayTimer = .running ms → exec .resumeDelayMet s = .next (resumedInto s r e))

/-- With auto-resume on and the resume delay met, the bridge also resumes at the completion that finishes the drain: the
drain's own last write, or the last transfer in progress at the trip, a host read or one of the engine, whether its
completion counts there or the pause came first. What a completion leaves otherwise is what it leaves with auto-resume off.
So does the SET_CONFIG that turns auto-resume on (R78, R150, R151). -/
def Obligations.AutoResumeMoments : Prop :=
  ∀ (s : State) r, s.bridge.state = .frozen → s.bridge.returnState = some r → s.monitor.level = false →
    s.monitor.delayTimer = .met →
    (∀ e, restartsAs s e r →
      (∀ x h t, s.host.outstanding = none → s.settings.autoResume = true → s.buffer = { entries := [x], head := some h } →
        transferring s t → t.purpose = .drainWrite →
        exec .drainWrite s = .next
          (resumedInto { s with array := arrayAfter s t, port := none, buffer := { entries := [], head := none } } r e)) ∧
      (∀ t q, s.settings.autoResume = true → s.buffer.entries = [] → transferring s t → t.purpose = .hostRead →
        t.isWrite = false → s.host.outstanding = some q → q.phase = .readTransfer → q.op = .read →
        exec .hostReadComplete s = .next
          (resumedInto { s with port := none, host := hostDone s.host (readWord s.array t.addr) } r e)) ∧
      (∀ t c, s.settings.autoResume = true → s.buffer.entries = [] → transferring s t →
        c ∈ engineCompletions .pauseFirst → completionOf c = some t.purpose →
        exec c s = .next (resumedInto (completed s t s.engine) r e)) ∧
      (s.buffer.entries = [] → s.port = none → atDecode s 0x20 [4, 0, 1] = true →
        exec (.setConfig 4 1) s = .next
          (acceptedWith (resumedInto { s with settings := { s.settings with autoResume := true } } r e) 0x20 [4, 0, 1] []))) ∧
    ∀ t c v e, s.settings.autoResume = true → s.buffer.entries = [] → transferring s t → s.engine.pause = .requested →
      c ∈ engineCompletions .completionFirst → completionOf c = some t.purpose →
      exec c { s with settings := { s.settings with autoResume := false } } = .next v → restartsAs v e r →
      exec c s = .next (resumedInto { v with settings := s.settings } r e)

/-! ### The host port -/

/-- An arriving request faults at step 1 outside SERVING and UNFORMATTED, whatever it asks, with no event; at step 2 with
tag 5 to 7; and at step 3 by its address (R104 to R106, R125, R126). -/
def Obligations.RequestFaultsEarly : Prop :=
  ∀ (s : State) addr tag op, requestArrives s →
    (s.bridge.state ∈ [.starting, .recovering, .formatting, .resetting] →
      exec (.hostRequest addr tag op) s
        = .next { s with host := hostFaulted (raised s.host) .notReady (faultData s.host op) }) ∧
    (s.bridge.state = .frozen →
      exec (.hostRequest addr tag op) s
        = .next { s with host := hostFaulted (raised s.host) .frozen (faultData s.host op) }) ∧
    (s.bridge.state = .serving ∨ s.bridge.state = .unformatted → 5 ≤ tag.toNat →
      exec (.hostRequest addr tag op) s = .next (requestFaulted s addr tag op .badTag)) ∧
    (s.bridge.state = .serving → tag.toNat ≤ 4 → s.homePages * 128 ≤ addr.toNat →
      exec (.hostRequest addr tag op) s = .next (requestFaulted s addr tag op .outOfRange)) ∧
    (s.bridge.state = .unformatted → tag.toNat ≤ 4 → s.bridge.strapPages * 128 ≤ addr.toNat →
      exec (.hostRequest addr tag op) s = .next (requestFaulted s addr tag op .outOfRange)) ∧
    (s.bridge.state = .unformatted → tag.toNat ≤ 4 → (s.bridge.strapPages - 1) * 128 ≤ addr.toNat →
      addr.toNat < s.bridge.strapPages * 128 →
      exec (.hostRequest addr tag op) s = .next (requestFaulted s addr tag op .protectedPage))

/-- A write that passes steps 1 to 3 faults REGION_DENIED where the lowest-numbered enabled descriptor that covers its
page denies it, whatever its context, lanes and page-map entry (R104, R107, R126). -/
def Obligations.WriteDeniedByRegion : Prop :=
  ∀ (s : State) addr tag data lanes, requestArrives s → addressAdmitted s addr → tag.toNat ≤ 4 → regionDenies s addr tag →
    exec (.hostRequest addr tag (.write data lanes)) s
      = .next (requestFaulted s addr tag (.write data lanes) .regionDenied)

/-- Step 5 faults a tagged request by the state of its context, and step 7 faults a write with a lane to a page that
another holder's entry names (R112, R117 to R119, R126). -/
def Obligations.RequestFaultsByContextAndPage : Prop :=
  ∀ (s : State) addr tag, requestArrives s → addressAdmitted s addr →
    (∀ c, contextOf tag = some c → (s.contexts.get c).state = .idle →
      exec (.hostRequest addr tag .read) s = .next (requestFaulted s addr tag .read .contextClosed)) ∧
    (∀ c data lanes, contextOf tag = some c → (s.contexts.get c).state ∈ [.idle, .queued, .committing] →
      ¬ regionDenies s addr tag →
      exec (.hostRequest addr tag (.write data lanes)) s
        = .next (requestFaulted s addr tag (.write data lanes) .contextClosed)) ∧
    (∀ c data lanes reason a, contextOf tag = some c → (s.contexts.get c).state = .failed reason a →
      ¬ regionDenies s addr tag →
      exec (.hostRequest addr tag (.write data lanes)) s
        = .next (requestFaulted s addr tag (.write data lanes) .contextFailed)) ∧
    (∀ e owner data lanes, writeAdmitted s addr tag → s.bridge.state = .serving → lanes ≠ 0 →
      lookupPage s.pageMap (pageOf addr) = some e → e.state = .context owner → contextOf tag ≠ some owner →
      exec (.hostRequest addr tag (.write data lanes)) s
        = .next (requestFaulted s addr tag (.write data lanes) .conflict))

/-- An admitted write with no lane completes DONE without effect; an admitted direct write to a page without entry, and
every admitted direct write in UNFORMATTED, is posted to its own address while the buffer has a free entry (R117, R118,
R120, R125, R127, R129). -/
def Obligations.DirectWriteAccepted : Prop :=
  ∀ (s : State) addr data, requestArrives s →
    (∀ tag, writeAdmitted s addr tag → exec (.hostRequest addr tag (.write data 0)) s = .next (writeDone s)) ∧
    (∀ lanes, writeAdmitted s addr 0 → lanes ≠ 0 → (s.bridge.state = .unformatted ∨ noEntryFor s (pageOf addr)) →
      s.buffer.entries.length < 8 →
      exec (.hostRequest addr 0 (.write data lanes)) s = .next { writeDone s with
        buffer := withPosted s.buffer
          { target := .home, addr := addr, data := data, lanes := lanes, tag := none, fill := none } })

/-- The first write of an OPEN context to a page without entry takes the frame at the head of the list, creates the entry
in its place by HOME_PAGE, counts it, and is posted to the frame behind the fill of its block. A refused allocation fails
the write and the context with the first of the two reasons that applies, and queues CONTEXT_FAILED; map, list and buffer
stay as they were (R27 to R30, R53, R119, R120). -/
def Obligations.FirstTaggedWrite : Prop :=
  ∀ (s : State) addr tag c data lanes before after, requestArrives s → writeAdmitted s addr tag →
    s.bridge.state = .serving → contextOf tag = some c → lanes ≠ 0 → s.buffer.entries.length < 8 →
    s.pageMap = before ++ after → (∀ e ∈ before, e.homePage < pageOf addr) → (∀ e ∈ after, pageOf addr < e.homePage) →
    (∀ k rest, (s.contexts.get c).entryCount < 128 → s.freeFrames = k :: rest →
      exec (.hostRequest addr tag (.write data lanes)) s = .next { writeDone s with
        freeFrames := rest
        pageMap := before ++ { homePage := pageOf addr, frame := k, state := .context c,
                               written := BitVec.ofNat 16 (2 ^ blockOf addr) } :: after
        contexts := s.contexts.set c { s.contexts.get c with entryCount := (s.contexts.get c).entryCount + 1 }
        buffer := withPosted s.buffer
          { target := .frame k, addr := BitVec.ofNat 21 ((s.homePages + k) * 128 + addr.toNat % 128), data := data,
            lanes := lanes, tag := some c, fill := some (BitVec.ofNat 21 (pageOf addr * 128 + blockOf addr * 8)) } }) ∧
    (128 ≤ (s.contexts.get c).entryCount →
      exec (.hostRequest addr tag (.write data lanes)) s = .next (pushEvent { s with
        host := hostFaulted (raised s.host) .contextFull s.host.hdata
        contexts := s.contexts.set c { s.contexts.get c with state := .failed .contextFull addr } }
        (.contextFailed c .contextFull addr))) ∧
    ((s.contexts.get c).entryCount < 128 → s.freeFrames = [] →
      exec (.hostRequest addr tag (.write data lanes)) s = .next (pushEvent { s with
        host := hostFaulted (raised s.host) .poolExhausted s.host.hdata
        contexts := s.contexts.set c { s.contexts.get c with state := .failed .poolExhausted addr } }
        (.contextFailed c .poolExhausted addr)))

/-- A write of an OPEN context to a page it holds is posted to its frame: with its block added and a fill when the block
is new to the entry, and without either otherwise (R31, R119, R120). -/
def Obligations.WriteToOwnEntry : Prop :=
  ∀ (s : State) addr tag c data lanes e before after, requestArrives s → writeAdmitted s addr tag →
    s.bridge.state = .serving → contextOf tag = some c → lanes ≠ 0 → s.buffer.entries.length < 8 →
    s.pageMap = before ++ e :: after → e.homePage = pageOf addr → e.state = .context c →
    (∀ x ∈ before ++ after, x.homePage ≠ pageOf addr) →
    ∀ x : PostedEntry,
      x = { target := .frame e.frame, addr := BitVec.ofNat 21 ((s.homePages + e.frame) * 128 + addr.toNat % 128)
            data := data, lanes := lanes, tag := some c, fill := none } →
      (e.written.getLsbD (blockOf addr) = true →
        exec (.hostRequest addr tag (.write data lanes)) s
          = .next { writeDone s with buffer := withPosted s.buffer x }) ∧
      (e.written.getLsbD (blockOf addr) = false →
        exec (.hostRequest addr tag (.write data lanes)) s = .next { writeDone s with
          pageMap := before ++ { e with written := e.written ||| BitVec.ofNat 16 (2 ^ blockOf addr) } :: after
          buffer := withPosted s.buffer
            { x with fill := some (BitVec.ofNat 21 (pageOf addr * 128 + blockOf addr * 8)) } })

/-- A write to a page of the record is HELD with reason RECORD, and a write that step 8 finds no free entry for is HELD
with reason BUFFER_FULL; the hold timer starts with the hold timeout in force, and no other claim is taken (R118 to R121,
R125). -/
def Obligations.WriteHeld : Prop :=
  ∀ (s : State) addr tag data lanes, requestArrives s → s.host.holdTimer = none → writeAdmitted s addr tag → lanes ≠ 0 →
    (∀ e n, s.bridge.state = .serving → lookupPage s.pageMap (pageOf addr) = some e →
      (e.state = .pending n ∨ e.state = .copied n) →
      exec (.hostRequest addr tag (.write data lanes)) s = .next { s with
        host := { raised s.host with
          outstanding := some { addr := addr, tag := tag, op := .write data lanes, phase := .held .record
                                resolved := none, regionPassed := true }
          holdTimer := some s.settings.holdTimeout } }) ∧
    (8 ≤ s.buffer.entries.length →
      (s.bridge.state = .unformatted ∨ noEntryFor s (pageOf addr) ∨
        ∃ e c, lookupPage s.pageMap (pageOf addr) = some e ∧ e.state = .context c ∧ contextOf tag = some c) →
      exec (.hostRequest addr tag (.write data lanes)) s = .next { s with
        host := { raised s.host with
          outstanding := some { addr := addr, tag := tag, op := .write data lanes, phase := .held .bufferFull
                                resolved := none, regionPassed := true }
          holdTimer := some s.settings.holdTimeout } })

/-- The committed view reads the frame only for a written block of a PENDING entry, the context view of `c` also for a
written block of an entry of `c`, and both read the home word in every other case. So no view of a requester outside an
update reads a frame of it before the Mark claim (R113, R114). -/
def Obligations.ViewsFollowThePageMap : Prop :=
  ∀ (s : State) (w : WordAddr),
    (noEntryFor s (pageOf w) → s.committedView w = w ∧ ∀ c, s.contextView c w = w) ∧
    (∀ e, lookupPage s.pageMap (pageOf w) = some e →
      (∀ n, e.state = .pending n → ∀ a, a = (if e.written.getLsbD (blockOf w)
          then BitVec.ofNat 21 ((s.homePages + e.frame) * 128 + w.toNat % 128) else w) →
        s.committedView w = a ∧ ∀ c, s.contextView c w = a) ∧
      (∀ n, e.state = .copied n → s.committedView w = w ∧ ∀ c, s.contextView c w = w) ∧
      (∀ d, e.state = .context d → s.committedView w = w ∧
        (∀ c, c ≠ d → s.contextView c w = w) ∧
        s.contextView d w = if e.written.getLsbD (blockOf w)
          then BitVec.ofNat 21 ((s.homePages + e.frame) * 128 + w.toNat % 128) else w))

/-- An admitted read is resolved by its view in SERVING and to its own address in UNFORMATTED; it then waits for the
sequencer, or is HELD with reason READ_WAIT while an entry of the buffer writes the same array block (R104, R112, R115,
R121, R133). -/
def Obligations.ReadResolved : Prop :=
  ∀ (s : State) addr tag a, requestArrives s → s.host.holdTimer = none → addressAdmitted s addr → readResolves s addr tag a →
    ((∀ e ∈ s.buffer.entries, e.addr.toNat / 8 ≠ a.toNat / 8) →
      exec (.hostRequest addr tag .read) s = .next { s with
        host := { raised s.host with
          outstanding := some { addr := addr, tag := tag, op := .read, phase := .readGrant, resolved := some a
                                regionPassed := false } } }) ∧
    ((∃ e ∈ s.buffer.entries, e.addr.toNat / 8 = a.toNat / 8) →
      exec (.hostRequest addr tag .read) s = .next { s with
        host := { raised s.host with
          outstanding := some { addr := addr, tag := tag, op := .read, phase := .held .readWait, resolved := some a
                                regionPassed := false }
          holdTimer := some s.settings.holdTimeout } })

/-- HREQ_FALL lowers HDONE with HREQ and withdraws nothing; HOST_READ_COMPLETE completes the read with the word of the
array; HOLD_TIMEOUT faults a held request, and does nothing while the timer measures against 0 (R102, R115, R121, R123,
R126). -/
def Obligations.RequestCompletes : Prop :=
  ∀ s : State, s.powered = true →
    (exec .hreqFall s = .next { s with host := { s.host with hreq := false, hdone := false } }) ∧
    (∀ r t, s.host.outstanding = some r → r.phase = .readTransfer → r.op = .read → transferring s t →
      t.purpose = .hostRead → t.isWrite = false → noResumeDue s →
      exec .hostReadComplete s = .next { s with
        port := none, host := hostDone s.host (readWord s.array t.addr) }) ∧
    (∀ r h us, s.host.outstanding = some r → r.phase = .held h → s.host.holdTimer = some us → us ≠ 0 →
      exec .holdTimeout s = .next (pushEvent
        { s with host := hostFaulted s.host .holdTimeout (faultData s.host r.op) }
        (.hostFault r.tag .holdTimeout r.addr))) ∧
    (s.host.holdTimer = some 0 → exec .holdTimeout s = .next s)

/-! ### The management port -/

/-- FRAME_START, FRAME_END, BAD_COMMAND and BYTE_COMPLETE in each phase of a frame: bits are taken from MDI most significant
first, in one command or in several, a byte completes with its eighth, and the end of a frame drops an incomplete byte
(R156, R157, R159, R160, R173, R174). -/
def Obligations.FrameLifecycle : Prop :=
  ∀ (s : State) (m : MgmtPort), s.powered = true → m = s.mgmt →
    (m.mselN = true → exec .frameStart s = .next { s with
      mgmt := { mselN := false, phase := .command, code := none, args := [], bits := [], bytes := 0, response := [] } }) ∧
    (m.mselN = false → exec .frameEnd s = .next { s with
      mgmt := { mselN := true, phase := .idle, code := none, args := [], bits := [], bytes := 0, response := [] } }) ∧
    (∀ code xs, m.phase = .command → code ∉ codesWithoutArguments → code ∉ codesWithArguments.map Prod.fst →
      m.bits ++ xs = mdiBits code → exec (.badCommand code) s = .next { s with
        mgmt := { m with
          phase := .ignoring, code := some code, args := [], bits := [], bytes := m.bytes + 1, response := [1] } }) ∧
    (∀ xs, m.phase ≠ .idle → (m.bits ++ xs).length < 8 →
      exec (.byteComplete xs) s = .next { s with mgmt := { m with bits := m.bits ++ xs } }) ∧
    (m.bits.length < 8 →
      (∀ code n xs, m.phase = .command → m.bits ++ xs = mdiBits code → (code, n) ∈ codesWithArguments →
        exec (.byteComplete xs) s = .next { s with mgmt := { m with
          phase := .arguments, code := some code, args := [], bits := [], bytes := m.bytes + 1 } }) ∧
      (∀ code n b xs, m.phase = .arguments → m.code = some code → (code, n) ∈ codesWithArguments → m.args.length + 1 < n →
        m.bits ++ xs = mdiBits b → exec (.byteComplete xs) s = .next { s with mgmt := { m with
          args := m.args ++ [b], bits := [], bytes := m.bytes + 1 } }) ∧
      (∀ xs, m.phase ∈ [.response, .ignoring] → (m.bits ++ xs).length = 8 →
        exec (.byteComplete xs) s = .next { s with mgmt := { m with bits := [], bytes := m.bytes + 1 } })) ∧
    (∀ xs, m.phase = .idle → exec (.byteComplete xs) s = .next s) ∧
    ∀ xs ys, exec (.byteComplete (xs ++ ys)) s = execAll [.byteComplete xs, .byteComplete ys] s

/-- A frame started with MSEL_N high reaches the decode point of its command after the bytes before it, whatever else the
machine holds; after a decode with `k` argument bytes it shifts out 00h up to byte k, the status in byte k + 1, then the
response data, then 00h. MDO is driven in a powered part exactly while MSEL_N is low, and carries the byte being shifted out
most significant bit first, one bit for each bit taken (R156 to R158, R174). -/
def Obligations.FrameReachesDecodeAndAnswers : Prop :=
  (∀ (s : State) code args, s.powered = true → s.mgmt.mselN = true →
    ((code, args.length) ∈ codesWithArguments ∨ (args = [] ∧ code ∈ codesWithoutArguments)) →
    ∃ t, execAll (.frameStart :: if args = [] then [] else
        (code :: args.dropLast).map fun b => Instr.byteComplete (mdiBits b)) s = .next t ∧
      t = { s with mgmt := t.mgmt } ∧ atDecode t code args = true ∧ t.mgmt.bits = [] ∧ t.mgmt.bytes = args.length) ∧
  (∀ (s : State) i, s.mgmt.phase = .command ∨ s.mgmt.phase = .arguments → s.mdoByte i = some 0) ∧
  (∀ (s : State) k status data, s.mgmt.phase = .response ∨ s.mgmt.phase = .ignoring → s.mgmt.args.length = k →
    s.mgmt.response = status :: data →
    (∀ i, i ≤ k → s.mdoByte i = some 0) ∧ s.mdoByte (k + 1) = some status ∧
    (∀ j b, data[j]? = some b → s.mdoByte (k + 2 + j) = some b) ∧
    ∀ i, k + 2 + data.length ≤ i → s.mdoByte i = some 0) ∧
  ∀ s : State, (s.mdo.isSome = true ↔ s.powered = true ∧ s.mgmt.mselN = false) ∧
    ∀ b j, s.powered = true → s.mgmt.mselN = false → s.mdoByte s.mgmt.bytes = some b → s.mgmt.bits.length = j → j < 8 →
      s.mdo = (mdiBits b)[j]?

/-- The codes of R174 and R175 for the statuses, the bridge, context, engine and page-map entry states, the region kinds, the
anchor reasons and the host fault reasons; and STATUS answers in every bridge state with the 29 bytes of the status record in
those codes, and changes nothing else (R163, R164, R174 to R176). -/
def Obligations.StatusAnswers : Prop :=
  ([Status.accepted, .badCommand, .badArgument, .wrongState, .tooLate, .exhausted].map Status.byte = [0, 1, 2, 3, 4, 5] ∧
    [BridgeState.starting, .unformatted, .recovering, .serving, .formatting, .frozen, .resetting].map BridgeState.code
      = [1, 2, 3, 4, 5, 6, 7] ∧
    (∀ r a, [ContextState.idle, .opened, .failed r a, .queued, .committing].map ContextState.code = [0, 1, 2, 3, 4]) ∧
    [Stage.idle, .drain, .sum, .write, .mark, .copy, .retire, .scan, .apply, .format].map Stage.code
      = [0, 1, 2, 3, 4, 5, 6, 7, 8, 9] ∧
    (∀ c n, [EntryState.context c, .pending n, .copied n].map EntryState.code = [1, 2, 3]) ∧
    [RegionKind.readOnly, .contextOnly, .directOnly].map RegionKind.code = [1, 2, 3] ∧
    [AnchorReason.checksum, .mismatch, .geometry].map AnchorReason.code = [1, 2, 3] ∧
    [FaultReason.outOfRange, .protectedPage, .badTag, .contextClosed, .contextFailed, .conflict, .poolExhausted, .contextFull,
      .regionDenied, .notReady, .frozen, .holdTimeout].map FaultReason.code = [1, 2, 3, 4, 5, 6, 7, 8, 9, 10, 11, 12]) ∧
  ∀ (s : State), atDecode s 0x01 [] = true → exec .status s = .next (acceptedWith s 0x01 []
    ([BitVec.ofNat 8 s.bridge.state.code,
      (match s.bridge.returnState with
       | some r => BitVec.ofNat 8 r.code
       | none => 0),
      (if s.monitor.level then 1 else 0),
      BitVec.ofNat 8 s.contexts.c1.state.code, BitVec.ofNat 8 s.contexts.c2.state.code,
      BitVec.ofNat 8 s.contexts.c3.state.code, BitVec.ofNat 8 s.contexts.c4.state.code,
      BitVec.ofNat 8 s.commitQueue.length, queuePlace s 0, queuePlace s 1, queuePlace s 2, queuePlace s 3,
      BitVec.ofNat 8 s.engine.stage.code,
      BitVec.ofNat 8 (s.freeFrames.length / 256), BitVec.ofNat 8 s.freeFrames.length,
      BitVec.ofNat 8 s.buffer.entries.length] ++
     bigEndian s.engine.lastSequence ++
     [BitVec.ofNat 8 s.events.length, (if s.overflow then 1 else 0), BitVec.ofNat 8 s.engine.faultCount] ++
     match s.bridge.geometry with
     | some g => [BitVec.ofNat 8 (g.arrayPages / 256), BitVec.ofNat 8 g.arrayPages, BitVec.ofNat 8 (g.frames / 256),
                  BitVec.ofNat 8 g.frames, BitVec.ofNat 8 (g.homePages / 256), BitVec.ofNat 8 g.homePages]
     | none => [0, 0, 0, 0, 0, 0]))

/-- READ_CONTEXT answers with the context record and LOOKUP with the lookup record, and neither changes anything else;
READ_CONTEXT is refused for a number other than 1 to 4, LOOKUP without a geometry and for a page from H up (R39, R40, R59,
R163, R177). The codes of context and entry states are pinned in StatusAnswers. -/
def Obligations.ContextAndLookupRecords : Prop :=
  (∀ (s : State) c, atDecode s 0x02 [c] = true →
    (∀ k q, contextOf c = some k →
      ((q = 0 ∧ k ∉ s.commitQueue) ∨
        (s.commitQueue[q - 1]? = some k ∧ 1 ≤ q ∧ ∀ j, j < q - 1 → s.commitQueue[j]? ≠ some k)) →
      exec (.readContext c) s = .next (acceptedWith s 0x02 [c]
        ([c, BitVec.ofNat 8 (s.contexts.get k).state.code, BitVec.ofNat 8 (s.contexts.get k).entryCount, BitVec.ofNat 8 q]
          ++ failFields (s.contexts.get k).state ++ bigEndian (s.contexts.get k).lastSequence))) ∧
    (c = 0 ∨ 5 ≤ c.toNat → exec (.readContext c) s = .next (refusedWith s 0x02 [c] .badArgument))) ∧
  ∀ (s : State) p hi lo, hi = highByte p → lo = lowByte p → atDecode s 0x03 [hi, lo] = true →
    (s.bridge.geometry = none → exec (.lookup p) s = .next (refusedWith s 0x03 [hi, lo] .wrongState)) ∧
    ∀ g, s.bridge.geometry = some g →
      (g.homePages ≤ p.toNat → exec (.lookup p) s = .next (refusedWith s 0x03 [hi, lo] .badArgument)) ∧
      (p.toNat < g.homePages → noEntryFor s p.toNat →
        exec (.lookup p) s = .next (acceptedWith s 0x03 [hi, lo] [0, hi, lo, 0, 0, 0, 0, 0, 0])) ∧
      ∀ e, p.toNat < g.homePages → lookupPage s.pageMap p.toNat = some e →
        exec (.lookup p) s = .next (acceptedWith s 0x03 [hi, lo]
          [1, hi, lo, BitVec.ofNat 8 e.state.code,
           (match e.state with
            | .context c => BitVec.ofNat 8 c.number
            | _ => 0),
           BitVec.ofNat 8 e.frame, highByte e.written, lowByte e.written,
           (match e.state with
            | .pending n | .copied n => BitVec.ofNat 8 n
            | _ => 0)])

/-- READ_FAULTS answers with the fault record and GET_REGION with the record of a descriptor 0 to 7, and neither changes
anything else (R99, R110, R163, R177). -/
def Obligations.FaultAndRegionRecords : Prop :=
  (∀ s : State, atDecode s 0x05 [] = true → exec .readFaults s = .next (acceptedWith s 0x05 []
    ([BitVec.ofNat 8 s.engine.faultCount, BitVec.ofNat 8 (min s.engine.faultCount 8)] ++
      (List.range 8).flatMap fun i =>
        [BitVec.ofNat 8 (s.engine.faultList.getD i 0 / 256), BitVec.ofNat 8 (s.engine.faultList.getD i 0)]))) ∧
  ∀ (s : State) i, atDecode s 0x07 [i] = true →
    (8 ≤ i.toNat → exec (.getRegion i) s = .next (refusedWith s 0x07 [i] .badArgument)) ∧
    ∀ j : Fin 8, i.toNat = j → exec (.getRegion i) s = .next (acceptedWith s 0x07 [i]
      [i, (if s.regions[j].kind.isSome then 1 else 0),
       BitVec.ofNat 8 (s.regions[j].first / 256), BitVec.ofNat 8 s.regions[j].first,
       BitVec.ofNat 8 (s.regions[j].last / 256), BitVec.ofNat 8 s.regions[j].last,
       (match s.regions[j].kind with
        | none => 0
        | some .readOnly => 1
        | some .contextOnly => 2
        | some .directOnly => 3)])

/-- R166. GET_CONFIG answers with the value of the item as two bytes, high byte first, in every bridge state, refuses an
unknown item, changes no state, and shows the value an accepted SET_CONFIG set. -/
def Obligations.GetConfigAnswers : Prop :=
  (∀ (s : State) item, atDecode s 0x06 [item] = true →
    (∀ v, (item, v) ∈ [((1 : Byte), s.settings.holdTimeout), (2, s.settings.tripFilter),
        (3, match s.settings.tripMode with | .freeze => 0 | .report => 1), (4, s.settings.autoResume.toNat),
        (5, s.settings.resumeDelay), (6, s.settings.irqEnable.toNat)] →
      exec (.getConfig item) s
        = .next (acceptedWith s 0x06 [item] [BitVec.ofNat 8 (v / 256), BitVec.ofNat 8 v])) ∧
    (item = 0 ∨ 7 ≤ item.toNat → exec (.getConfig item) s = .next (refusedWith s 0x06 [item] .badArgument))) ∧
  ∀ (s t : State) item (v : BitVec 16), atDecode s 0x20 [item, highByte v, lowByte v] = true →
    exec (.setConfig item v) s = .next t → t.mgmt.response = [0] → t.settings.item item.toNat = some v.toNat

/-- READ_EVENTS n pops up to n records from the head and clears the overflow flag when it leaves the queue empty; an event
joins the tail, or is discarded with the flag set when the queue holds 16; and IRQ_N is low while the interrupt enable is on
and the queue holds a record (R163, R167 to R169, R171, R175, R178). The codes of the host fault reasons are pinned in
StatusAnswers. -/
def Obligations.EventQueueServed : Prop :=
  (∀ (s : State) n, atDecode s 0x04 [n] = true →
    (1 ≤ n.toNat → n.toNat ≤ 16 → exec (.readEvents n) s = .next (acceptedWith
      { s with events := s.events.drop n.toNat, overflow := s.overflow && decide (n.toNat < s.events.length) } 0x04 [n]
      (BitVec.ofNat 8 (min n.toNat s.events.length) :: (s.events.take n.toNat).flatMap Event.bytes))) ∧
    (n = 0 ∨ 17 ≤ n.toNat → exec (.readEvents n) s = .next (refusedWith s 0x04 [n] .badArgument))) ∧
  (∀ (s : State) e, (s.events.length < 16 → pushEvent s e = { s with events := s.events ++ [e] }) ∧
    (16 ≤ s.events.length → pushEvent s e = { s with overflow := true })) ∧
  (∀ s : State, s.powered = true → (s.irqN = false ↔ s.settings.irqEnable = true ∧ s.events ≠ [])) ∧
  (∀ c q n, Event.bytes (.committed c q n) = [1, BitVec.ofNat 8 c.number, 0, BitVec.ofNat 8 n] ++ bigEndian q) ∧
  (∀ c r a, Event.bytes (.contextFailed c r a) =
    [2, BitVec.ofNat 8 c.number, (match r with | .poolExhausted => 7 | .contextFull => 8), 0] ++ bigEndian (a.zeroExtend 32)) ∧
  (∀ t r a, Event.bytes (.hostFault t r a) = [3, t.zeroExtend 8, BitVec.ofNat 8 r.code, 0] ++ bigEndian (a.zeroExtend 32)) ∧
  (Event.bytes .trip = [4, 0, 0, 0, 0, 0, 0, 0] ∧ Event.bytes .supplyLow = [5, 0, 0, 0, 0, 0, 0, 0] ∧
    Event.bytes .resumed = [6, 0, 0, 0, 0, 0, 0, 0]) ∧
  (∀ q n, Event.bytes (.recoveryDone q n) = [7, 0, 0, BitVec.ofNat 8 n] ++ bigEndian q) ∧
  (∀ r, Event.bytes (.anchorInvalid r) =
    [8, 0, (match r with | .checksum => 1 | .mismatch => 2 | .geometry => 3), 0, 0, 0, 0, 0]) ∧
  ∀ f, Event.bytes (.formatDone f) = [9, 0, 0, 0] ++ bigEndian (BitVec.ofNat 32 f)

/-- SET_CONFIG sets a known item to a value in its range in every bridge state and changes nothing else, but that FREEZE
set while REPORTED re-arms the monitor, which starts the filter with the line asserted and with filter code 0 trips at once
(assumption log 15); any other item or value is refused. What auto-resume turned on may resume is the matter of
AutoResumeMoments (R144, R147, R151, R155, R165). -/
def Obligations.SetConfigApplies : Prop :=
  ∀ (s : State) item v args, args = [item, highByte v, lowByte v] → atDecode s 0x20 args = true →
    ∀ set : (Settings → Settings) → State, (set = fun f => acceptedWith { s with settings := f s.settings } 0x20 args []) →
    (item = 1 → exec (.setConfig item v) s = .next (set fun c => { c with holdTimeout := v.toNat })) ∧
    (item = 2 → v.toNat ≤ 4 → exec (.setConfig item v) s = .next (set fun c => { c with tripFilter := v.toNat })) ∧
    (item = 3 → v = 1 → exec (.setConfig item v) s = .next (set fun c => { c with tripMode := .report })) ∧
    (item = 3 → v = 0 → s.monitor.phase ≠ .reported →
      exec (.setConfig item v) s = .next (set fun c => { c with tripMode := .freeze })) ∧
    (∀ u, item = 3 → v = 0 → s.monitor.phase = .reported →
      armsTo { s with settings := { s.settings with tripMode := .freeze } } u →
      exec (.setConfig item v) s = .next (acceptedWith u 0x20 args [])) ∧
    (item = 4 → v = 0 → exec (.setConfig item v) s = .next (set fun c => { c with autoResume := false })) ∧
    (item = 4 → v = 1 → (noResumeDue { s with settings := { s.settings with autoResume := true } } ∨ s.port.isSome = true) →
      exec (.setConfig item v) s = .next (set fun c => { c with autoResume := true })) ∧
    (item = 5 → 1 ≤ v.toNat → v.toNat ≤ 255 →
      exec (.setConfig item v) s = .next (set fun c => { c with resumeDelay := v.toNat })) ∧
    (item = 6 → v.toNat ≤ 1 → exec (.setConfig item v) s = .next (set fun c => { c with irqEnable := v == 1 })) ∧
    ((item = 0 ∨ 7 ≤ item.toNat ∨ (item = 2 ∧ 5 ≤ v.toNat) ∨ (item ∈ [3, 4, 6] ∧ 2 ≤ v.toNat) ∨
        (item = 5 ∧ (v = 0 ∨ 256 ≤ v.toNat))) →
      exec (.setConfig item v) s = .next (refusedWith s 0x20 args .badArgument))

/-- SET_REGION in SERVING and UNFORMATTED sets or disables one descriptor, by the checks in order, and is refused with
WRONG_STATE in every other state (R109, R173). -/
def Obligations.SetRegionApplies : Prop :=
  ∀ (s : State) i first last kind args, args = [i, highByte first, lowByte first, highByte last, lowByte last, kind] →
    atDecode s 0x21 args = true →
    (s.bridge.state ∉ [.serving, .unformatted] →
      exec (.setRegion i first last kind) s = .next (refusedWith s 0x21 args .wrongState)) ∧
    (s.bridge.state ∈ [.serving, .unformatted] →
      (8 ≤ i.toNat ∨ 4 ≤ kind.toNat →
        exec (.setRegion i first last kind) s = .next (refusedWith s 0x21 args .badArgument)) ∧
      ∀ limit, limit = (if s.bridge.state = .serving then s.homePages else s.bridge.strapPages - 1) →
        (1 ≤ kind.toNat → (last.toNat < first.toNat ∨ limit ≤ last.toNat) →
          exec (.setRegion i first last kind) s = .next (refusedWith s 0x21 args .badArgument)) ∧
        ∀ j : Fin 8, i.toNat = j →
          (kind = 0 → exec (.setRegion i first last kind) s = .next (acceptedWith
            { s with regions := s.regions.set j { kind := none, first := 0, last := 0 } } 0x21 args [])) ∧
          ∀ k, (kind, k) ∈ [((1 : Byte), RegionKind.readOnly), (2, .contextOnly), (3, .directOnly)] →
            first.toNat ≤ last.toNat → last.toNat < limit →
            exec (.setRegion i first last kind) s = .next (acceptedWith
              { s with regions := s.regions.set j { kind := some k, first := first.toNat, last := last.toNat } }
              0x21 args []))

/-! ### Context commands -/

/-- OPEN, COMMIT and ABORT are refused outside SERVING, then for a number other than 1 to 4, then by the state of the
context: COMMIT with EXHAUSTED where its sequence would pass FFFFFFFFh, ABORT of a COMMITTING context with TOO_LATE (R44 to
R46, R54, R163). -/
def Obligations.ContextCommandsRefused : Prop :=
  ∀ (s : State) c code x, (code, x) ∈ [((0x10 : Byte), Instr.openContext c), (0x11, .commit c), (0x12, .abort c)] →
    atDecode s code [c] = true →
    (s.bridge.state ≠ .serving → exec x s = .next (refusedWith s code [c] .wrongState)) ∧
    (s.bridge.state = .serving → (c = 0 ∨ 5 ≤ c.toNat) → exec x s = .next (refusedWith s code [c] .badArgument)) ∧
    ∀ k, s.bridge.state = .serving → contextOf c = some k →
      (x = .openContext c → (s.contexts.get k).state ≠ .idle →
        exec x s = .next (refusedWith s code [c] .wrongState)) ∧
      (x = .commit c → (s.contexts.get k).state ≠ .opened →
        exec x s = .next (refusedWith s code [c] .wrongState)) ∧
      (x = .commit c → (s.contexts.get k).state = .opened →
        4294967295 < s.engine.lastSequence.toNat + 1 +
          ([ContextId.c1, .c2, .c3, .c4].filter fun d => (s.contexts.get d).state = .queued ∨
            (s.contexts.get d).state = .committing).length →
        exec x s = .next (refusedWith s code [c] .exhausted)) ∧
      (x = .abort c → (s.contexts.get k).state = .idle → exec x s = .next (refusedWith s code [c] .wrongState)) ∧
      (x = .abort c → (s.contexts.get k).state = .committing → exec x s = .next (refusedWith s code [c] .tooLate))

/-- OPEN makes an IDLE context OPEN; COMMIT of an OPEN context with no entries completes at decode with COMMITTED, and with
entries queues it at the tail (R44 to R48). -/
def Obligations.OpenAndCommitAccepted : Prop :=
  ∀ (s : State) c k, s.bridge.state = .serving → contextOf c = some k →
    (atDecode s 0x10 [c] = true → (s.contexts.get k).state = .idle →
      exec (.openContext c) s = .next (acceptedWith { s with
        contexts := s.contexts.set k { s.contexts.get k with state := .opened, entryCount := 0 } } 0x10 [c] [])) ∧
    (atDecode s 0x11 [c] = true → (s.contexts.get k).state = .opened →
      s.engine.lastSequence.toNat + 1 +
        ([ContextId.c1, .c2, .c3, .c4].filter fun d => (s.contexts.get d).state = .queued ∨
          (s.contexts.get d).state = .committing).length ≤ 4294967295 →
      ((s.contexts.get k).entryCount = 0 →
        exec (.commit c) s = .next (acceptedWith (pushEvent { s with
          contexts := s.contexts.set k { s.contexts.get k with state := .idle } } (.committed k 0 0)) 0x11 [c] [])) ∧
      ((s.contexts.get k).entryCount ≠ 0 →
        exec (.commit c) s = .next (acceptedWith { s with
          contexts := s.contexts.set k { s.contexts.get k with state := .queued }
          commitQueue := s.commitQueue ++ [k] } 0x11 [c] [])))

/-- An accepted ABORT takes the context from the queue, its entries from the buffer but for a begun head, and its entries
from the map with their frames to the tail of the list, and makes it IDLE, all in one claim. A read of a frame it returned
fault CONTEXT_CLOSED with HOST_FAULT; another read with no conflicting entry left goes to the sequencer, which rests on R56
before R122 (assumption log 13); a write held BUFFER_FULL, of whatever tag, is classified again when the discard freed an
entry, as R56 and R122 say; any other request stays as it was (R33, R54 to R56, R116, R122, R134). -/
def Obligations.AbortAccepted : Prop :=
  ∀ (s : State) c k, s.bridge.state = .serving → contextOf c = some k → atDecode s 0x12 [c] = true →
    ((s.contexts.get k).state = .opened ∨ (s.contexts.get k).state = .queued ∨
      ∃ r a, (s.contexts.get k).state = .failed r a) →
    ((∀ r, s.host.outstanding = some r → r.phase = .held .record ∨ r.phase = .readTransfer ∨
        (r.phase = .held .bufferFull ∧ (afterAbort s.buffer k).entries.length = s.buffer.entries.length)) →
      exec (.abort c) s = .next (acceptedWith (aborted s k) 0x12 [c] [])) ∧
    ∀ r, s.host.outstanding = some r →
    (∀ a, r.op = .read → r.resolved = some a → (r.phase = .held .readWait ∨ r.phase = .readGrant) →
      (contextOf r.tag = some k → (∃ e ∈ s.pageMap, e.state = .context k ∧ pageOf a = s.homePages + e.frame) →
        exec (.abort c) s = .next (acceptedWith (pushEvent
          { aborted s k with host := hostFaulted s.host .contextClosed 0 }
          (.hostFault r.tag .contextClosed r.addr)) 0x12 [c] [])) ∧
      ((contextOf r.tag ≠ some k ∨ ∀ e ∈ s.pageMap, e.state = .context k → pageOf a ≠ s.homePages + e.frame) →
        (r.phase = .held .readWait → (∀ e ∈ (afterAbort s.buffer k).entries, e.addr.toNat / 8 ≠ a.toNat / 8) →
          exec (.abort c) s = .next (acceptedWith { aborted s k with
            host := { s.host with outstanding := some { r with phase := .readGrant }, holdTimer := none } } 0x12 [c] [])) ∧
        (r.phase = .readGrant ∨ (∃ e ∈ (afterAbort s.buffer k).entries, e.addr.toNat / 8 = a.toNat / 8) →
          exec (.abort c) s = .next (acceptedWith (aborted s k) 0x12 [c] [])))) ∧
    (∀ data lanes v, r.op = .write data lanes → r.phase = .held .bufferFull →
      (afterAbort s.buffer k).entries.length < s.buffer.entries.length → r.addr.toNat < s.homePages * 128 →
      r.regionPassed = true → WriteSettles (aborted s k) r data lanes v →
      exec (.abort c) s = .next (acceptedWith v 0x12 [c] []))

/-- R100. CLEAR_FAULTS empties the recovery fault list and sets the fault count to 0, and changes nothing else; it is
refused with WRONG_STATE in RECOVERING and in FROZEN entered from RECOVERING, and accepted in every other bridge state. -/
def Obligations.ClearFaultsApplies : Prop :=
  ∀ s : State, atDecode s 0x22 [] = true →
    (s.bridge.state = .recovering ∨ (s.bridge.state = .frozen ∧ s.bridge.returnState = some .recovering) →
      exec .clearFaults s = .next (refusedWith s 0x22 [] .wrongState)) ∧
    (¬ (s.bridge.state = .recovering ∨ (s.bridge.state = .frozen ∧ s.bridge.returnState = some .recovering)) →
      exec .clearFaults s = .next (acceptedWith
        { s with engine := { s.engine with faultList := [], faultCount := 0 } } 0x22 [] []) ∧
      ∀ t u, exec .clearFaults s = .next t → atDecode u 0x01 [] = true → u = { t with mgmt := u.mgmt } →
        ∃ v, exec .status u = .next v ∧ v.mgmt.response[23]? = some 0)

/-- FORMAT is checked against the bridge state, then against its argument; accepted, it enters FORMATTING with the engine in
its FORMAT stage, at step 2 when the buffer is already empty (R4, R14, R15). A waiting request is the matter of
WaitingRequestFaulted. -/
def Obligations.FormatDecided : Prop :=
  ∀ (s : State) f args, args = [highByte f, lowByte f] → atDecode s 0x30 args = true →
    ∀ ready : Prop,
      (ready ↔ s.bridge.state = .unformatted ∨
        (s.bridge.state = .serving ∧ (∀ c, (s.contexts.get c).state = .idle) ∧ s.commitQueue = [] ∧
          s.engine.stage = .idle)) →
      (¬ ready → exec (.format f) s = .next (refusedWith s 0x30 args .wrongState)) ∧
      (ready → (f.toNat < 16 ∨ 256 < f.toNat ∨ s.bridge.strapPages < f.toNat + 73) →
        exec (.format f) s = .next (refusedWith s 0x30 args .badArgument)) ∧
      (ready → 16 ≤ f.toNat → f.toNat ≤ 256 → f.toNat + 73 ≤ s.bridge.strapPages → s.engine.pause = .running →
        (∀ r, s.host.outstanding = some r → r.phase.waiting = false) →
        exec (.format f) s = .next (acceptedWith { s with
          bridge := { s.bridge with state := .formatting }
          engine := { s.engine with
            stage := .format, formatFrames := some f.toNat
            formatStep := if s.buffer.entries = [] then some 2 else some 1
            pos := { slotIndex := 0, entry := 0, block := 0, word := 0, pass := .checksum } } } 0x30 args []))

/-! ### The array sequencer and the drain -/

/-- TAKE_WORK: an IDLE engine in SERVING takes the head of the commit queue, forms the current record from its entries in
ascending HOME_PAGE, and enters DRAIN, or SUM at once when the buffer holds no entry of the context; with no work to take
nothing happens (R22, R51, R61, R64 to R66). -/
def Obligations.WorkTaken : Prop :=
  ∀ s : State, s.powered = true →
    (s.commitQueue = [] ∨ s.engine.stage ≠ .idle ∨ s.bridge.state ≠ .serving → exec .takeWork s = .next s) ∧
    ∀ c rest e es b, s.commitQueue = c :: rest → s.engine.stage = .idle → s.bridge.state = .serving →
      s.engine.pause = .running → (s.pageMap.filter fun e => e.state = .context c) = e :: es → firstBlock e.written = some b →
      ∀ (u : State) r,
        r = { sequence := s.engine.lastSequence + 1
              slot := if (s.engine.lastSequence + 1).toNat % 2 = 0 then .slot0 else .slot1
              context := some c, entryCount := (s.contexts.get c).entryCount
              items := (e :: es).map fun e =>
                { homePage := e.homePage, frame := e.frame, written := e.written, checksum := none }
              recordChecksum := none } →
        u = { s with
              commitQueue := rest
              contexts := s.contexts.set c { s.contexts.get c with state := .committing }
              engine := { s.engine with
                stage := .drain, record := some r
                pos := { slotIndex := 0, entry := 0, block := 0, word := 0, pass := .checksum } } } →
        ((∃ x ∈ s.buffer.entries, x.tag = some c) → exec .takeWork s = .next u) ∧
        ((∀ x ∈ s.buffer.entries, x.tag ≠ some c) → exec .takeWork s = .next { u with
          engine := { u.engine with
            stage := .sum, sums := { first := 0, second := 0 }
            pos := { slotIndex := 0, entry := 0, block := b, word := 0, pass := .checksum } } })

/-- ARRAY_GRANT: the port is given to one client by the first step that applies, or stays as it is (R137 to R141). -/
def Obligations.GrantDecision : Prop :=
  ∀ s : State, s.powered = true →
    (s.port.isSome = true → exec .arrayGrant s = .next s) ∧
    (s.port = none →
      (s.bridge.state = .frozen ∨ s.bridge.state = .resetting →
        (∀ d, drainAsks s = some d → exec .arrayGrant s = .next (drainGranted s d)) ∧
        (drainAsks s = none → exec .arrayGrant s = .next s)) ∧
      (s.bridge.state ≠ .frozen → s.bridge.state ≠ .resetting →
        (∀ d, drainAsks s = some d → urgentDrain s → exec .arrayGrant s = .next (drainGranted s d)) ∧
        (∀ t, readAsks s = some t → (drainAsks s = none ∨ ¬ urgentDrain s) →
          exec .arrayGrant s = .next (readGranted s t)) ∧
        (∀ d t, readAsks s = none → drainAsks s = some d → ¬ urgentDrain s → engineAsks s = some t →
          exec .arrayGrant s = .next (match s.turn with
            | .engine => drainGranted s d
            | .drain => engineGranted s t)) ∧
        (∀ d, readAsks s = none → drainAsks s = some d → engineAsks s = none →
          exec .arrayGrant s = .next (drainGranted s d)) ∧
        (∀ t, readAsks s = none → drainAsks s = none → engineAsks s = some t →
          exec .arrayGrant s = .next (engineGranted s t)) ∧
        (readAsks s = none → drainAsks s = none → engineAsks s = none → exec .arrayGrant s = .next s)))

/-- The transfer each client asks for: the drain the one its head position names, the read path the resolved word of a read
in READ_GRANT, the engine the next one of its stage, and bridge control the next word of the anchor (R10, R15, R67, R69 to
R74, R90, R93, R95, R130). -/
def Obligations.ClientsAsk : Prop :=
  ∀ s : State,
    (s.buffer.entries = [] → drainAsks s = none) ∧
    (∀ x xs h, s.buffer.entries = x :: xs → s.buffer.head = some h →
      (∀ i f, h.pos = .fillRead i → x.fill = some f →
        drainAsks s = some (readOf .fillRead (BitVec.ofNat 21 (f.toNat + i)))) ∧
      (∀ i w, h.pos = .fillWrite i → h.store[i]? = some w →
        drainAsks s = some (writeOf .fillWrite (BitVec.ofNat 21 (x.addr.toNat / 8 * 8 + i)) w)) ∧
      (h.pos = .write → drainAsks s = some { writeOf .drainWrite x.addr x.data with lanes := x.lanes })) ∧
    ((∀ r, s.host.outstanding = some r → r.phase ≠ .readGrant) → readAsks s = none) ∧
    (∀ r a, s.host.outstanding = some r → r.phase = .readGrant → r.resolved = some a →
      readAsks s = some (readOf .hostRead a)) ∧
    (∀ ws, s.bridge.state = .starting → s.bridge.anchorRead = some ws →
      engineAsks s = some (readOf .anchorRead (pageWord (s.bridge.strapPages - 1) ws.length))) ∧
    (s.bridge.state ∉ [.starting, .serving, .recovering, .formatting] ∨
      (s.bridge.state ≠ .starting ∧ (s.engine.pause ≠ .running ∨ s.engine.stage = .idle ∨ s.engine.stage = .drain)) →
      engineAsks s = none) ∧
    (s.bridge.state ∈ [.serving, .recovering, .formatting] → s.engine.pause = .running →
      ∀ (e : Engine) (p : Position), e = s.engine → p = e.pos →
      (∀ r it fw hw, e.record = some r → r.items[p.entry]? = some it →
        fw = pageWord (s.homePages + it.frame) (p.block * 8 + p.word) → hw = pageWord it.homePage (p.block * 8 + p.word) →
        (e.stage = .sum → p.pass = .checksum → engineAsks s = some (readOf .sumRead fw)) ∧
        (e.stage = .copy → p.pass = .copyRead → engineAsks s = some (readOf .copyRead fw)) ∧
        (∀ w, e.stage = .copy → p.pass = .copyWrite → e.copyStore[p.word]? = some w →
          engineAsks s = some (writeOf .copyWrite hw w)) ∧
        (e.stage = .apply → p.pass = .checksum → engineAsks s = some (readOf .verifyRead fw)) ∧
        (e.stage = .apply → p.pass = .copyRead → engineAsks s = some (readOf .applyCopyRead fw)) ∧
        (∀ w, e.stage = .apply → p.pass = .copyWrite → e.copyStore[p.word]? = some w →
          engineAsks s = some (writeOf .applyCopyWrite hw w))) ∧
      (∀ r hp, e.record = some r → hp = s.arrayPages - (match r.slot with | .slot0 => 9 | .slot1 => 5) →
        (e.stage = .write →
          (p.word = 0 → engineAsks s = some (writeOf .journalWrite (pageWord hp 8) 0)) ∧
          (∀ i w, i < 4 → p.word = i + 1 → (headerWords r ++ [r.recordChecksum.getD 0])[i]? = some w →
            engineAsks s = some (writeOf .journalWrite (pageWord hp i) w)) ∧
          (∀ j w, p.word = j + 5 → (entryWords r)[j]? = some w →
            engineAsks s = some (writeOf .journalWrite (pageWord (hp + 1 + j / 128) (j % 128)) w))) ∧
        (e.stage = .mark → engineAsks s = some (writeOf .markWrite (pageWord hp 8) r.sequence)) ∧
        (e.stage = .retire → s.bridge.state ≠ .recovering →
          engineAsks s = some (writeOf .retireWrite (pageWord hp 16) r.sequence))) ∧
      (∀ sl hp, hp = s.arrayPages - (match sl with | .slot0 => 9 | .slot1 => 5) →
        (∀ k, e.stage = .scan → p.slotIndex = (match sl with | .slot0 => 0 | .slot1 => 1) → k = e.scanWords.length →
          (∀ w, [0, 1, 2, 3, 8, 16][k]? = some w → engineAsks s = some (readOf .scanRead (pageWord hp w))) ∧
          (6 ≤ k → engineAsks s
            = some (readOf .scanRead (pageWord (hp + 1 + (k - 6) / 128) ((k - 6) % 128))))) ∧
        (e.stage = .retire → s.bridge.state = .recovering → e.applyList[p.slotIndex]? = some sl →
          engineAsks s = some (writeOf .recoveryRetireWrite (pageWord hp 16) (e.imageSequence sl)))) ∧
      (e.stage = .format → ∀ a f, a = s.bridge.strapPages → e.formatFrames = some f →
        (e.formatStep = some 1 → engineAsks s = none) ∧
        (∀ x, e.formatStep = some 2 →
          [pageWord (a - 9) 8, pageWord (a - 9) 16, pageWord (a - 5) 8, pageWord (a - 5) 16][p.word]? = some x →
          engineAsks s = some (writeOf .formatWrite x 0)) ∧
        ∀ w, e.formatStep = some 3 →
          ([1, BitVec.ofNat 32 a, BitVec.ofNat 32 f, BitVec.ofNat 32 (a - 9 - f),
            checksumOf [1, BitVec.ofNat 32 a, BitVec.ofNat 32 f, BitVec.ofNat 32 (a - 9 - f)]])[p.word]? = some w →
          engineAsks s = some (writeOf .formatWrite (pageWord (a - 1) p.word) w)))

/-- FILL_READ, FILL_WRITE and DRAIN_WRITE: the fill store and the head position follow the transfers, the write lands with
its lanes, and the entry leaves with the next one as a fresh head; here with nothing waiting on the departure (R128, R130,
R131, R135). -/
def Obligations.DrainTransfersComplete : Prop :=
  ∀ (s : State) t h, transferring s t → s.buffer.head = some h →
    (∀ i, t.purpose = .fillRead → t.isWrite = false → h.pos = .fillRead i → h.store.length = i →
      exec .fillRead s = .next { s with
        port := none
        buffer := { s.buffer with head := some { h with
          pos := if i < 7 then .fillRead (i + 1) else .fillWrite 0, store := h.store ++ [readWord s.array t.addr] } } }) ∧
    (∀ i, t.purpose = .fillWrite → h.pos = .fillWrite i →
      exec .fillWrite s = .next { s with
        array := arrayAfter s t, port := none
        buffer := { s.buffer with head := some { h with pos := if i < 7 then .fillWrite (i + 1) else .write } } }) ∧
    (t.purpose = .drainWrite →
      (∀ r, s.host.outstanding = some r → r.phase ≠ .held .bufferFull ∧ r.phase ≠ .held .readWait) →
      s.engine.stage ≠ .drain → s.engine.stage ≠ .format →
      noResumeDue { s with buffer := afterDeparture s.buffer } →
      exec .drainWrite s = .next { s with array := arrayAfter s t, port := none, buffer := afterDeparture s.buffer })

/-- What a departure hands on. A write held BUFFER_FULL, direct or tagged, is classified again, and is posted home or to its
frame, allocates, fails with its context, faults, or is held again; a read held READ_WAIT with no conflicting entry left is
classified again, and goes to the sequencer, faults, or is held again. DRAIN ends when no entry of the committing context is
left, and step 1 of FORMAT when the buffer is empty (R15, R49, R66, R104, R108, R122, R131). -/
def Obligations.DepartureReleases : Prop :=
  ∀ (s : State) t (u v w : State), transferring s t → t.purpose = .drainWrite →
    u = { s with array := arrayAfter s t, port := none, buffer := afterDeparture s.buffer } →
    RequestReleased u v → DrainStepEnded v w → noResumeDue w → exec .drainWrite s = .next w

/-- ANCHOR_READ: the words are taken in order; at the fifth the anchor is tested by the three steps of R7, an invalid one
leads to UNFORMATTED with ANCHOR_INVALID, a valid one loads the geometry and the free-frame list and begins recovery, and
the monitor is ARMED, which starts the filter with the line asserted and with filter code 0 trips at once (assumption log
15); the data of an abandoned read, or of one that completes with no anchor read under way, is discarded (R7, R10, R35, R90,
R144, R154). -/
def Obligations.AnchorJudged : Prop :=
  (∀ strap w0 w1 w2 w3 w4, testAnchor strap [w0, w1, w2, w3, w4] =
    if w4 ≠ checksumOf [w0, w1, w2, w3] ∨ w0 ≠ 1 then .invalid .checksum
    else if w1.toNat ≠ strap then .invalid .mismatch
    else if 16 ≤ w2.toNat ∧ w2.toNat ≤ 256 ∧ 64 ≤ w3.toNat ∧ w1.toNat = w3.toNat + 9 + w2.toNat then
      .valid { arrayPages := w1.toNat, frames := w2.toNat, homePages := w3.toNat }
    else .invalid .geometry) ∧
  (∀ (s : State) t, transferring s t → t.purpose = .anchorRead → t.isWrite = false →
    t.abandoned = true ∨ s.bridge.anchorRead = none → exec .anchorRead s = .next { s with port := none }) ∧
  ∀ (s : State) t ws all, s.bridge.state = .starting → transferring s t → t.purpose = .anchorRead → t.isWrite = false →
    t.abandoned = false → s.bridge.anchorRead = some ws → all = ws ++ [readWord s.array t.addr] →
    (ws.length < 4 → exec .anchorRead s = .next { s with
      port := none, bridge := { s.bridge with anchorRead := some all } }) ∧
    (ws.length = 4 → ∀ v,
      (∀ reason, testAnchor s.bridge.strapPages all = .invalid reason →
        armsTo (pushEvent { s with
          port := none
          bridge := { s.bridge with state := .unformatted, anchorRead := none } } (.anchorInvalid reason)) v →
        exec .anchorRead s = .next v) ∧
      (∀ g, testAnchor s.bridge.strapPages all = .valid g →
        armsTo { s with
          port := none
          bridge := { s.bridge with state := .recovering, geometry := some g, anchorRead := none }
          pageMap := [], freeFrames := List.range g.frames
          engine := { s.engine with
            stage := .scan, lastSequence := 0, record := none, image0 := none, image1 := none, applyList := []
            scanWords := [], tallyPosition := 0, faultList := [], faultCount := 0
            pos := { slotIndex := 0, entry := 0, block := 0, word := 0, pass := .checksum } } } v →
        exec .anchorRead s = .next v))

/-! ### The stages of a commit -/

/-- SUM_READ adds the word to the sums and goes on by word, written block and item, setting each CHECKSUM and at the end
the record checksum; JOURNAL_WRITE goes through the 5 + 3n writes of WRITE to MARK (R67 to R69). -/
def Obligations.SumAndWriteAdvance : Prop :=
  ∀ (s : State) t o p r (e : Engine) (sums : Sums), transferring s t → completionCounts s o p → s.engine.record = some r →
    sums = feedBytes s.engine.sums ((List.range 4).map fun l => laneOf (readWord s.array t.addr) l) →
    e = { s.engine with pause := p } →
    (t.purpose = .sumRead → t.isWrite = false → e.stage = .sum → ∀ it, r.items[e.pos.entry]? = some it →
      (e.pos.word < 7 → exec (.sumRead o) s = .next (completed s t
        { e with sums := sums, pos := { e.pos with word := e.pos.word + 1 } })) ∧
      (e.pos.word = 7 →
        (∀ b, (blockList it.written).find? (fun x => e.pos.block < x) = some b →
          exec (.sumRead o) s = .next (completed s t
            { e with sums := sums, pos := { e.pos with block := b, word := 0 } })) ∧
        ((∀ b ∈ blockList it.written, b ≤ e.pos.block) →
          ∀ r1, r1 = { r with items := r.items.set e.pos.entry { it with
              checksum := some (BitVec.ofNat 32 (sums.second * 65536 + sums.first)) } } →
          (∀ it2 b, r.items[e.pos.entry + 1]? = some it2 → firstBlock it2.written = some b →
            exec (.sumRead o) s = .next (completed s t { e with
              record := some r1, sums := { first := 0, second := 0 }
              pos := { slotIndex := 0, entry := e.pos.entry + 1, block := b, word := 0, pass := .checksum } })) ∧
          (e.pos.entry + 1 = r.items.length →
            exec (.sumRead o) s = .next (completed s t { e with
              stage := .write, sums := sums
              record := some { r1 with recordChecksum := some (checksumOf (headerWords r1 ++ entryWords r1)) }
              pos := { slotIndex := 0, entry := 0, block := 0, word := 0, pass := .checksum } }))))) ∧
    (t.purpose = .journalWrite → e.stage = .write →
      (e.pos.word + 1 < 5 + 3 * r.items.length → exec (.journalWrite o) s = .next (completed s t
        { e with pos := { e.pos with word := e.pos.word + 1 } })) ∧
      (e.pos.word + 1 = 5 + 3 * r.items.length → exec (.journalWrite o) s = .next (completed s t { e with
        stage := .mark, pos := { slotIndex := 0, entry := 0, block := 0, word := 0, pass := .checksum } })))

/-- MARK_WRITE passes the commit point as one step: the entries of the context become PENDING at their positions in the
record, the context becomes IDLE with its LAST_SEQUENCE, the engine takes up the sequence and enters COPY, and COMMITTED is
queued (R23, R52, R70 to R72). -/
def Obligations.CommitPointPassed : Prop :=
  ∀ (s : State) t o p r c it b, transferring s t → t.purpose = .markWrite → completionCounts s o p →
    s.engine.stage = .mark → s.engine.record = some r → r.context = some c → r.items[0]? = some it →
    firstBlock it.written = some b →
    exec (.markWrite o) s = .next (pushEvent { s with
      array := arrayAfter s t, port := none
      pageMap := s.pageMap.mapIdx fun i e =>
        if e.state = .context c then
          { e with state := .pending ((s.pageMap.take i).countP fun x => x.state = .context c) }
        else e
      contexts := s.contexts.set c { state := .idle, entryCount := 0, lastSequence := r.sequence }
      engine := { s.engine with
        lastSequence := r.sequence, stage := .copy, pause := p, copyStore := []
        pos := { slotIndex := 0, entry := 0, block := b, word := 0, pass := .copyRead } } }
      (.committed c r.sequence r.entryCount))

/-- COPY_READ and COPY_WRITE, and APPLY_COPY_READ and APPLY_COPY_WRITE within an entry: eight reads of a block, then its
eight writes, block by block in ascending order; the last write of an item of a commit takes the Copied claim and goes on to
the next item or to RETIRE (R24, R73, R93). -/
def Obligations.CopyAdvances : Prop :=
  ∀ (s : State) t o p r it (e : Engine) (q : Position), transferring s t → completionCounts s o p →
    s.engine.record = some r → r.items[s.engine.pos.entry]? = some it → e = { s.engine with pause := p } → q = e.pos →
    (∀ c, (c = .copyRead o ∧ t.purpose = .copyRead ∧ e.stage = .copy) ∨
        (c = .applyCopyRead o ∧ t.purpose = .applyCopyRead ∧ e.stage = .apply) → t.isWrite = false → q.pass = .copyRead →
      ∀ store, store = e.copyStore.take q.word ++ [readWord s.array t.addr] →
      (q.word < 7 → exec c s = .next (completed s t
        { e with copyStore := store, pos := { q with word := q.word + 1 } })) ∧
      (q.word = 7 → exec c s = .next (completed s t
        { e with copyStore := store, pos := { q with word := 0, pass := .copyWrite } }))) ∧
    (∀ c, (c = .copyWrite o ∧ t.purpose = .copyWrite ∧ e.stage = .copy) ∨
        (c = .applyCopyWrite o ∧ t.purpose = .applyCopyWrite ∧ e.stage = .apply) → q.pass = .copyWrite →
      (q.word < 7 → exec c s = .next (completed s t { e with pos := { q with word := q.word + 1 } })) ∧
      (∀ b, q.word = 7 → (blockList it.written).find? (fun x => q.block < x) = some b →
        exec c s = .next (completed s t { e with pos := { q with block := b, word := 0, pass := .copyRead } }))) ∧
    (t.purpose = .copyWrite → e.stage = .copy → q.pass = .copyWrite → q.word = 7 →
      (∀ b ∈ blockList it.written, b ≤ q.block) →
      ∀ m, (m = s.pageMap.map fun x =>
          match x.state with
          | .pending n => if x.homePage = it.homePage then { x with state := .copied n } else x
          | _ => x) →
        (∀ it2 b, r.items[q.entry + 1]? = some it2 → firstBlock it2.written = some b →
          exec (.copyWrite o) s = .next { completed s t
            { e with pos := { slotIndex := 0, entry := q.entry + 1, block := b, word := 0, pass := .copyRead } } with
            pageMap := m }) ∧
        (q.entry + 1 = r.items.length →
          exec (.copyWrite o) s = .next { completed s t
            { e with stage := .retire, pos := { slotIndex := 0, entry := 0, block := 0, word := 0, pass := .checksum } } with
            pageMap := m }))

/-- RETIRE_WRITE takes the entries of the record from the map, puts their frames at the tail of the free-frame list in
record order, and leaves the engine IDLE; a write held with reason RECORD, direct or tagged, is then classified again, and is
posted home or to its frame, allocates, fails with its context, faults, or is held again (R25, R49, R74, R104, R108, R118,
R122). -/
def Obligations.RecordRetired : Prop :=
  ∀ (s : State) t o p (l : List MapEntry) (u : State), transferring s t → t.purpose = .retireWrite →
    completionCounts s o p → s.engine.stage = .retire → (∀ e, e ∈ l ↔ e ∈ s.pageMap ∧ ∃ n, e.ofRecord n) →
    l.Pairwise (fun a b => ∃ m n, a.ofRecord m ∧ b.ofRecord n ∧ m < n) → s.pageMap.Nodup →
    u = { completed s t { s.engine with
            stage := .idle, record := none, pause := p
            pos := { slotIndex := 0, entry := 0, block := 0, word := 0, pass := .checksum } } with
          pageMap := s.pageMap.filter fun e => match e.state with
            | .context _ => true
            | .pending _ | .copied _ => false
          freeFrames := s.freeFrames ++ l.map MapEntry.frame } →
    ((∀ r, s.host.outstanding = some r → r.phase ≠ .held .record) → exec (.retireWrite o) s = .next u) ∧
    ∀ r data lanes v, s.host.outstanding = some r → r.phase = .held .record → r.op = .write data lanes →
      r.regionPassed = true → addressAdmitted s r.addr → WriteSettles u r data lanes v →
      exec (.retireWrite o) s = .next v

/-! ### Recovery and FORMAT -/

/-- SCAN_READ keeps the words of a slot, reads the entries of a slot whose header passes tests 1 to 3, builds the image of
each slot, and at the end sets the last sequence number to the largest marked one. With nothing live recovery ends in
RECOVERING, and in FROZEN its end is not reported; else APPLY begins with the live slots in ascending sequence, one or both,
at the first valid entry, past invalid ones that are tallied (R12, R84, R85, R88, R90 to R96). -/
def Obligations.ScanBuildsImages : Prop :=
  (∀ w0 w1 w2 w3 w4 w5 es, w0 = 0 ∨ w4 ≠ w0 ∨ w2 = 0 ∨ 128 < w2.toNat ∨ w3 ≠ checksumOf ([w0, w1, w2] ++ es) →
    imageOf ([w0, w1, w2, w3, w4, w5] ++ es) = .unmarked) ∧
  ∀ (s : State) t o p (e : Engine) ws, transferring s t → t.purpose = .scanRead → t.isWrite = false →
    completionCounts s o p → s.engine.stage = .scan → e = { s.engine with pause := p } →
    ws = e.scanWords ++ [readWord s.array t.addr] →
    ∀ short : Prop, (short ↔ ws.length < 6 ∨ (ws.getD 0 0 ≠ 0 ∧ ws.getD 4 0 = ws.getD 0 0 ∧
        1 ≤ (ws.getD 2 0).toNat ∧ (ws.getD 2 0).toNat ≤ 128 ∧ ws.length < 6 + 3 * (ws.getD 2 0).toNat)) →
    (short → e.pos.slotIndex ≤ 1 → exec (.scanRead o) s = .next (completed s t { e with scanWords := ws })) ∧
    (¬ short → e.pos.slotIndex = 0 → exec (.scanRead o) s = .next (completed s t { e with
      image0 := some (imageOf ws), scanWords := [], pos := { e.pos with slotIndex := 1 } })) ∧
    (¬ short → e.pos.slotIndex = 1 → ∀ i0 i1, e.image0 = some i0 → i1 = imageOf ws →
      ∀ q0 q1 last (e1 : Engine), q0 = i0.sequence?.getD 0 → q1 = i1.sequence?.getD 0 →
      last = (if q0.toNat ≤ q1.toNat then q1 else q0) →
      e1 = { e with lastSequence := last, image1 := some i1, scanWords := [] } →
      (i0.isLive = false → i1.isLive = false →
        (s.bridge.state = .recovering →
          exec (.scanRead o) s = .next (pushEvent { completed s t { e1 with
              stage := .idle, record := none, image0 := none, image1 := none, applyList := []
              pos := { slotIndex := 0, entry := 0, block := 0, word := 0, pass := .checksum } } with
            bridge := { s.bridge with state := .serving } } (.recoveryDone 0 e.faultCount))) ∧
        (s.bridge.state = .frozen →
          exec (.scanRead o) s = .next (completed s t { e1 with
            applyList := [], pos := { e.pos with slotIndex := 2 } }))) ∧
      ∀ live e2,
        (i0.isLive = true ∧ i1.isLive = false ∧ live = [.slot0] ∨ i0.isLive = false ∧ i1.isLive = true ∧ live = [.slot1] ∨
          i0.isLive = true ∧ i1.isLive = true ∧ live = if q0.toNat ≤ q1.toNat then [.slot0, .slot1] else [.slot1, .slot0]) →
        AppliesFrom s { e1 with applyList := live } 0 0 e2 → exec (.scanRead o) s = .next (completed s t e2))

/-- VERIFY_READ adds the word to the sums and goes on by word and written block; at the last word a match is tallied and
the copy begins, and a mismatch is tallied as faulty. From the end of a faulty entry and of a copied one APPLY goes on, past
invalid entries that are tallied, to the next valid entry of the slot or of the second live slot, or to RETIRE (R91 to
R94, R96). -/
def Obligations.EntriesVerifiedAndApplied : Prop :=
  ∀ (s : State) t o p it (e : Engine) (q : Position) sl sq n es k index, transferring s t → completionCounts s o p →
    s.engine.stage = .apply → e = { s.engine with pause := p } → q = e.pos → e.applyList[q.slotIndex]? = some sl →
    e.image sl = some (.live sq n es k) →
    e.record = some { sequence := sq, slot := sl, context := none, entryCount := n, items := es, recordChecksum := some k } →
    es[q.entry]? = some it → applyPlace e q.slotIndex q.entry index →
    (∀ sums : Sums, t.purpose = .verifyRead → t.isWrite = false →
      sums = feedBytes e.sums ((List.range 4).map fun l => laneOf (readWord s.array t.addr) l) →
      (q.word < 7 → exec (.verifyRead o) s = .next (completed s t
        { e with sums := sums, pos := { q with word := q.word + 1 } })) ∧
      (q.word = 7 →
        (∀ b, (blockList it.written).find? (fun x => q.block < x) = some b →
          exec (.verifyRead o) s = .next (completed s t { e with sums := sums, pos := { q with block := b, word := 0 } })) ∧
        ((∀ b ∈ blockList it.written, b ≤ q.block) →
          (∀ b, it.checksum = some (BitVec.ofNat 32 (sums.second * 65536 + sums.first)) → firstBlock it.written = some b →
            exec (.verifyRead o) s = .next (completed s t { tallied e index false it.homePage with
              sums := sums, copyStore := [], pos := { q with block := b, word := 0, pass := .copyRead } })) ∧
          (∀ e2, it.checksum ≠ some (BitVec.ofNat 32 (sums.second * 65536 + sums.first)) →
            AppliesFrom s (tallied { e with sums := sums } index true it.homePage) q.slotIndex (q.entry + 1) e2 →
            exec (.verifyRead o) s = .next (completed s t e2))))) ∧
    (∀ e2, t.purpose = .applyCopyWrite → q.pass = .copyWrite → q.word = 7 → (∀ b ∈ blockList it.written, b ≤ q.block) →
      AppliesFrom s e q.slotIndex (q.entry + 1) e2 → exec (.applyCopyWrite o) s = .next (completed s t e2))

/-- RECOVERY_RETIRE_WRITE goes through the apply list; its last completion in RECOVERING ends recovery with RECOVERY_DONE
and SERVING, and in FROZEN is not reported. FORMAT_WRITE goes through the four slot words and the five anchor words; the
last takes up the geometry, empties the map, rebuilds the free-frame list, starts the numbering again and enters SERVING
with FORMAT_DONE; in FROZEN a completion has no effect beyond the array (R3, R12, R15, R16, R35, R95, R97). -/
def Obligations.RecoveryAndFormatEnd : Prop :=
  ∀ (s : State) t o p (e : Engine), transferring s t → completionCounts s o p → e = { s.engine with pause := p } →
    (t.purpose = .recoveryRetireWrite → e.stage = .retire →
      (e.pos.slotIndex + 1 < e.applyList.length ∨ s.bridge.state = .frozen →
        exec (.recoveryRetireWrite o) s = .next (completed s t
          { e with pos := { e.pos with slotIndex := e.pos.slotIndex + 1 } })) ∧
      (∀ sl, e.applyList.getLast? = some sl → e.pos.slotIndex + 1 = e.applyList.length → s.bridge.state = .recovering →
        exec (.recoveryRetireWrite o) s = .next (pushEvent { completed s t { e with
            stage := .idle, record := none, image0 := none, image1 := none, applyList := []
            pos := { slotIndex := 0, entry := 0, block := 0, word := 0, pass := .checksum } } with
          bridge := { s.bridge with state := .serving } } (.recoveryDone (e.imageSequence sl) e.faultCount)))) ∧
    (t.purpose = .formatWrite → e.stage = .format → s.bridge.state = .frozen →
      exec (.formatWrite o) s = .next (completed s t e)) ∧
    (t.purpose = .formatWrite → e.stage = .format → s.bridge.state = .formatting →
      ((e.formatStep = some 2 ∧ e.pos.word < 3) ∨ (e.formatStep = some 3 ∧ e.pos.word < 4) →
        exec (.formatWrite o) s = .next (completed s t { e with pos := { e.pos with word := e.pos.word + 1 } })) ∧
      (e.formatStep = some 2 → e.pos.word = 3 → exec (.formatWrite o) s = .next (completed s t { e with
        formatStep := some 3, pos := { slotIndex := 0, entry := 0, block := 0, word := 0, pass := .checksum } })) ∧
      (∀ f, e.formatStep = some 3 → e.pos.word = 4 → e.formatFrames = some f →
        exec (.formatWrite o) s = .next (pushEvent { completed s t { e with
            stage := .idle, lastSequence := 0, record := none, formatFrames := none, formatStep := none
            image0 := none, image1 := none, applyList := []
            pos := { slotIndex := 0, entry := 0, block := 0, word := 0, pass := .checksum } } with
          bridge := { s.bridge with
            state := .serving
            geometry := some { arrayPages := s.bridge.strapPages, frames := f, homePages := s.bridge.strapPages - 9 - f } }
          pageMap := [], freeFrames := List.range f } (.formatDone f))))

/-- A completion that the pause came before, and any completion in RESETTING, has its effect on the array and none in the
engine; in FROZEN the engine is then paused (R78, R80). -/
def Obligations.UncountedCompletion : Prop :=
  ∀ (s : State) t o c,
    c ∈ engineCompletions o → completionOf c = some t.purpose → transferring s t →
    (s.bridge.state = .frozen → o = .pauseFirst → noResumeDue s →
      exec c s = .next (completed s t { s.engine with pause := .paused })) ∧
    (s.bridge.state = .resetting → exec c s = .next (completed s t s.engine))

/-! ### What every step keeps -/

/-- No frame is ever lost or held twice: each is on the free-frame list once or in one page-map entry (R34, R36). -/
def Obligations.FramesStayAccounted : Prop :=
  ∀ s t, FramesAccounted s → step s = .next t → FramesAccounted t

/-- The page map keeps one entry a home page, in the home area, with at least one block (R19, R20). -/
def Obligations.PageMapStaysOrdered : Prop :=
  ∀ s t, PageMapOrdered s → step s = .next t → PageMapOrdered t

/-- The commit queue stays the list of the QUEUED contexts, and the record of the engine stays the record of its context:
until its commit point it names the entries the context owns (R42, R48, R50, R51, R61, R65). -/
def Obligations.RecordStaysTrueToTheMap : Prop :=
  ∀ s t, PageMapOrdered s → CommitQueueExact s → ContextsAccounted s → RecordMatchesMap s → step s = .next t →
    CommitQueueExact t ∧ RecordMatchesMap t

/-- ENTRY_COUNT stays the number of entries owned, and PENDING and COPIED entries stay confined to COPY and RETIRE; with no
update under way the contexts are IDLE and the map is empty (R21, R26, R36, R41, R43, R75). -/
def Obligations.UpdatesStayAccounted : Prop :=
  ∀ s t, BridgeConsistent s → ContextsAccounted s → RecordEntriesConfined s → step s = .next t →
    ContextsAccounted t ∧ RecordEntriesConfined t

/-- The bridge state, the monitor phase, the return state, the geometry and the pause stay in agreement, the geometry stays
acceptable, and the lists, the settings, the byte in progress of a frame and the outstanding request stay as their rules bound them
(R4, R5, R36, R78, R89, R103, R121, R127, R128, R143, R156, R165, R168). -/
def Obligations.BlocksStayConsistent : Prop :=
  (∀ s t, BridgeConsistent s → GeometryAcceptable s → step s = .next t → BridgeConsistent t ∧ GeometryAcceptable t) ∧
  (∀ s t, WithinCapacity s → SettingsInRange s → step s = .next t → WithinCapacity t ∧ SettingsInRange t) ∧
  ∀ s t, RequestAccounted s → step s = .next t → RequestAccounted t
end

