-- ==== Sys2Proof/Laws/State.lean ====
section
/-! SUPPORT. The frames of the shared operations: for each operation that gives a state, the fields it leaves as they
are, one equation a field, and what the plain updates write. Later proofs cite these by `simp` and unfold no record
update. -/

namespace Sys2Proof.Machine

/-! ### What the plain updates write -/

@[simp] theorem ContextTable.get_set (t : ContextTable) (c d : ContextId) (r : ContextRecord) :
    (t.set c r).get d = if d = c then r else t.get d := by
  cases c <;> cases d <;> rfl

@[simp] theorem setContext_contexts (s : State) (c : ContextId) (r : ContextRecord) :
    (s.setContext c r).contexts = s.contexts.set c r := rfl

@[simp] theorem respond_mgmt (s : State) (code : Byte) (args response : List Byte) :
    (respond s code args response).mgmt =
      { mselN := s.mgmt.mselN, phase := .response, code := some code, args := args, bits := [], bytes := s.mgmt.bytes + 1,
        response := response } := rfl

@[simp] theorem nextByte_fields (m : MgmtPort) :
    m.nextByte.bits = [] ∧ m.nextByte.bytes = m.bytes + 1 ∧ m.nextByte.mselN = m.mselN ∧ m.nextByte.phase = m.phase ∧
    m.nextByte.code = m.code ∧ m.nextByte.args = m.args ∧ m.nextByte.response = m.response :=
  ⟨rfl, rfl, rfl, rfl, rfl, rfl, rfl⟩

@[simp] theorem completeTransfer_port (s : State) (t : Transfer) : (completeTransfer s t).port = none := rfl

@[simp] theorem completeHost_host (s : State) (r : Request) (f : Option FaultReason) (w : Word) :
    (completeHost s r f w).host.outstanding = none ∧ (completeHost s r f w).host.holdTimer = none ∧
    (completeHost s r f w).host.hreq = s.host.hreq ∧ (completeHost s r f w).host.hdone = s.host.hreq ∧
    (completeHost s r f w).host.hfault = f.isSome := ⟨rfl, rfl, rfl, rfl, rfl⟩

@[simp] theorem setPos_pos (s : State) (p : Position) : (setPos s p).engine.pos = p := rfl

@[simp] theorem enterStage_stage (s : State) (st : Stage) (p : Position) :
    (enterStage s st p).engine.stage = st ∧ (enterStage s st p).engine.pos = p := ⟨rfl, rfl⟩

@[simp] theorem addToSums_sums (s : State) (w : Word) :
    (addToSums s w).engine.sums = feedWord s.engine.sums w := rfl

@[simp] theorem loadSlot_record (s : State) (sl : Slot) :
    (loadSlot s sl).engine.record = (s.engine.image sl).bind (recordOfImage sl) := rfl

@[simp] theorem enterFormatStep_step (s : State) (k : Nat) :
    (enterFormatStep s k).engine.formatStep = some k ∧ (enterFormatStep s k).engine.pos = .start := ⟨rfl, rfl⟩

@[simp] theorem setHead_buffer (s : State) (h : DrainHead) :
    (setHead s h).buffer = { entries := s.buffer.entries, head := some h } := rfl

@[simp] theorem stopDelay_delayTimer (s : State) : (stopDelay s).monitor.delayTimer = .stopped := rfl

@[simp] theorem startDelay_delayTimer (s : State) :
    (startDelay s).monitor.delayTimer = if s.monitor.level then .stopped else .running s.settings.resumeDelay := rfl

/-! ### Frames -/

@[simp] theorem pushEvent_frame (s : State) (e : Event) :
    (pushEvent s e).powered = s.powered ∧
    (pushEvent s e).bridge = s.bridge ∧
    (pushEvent s e).pageMap = s.pageMap ∧
    (pushEvent s e).freeFrames = s.freeFrames ∧
    (pushEvent s e).contexts = s.contexts ∧
    (pushEvent s e).commitQueue = s.commitQueue ∧
    (pushEvent s e).engine = s.engine ∧
    (pushEvent s e).host = s.host ∧
    (pushEvent s e).regions = s.regions ∧
    (pushEvent s e).buffer = s.buffer ∧
    (pushEvent s e).port = s.port ∧
    (pushEvent s e).turn = s.turn ∧
    (pushEvent s e).monitor = s.monitor ∧
    (pushEvent s e).mgmt = s.mgmt ∧
    (pushEvent s e).settings = s.settings ∧
    (pushEvent s e).array = s.array ∧
    (pushEvent s e).freeCount = s.freeCount ∧
    (pushEvent s e).pending = s.pending := by
  refine ⟨?_, ?_, ?_, ?_, ?_, ?_, ?_, ?_, ?_, ?_, ?_, ?_, ?_, ?_, ?_, ?_, ?_, ?_⟩ <;>
  unfold pushEvent <;> (repeat' split) <;> rfl

@[simp] theorem State.setContext_frame (s : State) (c : ContextId) (r : ContextRecord) :
    (s.setContext c r).powered = s.powered ∧
    (s.setContext c r).bridge = s.bridge ∧
    (s.setContext c r).pageMap = s.pageMap ∧
    (s.setContext c r).freeFrames = s.freeFrames ∧
    (s.setContext c r).commitQueue = s.commitQueue ∧
    (s.setContext c r).engine = s.engine ∧
    (s.setContext c r).host = s.host ∧
    (s.setContext c r).regions = s.regions ∧
    (s.setContext c r).buffer = s.buffer ∧
    (s.setContext c r).port = s.port ∧
    (s.setContext c r).turn = s.turn ∧
    (s.setContext c r).monitor = s.monitor ∧
    (s.setContext c r).mgmt = s.mgmt ∧
    (s.setContext c r).settings = s.settings ∧
    (s.setContext c r).events = s.events ∧
    (s.setContext c r).overflow = s.overflow ∧
    (s.setContext c r).array = s.array ∧
    (s.setContext c r).freeCount = s.freeCount ∧
    (s.setContext c r).pending = s.pending :=
  ⟨rfl, rfl, rfl, rfl, rfl, rfl, rfl, rfl, rfl, rfl, rfl, rfl, rfl, rfl, rfl, rfl, rfl, rfl, rfl⟩

@[simp] theorem State.allocate_frame (s : State) (c : ContextId) (k p b : Nat) :
    (s.allocate c k p b).powered = s.powered ∧
    (s.allocate c k p b).bridge = s.bridge ∧
    (s.allocate c k p b).commitQueue = s.commitQueue ∧
    (s.allocate c k p b).engine = s.engine ∧
    (s.allocate c k p b).host = s.host ∧
    (s.allocate c k p b).regions = s.regions ∧
    (s.allocate c k p b).buffer = s.buffer ∧
    (s.allocate c k p b).port = s.port ∧
    (s.allocate c k p b).turn = s.turn ∧
    (s.allocate c k p b).monitor = s.monitor ∧
    (s.allocate c k p b).mgmt = s.mgmt ∧
    (s.allocate c k p b).settings = s.settings ∧
    (s.allocate c k p b).events = s.events ∧
    (s.allocate c k p b).overflow = s.overflow ∧
    (s.allocate c k p b).array = s.array ∧
    (s.allocate c k p b).freeCount = s.freeCount ∧
    (s.allocate c k p b).pending = s.pending :=
  ⟨rfl, rfl, rfl, rfl, rfl, rfl, rfl, rfl, rfl, rfl, rfl, rfl, rfl, rfl, rfl, rfl, rfl⟩

@[simp] theorem State.abortClaim_frame (s : State) (c : ContextId) :
    (s.abortClaim c).powered = s.powered ∧
    (s.abortClaim c).bridge = s.bridge ∧
    (s.abortClaim c).contexts = s.contexts ∧
    (s.abortClaim c).commitQueue = s.commitQueue ∧
    (s.abortClaim c).engine = s.engine ∧
    (s.abortClaim c).host = s.host ∧
    (s.abortClaim c).regions = s.regions ∧
    (s.abortClaim c).buffer = s.buffer ∧
    (s.abortClaim c).port = s.port ∧
    (s.abortClaim c).turn = s.turn ∧
    (s.abortClaim c).monitor = s.monitor ∧
    (s.abortClaim c).mgmt = s.mgmt ∧
    (s.abortClaim c).settings = s.settings ∧
    (s.abortClaim c).events = s.events ∧
    (s.abortClaim c).overflow = s.overflow ∧
    (s.abortClaim c).array = s.array ∧
    (s.abortClaim c).freeCount = s.freeCount ∧
    (s.abortClaim c).pending = s.pending :=
  ⟨rfl, rfl, rfl, rfl, rfl, rfl, rfl, rfl, rfl, rfl, rfl, rfl, rfl, rfl, rfl, rfl, rfl, rfl⟩

@[simp] theorem State.retireClaim_frame (s : State) :
    (s.retireClaim).powered = s.powered ∧
    (s.retireClaim).bridge = s.bridge ∧
    (s.retireClaim).contexts = s.contexts ∧
    (s.retireClaim).commitQueue = s.commitQueue ∧
    (s.retireClaim).engine = s.engine ∧
    (s.retireClaim).host = s.host ∧
    (s.retireClaim).regions = s.regions ∧
    (s.retireClaim).buffer = s.buffer ∧
    (s.retireClaim).port = s.port ∧
    (s.retireClaim).turn = s.turn ∧
    (s.retireClaim).monitor = s.monitor ∧
    (s.retireClaim).mgmt = s.mgmt ∧
    (s.retireClaim).settings = s.settings ∧
    (s.retireClaim).events = s.events ∧
    (s.retireClaim).overflow = s.overflow ∧
    (s.retireClaim).array = s.array ∧
    (s.retireClaim).freeCount = s.freeCount ∧
    (s.retireClaim).pending = s.pending :=
  ⟨rfl, rfl, rfl, rfl, rfl, rfl, rfl, rfl, rfl, rfl, rfl, rfl, rfl, rfl, rfl, rfl, rfl, rfl⟩

@[simp] theorem respond_frame (s : State) (code : Byte) (args response : List Byte) :
    (respond s code args response).powered = s.powered ∧
    (respond s code args response).bridge = s.bridge ∧
    (respond s code args response).pageMap = s.pageMap ∧
    (respond s code args response).freeFrames = s.freeFrames ∧
    (respond s code args response).contexts = s.contexts ∧
    (respond s code args response).commitQueue = s.commitQueue ∧
    (respond s code args response).engine = s.engine ∧
    (respond s code args response).host = s.host ∧
    (respond s code args response).regions = s.regions ∧
    (respond s code args response).buffer = s.buffer ∧
    (respond s code args response).port = s.port ∧
    (respond s code args response).turn = s.turn ∧
    (respond s code args response).monitor = s.monitor ∧
    (respond s code args response).settings = s.settings ∧
    (respond s code args response).events = s.events ∧
    (respond s code args response).overflow = s.overflow ∧
    (respond s code args response).array = s.array ∧
    (respond s code args response).freeCount = s.freeCount ∧
    (respond s code args response).pending = s.pending :=
  ⟨rfl, rfl, rfl, rfl, rfl, rfl, rfl, rfl, rfl, rfl, rfl, rfl, rfl, rfl, rfl, rfl, rfl, rfl, rfl⟩

@[simp] theorem completeHost_frame (s : State) (r : Request) (f : Option FaultReason) (w : Word) :
    (completeHost s r f w).powered = s.powered ∧
    (completeHost s r f w).bridge = s.bridge ∧
    (completeHost s r f w).pageMap = s.pageMap ∧
    (completeHost s r f w).freeFrames = s.freeFrames ∧
    (completeHost s r f w).contexts = s.contexts ∧
    (completeHost s r f w).commitQueue = s.commitQueue ∧
    (completeHost s r f w).engine = s.engine ∧
    (completeHost s r f w).host.hreq = s.host.hreq ∧
    (completeHost s r f w).regions = s.regions ∧
    (completeHost s r f w).buffer = s.buffer ∧
    (completeHost s r f w).port = s.port ∧
    (completeHost s r f w).turn = s.turn ∧
    (completeHost s r f w).monitor = s.monitor ∧
    (completeHost s r f w).mgmt = s.mgmt ∧
    (completeHost s r f w).settings = s.settings ∧
    (completeHost s r f w).events = s.events ∧
    (completeHost s r f w).overflow = s.overflow ∧
    (completeHost s r f w).array = s.array ∧
    (completeHost s r f w).freeCount = s.freeCount ∧
    (completeHost s r f w).pending = s.pending :=
  ⟨rfl, rfl, rfl, rfl, rfl, rfl, rfl, rfl, rfl, rfl, rfl, rfl, rfl, rfl, rfl, rfl, rfl, rfl, rfl, rfl⟩

@[simp] theorem completeDone_frame (s : State) (r : Request) (w : Word) :
    (completeDone s r w).powered = s.powered ∧
    (completeDone s r w).bridge = s.bridge ∧
    (completeDone s r w).pageMap = s.pageMap ∧
    (completeDone s r w).freeFrames = s.freeFrames ∧
    (completeDone s r w).contexts = s.contexts ∧
    (completeDone s r w).commitQueue = s.commitQueue ∧
    (completeDone s r w).engine = s.engine ∧
    (completeDone s r w).host.hreq = s.host.hreq ∧
    (completeDone s r w).regions = s.regions ∧
    (completeDone s r w).buffer = s.buffer ∧
    (completeDone s r w).port = s.port ∧
    (completeDone s r w).turn = s.turn ∧
    (completeDone s r w).monitor = s.monitor ∧
    (completeDone s r w).mgmt = s.mgmt ∧
    (completeDone s r w).settings = s.settings ∧
    (completeDone s r w).events = s.events ∧
    (completeDone s r w).overflow = s.overflow ∧
    (completeDone s r w).array = s.array ∧
    (completeDone s r w).freeCount = s.freeCount ∧
    (completeDone s r w).pending = s.pending := by
  refine ⟨?_, ?_, ?_, ?_, ?_, ?_, ?_, ?_, ?_, ?_, ?_, ?_, ?_, ?_, ?_, ?_, ?_, ?_, ?_, ?_⟩ <;>
  unfold completeDone <;> rfl

@[simp] theorem completeFault_frame (s : State) (r : Request) (f : FaultReason) :
    (completeFault s r f).powered = s.powered ∧
    (completeFault s r f).bridge = s.bridge ∧
    (completeFault s r f).pageMap = s.pageMap ∧
    (completeFault s r f).freeFrames = s.freeFrames ∧
    (completeFault s r f).contexts = s.contexts ∧
    (completeFault s r f).commitQueue = s.commitQueue ∧
    (completeFault s r f).engine = s.engine ∧
    (completeFault s r f).host.hreq = s.host.hreq ∧
    (completeFault s r f).regions = s.regions ∧
    (completeFault s r f).buffer = s.buffer ∧
    (completeFault s r f).port = s.port ∧
    (completeFault s r f).turn = s.turn ∧
    (completeFault s r f).monitor = s.monitor ∧
    (completeFault s r f).mgmt = s.mgmt ∧
    (completeFault s r f).settings = s.settings ∧
    (completeFault s r f).array = s.array ∧
    (completeFault s r f).freeCount = s.freeCount ∧
    (completeFault s r f).pending = s.pending := by
  refine ⟨?_, ?_, ?_, ?_, ?_, ?_, ?_, ?_, ?_, ?_, ?_, ?_, ?_, ?_, ?_, ?_, ?_, ?_⟩ <;>
  unfold completeFault <;> (try dsimp only) <;> (repeat' split) <;> first | rfl | simp

@[simp] theorem failContext_frame (s : State) (r : Request) (c : ContextId) (f : FailReason) :
    (failContext s r c f).powered = s.powered ∧
    (failContext s r c f).bridge = s.bridge ∧
    (failContext s r c f).pageMap = s.pageMap ∧
    (failContext s r c f).freeFrames = s.freeFrames ∧
    (failContext s r c f).commitQueue = s.commitQueue ∧
    (failContext s r c f).engine = s.engine ∧
    (failContext s r c f).host.hreq = s.host.hreq ∧
    (failContext s r c f).regions = s.regions ∧
    (failContext s r c f).buffer = s.buffer ∧
    (failContext s r c f).port = s.port ∧
    (failContext s r c f).turn = s.turn ∧
    (failContext s r c f).monitor = s.monitor ∧
    (failContext s r c f).mgmt = s.mgmt ∧
    (failContext s r c f).settings = s.settings ∧
    (failContext s r c f).array = s.array ∧
    (failContext s r c f).freeCount = s.freeCount ∧
    (failContext s r c f).pending = s.pending := by
  refine ⟨?_, ?_, ?_, ?_, ?_, ?_, ?_, ?_, ?_, ?_, ?_, ?_, ?_, ?_, ?_, ?_, ?_⟩ <;>
  unfold failContext <;> (try dsimp only) <;> first | rfl | simp

@[simp] theorem planClaim_frame (s : State) (r : Request) (p : WritePlan) :
    (planClaim s r p).powered = s.powered ∧
    (planClaim s r p).bridge = s.bridge ∧
    (planClaim s r p).commitQueue = s.commitQueue ∧
    (planClaim s r p).engine = s.engine ∧
    (planClaim s r p).host = s.host ∧
    (planClaim s r p).regions = s.regions ∧
    (planClaim s r p).buffer = s.buffer ∧
    (planClaim s r p).port = s.port ∧
    (planClaim s r p).turn = s.turn ∧
    (planClaim s r p).monitor = s.monitor ∧
    (planClaim s r p).mgmt = s.mgmt ∧
    (planClaim s r p).settings = s.settings ∧
    (planClaim s r p).events = s.events ∧
    (planClaim s r p).overflow = s.overflow ∧
    (planClaim s r p).array = s.array ∧
    (planClaim s r p).freeCount = s.freeCount ∧
    (planClaim s r p).pending = s.pending := by
  refine ⟨?_, ?_, ?_, ?_, ?_, ?_, ?_, ?_, ?_, ?_, ?_, ?_, ?_, ?_, ?_, ?_, ?_⟩ <;>
  unfold planClaim <;> (repeat' split) <;> rfl

@[simp] theorem acceptWrite_frame (s : State) (r : Request) (d : Word) (l : Lanes) (p : WritePlan) :
    (acceptWrite s r d l p).powered = s.powered ∧
    (acceptWrite s r d l p).bridge = s.bridge ∧
    (acceptWrite s r d l p).commitQueue = s.commitQueue ∧
    (acceptWrite s r d l p).engine = s.engine ∧
    (acceptWrite s r d l p).host.hreq = s.host.hreq ∧
    (acceptWrite s r d l p).regions = s.regions ∧
    (acceptWrite s r d l p).port = s.port ∧
    (acceptWrite s r d l p).turn = s.turn ∧
    (acceptWrite s r d l p).monitor = s.monitor ∧
    (acceptWrite s r d l p).mgmt = s.mgmt ∧
    (acceptWrite s r d l p).settings = s.settings ∧
    (acceptWrite s r d l p).events = s.events ∧
    (acceptWrite s r d l p).overflow = s.overflow ∧
    (acceptWrite s r d l p).array = s.array ∧
    (acceptWrite s r d l p).freeCount = s.freeCount ∧
    (acceptWrite s r d l p).pending = s.pending := by
  refine ⟨?_, ?_, ?_, ?_, ?_, ?_, ?_, ?_, ?_, ?_, ?_, ?_, ?_, ?_, ?_, ?_⟩ <;>
  unfold acceptWrite <;> (try dsimp only) <;> first | rfl | simp

@[simp] theorem holdRequest_frame (s : State) (r : Request) (h : HoldReason) (a : Option WordAddr) :
    (holdRequest s r h a).powered = s.powered ∧
    (holdRequest s r h a).bridge = s.bridge ∧
    (holdRequest s r h a).pageMap = s.pageMap ∧
    (holdRequest s r h a).freeFrames = s.freeFrames ∧
    (holdRequest s r h a).contexts = s.contexts ∧
    (holdRequest s r h a).commitQueue = s.commitQueue ∧
    (holdRequest s r h a).engine = s.engine ∧
    (holdRequest s r h a).host.hreq = s.host.hreq ∧
    (holdRequest s r h a).host.hdone = s.host.hdone ∧
    (holdRequest s r h a).host.hfault = s.host.hfault ∧
    (holdRequest s r h a).host.hreason = s.host.hreason ∧
    (holdRequest s r h a).host.hdata = s.host.hdata ∧
    (holdRequest s r h a).regions = s.regions ∧
    (holdRequest s r h a).buffer = s.buffer ∧
    (holdRequest s r h a).port = s.port ∧
    (holdRequest s r h a).turn = s.turn ∧
    (holdRequest s r h a).monitor = s.monitor ∧
    (holdRequest s r h a).mgmt = s.mgmt ∧
    (holdRequest s r h a).settings = s.settings ∧
    (holdRequest s r h a).events = s.events ∧
    (holdRequest s r h a).overflow = s.overflow ∧
    (holdRequest s r h a).array = s.array ∧
    (holdRequest s r h a).freeCount = s.freeCount ∧
    (holdRequest s r h a).pending = s.pending :=
  ⟨rfl, rfl, rfl, rfl, rfl, rfl, rfl, rfl, rfl, rfl, rfl, rfl, rfl, rfl, rfl, rfl, rfl, rfl, rfl, rfl, rfl, rfl, rfl, rfl⟩

@[simp] theorem grantRead_frame (s : State) (r : Request) (a : WordAddr) :
    (grantRead s r a).powered = s.powered ∧
    (grantRead s r a).bridge = s.bridge ∧
    (grantRead s r a).pageMap = s.pageMap ∧
    (grantRead s r a).freeFrames = s.freeFrames ∧
    (grantRead s r a).contexts = s.contexts ∧
    (grantRead s r a).commitQueue = s.commitQueue ∧
    (grantRead s r a).engine = s.engine ∧
    (grantRead s r a).host.hreq = s.host.hreq ∧
    (grantRead s r a).host.hdone = s.host.hdone ∧
    (grantRead s r a).host.hfault = s.host.hfault ∧
    (grantRead s r a).host.hreason = s.host.hreason ∧
    (grantRead s r a).host.hdata = s.host.hdata ∧
    (grantRead s r a).regions = s.regions ∧
    (grantRead s r a).buffer = s.buffer ∧
    (grantRead s r a).port = s.port ∧
    (grantRead s r a).turn = s.turn ∧
    (grantRead s r a).monitor = s.monitor ∧
    (grantRead s r a).mgmt = s.mgmt ∧
    (grantRead s r a).settings = s.settings ∧
    (grantRead s r a).events = s.events ∧
    (grantRead s r a).overflow = s.overflow ∧
    (grantRead s r a).array = s.array ∧
    (grantRead s r a).freeCount = s.freeCount ∧
    (grantRead s r a).pending = s.pending :=
  ⟨rfl, rfl, rfl, rfl, rfl, rfl, rfl, rfl, rfl, rfl, rfl, rfl, rfl, rfl, rfl, rfl, rfl, rfl, rfl, rfl, rfl, rfl, rfl, rfl⟩

@[simp] theorem settle_frame (s : State) (r : Request) (v : Verdict) :
    (settle s r v).powered = s.powered ∧
    (settle s r v).bridge = s.bridge ∧
    (settle s r v).commitQueue = s.commitQueue ∧
    (settle s r v).engine = s.engine ∧
    (settle s r v).host.hreq = s.host.hreq ∧
    (settle s r v).regions = s.regions ∧
    (settle s r v).port = s.port ∧
    (settle s r v).turn = s.turn ∧
    (settle s r v).monitor = s.monitor ∧
    (settle s r v).mgmt = s.mgmt ∧
    (settle s r v).settings = s.settings ∧
    (settle s r v).array = s.array ∧
    (settle s r v).freeCount = s.freeCount ∧
    (settle s r v).pending = s.pending := by
  refine ⟨?_, ?_, ?_, ?_, ?_, ?_, ?_, ?_, ?_, ?_, ?_, ?_, ?_, ?_⟩ <;>
  unfold settle <;> (repeat' split) <;> first | rfl | simp

@[simp] theorem classifyRequest_frame (s : State) (r : Request) :
    (classifyRequest s r).powered = s.powered ∧
    (classifyRequest s r).bridge = s.bridge ∧
    (classifyRequest s r).commitQueue = s.commitQueue ∧
    (classifyRequest s r).engine = s.engine ∧
    (classifyRequest s r).host.hreq = s.host.hreq ∧
    (classifyRequest s r).regions = s.regions ∧
    (classifyRequest s r).port = s.port ∧
    (classifyRequest s r).turn = s.turn ∧
    (classifyRequest s r).monitor = s.monitor ∧
    (classifyRequest s r).mgmt = s.mgmt ∧
    (classifyRequest s r).settings = s.settings ∧
    (classifyRequest s r).array = s.array ∧
    (classifyRequest s r).freeCount = s.freeCount ∧
    (classifyRequest s r).pending = s.pending := by
  refine ⟨?_, ?_, ?_, ?_, ?_, ?_, ?_, ?_, ?_, ?_, ?_, ?_, ?_, ?_⟩ <;>
  unfold classifyRequest <;> first | rfl | simp

@[simp] theorem releaseHeld_frame (s : State) (h : HoldReason) :
    (releaseHeld s h).powered = s.powered ∧
    (releaseHeld s h).bridge = s.bridge ∧
    (releaseHeld s h).commitQueue = s.commitQueue ∧
    (releaseHeld s h).engine = s.engine ∧
    (releaseHeld s h).host.hreq = s.host.hreq ∧
    (releaseHeld s h).regions = s.regions ∧
    (releaseHeld s h).port = s.port ∧
    (releaseHeld s h).turn = s.turn ∧
    (releaseHeld s h).monitor = s.monitor ∧
    (releaseHeld s h).mgmt = s.mgmt ∧
    (releaseHeld s h).settings = s.settings ∧
    (releaseHeld s h).array = s.array ∧
    (releaseHeld s h).freeCount = s.freeCount ∧
    (releaseHeld s h).pending = s.pending := by
  refine ⟨?_, ?_, ?_, ?_, ?_, ?_, ?_, ?_, ?_, ?_, ?_, ?_, ?_, ?_⟩ <;>
  unfold releaseHeld <;> (repeat' split) <;> first | rfl | simp

@[simp] theorem releaseReadWait_frame (s : State) :
    (releaseReadWait s).powered = s.powered ∧
    (releaseReadWait s).bridge = s.bridge ∧
    (releaseReadWait s).commitQueue = s.commitQueue ∧
    (releaseReadWait s).engine = s.engine ∧
    (releaseReadWait s).host.hreq = s.host.hreq ∧
    (releaseReadWait s).regions = s.regions ∧
    (releaseReadWait s).port = s.port ∧
    (releaseReadWait s).turn = s.turn ∧
    (releaseReadWait s).monitor = s.monitor ∧
    (releaseReadWait s).mgmt = s.mgmt ∧
    (releaseReadWait s).settings = s.settings ∧
    (releaseReadWait s).array = s.array ∧
    (releaseReadWait s).freeCount = s.freeCount ∧
    (releaseReadWait s).pending = s.pending := by
  refine ⟨?_, ?_, ?_, ?_, ?_, ?_, ?_, ?_, ?_, ?_, ?_, ?_, ?_, ?_⟩ <;>
  unfold releaseReadWait <;> (repeat' split) <;> first | rfl | simp

@[simp] theorem releaseDeparture_frame (s : State) :
    (releaseDeparture s).powered = s.powered ∧
    (releaseDeparture s).bridge = s.bridge ∧
    (releaseDeparture s).commitQueue = s.commitQueue ∧
    (releaseDeparture s).engine = s.engine ∧
    (releaseDeparture s).host.hreq = s.host.hreq ∧
    (releaseDeparture s).regions = s.regions ∧
    (releaseDeparture s).port = s.port ∧
    (releaseDeparture s).turn = s.turn ∧
    (releaseDeparture s).monitor = s.monitor ∧
    (releaseDeparture s).mgmt = s.mgmt ∧
    (releaseDeparture s).settings = s.settings ∧
    (releaseDeparture s).array = s.array ∧
    (releaseDeparture s).freeCount = s.freeCount ∧
    (releaseDeparture s).pending = s.pending := by
  refine ⟨?_, ?_, ?_, ?_, ?_, ?_, ?_, ?_, ?_, ?_, ?_, ?_, ?_, ?_⟩ <;>
  unfold releaseDeparture <;> first | rfl | simp

@[simp] theorem faultWaiting_frame (s : State) (f : FaultReason) :
    (faultWaiting s f).powered = s.powered ∧
    (faultWaiting s f).bridge = s.bridge ∧
    (faultWaiting s f).pageMap = s.pageMap ∧
    (faultWaiting s f).freeFrames = s.freeFrames ∧
    (faultWaiting s f).contexts = s.contexts ∧
    (faultWaiting s f).commitQueue = s.commitQueue ∧
    (faultWaiting s f).engine = s.engine ∧
    (faultWaiting s f).host.hreq = s.host.hreq ∧
    (faultWaiting s f).regions = s.regions ∧
    (faultWaiting s f).buffer = s.buffer ∧
    (faultWaiting s f).port = s.port ∧
    (faultWaiting s f).turn = s.turn ∧
    (faultWaiting s f).monitor = s.monitor ∧
    (faultWaiting s f).mgmt = s.mgmt ∧
    (faultWaiting s f).settings = s.settings ∧
    (faultWaiting s f).array = s.array ∧
    (faultWaiting s f).freeCount = s.freeCount ∧
    (faultWaiting s f).pending = s.pending := by
  refine ⟨?_, ?_, ?_, ?_, ?_, ?_, ?_, ?_, ?_, ?_, ?_, ?_, ?_, ?_, ?_, ?_, ?_, ?_⟩ <;>
  unfold faultWaiting <;> (repeat' split) <;> first | rfl | simp

@[simp] theorem setPos_frame (s : State) (p : Position) :
    (setPos s p).powered = s.powered ∧
    (setPos s p).bridge = s.bridge ∧
    (setPos s p).pageMap = s.pageMap ∧
    (setPos s p).freeFrames = s.freeFrames ∧
    (setPos s p).contexts = s.contexts ∧
    (setPos s p).commitQueue = s.commitQueue ∧
    (setPos s p).engine.stage = s.engine.stage ∧
    (setPos s p).engine.lastSequence = s.engine.lastSequence ∧
    (setPos s p).engine.record = s.engine.record ∧
    (setPos s p).engine.pause = s.engine.pause ∧
    (setPos s p).engine.formatFrames = s.engine.formatFrames ∧
    (setPos s p).engine.formatStep = s.engine.formatStep ∧
    (setPos s p).engine.sums = s.engine.sums ∧
    (setPos s p).engine.copyStore = s.engine.copyStore ∧
    (setPos s p).engine.scanWords = s.engine.scanWords ∧
    (setPos s p).engine.image0 = s.engine.image0 ∧
    (setPos s p).engine.image1 = s.engine.image1 ∧
    (setPos s p).engine.applyList = s.engine.applyList ∧
    (setPos s p).engine.tallyPosition = s.engine.tallyPosition ∧
    (setPos s p).engine.faultList = s.engine.faultList ∧
    (setPos s p).engine.faultCount = s.engine.faultCount ∧
    (setPos s p).host = s.host ∧
    (setPos s p).regions = s.regions ∧
    (setPos s p).buffer = s.buffer ∧
    (setPos s p).port = s.port ∧
    (setPos s p).turn = s.turn ∧
    (setPos s p).monitor = s.monitor ∧
    (setPos s p).mgmt = s.mgmt ∧
    (setPos s p).settings = s.settings ∧
    (setPos s p).events = s.events ∧
    (setPos s p).overflow = s.overflow ∧
    (setPos s p).array = s.array ∧
    (setPos s p).freeCount = s.freeCount ∧
    (setPos s p).pending = s.pending :=
  ⟨rfl, rfl, rfl, rfl, rfl, rfl, rfl, rfl, rfl, rfl, rfl, rfl, rfl, rfl, rfl, rfl, rfl, rfl, rfl, rfl, rfl, rfl, rfl, rfl, rfl, rfl, rfl, rfl, rfl, rfl, rfl, rfl, rfl, rfl⟩

@[simp] theorem enterStage_frame (s : State) (st : Stage) (p : Position) :
    (enterStage s st p).powered = s.powered ∧
    (enterStage s st p).bridge = s.bridge ∧
    (enterStage s st p).pageMap = s.pageMap ∧
    (enterStage s st p).freeFrames = s.freeFrames ∧
    (enterStage s st p).contexts = s.contexts ∧
    (enterStage s st p).commitQueue = s.commitQueue ∧
    (enterStage s st p).engine.lastSequence = s.engine.lastSequence ∧
    (enterStage s st p).engine.record = s.engine.record ∧
    (enterStage s st p).engine.pause = s.engine.pause ∧
    (enterStage s st p).engine.formatFrames = s.engine.formatFrames ∧
    (enterStage s st p).engine.formatStep = s.engine.formatStep ∧
    (enterStage s st p).engine.sums = s.engine.sums ∧
    (enterStage s st p).engine.copyStore = s.engine.copyStore ∧
    (enterStage s st p).engine.scanWords = s.engine.scanWords ∧
    (enterStage s st p).engine.image0 = s.engine.image0 ∧
    (enterStage s st p).engine.image1 = s.engine.image1 ∧
    (enterStage s st p).engine.applyList = s.engine.applyList ∧
    (enterStage s st p).engine.tallyPosition = s.engine.tallyPosition ∧
    (enterStage s st p).engine.faultList = s.engine.faultList ∧
    (enterStage s st p).engine.faultCount = s.engine.faultCount ∧
    (enterStage s st p).host = s.host ∧
    (enterStage s st p).regions = s.regions ∧
    (enterStage s st p).buffer = s.buffer ∧
    (enterStage s st p).port = s.port ∧
    (enterStage s st p).turn = s.turn ∧
    (enterStage s st p).monitor = s.monitor ∧
    (enterStage s st p).mgmt = s.mgmt ∧
    (enterStage s st p).settings = s.settings ∧
    (enterStage s st p).events = s.events ∧
    (enterStage s st p).overflow = s.overflow ∧
    (enterStage s st p).array = s.array ∧
    (enterStage s st p).freeCount = s.freeCount ∧
    (enterStage s st p).pending = s.pending :=
  ⟨rfl, rfl, rfl, rfl, rfl, rfl, rfl, rfl, rfl, rfl, rfl, rfl, rfl, rfl, rfl, rfl, rfl, rfl, rfl, rfl, rfl, rfl, rfl, rfl, rfl, rfl, rfl, rfl, rfl, rfl, rfl, rfl, rfl⟩

@[simp] theorem storeCopyWord_frame (s : State) (w : Word) :
    (storeCopyWord s w).powered = s.powered ∧
    (storeCopyWord s w).bridge = s.bridge ∧
    (storeCopyWord s w).pageMap = s.pageMap ∧
    (storeCopyWord s w).freeFrames = s.freeFrames ∧
    (storeCopyWord s w).contexts = s.contexts ∧
    (storeCopyWord s w).commitQueue = s.commitQueue ∧
    (storeCopyWord s w).engine.stage = s.engine.stage ∧
    (storeCopyWord s w).engine.lastSequence = s.engine.lastSequence ∧
    (storeCopyWord s w).engine.record = s.engine.record ∧
    (storeCopyWord s w).engine.pause = s.engine.pause ∧
    (storeCopyWord s w).engine.formatFrames = s.engine.formatFrames ∧
    (storeCopyWord s w).engine.formatStep = s.engine.formatStep ∧
    (storeCopyWord s w).engine.pos = s.engine.pos ∧
    (storeCopyWord s w).engine.sums = s.engine.sums ∧
    (storeCopyWord s w).engine.scanWords = s.engine.scanWords ∧
    (storeCopyWord s w).engine.image0 = s.engine.image0 ∧
    (storeCopyWord s w).engine.image1 = s.engine.image1 ∧
    (storeCopyWord s w).engine.applyList = s.engine.applyList ∧
    (storeCopyWord s w).engine.tallyPosition = s.engine.tallyPosition ∧
    (storeCopyWord s w).engine.faultList = s.engine.faultList ∧
    (storeCopyWord s w).engine.faultCount = s.engine.faultCount ∧
    (storeCopyWord s w).host = s.host ∧
    (storeCopyWord s w).regions = s.regions ∧
    (storeCopyWord s w).buffer = s.buffer ∧
    (storeCopyWord s w).port = s.port ∧
    (storeCopyWord s w).turn = s.turn ∧
    (storeCopyWord s w).monitor = s.monitor ∧
    (storeCopyWord s w).mgmt = s.mgmt ∧
    (storeCopyWord s w).settings = s.settings ∧
    (storeCopyWord s w).events = s.events ∧
    (storeCopyWord s w).overflow = s.overflow ∧
    (storeCopyWord s w).array = s.array ∧
    (storeCopyWord s w).freeCount = s.freeCount ∧
    (storeCopyWord s w).pending = s.pending :=
  ⟨rfl, rfl, rfl, rfl, rfl, rfl, rfl, rfl, rfl, rfl, rfl, rfl, rfl, rfl, rfl, rfl, rfl, rfl, rfl, rfl, rfl, rfl, rfl, rfl, rfl, rfl, rfl, rfl, rfl, rfl, rfl, rfl, rfl, rfl⟩

@[simp] theorem addToSums_frame (s : State) (w : Word) :
    (addToSums s w).powered = s.powered ∧
    (addToSums s w).bridge = s.bridge ∧
    (addToSums s w).pageMap = s.pageMap ∧
    (addToSums s w).freeFrames = s.freeFrames ∧
    (addToSums s w).contexts = s.contexts ∧
    (addToSums s w).commitQueue = s.commitQueue ∧
    (addToSums s w).engine.stage = s.engine.stage ∧
    (addToSums s w).engine.lastSequence = s.engine.lastSequence ∧
    (addToSums s w).engine.record = s.engine.record ∧
    (addToSums s w).engine.pause = s.engine.pause ∧
    (addToSums s w).engine.formatFrames = s.engine.formatFrames ∧
    (addToSums s w).engine.formatStep = s.engine.formatStep ∧
    (addToSums s w).engine.pos = s.engine.pos ∧
    (addToSums s w).engine.copyStore = s.engine.copyStore ∧
    (addToSums s w).engine.scanWords = s.engine.scanWords ∧
    (addToSums s w).engine.image0 = s.engine.image0 ∧
    (addToSums s w).engine.image1 = s.engine.image1 ∧
    (addToSums s w).engine.applyList = s.engine.applyList ∧
    (addToSums s w).engine.tallyPosition = s.engine.tallyPosition ∧
    (addToSums s w).engine.faultList = s.engine.faultList ∧
    (addToSums s w).engine.faultCount = s.engine.faultCount ∧
    (addToSums s w).host = s.host ∧
    (addToSums s w).regions = s.regions ∧
    (addToSums s w).buffer = s.buffer ∧
    (addToSums s w).port = s.port ∧
    (addToSums s w).turn = s.turn ∧
    (addToSums s w).monitor = s.monitor ∧
    (addToSums s w).mgmt = s.mgmt ∧
    (addToSums s w).settings = s.settings ∧
    (addToSums s w).events = s.events ∧
    (addToSums s w).overflow = s.overflow ∧
    (addToSums s w).array = s.array ∧
    (addToSums s w).freeCount = s.freeCount ∧
    (addToSums s w).pending = s.pending :=
  ⟨rfl, rfl, rfl, rfl, rfl, rfl, rfl, rfl, rfl, rfl, rfl, rfl, rfl, rfl, rfl, rfl, rfl, rfl, rfl, rfl, rfl, rfl, rfl, rfl, rfl, rfl, rfl, rfl, rfl, rfl, rfl, rfl, rfl, rfl⟩

@[simp] theorem beginSum_frame (s : State) :
    (beginSum s).powered = s.powered ∧
    (beginSum s).bridge = s.bridge ∧
    (beginSum s).pageMap = s.pageMap ∧
    (beginSum s).freeFrames = s.freeFrames ∧
    (beginSum s).contexts = s.contexts ∧
    (beginSum s).commitQueue = s.commitQueue ∧
    (beginSum s).engine.lastSequence = s.engine.lastSequence ∧
    (beginSum s).engine.pause = s.engine.pause ∧
    (beginSum s).engine.formatFrames = s.engine.formatFrames ∧
    (beginSum s).engine.formatStep = s.engine.formatStep ∧
    (beginSum s).engine.copyStore = s.engine.copyStore ∧
    (beginSum s).engine.scanWords = s.engine.scanWords ∧
    (beginSum s).engine.image0 = s.engine.image0 ∧
    (beginSum s).engine.image1 = s.engine.image1 ∧
    (beginSum s).engine.applyList = s.engine.applyList ∧
    (beginSum s).engine.tallyPosition = s.engine.tallyPosition ∧
    (beginSum s).engine.faultList = s.engine.faultList ∧
    (beginSum s).engine.faultCount = s.engine.faultCount ∧
    (beginSum s).host = s.host ∧
    (beginSum s).regions = s.regions ∧
    (beginSum s).buffer = s.buffer ∧
    (beginSum s).port = s.port ∧
    (beginSum s).turn = s.turn ∧
    (beginSum s).monitor = s.monitor ∧
    (beginSum s).mgmt = s.mgmt ∧
    (beginSum s).settings = s.settings ∧
    (beginSum s).events = s.events ∧
    (beginSum s).overflow = s.overflow ∧
    (beginSum s).array = s.array ∧
    (beginSum s).freeCount = s.freeCount ∧
    (beginSum s).pending = s.pending := by
  refine ⟨?_, ?_, ?_, ?_, ?_, ?_, ?_, ?_, ?_, ?_, ?_, ?_, ?_, ?_, ?_, ?_, ?_, ?_, ?_, ?_, ?_, ?_, ?_, ?_, ?_, ?_, ?_, ?_, ?_, ?_, ?_⟩ <;>
  unfold beginSum <;> (try dsimp only) <;> (repeat' split) <;> rfl

@[simp] theorem endDrain_frame (s : State) :
    (endDrain s).powered = s.powered ∧
    (endDrain s).bridge = s.bridge ∧
    (endDrain s).pageMap = s.pageMap ∧
    (endDrain s).freeFrames = s.freeFrames ∧
    (endDrain s).contexts = s.contexts ∧
    (endDrain s).commitQueue = s.commitQueue ∧
    (endDrain s).engine.lastSequence = s.engine.lastSequence ∧
    (endDrain s).engine.pause = s.engine.pause ∧
    (endDrain s).engine.formatFrames = s.engine.formatFrames ∧
    (endDrain s).engine.formatStep = s.engine.formatStep ∧
    (endDrain s).engine.copyStore = s.engine.copyStore ∧
    (endDrain s).engine.scanWords = s.engine.scanWords ∧
    (endDrain s).engine.image0 = s.engine.image0 ∧
    (endDrain s).engine.image1 = s.engine.image1 ∧
    (endDrain s).engine.applyList = s.engine.applyList ∧
    (endDrain s).engine.tallyPosition = s.engine.tallyPosition ∧
    (endDrain s).engine.faultList = s.engine.faultList ∧
    (endDrain s).engine.faultCount = s.engine.faultCount ∧
    (endDrain s).host = s.host ∧
    (endDrain s).regions = s.regions ∧
    (endDrain s).buffer = s.buffer ∧
    (endDrain s).port = s.port ∧
    (endDrain s).turn = s.turn ∧
    (endDrain s).monitor = s.monitor ∧
    (endDrain s).mgmt = s.mgmt ∧
    (endDrain s).settings = s.settings ∧
    (endDrain s).events = s.events ∧
    (endDrain s).overflow = s.overflow ∧
    (endDrain s).array = s.array ∧
    (endDrain s).freeCount = s.freeCount ∧
    (endDrain s).pending = s.pending := by
  refine ⟨?_, ?_, ?_, ?_, ?_, ?_, ?_, ?_, ?_, ?_, ?_, ?_, ?_, ?_, ?_, ?_, ?_, ?_, ?_, ?_, ?_, ?_, ?_, ?_, ?_, ?_, ?_, ?_, ?_, ?_, ?_⟩ <;>
  unfold endDrain <;> (repeat' split) <;> first | rfl | simp

@[simp] theorem sumWord_frame (s : State) (w : Word) :
    (sumWord s w).powered = s.powered ∧
    (sumWord s w).bridge = s.bridge ∧
    (sumWord s w).pageMap = s.pageMap ∧
    (sumWord s w).freeFrames = s.freeFrames ∧
    (sumWord s w).contexts = s.contexts ∧
    (sumWord s w).commitQueue = s.commitQueue ∧
    (sumWord s w).engine.lastSequence = s.engine.lastSequence ∧
    (sumWord s w).engine.pause = s.engine.pause ∧
    (sumWord s w).engine.formatFrames = s.engine.formatFrames ∧
    (sumWord s w).engine.formatStep = s.engine.formatStep ∧
    (sumWord s w).engine.copyStore = s.engine.copyStore ∧
    (sumWord s w).engine.scanWords = s.engine.scanWords ∧
    (sumWord s w).engine.image0 = s.engine.image0 ∧
    (sumWord s w).engine.image1 = s.engine.image1 ∧
    (sumWord s w).engine.applyList = s.engine.applyList ∧
    (sumWord s w).engine.tallyPosition = s.engine.tallyPosition ∧
    (sumWord s w).engine.faultList = s.engine.faultList ∧
    (sumWord s w).engine.faultCount = s.engine.faultCount ∧
    (sumWord s w).host = s.host ∧
    (sumWord s w).regions = s.regions ∧
    (sumWord s w).buffer = s.buffer ∧
    (sumWord s w).port = s.port ∧
    (sumWord s w).turn = s.turn ∧
    (sumWord s w).monitor = s.monitor ∧
    (sumWord s w).mgmt = s.mgmt ∧
    (sumWord s w).settings = s.settings ∧
    (sumWord s w).events = s.events ∧
    (sumWord s w).overflow = s.overflow ∧
    (sumWord s w).array = s.array ∧
    (sumWord s w).freeCount = s.freeCount ∧
    (sumWord s w).pending = s.pending := by
  refine ⟨?_, ?_, ?_, ?_, ?_, ?_, ?_, ?_, ?_, ?_, ?_, ?_, ?_, ?_, ?_, ?_, ?_, ?_, ?_, ?_, ?_, ?_, ?_, ?_, ?_, ?_, ?_, ?_, ?_, ?_, ?_⟩ <;>
  unfold sumWord <;> (try dsimp only) <;> (repeat' split) <;> rfl

@[simp] theorem journalWritten_frame (s : State) :
    (journalWritten s).powered = s.powered ∧
    (journalWritten s).bridge = s.bridge ∧
    (journalWritten s).pageMap = s.pageMap ∧
    (journalWritten s).freeFrames = s.freeFrames ∧
    (journalWritten s).contexts = s.contexts ∧
    (journalWritten s).commitQueue = s.commitQueue ∧
    (journalWritten s).engine.lastSequence = s.engine.lastSequence ∧
    (journalWritten s).engine.record = s.engine.record ∧
    (journalWritten s).engine.pause = s.engine.pause ∧
    (journalWritten s).engine.formatFrames = s.engine.formatFrames ∧
    (journalWritten s).engine.formatStep = s.engine.formatStep ∧
    (journalWritten s).engine.sums = s.engine.sums ∧
    (journalWritten s).engine.copyStore = s.engine.copyStore ∧
    (journalWritten s).engine.scanWords = s.engine.scanWords ∧
    (journalWritten s).engine.image0 = s.engine.image0 ∧
    (journalWritten s).engine.image1 = s.engine.image1 ∧
    (journalWritten s).engine.applyList = s.engine.applyList ∧
    (journalWritten s).engine.tallyPosition = s.engine.tallyPosition ∧
    (journalWritten s).engine.faultList = s.engine.faultList ∧
    (journalWritten s).engine.faultCount = s.engine.faultCount ∧
    (journalWritten s).host = s.host ∧
    (journalWritten s).regions = s.regions ∧
    (journalWritten s).buffer = s.buffer ∧
    (journalWritten s).port = s.port ∧
    (journalWritten s).turn = s.turn ∧
    (journalWritten s).monitor = s.monitor ∧
    (journalWritten s).mgmt = s.mgmt ∧
    (journalWritten s).settings = s.settings ∧
    (journalWritten s).events = s.events ∧
    (journalWritten s).overflow = s.overflow ∧
    (journalWritten s).array = s.array ∧
    (journalWritten s).freeCount = s.freeCount ∧
    (journalWritten s).pending = s.pending := by
  refine ⟨?_, ?_, ?_, ?_, ?_, ?_, ?_, ?_, ?_, ?_, ?_, ?_, ?_, ?_, ?_, ?_, ?_, ?_, ?_, ?_, ?_, ?_, ?_, ?_, ?_, ?_, ?_, ?_, ?_, ?_, ?_, ?_, ?_⟩ <;>
  unfold journalWritten <;> (try dsimp only) <;> (repeat' split) <;> rfl

@[simp] theorem commitPoint_frame (s : State) :
    (commitPoint s).powered = s.powered ∧
    (commitPoint s).bridge = s.bridge ∧
    (commitPoint s).freeFrames = s.freeFrames ∧
    (commitPoint s).commitQueue = s.commitQueue ∧
    (commitPoint s).engine.record = s.engine.record ∧
    (commitPoint s).engine.pause = s.engine.pause ∧
    (commitPoint s).engine.formatFrames = s.engine.formatFrames ∧
    (commitPoint s).engine.formatStep = s.engine.formatStep ∧
    (commitPoint s).engine.sums = s.engine.sums ∧
    (commitPoint s).engine.scanWords = s.engine.scanWords ∧
    (commitPoint s).engine.image0 = s.engine.image0 ∧
    (commitPoint s).engine.image1 = s.engine.image1 ∧
    (commitPoint s).engine.applyList = s.engine.applyList ∧
    (commitPoint s).engine.tallyPosition = s.engine.tallyPosition ∧
    (commitPoint s).engine.faultList = s.engine.faultList ∧
    (commitPoint s).engine.faultCount = s.engine.faultCount ∧
    (commitPoint s).host = s.host ∧
    (commitPoint s).regions = s.regions ∧
    (commitPoint s).buffer = s.buffer ∧
    (commitPoint s).port = s.port ∧
    (commitPoint s).turn = s.turn ∧
    (commitPoint s).monitor = s.monitor ∧
    (commitPoint s).mgmt = s.mgmt ∧
    (commitPoint s).settings = s.settings ∧
    (commitPoint s).array = s.array ∧
    (commitPoint s).freeCount = s.freeCount ∧
    (commitPoint s).pending = s.pending := by
  refine ⟨?_, ?_, ?_, ?_, ?_, ?_, ?_, ?_, ?_, ?_, ?_, ?_, ?_, ?_, ?_, ?_, ?_, ?_, ?_, ?_, ?_, ?_, ?_, ?_, ?_, ?_, ?_⟩ <;>
  unfold commitPoint <;> (try dsimp only) <;> (repeat' split) <;> first | rfl | simp

@[simp] theorem copyWritten_frame (s : State) :
    (copyWritten s).powered = s.powered ∧
    (copyWritten s).bridge = s.bridge ∧
    (copyWritten s).freeFrames = s.freeFrames ∧
    (copyWritten s).contexts = s.contexts ∧
    (copyWritten s).commitQueue = s.commitQueue ∧
    (copyWritten s).engine.lastSequence = s.engine.lastSequence ∧
    (copyWritten s).engine.record = s.engine.record ∧
    (copyWritten s).engine.pause = s.engine.pause ∧
    (copyWritten s).engine.formatFrames = s.engine.formatFrames ∧
    (copyWritten s).engine.formatStep = s.engine.formatStep ∧
    (copyWritten s).engine.sums = s.engine.sums ∧
    (copyWritten s).engine.copyStore = s.engine.copyStore ∧
    (copyWritten s).engine.scanWords = s.engine.scanWords ∧
    (copyWritten s).engine.image0 = s.engine.image0 ∧
    (copyWritten s).engine.image1 = s.engine.image1 ∧
    (copyWritten s).engine.applyList = s.engine.applyList ∧
    (copyWritten s).engine.tallyPosition = s.engine.tallyPosition ∧
    (copyWritten s).engine.faultList = s.engine.faultList ∧
    (copyWritten s).engine.faultCount = s.engine.faultCount ∧
    (copyWritten s).host = s.host ∧
    (copyWritten s).regions = s.regions ∧
    (copyWritten s).buffer = s.buffer ∧
    (copyWritten s).port = s.port ∧
    (copyWritten s).turn = s.turn ∧
    (copyWritten s).monitor = s.monitor ∧
    (copyWritten s).mgmt = s.mgmt ∧
    (copyWritten s).settings = s.settings ∧
    (copyWritten s).events = s.events ∧
    (copyWritten s).overflow = s.overflow ∧
    (copyWritten s).array = s.array ∧
    (copyWritten s).freeCount = s.freeCount ∧
    (copyWritten s).pending = s.pending := by
  refine ⟨?_, ?_, ?_, ?_, ?_, ?_, ?_, ?_, ?_, ?_, ?_, ?_, ?_, ?_, ?_, ?_, ?_, ?_, ?_, ?_, ?_, ?_, ?_, ?_, ?_, ?_, ?_, ?_, ?_, ?_, ?_, ?_⟩ <;>
  unfold copyWritten <;> (try dsimp only) <;> (repeat' split) <;> rfl

@[simp] theorem copyWordRead_frame (s : State) (w : Word) :
    (copyWordRead s w).powered = s.powered ∧
    (copyWordRead s w).bridge = s.bridge ∧
    (copyWordRead s w).pageMap = s.pageMap ∧
    (copyWordRead s w).freeFrames = s.freeFrames ∧
    (copyWordRead s w).contexts = s.contexts ∧
    (copyWordRead s w).commitQueue = s.commitQueue ∧
    (copyWordRead s w).engine.stage = s.engine.stage ∧
    (copyWordRead s w).engine.lastSequence = s.engine.lastSequence ∧
    (copyWordRead s w).engine.record = s.engine.record ∧
    (copyWordRead s w).engine.pause = s.engine.pause ∧
    (copyWordRead s w).engine.formatFrames = s.engine.formatFrames ∧
    (copyWordRead s w).engine.formatStep = s.engine.formatStep ∧
    (copyWordRead s w).engine.sums = s.engine.sums ∧
    (copyWordRead s w).engine.scanWords = s.engine.scanWords ∧
    (copyWordRead s w).engine.image0 = s.engine.image0 ∧
    (copyWordRead s w).engine.image1 = s.engine.image1 ∧
    (copyWordRead s w).engine.applyList = s.engine.applyList ∧
    (copyWordRead s w).engine.tallyPosition = s.engine.tallyPosition ∧
    (copyWordRead s w).engine.faultList = s.engine.faultList ∧
    (copyWordRead s w).engine.faultCount = s.engine.faultCount ∧
    (copyWordRead s w).host = s.host ∧
    (copyWordRead s w).regions = s.regions ∧
    (copyWordRead s w).buffer = s.buffer ∧
    (copyWordRead s w).port = s.port ∧
    (copyWordRead s w).turn = s.turn ∧
    (copyWordRead s w).monitor = s.monitor ∧
    (copyWordRead s w).mgmt = s.mgmt ∧
    (copyWordRead s w).settings = s.settings ∧
    (copyWordRead s w).events = s.events ∧
    (copyWordRead s w).overflow = s.overflow ∧
    (copyWordRead s w).array = s.array ∧
    (copyWordRead s w).freeCount = s.freeCount ∧
    (copyWordRead s w).pending = s.pending := by
  refine ⟨?_, ?_, ?_, ?_, ?_, ?_, ?_, ?_, ?_, ?_, ?_, ?_, ?_, ?_, ?_, ?_, ?_, ?_, ?_, ?_, ?_, ?_, ?_, ?_, ?_, ?_, ?_, ?_, ?_, ?_, ?_, ?_, ?_⟩ <;>
  unfold copyWordRead <;> (repeat' split) <;> rfl

@[simp] theorem retireCommit_frame (s : State) :
    (retireCommit s).powered = s.powered ∧
    (retireCommit s).bridge = s.bridge ∧
    (retireCommit s).commitQueue = s.commitQueue ∧
    (retireCommit s).engine.lastSequence = s.engine.lastSequence ∧
    (retireCommit s).engine.pause = s.engine.pause ∧
    (retireCommit s).engine.formatFrames = s.engine.formatFrames ∧
    (retireCommit s).engine.formatStep = s.engine.formatStep ∧
    (retireCommit s).engine.sums = s.engine.sums ∧
    (retireCommit s).engine.copyStore = s.engine.copyStore ∧
    (retireCommit s).engine.scanWords = s.engine.scanWords ∧
    (retireCommit s).engine.image0 = s.engine.image0 ∧
    (retireCommit s).engine.image1 = s.engine.image1 ∧
    (retireCommit s).engine.applyList = s.engine.applyList ∧
    (retireCommit s).engine.tallyPosition = s.engine.tallyPosition ∧
    (retireCommit s).engine.faultList = s.engine.faultList ∧
    (retireCommit s).engine.faultCount = s.engine.faultCount ∧
    (retireCommit s).host.hreq = s.host.hreq ∧
    (retireCommit s).regions = s.regions ∧
    (retireCommit s).port = s.port ∧
    (retireCommit s).turn = s.turn ∧
    (retireCommit s).monitor = s.monitor ∧
    (retireCommit s).mgmt = s.mgmt ∧
    (retireCommit s).settings = s.settings ∧
    (retireCommit s).array = s.array ∧
    (retireCommit s).freeCount = s.freeCount ∧
    (retireCommit s).pending = s.pending := by
  refine ⟨?_, ?_, ?_, ?_, ?_, ?_, ?_, ?_, ?_, ?_, ?_, ?_, ?_, ?_, ?_, ?_, ?_, ?_, ?_, ?_, ?_, ?_, ?_, ?_, ?_, ?_⟩ <;>
  unfold retireCommit <;> (try dsimp only) <;> first | rfl | simp

@[simp] theorem beginScan_frame (s : State) :
    (beginScan s).powered = s.powered ∧
    (beginScan s).bridge = s.bridge ∧
    (beginScan s).pageMap = s.pageMap ∧
    (beginScan s).freeFrames = s.freeFrames ∧
    (beginScan s).contexts = s.contexts ∧
    (beginScan s).commitQueue = s.commitQueue ∧
    (beginScan s).engine.lastSequence = s.engine.lastSequence ∧
    (beginScan s).engine.pause = s.engine.pause ∧
    (beginScan s).engine.formatFrames = s.engine.formatFrames ∧
    (beginScan s).engine.formatStep = s.engine.formatStep ∧
    (beginScan s).engine.sums = s.engine.sums ∧
    (beginScan s).engine.copyStore = s.engine.copyStore ∧
    (beginScan s).engine.tallyPosition = s.engine.tallyPosition ∧
    (beginScan s).engine.faultList = s.engine.faultList ∧
    (beginScan s).engine.faultCount = s.engine.faultCount ∧
    (beginScan s).host = s.host ∧
    (beginScan s).regions = s.regions ∧
    (beginScan s).buffer = s.buffer ∧
    (beginScan s).port = s.port ∧
    (beginScan s).turn = s.turn ∧
    (beginScan s).monitor = s.monitor ∧
    (beginScan s).mgmt = s.mgmt ∧
    (beginScan s).settings = s.settings ∧
    (beginScan s).events = s.events ∧
    (beginScan s).overflow = s.overflow ∧
    (beginScan s).array = s.array ∧
    (beginScan s).freeCount = s.freeCount ∧
    (beginScan s).pending = s.pending :=
  ⟨rfl, rfl, rfl, rfl, rfl, rfl, rfl, rfl, rfl, rfl, rfl, rfl, rfl, rfl, rfl, rfl, rfl, rfl, rfl, rfl, rfl, rfl, rfl, rfl, rfl, rfl, rfl, rfl⟩

@[simp] theorem beginRecovery_frame (s : State) :
    (beginRecovery s).powered = s.powered ∧
    (beginRecovery s).bridge = s.bridge ∧
    (beginRecovery s).pageMap = s.pageMap ∧
    (beginRecovery s).freeFrames = s.freeFrames ∧
    (beginRecovery s).contexts = s.contexts ∧
    (beginRecovery s).commitQueue = s.commitQueue ∧
    (beginRecovery s).engine.pause = s.engine.pause ∧
    (beginRecovery s).engine.formatFrames = s.engine.formatFrames ∧
    (beginRecovery s).engine.formatStep = s.engine.formatStep ∧
    (beginRecovery s).engine.sums = s.engine.sums ∧
    (beginRecovery s).engine.copyStore = s.engine.copyStore ∧
    (beginRecovery s).host = s.host ∧
    (beginRecovery s).regions = s.regions ∧
    (beginRecovery s).buffer = s.buffer ∧
    (beginRecovery s).port = s.port ∧
    (beginRecovery s).turn = s.turn ∧
    (beginRecovery s).monitor = s.monitor ∧
    (beginRecovery s).mgmt = s.mgmt ∧
    (beginRecovery s).settings = s.settings ∧
    (beginRecovery s).events = s.events ∧
    (beginRecovery s).overflow = s.overflow ∧
    (beginRecovery s).array = s.array ∧
    (beginRecovery s).freeCount = s.freeCount ∧
    (beginRecovery s).pending = s.pending := by
  refine ⟨?_, ?_, ?_, ?_, ?_, ?_, ?_, ?_, ?_, ?_, ?_, ?_, ?_, ?_, ?_, ?_, ?_, ?_, ?_, ?_, ?_, ?_, ?_, ?_⟩ <;>
  unfold beginRecovery <;> (try dsimp only) <;> rfl

@[simp] theorem tally_frame (s : State) (i : Nat) (b : Bool) (h : Nat) :
    (tally s i b h).powered = s.powered ∧
    (tally s i b h).bridge = s.bridge ∧
    (tally s i b h).pageMap = s.pageMap ∧
    (tally s i b h).freeFrames = s.freeFrames ∧
    (tally s i b h).contexts = s.contexts ∧
    (tally s i b h).commitQueue = s.commitQueue ∧
    (tally s i b h).engine.stage = s.engine.stage ∧
    (tally s i b h).engine.lastSequence = s.engine.lastSequence ∧
    (tally s i b h).engine.record = s.engine.record ∧
    (tally s i b h).engine.pause = s.engine.pause ∧
    (tally s i b h).engine.formatFrames = s.engine.formatFrames ∧
    (tally s i b h).engine.formatStep = s.engine.formatStep ∧
    (tally s i b h).engine.pos = s.engine.pos ∧
    (tally s i b h).engine.sums = s.engine.sums ∧
    (tally s i b h).engine.copyStore = s.engine.copyStore ∧
    (tally s i b h).engine.scanWords = s.engine.scanWords ∧
    (tally s i b h).engine.image0 = s.engine.image0 ∧
    (tally s i b h).engine.image1 = s.engine.image1 ∧
    (tally s i b h).engine.applyList = s.engine.applyList ∧
    (tally s i b h).host = s.host ∧
    (tally s i b h).regions = s.regions ∧
    (tally s i b h).buffer = s.buffer ∧
    (tally s i b h).port = s.port ∧
    (tally s i b h).turn = s.turn ∧
    (tally s i b h).monitor = s.monitor ∧
    (tally s i b h).mgmt = s.mgmt ∧
    (tally s i b h).settings = s.settings ∧
    (tally s i b h).events = s.events ∧
    (tally s i b h).overflow = s.overflow ∧
    (tally s i b h).array = s.array ∧
    (tally s i b h).freeCount = s.freeCount ∧
    (tally s i b h).pending = s.pending := by
  refine ⟨?_, ?_, ?_, ?_, ?_, ?_, ?_, ?_, ?_, ?_, ?_, ?_, ?_, ?_, ?_, ?_, ?_, ?_, ?_, ?_, ?_, ?_, ?_, ?_, ?_, ?_, ?_, ?_, ?_, ?_, ?_, ?_⟩ <;>
  unfold tally <;> (try dsimp only) <;> (repeat' split) <;> rfl

@[simp] theorem loadSlot_frame (s : State) (sl : Slot) :
    (loadSlot s sl).powered = s.powered ∧
    (loadSlot s sl).bridge = s.bridge ∧
    (loadSlot s sl).pageMap = s.pageMap ∧
    (loadSlot s sl).freeFrames = s.freeFrames ∧
    (loadSlot s sl).contexts = s.contexts ∧
    (loadSlot s sl).commitQueue = s.commitQueue ∧
    (loadSlot s sl).engine.stage = s.engine.stage ∧
    (loadSlot s sl).engine.lastSequence = s.engine.lastSequence ∧
    (loadSlot s sl).engine.pause = s.engine.pause ∧
    (loadSlot s sl).engine.formatFrames = s.engine.formatFrames ∧
    (loadSlot s sl).engine.formatStep = s.engine.formatStep ∧
    (loadSlot s sl).engine.pos = s.engine.pos ∧
    (loadSlot s sl).engine.sums = s.engine.sums ∧
    (loadSlot s sl).engine.copyStore = s.engine.copyStore ∧
    (loadSlot s sl).engine.scanWords = s.engine.scanWords ∧
    (loadSlot s sl).engine.image0 = s.engine.image0 ∧
    (loadSlot s sl).engine.image1 = s.engine.image1 ∧
    (loadSlot s sl).engine.applyList = s.engine.applyList ∧
    (loadSlot s sl).engine.tallyPosition = s.engine.tallyPosition ∧
    (loadSlot s sl).engine.faultList = s.engine.faultList ∧
    (loadSlot s sl).engine.faultCount = s.engine.faultCount ∧
    (loadSlot s sl).host = s.host ∧
    (loadSlot s sl).regions = s.regions ∧
    (loadSlot s sl).buffer = s.buffer ∧
    (loadSlot s sl).port = s.port ∧
    (loadSlot s sl).turn = s.turn ∧
    (loadSlot s sl).monitor = s.monitor ∧
    (loadSlot s sl).mgmt = s.mgmt ∧
    (loadSlot s sl).settings = s.settings ∧
    (loadSlot s sl).events = s.events ∧
    (loadSlot s sl).overflow = s.overflow ∧
    (loadSlot s sl).array = s.array ∧
    (loadSlot s sl).freeCount = s.freeCount ∧
    (loadSlot s sl).pending = s.pending :=
  ⟨rfl, rfl, rfl, rfl, rfl, rfl, rfl, rfl, rfl, rfl, rfl, rfl, rfl, rfl, rfl, rfl, rfl, rfl, rfl, rfl, rfl, rfl, rfl, rfl, rfl, rfl, rfl, rfl, rfl, rfl, rfl, rfl, rfl, rfl⟩

@[simp] theorem seekEntry_frame (l : List (Nat × Nat × Slot × RecordItem)) (s : State) :
    (seekEntry l s).powered = s.powered ∧
    (seekEntry l s).bridge = s.bridge ∧
    (seekEntry l s).pageMap = s.pageMap ∧
    (seekEntry l s).freeFrames = s.freeFrames ∧
    (seekEntry l s).contexts = s.contexts ∧
    (seekEntry l s).commitQueue = s.commitQueue ∧
    (seekEntry l s).engine.lastSequence = s.engine.lastSequence ∧
    (seekEntry l s).engine.pause = s.engine.pause ∧
    (seekEntry l s).engine.formatFrames = s.engine.formatFrames ∧
    (seekEntry l s).engine.formatStep = s.engine.formatStep ∧
    (seekEntry l s).engine.copyStore = s.engine.copyStore ∧
    (seekEntry l s).engine.scanWords = s.engine.scanWords ∧
    (seekEntry l s).engine.image0 = s.engine.image0 ∧
    (seekEntry l s).engine.image1 = s.engine.image1 ∧
    (seekEntry l s).engine.applyList = s.engine.applyList ∧
    (seekEntry l s).host = s.host ∧
    (seekEntry l s).regions = s.regions ∧
    (seekEntry l s).buffer = s.buffer ∧
    (seekEntry l s).port = s.port ∧
    (seekEntry l s).turn = s.turn ∧
    (seekEntry l s).monitor = s.monitor ∧
    (seekEntry l s).mgmt = s.mgmt ∧
    (seekEntry l s).settings = s.settings ∧
    (seekEntry l s).events = s.events ∧
    (seekEntry l s).overflow = s.overflow ∧
    (seekEntry l s).array = s.array ∧
    (seekEntry l s).freeCount = s.freeCount ∧
    (seekEntry l s).pending = s.pending := by
  refine ⟨?_, ?_, ?_, ?_, ?_, ?_, ?_, ?_, ?_, ?_, ?_, ?_, ?_, ?_, ?_, ?_, ?_, ?_, ?_, ?_, ?_, ?_, ?_, ?_, ?_, ?_, ?_, ?_⟩ <;>
  (induction l generalizing s with
   | nil => rfl
   | cons x xs ih =>
     obtain ⟨j, i, sl, it⟩ := x
     simp only [seekEntry]
     split <;> simp [ih])

@[simp] theorem applyFrom_frame (s : State) (j i : Nat) :
    (applyFrom s j i).powered = s.powered ∧
    (applyFrom s j i).bridge = s.bridge ∧
    (applyFrom s j i).pageMap = s.pageMap ∧
    (applyFrom s j i).freeFrames = s.freeFrames ∧
    (applyFrom s j i).contexts = s.contexts ∧
    (applyFrom s j i).commitQueue = s.commitQueue ∧
    (applyFrom s j i).engine.lastSequence = s.engine.lastSequence ∧
    (applyFrom s j i).engine.pause = s.engine.pause ∧
    (applyFrom s j i).engine.formatFrames = s.engine.formatFrames ∧
    (applyFrom s j i).engine.formatStep = s.engine.formatStep ∧
    (applyFrom s j i).engine.copyStore = s.engine.copyStore ∧
    (applyFrom s j i).engine.scanWords = s.engine.scanWords ∧
    (applyFrom s j i).engine.image0 = s.engine.image0 ∧
    (applyFrom s j i).engine.image1 = s.engine.image1 ∧
    (applyFrom s j i).engine.applyList = s.engine.applyList ∧
    (applyFrom s j i).host = s.host ∧
    (applyFrom s j i).regions = s.regions ∧
    (applyFrom s j i).buffer = s.buffer ∧
    (applyFrom s j i).port = s.port ∧
    (applyFrom s j i).turn = s.turn ∧
    (applyFrom s j i).monitor = s.monitor ∧
    (applyFrom s j i).mgmt = s.mgmt ∧
    (applyFrom s j i).settings = s.settings ∧
    (applyFrom s j i).events = s.events ∧
    (applyFrom s j i).overflow = s.overflow ∧
    (applyFrom s j i).array = s.array ∧
    (applyFrom s j i).freeCount = s.freeCount ∧
    (applyFrom s j i).pending = s.pending := by
  refine ⟨?_, ?_, ?_, ?_, ?_, ?_, ?_, ?_, ?_, ?_, ?_, ?_, ?_, ?_, ?_, ?_, ?_, ?_, ?_, ?_, ?_, ?_, ?_, ?_, ?_, ?_, ?_, ?_⟩ <;>
  unfold applyFrom <;> first | rfl | simp

@[simp] theorem reportRecovery_frame (s : State) :
    (reportRecovery s).powered = s.powered ∧
    (reportRecovery s).bridge.returnState = s.bridge.returnState ∧
    (reportRecovery s).bridge.strapPages = s.bridge.strapPages ∧
    (reportRecovery s).bridge.geometry = s.bridge.geometry ∧
    (reportRecovery s).bridge.anchorRead = s.bridge.anchorRead ∧
    (reportRecovery s).bridge.rstN = s.bridge.rstN ∧
    (reportRecovery s).bridge.warmPointPassed = s.bridge.warmPointPassed ∧
    (reportRecovery s).pageMap = s.pageMap ∧
    (reportRecovery s).freeFrames = s.freeFrames ∧
    (reportRecovery s).contexts = s.contexts ∧
    (reportRecovery s).commitQueue = s.commitQueue ∧
    (reportRecovery s).engine.lastSequence = s.engine.lastSequence ∧
    (reportRecovery s).engine.pause = s.engine.pause ∧
    (reportRecovery s).engine.formatFrames = s.engine.formatFrames ∧
    (reportRecovery s).engine.formatStep = s.engine.formatStep ∧
    (reportRecovery s).engine.sums = s.engine.sums ∧
    (reportRecovery s).engine.copyStore = s.engine.copyStore ∧
    (reportRecovery s).engine.scanWords = s.engine.scanWords ∧
    (reportRecovery s).engine.tallyPosition = s.engine.tallyPosition ∧
    (reportRecovery s).engine.faultList = s.engine.faultList ∧
    (reportRecovery s).engine.faultCount = s.engine.faultCount ∧
    (reportRecovery s).host = s.host ∧
    (reportRecovery s).regions = s.regions ∧
    (reportRecovery s).buffer = s.buffer ∧
    (reportRecovery s).port = s.port ∧
    (reportRecovery s).turn = s.turn ∧
    (reportRecovery s).monitor = s.monitor ∧
    (reportRecovery s).mgmt = s.mgmt ∧
    (reportRecovery s).settings = s.settings ∧
    (reportRecovery s).array = s.array ∧
    (reportRecovery s).freeCount = s.freeCount ∧
    (reportRecovery s).pending = s.pending := by
  refine ⟨?_, ?_, ?_, ?_, ?_, ?_, ?_, ?_, ?_, ?_, ?_, ?_, ?_, ?_, ?_, ?_, ?_, ?_, ?_, ?_, ?_, ?_, ?_, ?_, ?_, ?_, ?_, ?_, ?_, ?_, ?_, ?_⟩ <;>
  unfold reportRecovery <;> (try dsimp only) <;> (repeat' split) <;> first | rfl | simp

@[simp] theorem endScan_frame (s : State) :
    (endScan s).powered = s.powered ∧
    (endScan s).bridge.returnState = s.bridge.returnState ∧
    (endScan s).bridge.strapPages = s.bridge.strapPages ∧
    (endScan s).bridge.geometry = s.bridge.geometry ∧
    (endScan s).bridge.anchorRead = s.bridge.anchorRead ∧
    (endScan s).bridge.rstN = s.bridge.rstN ∧
    (endScan s).bridge.warmPointPassed = s.bridge.warmPointPassed ∧
    (endScan s).pageMap = s.pageMap ∧
    (endScan s).freeFrames = s.freeFrames ∧
    (endScan s).contexts = s.contexts ∧
    (endScan s).commitQueue = s.commitQueue ∧
    (endScan s).engine.pause = s.engine.pause ∧
    (endScan s).engine.formatFrames = s.engine.formatFrames ∧
    (endScan s).engine.formatStep = s.engine.formatStep ∧
    (endScan s).engine.copyStore = s.engine.copyStore ∧
    (endScan s).engine.scanWords = s.engine.scanWords ∧
    (endScan s).host = s.host ∧
    (endScan s).regions = s.regions ∧
    (endScan s).buffer = s.buffer ∧
    (endScan s).port = s.port ∧
    (endScan s).turn = s.turn ∧
    (endScan s).monitor = s.monitor ∧
    (endScan s).mgmt = s.mgmt ∧
    (endScan s).settings = s.settings ∧
    (endScan s).array = s.array ∧
    (endScan s).freeCount = s.freeCount ∧
    (endScan s).pending = s.pending := by
  refine ⟨?_, ?_, ?_, ?_, ?_, ?_, ?_, ?_, ?_, ?_, ?_, ?_, ?_, ?_, ?_, ?_, ?_, ?_, ?_, ?_, ?_, ?_, ?_, ?_, ?_, ?_, ?_⟩ <;>
  unfold endScan <;> (try dsimp only) <;> (repeat' split) <;> first | rfl | simp

@[simp] theorem setImage_frame (e : Engine) (sl : Slot) (im : SlotImage) :
    (setImage e sl im).stage = e.stage ∧
    (setImage e sl im).lastSequence = e.lastSequence ∧
    (setImage e sl im).record = e.record ∧
    (setImage e sl im).pause = e.pause ∧
    (setImage e sl im).formatFrames = e.formatFrames ∧
    (setImage e sl im).formatStep = e.formatStep ∧
    (setImage e sl im).pos = e.pos ∧
    (setImage e sl im).sums = e.sums ∧
    (setImage e sl im).copyStore = e.copyStore ∧
    (setImage e sl im).scanWords = e.scanWords ∧
    (setImage e sl im).applyList = e.applyList ∧
    (setImage e sl im).tallyPosition = e.tallyPosition ∧
    (setImage e sl im).faultList = e.faultList ∧
    (setImage e sl im).faultCount = e.faultCount := by
  cases sl <;> simp [setImage]

@[simp] theorem scanWord_frame (s : State) (w : Word) :
    (scanWord s w).powered = s.powered ∧
    (scanWord s w).bridge.returnState = s.bridge.returnState ∧
    (scanWord s w).bridge.strapPages = s.bridge.strapPages ∧
    (scanWord s w).bridge.geometry = s.bridge.geometry ∧
    (scanWord s w).bridge.anchorRead = s.bridge.anchorRead ∧
    (scanWord s w).bridge.rstN = s.bridge.rstN ∧
    (scanWord s w).bridge.warmPointPassed = s.bridge.warmPointPassed ∧
    (scanWord s w).pageMap = s.pageMap ∧
    (scanWord s w).freeFrames = s.freeFrames ∧
    (scanWord s w).contexts = s.contexts ∧
    (scanWord s w).commitQueue = s.commitQueue ∧
    (scanWord s w).engine.pause = s.engine.pause ∧
    (scanWord s w).engine.formatFrames = s.engine.formatFrames ∧
    (scanWord s w).engine.formatStep = s.engine.formatStep ∧
    (scanWord s w).engine.copyStore = s.engine.copyStore ∧
    (scanWord s w).host = s.host ∧
    (scanWord s w).regions = s.regions ∧
    (scanWord s w).buffer = s.buffer ∧
    (scanWord s w).port = s.port ∧
    (scanWord s w).turn = s.turn ∧
    (scanWord s w).monitor = s.monitor ∧
    (scanWord s w).mgmt = s.mgmt ∧
    (scanWord s w).settings = s.settings ∧
    (scanWord s w).array = s.array ∧
    (scanWord s w).freeCount = s.freeCount ∧
    (scanWord s w).pending = s.pending := by
  refine ⟨?_, ?_, ?_, ?_, ?_, ?_, ?_, ?_, ?_, ?_, ?_, ?_, ?_, ?_, ?_, ?_, ?_, ?_, ?_, ?_, ?_, ?_, ?_, ?_, ?_, ?_⟩ <;>
  unfold scanWord <;> (try dsimp only) <;> (repeat' split) <;> first | rfl | simp

@[simp] theorem verifyWord_frame (s : State) (w : Word) :
    (verifyWord s w).powered = s.powered ∧
    (verifyWord s w).bridge = s.bridge ∧
    (verifyWord s w).pageMap = s.pageMap ∧
    (verifyWord s w).freeFrames = s.freeFrames ∧
    (verifyWord s w).contexts = s.contexts ∧
    (verifyWord s w).commitQueue = s.commitQueue ∧
    (verifyWord s w).engine.lastSequence = s.engine.lastSequence ∧
    (verifyWord s w).engine.pause = s.engine.pause ∧
    (verifyWord s w).engine.formatFrames = s.engine.formatFrames ∧
    (verifyWord s w).engine.formatStep = s.engine.formatStep ∧
    (verifyWord s w).engine.scanWords = s.engine.scanWords ∧
    (verifyWord s w).engine.image0 = s.engine.image0 ∧
    (verifyWord s w).engine.image1 = s.engine.image1 ∧
    (verifyWord s w).engine.applyList = s.engine.applyList ∧
    (verifyWord s w).host = s.host ∧
    (verifyWord s w).regions = s.regions ∧
    (verifyWord s w).buffer = s.buffer ∧
    (verifyWord s w).port = s.port ∧
    (verifyWord s w).turn = s.turn ∧
    (verifyWord s w).monitor = s.monitor ∧
    (verifyWord s w).mgmt = s.mgmt ∧
    (verifyWord s w).settings = s.settings ∧
    (verifyWord s w).events = s.events ∧
    (verifyWord s w).overflow = s.overflow ∧
    (verifyWord s w).array = s.array ∧
    (verifyWord s w).freeCount = s.freeCount ∧
    (verifyWord s w).pending = s.pending := by
  refine ⟨?_, ?_, ?_, ?_, ?_, ?_, ?_, ?_, ?_, ?_, ?_, ?_, ?_, ?_, ?_, ?_, ?_, ?_, ?_, ?_, ?_, ?_, ?_, ?_, ?_, ?_, ?_⟩ <;>
  unfold verifyWord <;> (try dsimp only) <;> (repeat' split) <;> first | rfl | simp

@[simp] theorem applyWritten_frame (s : State) :
    (applyWritten s).powered = s.powered ∧
    (applyWritten s).bridge = s.bridge ∧
    (applyWritten s).pageMap = s.pageMap ∧
    (applyWritten s).freeFrames = s.freeFrames ∧
    (applyWritten s).contexts = s.contexts ∧
    (applyWritten s).commitQueue = s.commitQueue ∧
    (applyWritten s).engine.lastSequence = s.engine.lastSequence ∧
    (applyWritten s).engine.pause = s.engine.pause ∧
    (applyWritten s).engine.formatFrames = s.engine.formatFrames ∧
    (applyWritten s).engine.formatStep = s.engine.formatStep ∧
    (applyWritten s).engine.copyStore = s.engine.copyStore ∧
    (applyWritten s).engine.scanWords = s.engine.scanWords ∧
    (applyWritten s).engine.image0 = s.engine.image0 ∧
    (applyWritten s).engine.image1 = s.engine.image1 ∧
    (applyWritten s).engine.applyList = s.engine.applyList ∧
    (applyWritten s).host = s.host ∧
    (applyWritten s).regions = s.regions ∧
    (applyWritten s).buffer = s.buffer ∧
    (applyWritten s).port = s.port ∧
    (applyWritten s).turn = s.turn ∧
    (applyWritten s).monitor = s.monitor ∧
    (applyWritten s).mgmt = s.mgmt ∧
    (applyWritten s).settings = s.settings ∧
    (applyWritten s).events = s.events ∧
    (applyWritten s).overflow = s.overflow ∧
    (applyWritten s).array = s.array ∧
    (applyWritten s).freeCount = s.freeCount ∧
    (applyWritten s).pending = s.pending := by
  refine ⟨?_, ?_, ?_, ?_, ?_, ?_, ?_, ?_, ?_, ?_, ?_, ?_, ?_, ?_, ?_, ?_, ?_, ?_, ?_, ?_, ?_, ?_, ?_, ?_, ?_, ?_, ?_, ?_⟩ <;>
  unfold applyWritten <;> (repeat' split) <;> first | rfl | simp

@[simp] theorem recoveryRetired_frame (s : State) :
    (recoveryRetired s).powered = s.powered ∧
    (recoveryRetired s).bridge.returnState = s.bridge.returnState ∧
    (recoveryRetired s).bridge.strapPages = s.bridge.strapPages ∧
    (recoveryRetired s).bridge.geometry = s.bridge.geometry ∧
    (recoveryRetired s).bridge.anchorRead = s.bridge.anchorRead ∧
    (recoveryRetired s).bridge.rstN = s.bridge.rstN ∧
    (recoveryRetired s).bridge.warmPointPassed = s.bridge.warmPointPassed ∧
    (recoveryRetired s).pageMap = s.pageMap ∧
    (recoveryRetired s).freeFrames = s.freeFrames ∧
    (recoveryRetired s).contexts = s.contexts ∧
    (recoveryRetired s).commitQueue = s.commitQueue ∧
    (recoveryRetired s).engine.lastSequence = s.engine.lastSequence ∧
    (recoveryRetired s).engine.pause = s.engine.pause ∧
    (recoveryRetired s).engine.formatFrames = s.engine.formatFrames ∧
    (recoveryRetired s).engine.formatStep = s.engine.formatStep ∧
    (recoveryRetired s).engine.sums = s.engine.sums ∧
    (recoveryRetired s).engine.copyStore = s.engine.copyStore ∧
    (recoveryRetired s).engine.scanWords = s.engine.scanWords ∧
    (recoveryRetired s).engine.tallyPosition = s.engine.tallyPosition ∧
    (recoveryRetired s).engine.faultList = s.engine.faultList ∧
    (recoveryRetired s).engine.faultCount = s.engine.faultCount ∧
    (recoveryRetired s).host = s.host ∧
    (recoveryRetired s).regions = s.regions ∧
    (recoveryRetired s).buffer = s.buffer ∧
    (recoveryRetired s).port = s.port ∧
    (recoveryRetired s).turn = s.turn ∧
    (recoveryRetired s).monitor = s.monitor ∧
    (recoveryRetired s).mgmt = s.mgmt ∧
    (recoveryRetired s).settings = s.settings ∧
    (recoveryRetired s).array = s.array ∧
    (recoveryRetired s).freeCount = s.freeCount ∧
    (recoveryRetired s).pending = s.pending := by
  refine ⟨?_, ?_, ?_, ?_, ?_, ?_, ?_, ?_, ?_, ?_, ?_, ?_, ?_, ?_, ?_, ?_, ?_, ?_, ?_, ?_, ?_, ?_, ?_, ?_, ?_, ?_, ?_, ?_, ?_, ?_, ?_, ?_⟩ <;>
  unfold recoveryRetired <;> (try dsimp only) <;> (repeat' split) <;> first | rfl | simp

@[simp] theorem enterFormatStep_frame (s : State) (k : Nat) :
    (enterFormatStep s k).powered = s.powered ∧
    (enterFormatStep s k).bridge = s.bridge ∧
    (enterFormatStep s k).pageMap = s.pageMap ∧
    (enterFormatStep s k).freeFrames = s.freeFrames ∧
    (enterFormatStep s k).contexts = s.contexts ∧
    (enterFormatStep s k).commitQueue = s.commitQueue ∧
    (enterFormatStep s k).engine.stage = s.engine.stage ∧
    (enterFormatStep s k).engine.lastSequence = s.engine.lastSequence ∧
    (enterFormatStep s k).engine.record = s.engine.record ∧
    (enterFormatStep s k).engine.pause = s.engine.pause ∧
    (enterFormatStep s k).engine.formatFrames = s.engine.formatFrames ∧
    (enterFormatStep s k).engine.sums = s.engine.sums ∧
    (enterFormatStep s k).engine.copyStore = s.engine.copyStore ∧
    (enterFormatStep s k).engine.scanWords = s.engine.scanWords ∧
    (enterFormatStep s k).engine.image0 = s.engine.image0 ∧
    (enterFormatStep s k).engine.image1 = s.engine.image1 ∧
    (enterFormatStep s k).engine.applyList = s.engine.applyList ∧
    (enterFormatStep s k).engine.tallyPosition = s.engine.tallyPosition ∧
    (enterFormatStep s k).engine.faultList = s.engine.faultList ∧
    (enterFormatStep s k).engine.faultCount = s.engine.faultCount ∧
    (enterFormatStep s k).host = s.host ∧
    (enterFormatStep s k).regions = s.regions ∧
    (enterFormatStep s k).buffer = s.buffer ∧
    (enterFormatStep s k).port = s.port ∧
    (enterFormatStep s k).turn = s.turn ∧
    (enterFormatStep s k).monitor = s.monitor ∧
    (enterFormatStep s k).mgmt = s.mgmt ∧
    (enterFormatStep s k).settings = s.settings ∧
    (enterFormatStep s k).events = s.events ∧
    (enterFormatStep s k).overflow = s.overflow ∧
    (enterFormatStep s k).array = s.array ∧
    (enterFormatStep s k).freeCount = s.freeCount ∧
    (enterFormatStep s k).pending = s.pending :=
  ⟨rfl, rfl, rfl, rfl, rfl, rfl, rfl, rfl, rfl, rfl, rfl, rfl, rfl, rfl, rfl, rfl, rfl, rfl, rfl, rfl, rfl, rfl, rfl, rfl, rfl, rfl, rfl, rfl, rfl, rfl, rfl, rfl, rfl⟩

@[simp] theorem endFormatDrain_frame (s : State) :
    (endFormatDrain s).powered = s.powered ∧
    (endFormatDrain s).bridge = s.bridge ∧
    (endFormatDrain s).pageMap = s.pageMap ∧
    (endFormatDrain s).freeFrames = s.freeFrames ∧
    (endFormatDrain s).contexts = s.contexts ∧
    (endFormatDrain s).commitQueue = s.commitQueue ∧
    (endFormatDrain s).engine.stage = s.engine.stage ∧
    (endFormatDrain s).engine.lastSequence = s.engine.lastSequence ∧
    (endFormatDrain s).engine.record = s.engine.record ∧
    (endFormatDrain s).engine.pause = s.engine.pause ∧
    (endFormatDrain s).engine.formatFrames = s.engine.formatFrames ∧
    (endFormatDrain s).engine.sums = s.engine.sums ∧
    (endFormatDrain s).engine.copyStore = s.engine.copyStore ∧
    (endFormatDrain s).engine.scanWords = s.engine.scanWords ∧
    (endFormatDrain s).engine.image0 = s.engine.image0 ∧
    (endFormatDrain s).engine.image1 = s.engine.image1 ∧
    (endFormatDrain s).engine.applyList = s.engine.applyList ∧
    (endFormatDrain s).engine.tallyPosition = s.engine.tallyPosition ∧
    (endFormatDrain s).engine.faultList = s.engine.faultList ∧
    (endFormatDrain s).engine.faultCount = s.engine.faultCount ∧
    (endFormatDrain s).host = s.host ∧
    (endFormatDrain s).regions = s.regions ∧
    (endFormatDrain s).buffer = s.buffer ∧
    (endFormatDrain s).port = s.port ∧
    (endFormatDrain s).turn = s.turn ∧
    (endFormatDrain s).monitor = s.monitor ∧
    (endFormatDrain s).mgmt = s.mgmt ∧
    (endFormatDrain s).settings = s.settings ∧
    (endFormatDrain s).events = s.events ∧
    (endFormatDrain s).overflow = s.overflow ∧
    (endFormatDrain s).array = s.array ∧
    (endFormatDrain s).freeCount = s.freeCount ∧
    (endFormatDrain s).pending = s.pending := by
  refine ⟨?_, ?_, ?_, ?_, ?_, ?_, ?_, ?_, ?_, ?_, ?_, ?_, ?_, ?_, ?_, ?_, ?_, ?_, ?_, ?_, ?_, ?_, ?_, ?_, ?_, ?_, ?_, ?_, ?_, ?_, ?_, ?_, ?_⟩ <;>
  unfold endFormatDrain <;> (repeat' split) <;> rfl

@[simp] theorem finishFormat_frame (s : State) :
    (finishFormat s).powered = s.powered ∧
    (finishFormat s).bridge.returnState = s.bridge.returnState ∧
    (finishFormat s).bridge.strapPages = s.bridge.strapPages ∧
    (finishFormat s).bridge.anchorRead = s.bridge.anchorRead ∧
    (finishFormat s).bridge.rstN = s.bridge.rstN ∧
    (finishFormat s).bridge.warmPointPassed = s.bridge.warmPointPassed ∧
    (finishFormat s).contexts = s.contexts ∧
    (finishFormat s).commitQueue = s.commitQueue ∧
    (finishFormat s).engine.pause = s.engine.pause ∧
    (finishFormat s).engine.sums = s.engine.sums ∧
    (finishFormat s).engine.copyStore = s.engine.copyStore ∧
    (finishFormat s).engine.scanWords = s.engine.scanWords ∧
    (finishFormat s).engine.tallyPosition = s.engine.tallyPosition ∧
    (finishFormat s).engine.faultList = s.engine.faultList ∧
    (finishFormat s).engine.faultCount = s.engine.faultCount ∧
    (finishFormat s).host = s.host ∧
    (finishFormat s).regions = s.regions ∧
    (finishFormat s).buffer = s.buffer ∧
    (finishFormat s).port = s.port ∧
    (finishFormat s).turn = s.turn ∧
    (finishFormat s).monitor = s.monitor ∧
    (finishFormat s).mgmt = s.mgmt ∧
    (finishFormat s).settings = s.settings ∧
    (finishFormat s).array = s.array ∧
    (finishFormat s).freeCount = s.freeCount ∧
    (finishFormat s).pending = s.pending := by
  refine ⟨?_, ?_, ?_, ?_, ?_, ?_, ?_, ?_, ?_, ?_, ?_, ?_, ?_, ?_, ?_, ?_, ?_, ?_, ?_, ?_, ?_, ?_, ?_, ?_, ?_, ?_⟩ <;>
  unfold finishFormat <;> (try dsimp only) <;> first | rfl | simp

@[simp] theorem formatWritten_frame (s : State) :
    (formatWritten s).powered = s.powered ∧
    (formatWritten s).bridge.returnState = s.bridge.returnState ∧
    (formatWritten s).bridge.strapPages = s.bridge.strapPages ∧
    (formatWritten s).bridge.anchorRead = s.bridge.anchorRead ∧
    (formatWritten s).bridge.rstN = s.bridge.rstN ∧
    (formatWritten s).bridge.warmPointPassed = s.bridge.warmPointPassed ∧
    (formatWritten s).contexts = s.contexts ∧
    (formatWritten s).commitQueue = s.commitQueue ∧
    (formatWritten s).engine.pause = s.engine.pause ∧
    (formatWritten s).engine.sums = s.engine.sums ∧
    (formatWritten s).engine.copyStore = s.engine.copyStore ∧
    (formatWritten s).engine.scanWords = s.engine.scanWords ∧
    (formatWritten s).engine.tallyPosition = s.engine.tallyPosition ∧
    (formatWritten s).engine.faultList = s.engine.faultList ∧
    (formatWritten s).engine.faultCount = s.engine.faultCount ∧
    (formatWritten s).host = s.host ∧
    (formatWritten s).regions = s.regions ∧
    (formatWritten s).buffer = s.buffer ∧
    (formatWritten s).port = s.port ∧
    (formatWritten s).turn = s.turn ∧
    (formatWritten s).monitor = s.monitor ∧
    (formatWritten s).mgmt = s.mgmt ∧
    (formatWritten s).settings = s.settings ∧
    (formatWritten s).array = s.array ∧
    (formatWritten s).freeCount = s.freeCount ∧
    (formatWritten s).pending = s.pending := by
  refine ⟨?_, ?_, ?_, ?_, ?_, ?_, ?_, ?_, ?_, ?_, ?_, ?_, ?_, ?_, ?_, ?_, ?_, ?_, ?_, ?_, ?_, ?_, ?_, ?_, ?_, ?_⟩ <;>
  unfold formatWritten <;> (try dsimp only) <;> (repeat' split) <;> first | rfl | simp

@[simp] theorem restartCommit_frame (s : State) :
    (restartCommit s).powered = s.powered ∧
    (restartCommit s).bridge = s.bridge ∧
    (restartCommit s).pageMap = s.pageMap ∧
    (restartCommit s).freeFrames = s.freeFrames ∧
    (restartCommit s).contexts = s.contexts ∧
    (restartCommit s).commitQueue = s.commitQueue ∧
    (restartCommit s).engine.lastSequence = s.engine.lastSequence ∧
    (restartCommit s).engine.pause = s.engine.pause ∧
    (restartCommit s).engine.formatFrames = s.engine.formatFrames ∧
    (restartCommit s).engine.formatStep = s.engine.formatStep ∧
    (restartCommit s).engine.copyStore = s.engine.copyStore ∧
    (restartCommit s).engine.scanWords = s.engine.scanWords ∧
    (restartCommit s).engine.image0 = s.engine.image0 ∧
    (restartCommit s).engine.image1 = s.engine.image1 ∧
    (restartCommit s).engine.applyList = s.engine.applyList ∧
    (restartCommit s).engine.tallyPosition = s.engine.tallyPosition ∧
    (restartCommit s).engine.faultList = s.engine.faultList ∧
    (restartCommit s).engine.faultCount = s.engine.faultCount ∧
    (restartCommit s).host = s.host ∧
    (restartCommit s).regions = s.regions ∧
    (restartCommit s).buffer = s.buffer ∧
    (restartCommit s).port = s.port ∧
    (restartCommit s).turn = s.turn ∧
    (restartCommit s).monitor = s.monitor ∧
    (restartCommit s).mgmt = s.mgmt ∧
    (restartCommit s).settings = s.settings ∧
    (restartCommit s).events = s.events ∧
    (restartCommit s).overflow = s.overflow ∧
    (restartCommit s).array = s.array ∧
    (restartCommit s).freeCount = s.freeCount ∧
    (restartCommit s).pending = s.pending := by
  refine ⟨?_, ?_, ?_, ?_, ?_, ?_, ?_, ?_, ?_, ?_, ?_, ?_, ?_, ?_, ?_, ?_, ?_, ?_, ?_, ?_, ?_, ?_, ?_, ?_, ?_, ?_, ?_, ?_, ?_, ?_, ?_⟩ <;>
  unfold restartCommit <;> (repeat' split) <;> first | rfl | simp

@[simp] theorem restartRecovery_frame (s : State) :
    (restartRecovery s).powered = s.powered ∧
    (restartRecovery s).bridge = s.bridge ∧
    (restartRecovery s).pageMap = s.pageMap ∧
    (restartRecovery s).freeFrames = s.freeFrames ∧
    (restartRecovery s).contexts = s.contexts ∧
    (restartRecovery s).commitQueue = s.commitQueue ∧
    (restartRecovery s).engine.lastSequence = s.engine.lastSequence ∧
    (restartRecovery s).engine.pause = s.engine.pause ∧
    (restartRecovery s).engine.formatFrames = s.engine.formatFrames ∧
    (restartRecovery s).engine.formatStep = s.engine.formatStep ∧
    (restartRecovery s).engine.sums = s.engine.sums ∧
    (restartRecovery s).engine.copyStore = s.engine.copyStore ∧
    (restartRecovery s).engine.tallyPosition = s.engine.tallyPosition ∧
    (restartRecovery s).engine.faultList = s.engine.faultList ∧
    (restartRecovery s).engine.faultCount = s.engine.faultCount ∧
    (restartRecovery s).host = s.host ∧
    (restartRecovery s).regions = s.regions ∧
    (restartRecovery s).buffer = s.buffer ∧
    (restartRecovery s).port = s.port ∧
    (restartRecovery s).turn = s.turn ∧
    (restartRecovery s).monitor = s.monitor ∧
    (restartRecovery s).mgmt = s.mgmt ∧
    (restartRecovery s).settings = s.settings ∧
    (restartRecovery s).events = s.events ∧
    (restartRecovery s).overflow = s.overflow ∧
    (restartRecovery s).array = s.array ∧
    (restartRecovery s).freeCount = s.freeCount ∧
    (restartRecovery s).pending = s.pending := by
  refine ⟨?_, ?_, ?_, ?_, ?_, ?_, ?_, ?_, ?_, ?_, ?_, ?_, ?_, ?_, ?_, ?_, ?_, ?_, ?_, ?_, ?_, ?_, ?_, ?_, ?_, ?_, ?_, ?_⟩ <;>
  unfold restartRecovery <;> (repeat' split) <;> rfl

@[simp] theorem restartFormat_frame (s : State) :
    (restartFormat s).powered = s.powered ∧
    (restartFormat s).bridge = s.bridge ∧
    (restartFormat s).pageMap = s.pageMap ∧
    (restartFormat s).freeFrames = s.freeFrames ∧
    (restartFormat s).contexts = s.contexts ∧
    (restartFormat s).commitQueue = s.commitQueue ∧
    (restartFormat s).engine.stage = s.engine.stage ∧
    (restartFormat s).engine.lastSequence = s.engine.lastSequence ∧
    (restartFormat s).engine.record = s.engine.record ∧
    (restartFormat s).engine.pause = s.engine.pause ∧
    (restartFormat s).engine.formatFrames = s.engine.formatFrames ∧
    (restartFormat s).engine.sums = s.engine.sums ∧
    (restartFormat s).engine.copyStore = s.engine.copyStore ∧
    (restartFormat s).engine.scanWords = s.engine.scanWords ∧
    (restartFormat s).engine.image0 = s.engine.image0 ∧
    (restartFormat s).engine.image1 = s.engine.image1 ∧
    (restartFormat s).engine.applyList = s.engine.applyList ∧
    (restartFormat s).engine.tallyPosition = s.engine.tallyPosition ∧
    (restartFormat s).engine.faultList = s.engine.faultList ∧
    (restartFormat s).engine.faultCount = s.engine.faultCount ∧
    (restartFormat s).host = s.host ∧
    (restartFormat s).regions = s.regions ∧
    (restartFormat s).buffer = s.buffer ∧
    (restartFormat s).port = s.port ∧
    (restartFormat s).turn = s.turn ∧
    (restartFormat s).monitor = s.monitor ∧
    (restartFormat s).mgmt = s.mgmt ∧
    (restartFormat s).settings = s.settings ∧
    (restartFormat s).events = s.events ∧
    (restartFormat s).overflow = s.overflow ∧
    (restartFormat s).array = s.array ∧
    (restartFormat s).freeCount = s.freeCount ∧
    (restartFormat s).pending = s.pending := by
  refine ⟨?_, ?_, ?_, ?_, ?_, ?_, ?_, ?_, ?_, ?_, ?_, ?_, ?_, ?_, ?_, ?_, ?_, ?_, ?_, ?_, ?_, ?_, ?_, ?_, ?_, ?_, ?_, ?_, ?_, ?_, ?_, ?_, ?_⟩ <;>
  unfold restartFormat <;> first | rfl | simp

@[simp] theorem restartStage_frame (s : State) :
    (restartStage s).powered = s.powered ∧
    (restartStage s).bridge = s.bridge ∧
    (restartStage s).pageMap = s.pageMap ∧
    (restartStage s).freeFrames = s.freeFrames ∧
    (restartStage s).contexts = s.contexts ∧
    (restartStage s).commitQueue = s.commitQueue ∧
    (restartStage s).engine.lastSequence = s.engine.lastSequence ∧
    (restartStage s).engine.pause = s.engine.pause ∧
    (restartStage s).engine.formatFrames = s.engine.formatFrames ∧
    (restartStage s).engine.copyStore = s.engine.copyStore ∧
    (restartStage s).engine.tallyPosition = s.engine.tallyPosition ∧
    (restartStage s).engine.faultList = s.engine.faultList ∧
    (restartStage s).engine.faultCount = s.engine.faultCount ∧
    (restartStage s).host = s.host ∧
    (restartStage s).regions = s.regions ∧
    (restartStage s).buffer = s.buffer ∧
    (restartStage s).port = s.port ∧
    (restartStage s).turn = s.turn ∧
    (restartStage s).monitor = s.monitor ∧
    (restartStage s).mgmt = s.mgmt ∧
    (restartStage s).settings = s.settings ∧
    (restartStage s).events = s.events ∧
    (restartStage s).overflow = s.overflow ∧
    (restartStage s).array = s.array ∧
    (restartStage s).freeCount = s.freeCount ∧
    (restartStage s).pending = s.pending := by
  refine ⟨?_, ?_, ?_, ?_, ?_, ?_, ?_, ?_, ?_, ?_, ?_, ?_, ?_, ?_, ?_, ?_, ?_, ?_, ?_, ?_, ?_, ?_, ?_, ?_, ?_, ?_⟩ <;>
  unfold restartStage <;> (repeat' split) <;> first | rfl | simp

@[simp] theorem powerOnState_frame (s : State) (pins : PinLevels) :
    (powerOnState s pins).array = s.array ∧
    (powerOnState s pins).freeCount = s.freeCount ∧
    (powerOnState s pins).pending = s.pending :=
  ⟨rfl, rfl, rfl⟩

@[simp] theorem startDelay_frame (s : State) :
    (startDelay s).powered = s.powered ∧
    (startDelay s).bridge = s.bridge ∧
    (startDelay s).pageMap = s.pageMap ∧
    (startDelay s).freeFrames = s.freeFrames ∧
    (startDelay s).contexts = s.contexts ∧
    (startDelay s).commitQueue = s.commitQueue ∧
    (startDelay s).engine = s.engine ∧
    (startDelay s).host = s.host ∧
    (startDelay s).regions = s.regions ∧
    (startDelay s).buffer = s.buffer ∧
    (startDelay s).port = s.port ∧
    (startDelay s).turn = s.turn ∧
    (startDelay s).monitor.phase = s.monitor.phase ∧
    (startDelay s).monitor.level = s.monitor.level ∧
    (startDelay s).monitor.filterTimer = s.monitor.filterTimer ∧
    (startDelay s).mgmt = s.mgmt ∧
    (startDelay s).settings = s.settings ∧
    (startDelay s).events = s.events ∧
    (startDelay s).overflow = s.overflow ∧
    (startDelay s).array = s.array ∧
    (startDelay s).freeCount = s.freeCount ∧
    (startDelay s).pending = s.pending :=
  ⟨rfl, rfl, rfl, rfl, rfl, rfl, rfl, rfl, rfl, rfl, rfl, rfl, rfl, rfl, rfl, rfl, rfl, rfl, rfl, rfl, rfl, rfl⟩

@[simp] theorem enterStarting_frame (s : State) :
    (enterStarting s).powered = s.powered ∧
    (enterStarting s).bridge.strapPages = s.bridge.strapPages ∧
    (enterStarting s).bridge.geometry = s.bridge.geometry ∧
    (enterStarting s).bridge.rstN = s.bridge.rstN ∧
    (enterStarting s).pageMap = s.pageMap ∧
    (enterStarting s).freeFrames = s.freeFrames ∧
    (enterStarting s).contexts = s.contexts ∧
    (enterStarting s).commitQueue = s.commitQueue ∧
    (enterStarting s).engine = s.engine ∧
    (enterStarting s).host = s.host ∧
    (enterStarting s).regions = s.regions ∧
    (enterStarting s).buffer = s.buffer ∧
    (enterStarting s).port = s.port ∧
    (enterStarting s).turn = s.turn ∧
    (enterStarting s).monitor.level = s.monitor.level ∧
    (enterStarting s).monitor.filterTimer = s.monitor.filterTimer ∧
    (enterStarting s).mgmt = s.mgmt ∧
    (enterStarting s).settings = s.settings ∧
    (enterStarting s).events = s.events ∧
    (enterStarting s).overflow = s.overflow ∧
    (enterStarting s).array = s.array ∧
    (enterStarting s).freeCount = s.freeCount ∧
    (enterStarting s).pending = s.pending := by
  refine ⟨?_, ?_, ?_, ?_, ?_, ?_, ?_, ?_, ?_, ?_, ?_, ?_, ?_, ?_, ?_, ?_, ?_, ?_, ?_, ?_, ?_, ?_, ?_⟩ <;>
  unfold enterStarting <;> (try dsimp only) <;> rfl

@[simp] theorem abandonAnchorRead_frame (s : State) :
    (abandonAnchorRead s).powered = s.powered ∧
    (abandonAnchorRead s).bridge.state = s.bridge.state ∧
    (abandonAnchorRead s).bridge.returnState = s.bridge.returnState ∧
    (abandonAnchorRead s).bridge.strapPages = s.bridge.strapPages ∧
    (abandonAnchorRead s).bridge.geometry = s.bridge.geometry ∧
    (abandonAnchorRead s).bridge.rstN = s.bridge.rstN ∧
    (abandonAnchorRead s).bridge.warmPointPassed = s.bridge.warmPointPassed ∧
    (abandonAnchorRead s).pageMap = s.pageMap ∧
    (abandonAnchorRead s).freeFrames = s.freeFrames ∧
    (abandonAnchorRead s).contexts = s.contexts ∧
    (abandonAnchorRead s).commitQueue = s.commitQueue ∧
    (abandonAnchorRead s).engine = s.engine ∧
    (abandonAnchorRead s).host = s.host ∧
    (abandonAnchorRead s).regions = s.regions ∧
    (abandonAnchorRead s).buffer = s.buffer ∧
    (abandonAnchorRead s).turn = s.turn ∧
    (abandonAnchorRead s).monitor = s.monitor ∧
    (abandonAnchorRead s).mgmt = s.mgmt ∧
    (abandonAnchorRead s).settings = s.settings ∧
    (abandonAnchorRead s).events = s.events ∧
    (abandonAnchorRead s).overflow = s.overflow ∧
    (abandonAnchorRead s).array = s.array ∧
    (abandonAnchorRead s).freeCount = s.freeCount ∧
    (abandonAnchorRead s).pending = s.pending :=
  ⟨rfl, rfl, rfl, rfl, rfl, rfl, rfl, rfl, rfl, rfl, rfl, rfl, rfl, rfl, rfl, rfl, rfl, rfl, rfl, rfl, rfl, rfl, rfl, rfl⟩

@[simp] theorem enterResetting_frame (s : State) :
    (enterResetting s).powered = s.powered ∧
    (enterResetting s).bridge.strapPages = s.bridge.strapPages ∧
    (enterResetting s).bridge.geometry = s.bridge.geometry ∧
    (enterResetting s).bridge.rstN = s.bridge.rstN ∧
    (enterResetting s).pageMap = s.pageMap ∧
    (enterResetting s).freeFrames = s.freeFrames ∧
    (enterResetting s).contexts = s.contexts ∧
    (enterResetting s).commitQueue = s.commitQueue ∧
    (enterResetting s).engine = s.engine ∧
    (enterResetting s).host.hreq = s.host.hreq ∧
    (enterResetting s).regions = s.regions ∧
    (enterResetting s).buffer = s.buffer ∧
    (enterResetting s).turn = s.turn ∧
    (enterResetting s).monitor.level = s.monitor.level ∧
    (enterResetting s).monitor.delayTimer = s.monitor.delayTimer ∧
    (enterResetting s).mgmt = s.mgmt ∧
    (enterResetting s).settings = s.settings ∧
    (enterResetting s).array = s.array ∧
    (enterResetting s).freeCount = s.freeCount ∧
    (enterResetting s).pending = s.pending := by
  refine ⟨?_, ?_, ?_, ?_, ?_, ?_, ?_, ?_, ?_, ?_, ?_, ?_, ?_, ?_, ?_, ?_, ?_, ?_, ?_, ?_⟩ <;>
  unfold enterResetting <;> (try dsimp only) <;> (repeat' split) <;> first | rfl | simp

@[simp] theorem warmResetState_frame (s : State) :
    (warmResetState s).powered = s.powered ∧
    (warmResetState s).bridge.state = s.bridge.state ∧
    (warmResetState s).bridge.returnState = s.bridge.returnState ∧
    (warmResetState s).bridge.rstN = s.bridge.rstN ∧
    (warmResetState s).host.hreq = s.host.hreq ∧
    (warmResetState s).host.hdone = s.host.hdone ∧
    (warmResetState s).host.hfault = s.host.hfault ∧
    (warmResetState s).host.hreason = s.host.hreason ∧
    (warmResetState s).host.hdata = s.host.hdata ∧
    (warmResetState s).host.outstanding = s.host.outstanding ∧
    (warmResetState s).regions = s.regions ∧
    (warmResetState s).port = s.port ∧
    (warmResetState s).monitor.phase = s.monitor.phase ∧
    (warmResetState s).monitor.level = s.monitor.level ∧
    (warmResetState s).mgmt = s.mgmt ∧
    (warmResetState s).settings = s.settings ∧
    (warmResetState s).array = s.array ∧
    (warmResetState s).freeCount = s.freeCount ∧
    (warmResetState s).pending = s.pending :=
  ⟨rfl, rfl, rfl, rfl, rfl, rfl, rfl, rfl, rfl, rfl, rfl, rfl, rfl, rfl, rfl, rfl, rfl, rfl, rfl⟩

@[simp] theorem enterFrozen_frame (s : State) :
    (enterFrozen s).powered = s.powered ∧
    (enterFrozen s).bridge.strapPages = s.bridge.strapPages ∧
    (enterFrozen s).bridge.geometry = s.bridge.geometry ∧
    (enterFrozen s).bridge.anchorRead = s.bridge.anchorRead ∧
    (enterFrozen s).bridge.rstN = s.bridge.rstN ∧
    (enterFrozen s).bridge.warmPointPassed = s.bridge.warmPointPassed ∧
    (enterFrozen s).pageMap = s.pageMap ∧
    (enterFrozen s).freeFrames = s.freeFrames ∧
    (enterFrozen s).contexts = s.contexts ∧
    (enterFrozen s).commitQueue = s.commitQueue ∧
    (enterFrozen s).engine.stage = s.engine.stage ∧
    (enterFrozen s).engine.lastSequence = s.engine.lastSequence ∧
    (enterFrozen s).engine.record = s.engine.record ∧
    (enterFrozen s).engine.formatFrames = s.engine.formatFrames ∧
    (enterFrozen s).engine.formatStep = s.engine.formatStep ∧
    (enterFrozen s).engine.pos = s.engine.pos ∧
    (enterFrozen s).engine.sums = s.engine.sums ∧
    (enterFrozen s).engine.copyStore = s.engine.copyStore ∧
    (enterFrozen s).engine.scanWords = s.engine.scanWords ∧
    (enterFrozen s).engine.image0 = s.engine.image0 ∧
    (enterFrozen s).engine.image1 = s.engine.image1 ∧
    (enterFrozen s).engine.applyList = s.engine.applyList ∧
    (enterFrozen s).engine.tallyPosition = s.engine.tallyPosition ∧
    (enterFrozen s).engine.faultList = s.engine.faultList ∧
    (enterFrozen s).engine.faultCount = s.engine.faultCount ∧
    (enterFrozen s).host.hreq = s.host.hreq ∧
    (enterFrozen s).regions = s.regions ∧
    (enterFrozen s).buffer = s.buffer ∧
    (enterFrozen s).port = s.port ∧
    (enterFrozen s).turn = s.turn ∧
    (enterFrozen s).monitor.level = s.monitor.level ∧
    (enterFrozen s).mgmt = s.mgmt ∧
    (enterFrozen s).settings = s.settings ∧
    (enterFrozen s).array = s.array ∧
    (enterFrozen s).freeCount = s.freeCount ∧
    (enterFrozen s).pending = s.pending := by
  refine ⟨?_, ?_, ?_, ?_, ?_, ?_, ?_, ?_, ?_, ?_, ?_, ?_, ?_, ?_, ?_, ?_, ?_, ?_, ?_, ?_, ?_, ?_, ?_, ?_, ?_, ?_, ?_, ?_, ?_, ?_, ?_, ?_, ?_, ?_, ?_, ?_⟩ <;>
  unfold enterFrozen <;> (try dsimp only) <;> (repeat' split) <;> first | rfl | simp

@[simp] theorem reportSupplyLow_frame (s : State) :
    (reportSupplyLow s).powered = s.powered ∧
    (reportSupplyLow s).bridge = s.bridge ∧
    (reportSupplyLow s).pageMap = s.pageMap ∧
    (reportSupplyLow s).freeFrames = s.freeFrames ∧
    (reportSupplyLow s).contexts = s.contexts ∧
    (reportSupplyLow s).commitQueue = s.commitQueue ∧
    (reportSupplyLow s).engine = s.engine ∧
    (reportSupplyLow s).host = s.host ∧
    (reportSupplyLow s).regions = s.regions ∧
    (reportSupplyLow s).buffer = s.buffer ∧
    (reportSupplyLow s).port = s.port ∧
    (reportSupplyLow s).turn = s.turn ∧
    (reportSupplyLow s).monitor.level = s.monitor.level ∧
    (reportSupplyLow s).mgmt = s.mgmt ∧
    (reportSupplyLow s).settings = s.settings ∧
    (reportSupplyLow s).array = s.array ∧
    (reportSupplyLow s).freeCount = s.freeCount ∧
    (reportSupplyLow s).pending = s.pending := by
  refine ⟨?_, ?_, ?_, ?_, ?_, ?_, ?_, ?_, ?_, ?_, ?_, ?_, ?_, ?_, ?_, ?_, ?_, ?_⟩ <;>
  unfold reportSupplyLow <;> (try dsimp only) <;> first | rfl | simp

@[simp] theorem takeTrip_frame (s : State) :
    (takeTrip s).powered = s.powered ∧
    (takeTrip s).bridge.strapPages = s.bridge.strapPages ∧
    (takeTrip s).bridge.geometry = s.bridge.geometry ∧
    (takeTrip s).bridge.anchorRead = s.bridge.anchorRead ∧
    (takeTrip s).bridge.rstN = s.bridge.rstN ∧
    (takeTrip s).bridge.warmPointPassed = s.bridge.warmPointPassed ∧
    (takeTrip s).pageMap = s.pageMap ∧
    (takeTrip s).freeFrames = s.freeFrames ∧
    (takeTrip s).contexts = s.contexts ∧
    (takeTrip s).commitQueue = s.commitQueue ∧
    (takeTrip s).engine.stage = s.engine.stage ∧
    (takeTrip s).engine.lastSequence = s.engine.lastSequence ∧
    (takeTrip s).engine.record = s.engine.record ∧
    (takeTrip s).engine.formatFrames = s.engine.formatFrames ∧
    (takeTrip s).engine.formatStep = s.engine.formatStep ∧
    (takeTrip s).engine.pos = s.engine.pos ∧
    (takeTrip s).engine.sums = s.engine.sums ∧
    (takeTrip s).engine.copyStore = s.engine.copyStore ∧
    (takeTrip s).engine.scanWords = s.engine.scanWords ∧
    (takeTrip s).engine.image0 = s.engine.image0 ∧
    (takeTrip s).engine.image1 = s.engine.image1 ∧
    (takeTrip s).engine.applyList = s.engine.applyList ∧
    (takeTrip s).engine.tallyPosition = s.engine.tallyPosition ∧
    (takeTrip s).engine.faultList = s.engine.faultList ∧
    (takeTrip s).engine.faultCount = s.engine.faultCount ∧
    (takeTrip s).host.hreq = s.host.hreq ∧
    (takeTrip s).regions = s.regions ∧
    (takeTrip s).buffer = s.buffer ∧
    (takeTrip s).port = s.port ∧
    (takeTrip s).turn = s.turn ∧
    (takeTrip s).monitor.level = s.monitor.level ∧
    (takeTrip s).mgmt = s.mgmt ∧
    (takeTrip s).settings = s.settings ∧
    (takeTrip s).array = s.array ∧
    (takeTrip s).freeCount = s.freeCount ∧
    (takeTrip s).pending = s.pending := by
  refine ⟨?_, ?_, ?_, ?_, ?_, ?_, ?_, ?_, ?_, ?_, ?_, ?_, ?_, ?_, ?_, ?_, ?_, ?_, ?_, ?_, ?_, ?_, ?_, ?_, ?_, ?_, ?_, ?_, ?_, ?_, ?_, ?_, ?_, ?_, ?_, ?_⟩ <;>
  unfold takeTrip <;> (repeat' split) <;> first | rfl | simp

@[simp] theorem startFilter_frame (s : State) :
    (startFilter s).powered = s.powered ∧
    (startFilter s).bridge.strapPages = s.bridge.strapPages ∧
    (startFilter s).bridge.geometry = s.bridge.geometry ∧
    (startFilter s).bridge.anchorRead = s.bridge.anchorRead ∧
    (startFilter s).bridge.rstN = s.bridge.rstN ∧
    (startFilter s).bridge.warmPointPassed = s.bridge.warmPointPassed ∧
    (startFilter s).pageMap = s.pageMap ∧
    (startFilter s).freeFrames = s.freeFrames ∧
    (startFilter s).contexts = s.contexts ∧
    (startFilter s).commitQueue = s.commitQueue ∧
    (startFilter s).engine.stage = s.engine.stage ∧
    (startFilter s).engine.lastSequence = s.engine.lastSequence ∧
    (startFilter s).engine.record = s.engine.record ∧
    (startFilter s).engine.formatFrames = s.engine.formatFrames ∧
    (startFilter s).engine.formatStep = s.engine.formatStep ∧
    (startFilter s).engine.pos = s.engine.pos ∧
    (startFilter s).engine.sums = s.engine.sums ∧
    (startFilter s).engine.copyStore = s.engine.copyStore ∧
    (startFilter s).engine.scanWords = s.engine.scanWords ∧
    (startFilter s).engine.image0 = s.engine.image0 ∧
    (startFilter s).engine.image1 = s.engine.image1 ∧
    (startFilter s).engine.applyList = s.engine.applyList ∧
    (startFilter s).engine.tallyPosition = s.engine.tallyPosition ∧
    (startFilter s).engine.faultList = s.engine.faultList ∧
    (startFilter s).engine.faultCount = s.engine.faultCount ∧
    (startFilter s).host.hreq = s.host.hreq ∧
    (startFilter s).regions = s.regions ∧
    (startFilter s).buffer = s.buffer ∧
    (startFilter s).port = s.port ∧
    (startFilter s).turn = s.turn ∧
    (startFilter s).monitor.level = s.monitor.level ∧
    (startFilter s).mgmt = s.mgmt ∧
    (startFilter s).settings = s.settings ∧
    (startFilter s).array = s.array ∧
    (startFilter s).freeCount = s.freeCount ∧
    (startFilter s).pending = s.pending := by
  refine ⟨?_, ?_, ?_, ?_, ?_, ?_, ?_, ?_, ?_, ?_, ?_, ?_, ?_, ?_, ?_, ?_, ?_, ?_, ?_, ?_, ?_, ?_, ?_, ?_, ?_, ?_, ?_, ?_, ?_, ?_, ?_, ?_, ?_, ?_, ?_, ?_⟩ <;>
  unfold startFilter <;> (try dsimp only) <;> (repeat' split) <;> first | rfl | simp

@[simp] theorem enterArmed_frame (s : State) :
    (enterArmed s).powered = s.powered ∧
    (enterArmed s).bridge.strapPages = s.bridge.strapPages ∧
    (enterArmed s).bridge.geometry = s.bridge.geometry ∧
    (enterArmed s).bridge.anchorRead = s.bridge.anchorRead ∧
    (enterArmed s).bridge.rstN = s.bridge.rstN ∧
    (enterArmed s).bridge.warmPointPassed = s.bridge.warmPointPassed ∧
    (enterArmed s).pageMap = s.pageMap ∧
    (enterArmed s).freeFrames = s.freeFrames ∧
    (enterArmed s).contexts = s.contexts ∧
    (enterArmed s).commitQueue = s.commitQueue ∧
    (enterArmed s).engine.stage = s.engine.stage ∧
    (enterArmed s).engine.lastSequence = s.engine.lastSequence ∧
    (enterArmed s).engine.record = s.engine.record ∧
    (enterArmed s).engine.formatFrames = s.engine.formatFrames ∧
    (enterArmed s).engine.formatStep = s.engine.formatStep ∧
    (enterArmed s).engine.pos = s.engine.pos ∧
    (enterArmed s).engine.sums = s.engine.sums ∧
    (enterArmed s).engine.copyStore = s.engine.copyStore ∧
    (enterArmed s).engine.scanWords = s.engine.scanWords ∧
    (enterArmed s).engine.image0 = s.engine.image0 ∧
    (enterArmed s).engine.image1 = s.engine.image1 ∧
    (enterArmed s).engine.applyList = s.engine.applyList ∧
    (enterArmed s).engine.tallyPosition = s.engine.tallyPosition ∧
    (enterArmed s).engine.faultList = s.engine.faultList ∧
    (enterArmed s).engine.faultCount = s.engine.faultCount ∧
    (enterArmed s).host.hreq = s.host.hreq ∧
    (enterArmed s).regions = s.regions ∧
    (enterArmed s).buffer = s.buffer ∧
    (enterArmed s).port = s.port ∧
    (enterArmed s).turn = s.turn ∧
    (enterArmed s).monitor.level = s.monitor.level ∧
    (enterArmed s).mgmt = s.mgmt ∧
    (enterArmed s).settings = s.settings ∧
    (enterArmed s).array = s.array ∧
    (enterArmed s).freeCount = s.freeCount ∧
    (enterArmed s).pending = s.pending := by
  refine ⟨?_, ?_, ?_, ?_, ?_, ?_, ?_, ?_, ?_, ?_, ?_, ?_, ?_, ?_, ?_, ?_, ?_, ?_, ?_, ?_, ?_, ?_, ?_, ?_, ?_, ?_, ?_, ?_, ?_, ?_, ?_, ?_, ?_, ?_, ?_, ?_⟩ <;>
  unfold enterArmed <;> (try dsimp only) <;> (repeat' split) <;> first | rfl | simp

@[simp] theorem resumeBridge_frame (s : State) :
    (resumeBridge s).powered = s.powered ∧
    (resumeBridge s).bridge.strapPages = s.bridge.strapPages ∧
    (resumeBridge s).bridge.geometry = s.bridge.geometry ∧
    (resumeBridge s).bridge.anchorRead = s.bridge.anchorRead ∧
    (resumeBridge s).bridge.rstN = s.bridge.rstN ∧
    (resumeBridge s).bridge.warmPointPassed = s.bridge.warmPointPassed ∧
    (resumeBridge s).pageMap = s.pageMap ∧
    (resumeBridge s).freeFrames = s.freeFrames ∧
    (resumeBridge s).contexts = s.contexts ∧
    (resumeBridge s).commitQueue = s.commitQueue ∧
    (resumeBridge s).engine.lastSequence = s.engine.lastSequence ∧
    (resumeBridge s).engine.formatFrames = s.engine.formatFrames ∧
    (resumeBridge s).engine.copyStore = s.engine.copyStore ∧
    (resumeBridge s).engine.tallyPosition = s.engine.tallyPosition ∧
    (resumeBridge s).engine.faultList = s.engine.faultList ∧
    (resumeBridge s).engine.faultCount = s.engine.faultCount ∧
    (resumeBridge s).host.hreq = s.host.hreq ∧
    (resumeBridge s).regions = s.regions ∧
    (resumeBridge s).buffer = s.buffer ∧
    (resumeBridge s).port = s.port ∧
    (resumeBridge s).turn = s.turn ∧
    (resumeBridge s).monitor.level = s.monitor.level ∧
    (resumeBridge s).mgmt = s.mgmt ∧
    (resumeBridge s).settings = s.settings ∧
    (resumeBridge s).array = s.array ∧
    (resumeBridge s).freeCount = s.freeCount ∧
    (resumeBridge s).pending = s.pending := by
  refine ⟨?_, ?_, ?_, ?_, ?_, ?_, ?_, ?_, ?_, ?_, ?_, ?_, ?_, ?_, ?_, ?_, ?_, ?_, ?_, ?_, ?_, ?_, ?_, ?_, ?_, ?_, ?_⟩ <;>
  unfold resumeBridge <;> (try dsimp only) <;> (repeat' split) <;> first | rfl | simp

@[simp] theorem autoResume_frame (s : State) :
    (autoResume s).powered = s.powered ∧
    (autoResume s).bridge.strapPages = s.bridge.strapPages ∧
    (autoResume s).bridge.geometry = s.bridge.geometry ∧
    (autoResume s).bridge.anchorRead = s.bridge.anchorRead ∧
    (autoResume s).bridge.rstN = s.bridge.rstN ∧
    (autoResume s).bridge.warmPointPassed = s.bridge.warmPointPassed ∧
    (autoResume s).pageMap = s.pageMap ∧
    (autoResume s).freeFrames = s.freeFrames ∧
    (autoResume s).contexts = s.contexts ∧
    (autoResume s).commitQueue = s.commitQueue ∧
    (autoResume s).engine.lastSequence = s.engine.lastSequence ∧
    (autoResume s).engine.formatFrames = s.engine.formatFrames ∧
    (autoResume s).engine.copyStore = s.engine.copyStore ∧
    (autoResume s).engine.tallyPosition = s.engine.tallyPosition ∧
    (autoResume s).engine.faultList = s.engine.faultList ∧
    (autoResume s).engine.faultCount = s.engine.faultCount ∧
    (autoResume s).host.hreq = s.host.hreq ∧
    (autoResume s).regions = s.regions ∧
    (autoResume s).buffer = s.buffer ∧
    (autoResume s).port = s.port ∧
    (autoResume s).turn = s.turn ∧
    (autoResume s).monitor.level = s.monitor.level ∧
    (autoResume s).mgmt = s.mgmt ∧
    (autoResume s).settings = s.settings ∧
    (autoResume s).array = s.array ∧
    (autoResume s).freeCount = s.freeCount ∧
    (autoResume s).pending = s.pending := by
  refine ⟨?_, ?_, ?_, ?_, ?_, ?_, ?_, ?_, ?_, ?_, ?_, ?_, ?_, ?_, ?_, ?_, ?_, ?_, ?_, ?_, ?_, ?_, ?_, ?_, ?_, ?_, ?_⟩ <;>
  unfold autoResume <;> (repeat' split) <;> first | rfl | simp

@[simp] theorem beginTransfer_frame (s : State) (g : Grant) :
    (beginTransfer s g).powered = s.powered ∧
    (beginTransfer s g).bridge = s.bridge ∧
    (beginTransfer s g).pageMap = s.pageMap ∧
    (beginTransfer s g).freeFrames = s.freeFrames ∧
    (beginTransfer s g).contexts = s.contexts ∧
    (beginTransfer s g).commitQueue = s.commitQueue ∧
    (beginTransfer s g).engine = s.engine ∧
    (beginTransfer s g).host.hreq = s.host.hreq ∧
    (beginTransfer s g).host.hdone = s.host.hdone ∧
    (beginTransfer s g).host.hfault = s.host.hfault ∧
    (beginTransfer s g).host.hreason = s.host.hreason ∧
    (beginTransfer s g).host.hdata = s.host.hdata ∧
    (beginTransfer s g).host.holdTimer = s.host.holdTimer ∧
    (beginTransfer s g).regions = s.regions ∧
    (beginTransfer s g).buffer.entries = s.buffer.entries ∧
    (beginTransfer s g).monitor = s.monitor ∧
    (beginTransfer s g).mgmt = s.mgmt ∧
    (beginTransfer s g).settings = s.settings ∧
    (beginTransfer s g).events = s.events ∧
    (beginTransfer s g).overflow = s.overflow ∧
    (beginTransfer s g).array = s.array ∧
    (beginTransfer s g).freeCount = s.freeCount ∧
    (beginTransfer s g).pending = s.pending := by
  refine ⟨?_, ?_, ?_, ?_, ?_, ?_, ?_, ?_, ?_, ?_, ?_, ?_, ?_, ?_, ?_, ?_, ?_, ?_, ?_, ?_, ?_, ?_, ?_⟩ <;>
  unfold beginTransfer <;> (try dsimp only) <;> (repeat' split) <;> rfl

@[simp] theorem completeTransfer_frame (s : State) (t : Transfer) :
    (completeTransfer s t).powered = s.powered ∧
    (completeTransfer s t).bridge = s.bridge ∧
    (completeTransfer s t).pageMap = s.pageMap ∧
    (completeTransfer s t).freeFrames = s.freeFrames ∧
    (completeTransfer s t).contexts = s.contexts ∧
    (completeTransfer s t).commitQueue = s.commitQueue ∧
    (completeTransfer s t).engine = s.engine ∧
    (completeTransfer s t).host = s.host ∧
    (completeTransfer s t).regions = s.regions ∧
    (completeTransfer s t).buffer = s.buffer ∧
    (completeTransfer s t).turn = s.turn ∧
    (completeTransfer s t).monitor = s.monitor ∧
    (completeTransfer s t).mgmt = s.mgmt ∧
    (completeTransfer s t).settings = s.settings ∧
    (completeTransfer s t).events = s.events ∧
    (completeTransfer s t).overflow = s.overflow ∧
    (completeTransfer s t).freeCount = s.freeCount ∧
    (completeTransfer s t).pending = s.pending :=
  ⟨rfl, rfl, rfl, rfl, rfl, rfl, rfl, rfl, rfl, rfl, rfl, rfl, rfl, rfl, rfl, rfl, rfl, rfl⟩

@[simp] theorem takePause_frame (s : State) :
    (takePause s).powered = s.powered ∧
    (takePause s).bridge = s.bridge ∧
    (takePause s).pageMap = s.pageMap ∧
    (takePause s).freeFrames = s.freeFrames ∧
    (takePause s).contexts = s.contexts ∧
    (takePause s).commitQueue = s.commitQueue ∧
    (takePause s).engine.stage = s.engine.stage ∧
    (takePause s).engine.lastSequence = s.engine.lastSequence ∧
    (takePause s).engine.record = s.engine.record ∧
    (takePause s).engine.formatFrames = s.engine.formatFrames ∧
    (takePause s).engine.formatStep = s.engine.formatStep ∧
    (takePause s).engine.pos = s.engine.pos ∧
    (takePause s).engine.sums = s.engine.sums ∧
    (takePause s).engine.copyStore = s.engine.copyStore ∧
    (takePause s).engine.scanWords = s.engine.scanWords ∧
    (takePause s).engine.image0 = s.engine.image0 ∧
    (takePause s).engine.image1 = s.engine.image1 ∧
    (takePause s).engine.applyList = s.engine.applyList ∧
    (takePause s).engine.tallyPosition = s.engine.tallyPosition ∧
    (takePause s).engine.faultList = s.engine.faultList ∧
    (takePause s).engine.faultCount = s.engine.faultCount ∧
    (takePause s).host = s.host ∧
    (takePause s).regions = s.regions ∧
    (takePause s).buffer = s.buffer ∧
    (takePause s).port = s.port ∧
    (takePause s).turn = s.turn ∧
    (takePause s).monitor = s.monitor ∧
    (takePause s).mgmt = s.mgmt ∧
    (takePause s).settings = s.settings ∧
    (takePause s).events = s.events ∧
    (takePause s).overflow = s.overflow ∧
    (takePause s).array = s.array ∧
    (takePause s).freeCount = s.freeCount ∧
    (takePause s).pending = s.pending := by
  refine ⟨?_, ?_, ?_, ?_, ?_, ?_, ?_, ?_, ?_, ?_, ?_, ?_, ?_, ?_, ?_, ?_, ?_, ?_, ?_, ?_, ?_, ?_, ?_, ?_, ?_, ?_, ?_, ?_, ?_, ?_, ?_, ?_, ?_, ?_⟩ <;>
  unfold takePause <;> (try dsimp only) <;> (repeat' split) <;> rfl

@[simp] theorem stopDelay_frame (s : State) :
    (stopDelay s).powered = s.powered ∧
    (stopDelay s).bridge = s.bridge ∧
    (stopDelay s).pageMap = s.pageMap ∧
    (stopDelay s).freeFrames = s.freeFrames ∧
    (stopDelay s).contexts = s.contexts ∧
    (stopDelay s).commitQueue = s.commitQueue ∧
    (stopDelay s).engine = s.engine ∧
    (stopDelay s).host = s.host ∧
    (stopDelay s).regions = s.regions ∧
    (stopDelay s).buffer = s.buffer ∧
    (stopDelay s).port = s.port ∧
    (stopDelay s).turn = s.turn ∧
    (stopDelay s).monitor.phase = s.monitor.phase ∧
    (stopDelay s).monitor.level = s.monitor.level ∧
    (stopDelay s).monitor.filterTimer = s.monitor.filterTimer ∧
    (stopDelay s).mgmt = s.mgmt ∧
    (stopDelay s).settings = s.settings ∧
    (stopDelay s).events = s.events ∧
    (stopDelay s).overflow = s.overflow ∧
    (stopDelay s).array = s.array ∧
    (stopDelay s).freeCount = s.freeCount ∧
    (stopDelay s).pending = s.pending :=
  ⟨rfl, rfl, rfl, rfl, rfl, rfl, rfl, rfl, rfl, rfl, rfl, rfl, rfl, rfl, rfl, rfl, rfl, rfl, rfl, rfl, rfl, rfl⟩

@[simp] theorem lineAsserted_frame (s : State) :
    (lineAsserted s).powered = s.powered ∧
    (lineAsserted s).bridge.strapPages = s.bridge.strapPages ∧
    (lineAsserted s).bridge.geometry = s.bridge.geometry ∧
    (lineAsserted s).bridge.rstN = s.bridge.rstN ∧
    (lineAsserted s).bridge.warmPointPassed = s.bridge.warmPointPassed ∧
    (lineAsserted s).pageMap = s.pageMap ∧
    (lineAsserted s).freeFrames = s.freeFrames ∧
    (lineAsserted s).contexts = s.contexts ∧
    (lineAsserted s).commitQueue = s.commitQueue ∧
    (lineAsserted s).engine.stage = s.engine.stage ∧
    (lineAsserted s).engine.lastSequence = s.engine.lastSequence ∧
    (lineAsserted s).engine.record = s.engine.record ∧
    (lineAsserted s).engine.formatFrames = s.engine.formatFrames ∧
    (lineAsserted s).engine.formatStep = s.engine.formatStep ∧
    (lineAsserted s).engine.pos = s.engine.pos ∧
    (lineAsserted s).engine.sums = s.engine.sums ∧
    (lineAsserted s).engine.copyStore = s.engine.copyStore ∧
    (lineAsserted s).engine.scanWords = s.engine.scanWords ∧
    (lineAsserted s).engine.image0 = s.engine.image0 ∧
    (lineAsserted s).engine.image1 = s.engine.image1 ∧
    (lineAsserted s).engine.applyList = s.engine.applyList ∧
    (lineAsserted s).engine.tallyPosition = s.engine.tallyPosition ∧
    (lineAsserted s).engine.faultList = s.engine.faultList ∧
    (lineAsserted s).engine.faultCount = s.engine.faultCount ∧
    (lineAsserted s).host.hreq = s.host.hreq ∧
    (lineAsserted s).regions = s.regions ∧
    (lineAsserted s).buffer = s.buffer ∧
    (lineAsserted s).turn = s.turn ∧
    (lineAsserted s).monitor.level = s.monitor.level ∧
    (lineAsserted s).mgmt = s.mgmt ∧
    (lineAsserted s).settings = s.settings ∧
    (lineAsserted s).array = s.array ∧
    (lineAsserted s).freeCount = s.freeCount ∧
    (lineAsserted s).pending = s.pending := by
  refine ⟨?_, ?_, ?_, ?_, ?_, ?_, ?_, ?_, ?_, ?_, ?_, ?_, ?_, ?_, ?_, ?_, ?_, ?_, ?_, ?_, ?_, ?_, ?_, ?_, ?_, ?_, ?_, ?_, ?_, ?_, ?_, ?_, ?_, ?_⟩ <;>
  unfold lineAsserted <;> (repeat' split) <;> first | rfl | simp

@[simp] theorem lineDeasserted_frame (s : State) :
    (lineDeasserted s).powered = s.powered ∧
    (lineDeasserted s).bridge = s.bridge ∧
    (lineDeasserted s).pageMap = s.pageMap ∧
    (lineDeasserted s).freeFrames = s.freeFrames ∧
    (lineDeasserted s).contexts = s.contexts ∧
    (lineDeasserted s).commitQueue = s.commitQueue ∧
    (lineDeasserted s).engine = s.engine ∧
    (lineDeasserted s).host = s.host ∧
    (lineDeasserted s).regions = s.regions ∧
    (lineDeasserted s).buffer = s.buffer ∧
    (lineDeasserted s).port = s.port ∧
    (lineDeasserted s).turn = s.turn ∧
    (lineDeasserted s).monitor.phase = s.monitor.phase ∧
    (lineDeasserted s).monitor.level = s.monitor.level ∧
    (lineDeasserted s).mgmt = s.mgmt ∧
    (lineDeasserted s).settings = s.settings ∧
    (lineDeasserted s).events = s.events ∧
    (lineDeasserted s).overflow = s.overflow ∧
    (lineDeasserted s).array = s.array ∧
    (lineDeasserted s).freeCount = s.freeCount ∧
    (lineDeasserted s).pending = s.pending := by
  refine ⟨?_, ?_, ?_, ?_, ?_, ?_, ?_, ?_, ?_, ?_, ?_, ?_, ?_, ?_, ?_, ?_, ?_, ?_, ?_, ?_, ?_⟩ <;>
  unfold lineDeasserted <;> (try dsimp only) <;> (repeat' split) <;> rfl

@[simp] theorem setHead_frame (s : State) (h : DrainHead) :
    (setHead s h).powered = s.powered ∧
    (setHead s h).bridge = s.bridge ∧
    (setHead s h).pageMap = s.pageMap ∧
    (setHead s h).freeFrames = s.freeFrames ∧
    (setHead s h).contexts = s.contexts ∧
    (setHead s h).commitQueue = s.commitQueue ∧
    (setHead s h).engine = s.engine ∧
    (setHead s h).host = s.host ∧
    (setHead s h).regions = s.regions ∧
    (setHead s h).buffer.entries = s.buffer.entries ∧
    (setHead s h).port = s.port ∧
    (setHead s h).turn = s.turn ∧
    (setHead s h).monitor = s.monitor ∧
    (setHead s h).mgmt = s.mgmt ∧
    (setHead s h).settings = s.settings ∧
    (setHead s h).events = s.events ∧
    (setHead s h).overflow = s.overflow ∧
    (setHead s h).array = s.array ∧
    (setHead s h).freeCount = s.freeCount ∧
    (setHead s h).pending = s.pending :=
  ⟨rfl, rfl, rfl, rfl, rfl, rfl, rfl, rfl, rfl, rfl, rfl, rfl, rfl, rfl, rfl, rfl, rfl, rfl, rfl, rfl⟩

@[simp] theorem departHead_frame (s : State) :
    (departHead s).powered = s.powered ∧
    (departHead s).bridge.strapPages = s.bridge.strapPages ∧
    (departHead s).bridge.geometry = s.bridge.geometry ∧
    (departHead s).bridge.anchorRead = s.bridge.anchorRead ∧
    (departHead s).bridge.rstN = s.bridge.rstN ∧
    (departHead s).bridge.warmPointPassed = s.bridge.warmPointPassed ∧
    (departHead s).commitQueue = s.commitQueue ∧
    (departHead s).engine.lastSequence = s.engine.lastSequence ∧
    (departHead s).engine.formatFrames = s.engine.formatFrames ∧
    (departHead s).engine.copyStore = s.engine.copyStore ∧
    (departHead s).engine.tallyPosition = s.engine.tallyPosition ∧
    (departHead s).engine.faultList = s.engine.faultList ∧
    (departHead s).engine.faultCount = s.engine.faultCount ∧
    (departHead s).host.hreq = s.host.hreq ∧
    (departHead s).regions = s.regions ∧
    (departHead s).port = s.port ∧
    (departHead s).turn = s.turn ∧
    (departHead s).monitor.level = s.monitor.level ∧
    (departHead s).mgmt = s.mgmt ∧
    (departHead s).settings = s.settings ∧
    (departHead s).array = s.array ∧
    (departHead s).freeCount = s.freeCount ∧
    (departHead s).pending = s.pending := by
  refine ⟨?_, ?_, ?_, ?_, ?_, ?_, ?_, ?_, ?_, ?_, ?_, ?_, ?_, ?_, ?_, ?_, ?_, ?_, ?_, ?_, ?_, ?_, ?_⟩ <;>
  unfold departHead <;> first | rfl | simp

@[simp] theorem judgeAnchor_frame (s : State) (ws : List Word) :
    (judgeAnchor s ws).powered = s.powered ∧
    (judgeAnchor s ws).bridge.strapPages = s.bridge.strapPages ∧
    (judgeAnchor s ws).bridge.rstN = s.bridge.rstN ∧
    (judgeAnchor s ws).bridge.warmPointPassed = s.bridge.warmPointPassed ∧
    (judgeAnchor s ws).contexts = s.contexts ∧
    (judgeAnchor s ws).commitQueue = s.commitQueue ∧
    (judgeAnchor s ws).engine.formatFrames = s.engine.formatFrames ∧
    (judgeAnchor s ws).engine.formatStep = s.engine.formatStep ∧
    (judgeAnchor s ws).engine.sums = s.engine.sums ∧
    (judgeAnchor s ws).engine.copyStore = s.engine.copyStore ∧
    (judgeAnchor s ws).host.hreq = s.host.hreq ∧
    (judgeAnchor s ws).regions = s.regions ∧
    (judgeAnchor s ws).buffer = s.buffer ∧
    (judgeAnchor s ws).port = s.port ∧
    (judgeAnchor s ws).turn = s.turn ∧
    (judgeAnchor s ws).monitor.level = s.monitor.level ∧
    (judgeAnchor s ws).mgmt = s.mgmt ∧
    (judgeAnchor s ws).settings = s.settings ∧
    (judgeAnchor s ws).array = s.array ∧
    (judgeAnchor s ws).freeCount = s.freeCount ∧
    (judgeAnchor s ws).pending = s.pending := by
  refine ⟨?_, ?_, ?_, ?_, ?_, ?_, ?_, ?_, ?_, ?_, ?_, ?_, ?_, ?_, ?_, ?_, ?_, ?_, ?_, ?_, ?_⟩ <;>
  unfold judgeAnchor <;> (try dsimp only) <;> (repeat' split) <;> first | rfl | simp

@[simp] theorem takeContext_frame (s : State) (c : ContextId) (rest : List ContextId) :
    (takeContext s c rest).powered = s.powered ∧
    (takeContext s c rest).bridge = s.bridge ∧
    (takeContext s c rest).pageMap = s.pageMap ∧
    (takeContext s c rest).freeFrames = s.freeFrames ∧
    (takeContext s c rest).engine.lastSequence = s.engine.lastSequence ∧
    (takeContext s c rest).engine.pause = s.engine.pause ∧
    (takeContext s c rest).engine.formatFrames = s.engine.formatFrames ∧
    (takeContext s c rest).engine.formatStep = s.engine.formatStep ∧
    (takeContext s c rest).engine.copyStore = s.engine.copyStore ∧
    (takeContext s c rest).engine.scanWords = s.engine.scanWords ∧
    (takeContext s c rest).engine.image0 = s.engine.image0 ∧
    (takeContext s c rest).engine.image1 = s.engine.image1 ∧
    (takeContext s c rest).engine.applyList = s.engine.applyList ∧
    (takeContext s c rest).engine.tallyPosition = s.engine.tallyPosition ∧
    (takeContext s c rest).engine.faultList = s.engine.faultList ∧
    (takeContext s c rest).engine.faultCount = s.engine.faultCount ∧
    (takeContext s c rest).host = s.host ∧
    (takeContext s c rest).regions = s.regions ∧
    (takeContext s c rest).buffer = s.buffer ∧
    (takeContext s c rest).port = s.port ∧
    (takeContext s c rest).turn = s.turn ∧
    (takeContext s c rest).monitor = s.monitor ∧
    (takeContext s c rest).mgmt = s.mgmt ∧
    (takeContext s c rest).settings = s.settings ∧
    (takeContext s c rest).events = s.events ∧
    (takeContext s c rest).overflow = s.overflow ∧
    (takeContext s c rest).array = s.array ∧
    (takeContext s c rest).freeCount = s.freeCount ∧
    (takeContext s c rest).pending = s.pending := by
  refine ⟨?_, ?_, ?_, ?_, ?_, ?_, ?_, ?_, ?_, ?_, ?_, ?_, ?_, ?_, ?_, ?_, ?_, ?_, ?_, ?_, ?_, ?_, ?_, ?_, ?_, ?_, ?_, ?_, ?_⟩ <;>
  unfold takeContext <;> (try dsimp only) <;> first | rfl | simp

@[simp] theorem commitContext_frame (s : State) (k : ContextId) :
    (commitContext s k).powered = s.powered ∧
    (commitContext s k).bridge = s.bridge ∧
    (commitContext s k).pageMap = s.pageMap ∧
    (commitContext s k).freeFrames = s.freeFrames ∧
    (commitContext s k).engine = s.engine ∧
    (commitContext s k).host = s.host ∧
    (commitContext s k).regions = s.regions ∧
    (commitContext s k).buffer = s.buffer ∧
    (commitContext s k).port = s.port ∧
    (commitContext s k).turn = s.turn ∧
    (commitContext s k).monitor = s.monitor ∧
    (commitContext s k).mgmt = s.mgmt ∧
    (commitContext s k).settings = s.settings ∧
    (commitContext s k).array = s.array ∧
    (commitContext s k).freeCount = s.freeCount ∧
    (commitContext s k).pending = s.pending := by
  refine ⟨?_, ?_, ?_, ?_, ?_, ?_, ?_, ?_, ?_, ?_, ?_, ?_, ?_, ?_, ?_, ?_⟩ <;>
  unfold commitContext <;> (try dsimp only) <;> (repeat' split) <;> first | rfl | simp

@[simp] theorem abortHost_frame (s : State) (c : ContextId) (removed : List MapEntry) (freed : Bool) :
    (abortHost s c removed freed).powered = s.powered ∧
    (abortHost s c removed freed).bridge = s.bridge ∧
    (abortHost s c removed freed).commitQueue = s.commitQueue ∧
    (abortHost s c removed freed).engine = s.engine ∧
    (abortHost s c removed freed).host.hreq = s.host.hreq ∧
    (abortHost s c removed freed).regions = s.regions ∧
    (abortHost s c removed freed).port = s.port ∧
    (abortHost s c removed freed).turn = s.turn ∧
    (abortHost s c removed freed).monitor = s.monitor ∧
    (abortHost s c removed freed).mgmt = s.mgmt ∧
    (abortHost s c removed freed).settings = s.settings ∧
    (abortHost s c removed freed).array = s.array ∧
    (abortHost s c removed freed).freeCount = s.freeCount ∧
    (abortHost s c removed freed).pending = s.pending := by
  refine ⟨?_, ?_, ?_, ?_, ?_, ?_, ?_, ?_, ?_, ?_, ?_, ?_, ?_, ?_⟩ <;>
  unfold abortHost <;> (repeat' split) <;> first | rfl | simp

@[simp] theorem abortContext_frame (s : State) (c : ContextId) :
    (abortContext s c).powered = s.powered ∧
    (abortContext s c).bridge = s.bridge ∧
    (abortContext s c).engine = s.engine ∧
    (abortContext s c).host.hreq = s.host.hreq ∧
    (abortContext s c).regions = s.regions ∧
    (abortContext s c).port = s.port ∧
    (abortContext s c).turn = s.turn ∧
    (abortContext s c).monitor = s.monitor ∧
    (abortContext s c).mgmt = s.mgmt ∧
    (abortContext s c).settings = s.settings ∧
    (abortContext s c).array = s.array ∧
    (abortContext s c).freeCount = s.freeCount ∧
    (abortContext s c).pending = s.pending := by
  refine ⟨?_, ?_, ?_, ?_, ?_, ?_, ?_, ?_, ?_, ?_, ?_, ?_, ?_⟩ <;>
  unfold abortContext <;> (try dsimp only) <;> first | rfl | simp

@[simp] theorem popEvents_frame (s : State) (n : Nat) :
    (popEvents s n).powered = s.powered ∧
    (popEvents s n).bridge = s.bridge ∧
    (popEvents s n).pageMap = s.pageMap ∧
    (popEvents s n).freeFrames = s.freeFrames ∧
    (popEvents s n).contexts = s.contexts ∧
    (popEvents s n).commitQueue = s.commitQueue ∧
    (popEvents s n).engine = s.engine ∧
    (popEvents s n).host = s.host ∧
    (popEvents s n).regions = s.regions ∧
    (popEvents s n).buffer = s.buffer ∧
    (popEvents s n).port = s.port ∧
    (popEvents s n).turn = s.turn ∧
    (popEvents s n).monitor = s.monitor ∧
    (popEvents s n).mgmt = s.mgmt ∧
    (popEvents s n).settings = s.settings ∧
    (popEvents s n).array = s.array ∧
    (popEvents s n).freeCount = s.freeCount ∧
    (popEvents s n).pending = s.pending :=
  ⟨rfl, rfl, rfl, rfl, rfl, rfl, rfl, rfl, rfl, rfl, rfl, rfl, rfl, rfl, rfl, rfl, rfl, rfl⟩

@[simp] theorem itemEffect_frame (s : State) (item : Nat) :
    (itemEffect s item).powered = s.powered ∧
    (itemEffect s item).bridge.strapPages = s.bridge.strapPages ∧
    (itemEffect s item).bridge.geometry = s.bridge.geometry ∧
    (itemEffect s item).bridge.anchorRead = s.bridge.anchorRead ∧
    (itemEffect s item).bridge.rstN = s.bridge.rstN ∧
    (itemEffect s item).bridge.warmPointPassed = s.bridge.warmPointPassed ∧
    (itemEffect s item).pageMap = s.pageMap ∧
    (itemEffect s item).freeFrames = s.freeFrames ∧
    (itemEffect s item).contexts = s.contexts ∧
    (itemEffect s item).commitQueue = s.commitQueue ∧
    (itemEffect s item).engine.lastSequence = s.engine.lastSequence ∧
    (itemEffect s item).engine.formatFrames = s.engine.formatFrames ∧
    (itemEffect s item).engine.copyStore = s.engine.copyStore ∧
    (itemEffect s item).engine.tallyPosition = s.engine.tallyPosition ∧
    (itemEffect s item).engine.faultList = s.engine.faultList ∧
    (itemEffect s item).engine.faultCount = s.engine.faultCount ∧
    (itemEffect s item).host.hreq = s.host.hreq ∧
    (itemEffect s item).regions = s.regions ∧
    (itemEffect s item).buffer = s.buffer ∧
    (itemEffect s item).port = s.port ∧
    (itemEffect s item).turn = s.turn ∧
    (itemEffect s item).monitor.level = s.monitor.level ∧
    (itemEffect s item).mgmt = s.mgmt ∧
    (itemEffect s item).settings = s.settings ∧
    (itemEffect s item).array = s.array ∧
    (itemEffect s item).freeCount = s.freeCount ∧
    (itemEffect s item).pending = s.pending := by
  refine ⟨?_, ?_, ?_, ?_, ?_, ?_, ?_, ?_, ?_, ?_, ?_, ?_, ?_, ?_, ?_, ?_, ?_, ?_, ?_, ?_, ?_, ?_, ?_, ?_, ?_, ?_, ?_⟩ <;>
  unfold itemEffect <;> (repeat' split) <;> first | rfl | simp

@[simp] theorem enterFormatting_frame (s : State) (frames : Nat) :
    (enterFormatting s frames).powered = s.powered ∧
    (enterFormatting s frames).bridge.returnState = s.bridge.returnState ∧
    (enterFormatting s frames).bridge.strapPages = s.bridge.strapPages ∧
    (enterFormatting s frames).bridge.geometry = s.bridge.geometry ∧
    (enterFormatting s frames).bridge.anchorRead = s.bridge.anchorRead ∧
    (enterFormatting s frames).bridge.rstN = s.bridge.rstN ∧
    (enterFormatting s frames).bridge.warmPointPassed = s.bridge.warmPointPassed ∧
    (enterFormatting s frames).pageMap = s.pageMap ∧
    (enterFormatting s frames).freeFrames = s.freeFrames ∧
    (enterFormatting s frames).contexts = s.contexts ∧
    (enterFormatting s frames).commitQueue = s.commitQueue ∧
    (enterFormatting s frames).engine.lastSequence = s.engine.lastSequence ∧
    (enterFormatting s frames).engine.record = s.engine.record ∧
    (enterFormatting s frames).engine.pause = s.engine.pause ∧
    (enterFormatting s frames).engine.sums = s.engine.sums ∧
    (enterFormatting s frames).engine.copyStore = s.engine.copyStore ∧
    (enterFormatting s frames).engine.scanWords = s.engine.scanWords ∧
    (enterFormatting s frames).engine.image0 = s.engine.image0 ∧
    (enterFormatting s frames).engine.image1 = s.engine.image1 ∧
    (enterFormatting s frames).engine.applyList = s.engine.applyList ∧
    (enterFormatting s frames).engine.tallyPosition = s.engine.tallyPosition ∧
    (enterFormatting s frames).engine.faultList = s.engine.faultList ∧
    (enterFormatting s frames).engine.faultCount = s.engine.faultCount ∧
    (enterFormatting s frames).host.hreq = s.host.hreq ∧
    (enterFormatting s frames).regions = s.regions ∧
    (enterFormatting s frames).buffer = s.buffer ∧
    (enterFormatting s frames).port = s.port ∧
    (enterFormatting s frames).turn = s.turn ∧
    (enterFormatting s frames).monitor = s.monitor ∧
    (enterFormatting s frames).mgmt = s.mgmt ∧
    (enterFormatting s frames).settings = s.settings ∧
    (enterFormatting s frames).array = s.array ∧
    (enterFormatting s frames).freeCount = s.freeCount ∧
    (enterFormatting s frames).pending = s.pending := by
  refine ⟨?_, ?_, ?_, ?_, ?_, ?_, ?_, ?_, ?_, ?_, ?_, ?_, ?_, ?_, ?_, ?_, ?_, ?_, ?_, ?_, ?_, ?_, ?_, ?_, ?_, ?_, ?_, ?_, ?_, ?_, ?_, ?_, ?_, ?_⟩ <;>
  unfold enterFormatting <;> (try dsimp only) <;> first | rfl | simp

@[simp] theorem unpoweredState_frame (s : State) (m : Memory) (n : Nat) :
    (unpoweredState s m n).pending = s.pending :=
  rfl

end Sys2Proof.Machine
end

