-- ==== Sys2Proof/Laws/Access.lean ====
section
/-! SUPPORT. What a classification can answer, and under which conditions (R104 to R120). -/

namespace Sys2Proof.Machine

theorem stateStep_none {s : State} : stateStep s = none ↔ s.bridge.state = .serving ∨ s.bridge.state = .unformatted := by
  unfold stateStep; cases s.bridge.state <;> simp

/-- Steps 1 to 5 pass exactly when each of them passes. -/
theorem faultSteps_none {s : State} {r : Request} : faultSteps s r = none ↔
    stateStep s = none ∧ tagStep r = none ∧ addressStep s r = none ∧ regionStep s r = none ∧ contextStep s r = none := by
  simp [faultSteps]

/-- In SERVING step 3 admits exactly the home area (R106). -/
theorem addressStep_serving {s : State} {r : Request} (h : s.bridge.state = .serving) :
    addressStep s r = none ↔ pageOf r.addr < s.homePages := by
  simp only [addressStep, h, pageOf]
  split
  all_goals simp_all
  omega

/-- A tagged write passes step 5 exactly when its context is OPEN (R117). -/
theorem contextStep_write {s : State} {r : Request} {c : ContextId} (hw : r.isWrite = true)
    (hc : contextOf r.tag = some c) : contextStep s r = none ↔ (s.contexts.get c).state = .opened := by
  simp only [contextStep, hc]
  cases h : (s.contexts.get c).state <;> simp [hw]

/-- Everything an accepted write's classification says: it is a write with a lane that passes steps 1 to 5, the buffer
has a free entry, and the plan is the one its page-map entry calls for (R118 to R120). -/
theorem classify_post {s : State} {r : Request} {p : WritePlan} (h : classify s r = .post p) :
    ∃ d l, r.op = .write d l ∧ l ≠ 0 ∧ faultSteps s r = none ∧ s.buffer.entries.length < bufferCapacity ∧
      ((p = .home ∧ (s.bridge.state = .unformatted ∨
          contextOf r.tag = none ∧ lookupPage s.pageMap (pageOf r.addr) = none)) ∨
       (s.bridge.state ≠ .unformatted ∧ ∃ c, contextOf r.tag = some c ∧
          ((∃ e, lookupPage s.pageMap (pageOf r.addr) = some e ∧ e.state = .context c ∧
              p = if hasBlock e.written (blockOf r.addr) then .toFrame c e.frame else .grow c e.frame) ∨
           (lookupPage s.pageMap (pageOf r.addr) = none ∧ (s.contexts.get c).entryCount < contextCapacity ∧
              ∃ k rest, s.freeFrames = k :: rest ∧ p = .allocate c k)))) := by
  unfold classify at h
  split at h
  · cases h
  · rename_i hf
    split at h
    · simp only [classifyRead] at h; split at h <;> cases h
    · rename_i d l hop
      split at h
      · cases h
      · rename_i hl
        refine ⟨d, l, hop, hl, hf, ?_⟩
        simp only [classifyWrite, ifBufferFree, requestFrame] at h
        grind

/-- A refused allocation: a write of an OPEN context to a page without entry, in SERVING, and the first of the two tests
that fails (R27 to R29). -/
theorem classify_allocationFault {s : State} {r : Request} {c : ContextId} {f : FailReason}
    (h : classify s r = .allocationFault c f) :
    r.isWrite = true ∧ faultSteps s r = none ∧ s.bridge.state ≠ .unformatted ∧ contextOf r.tag = some c ∧
      lookupPage s.pageMap (pageOf r.addr) = none ∧
      ((contextCapacity ≤ (s.contexts.get c).entryCount ∧ f = .contextFull) ∨
       ((s.contexts.get c).entryCount < contextCapacity ∧ s.freeFrames = [] ∧ f = .poolExhausted)) := by
  unfold classify at h
  split at h
  · cases h
  · rename_i hf
    split at h
    · simp only [classifyRead] at h; split at h <;> cases h
    · rename_i d l hop
      split at h
      · cases h
      · refine ⟨by simp [Request.isWrite, hop], hf, ?_⟩
        simp only [classifyWrite, ifBufferFree, requestFrame] at h
        repeat' split at h
        all_goals first
          | contradiction
          | (cases h; simp_all)

/-- A granted read is resolved, and no posted write conflicts with it (R115). -/
theorem classify_grantRead {s : State} {r : Request} {a : WordAddr} (h : classify s r = .grantRead a) :
    r.op = .read ∧ faultSteps s r = none ∧ a = resolveRead s r ∧ conflicts s.buffer a = false := by
  unfold classify at h
  split at h
  · cases h
  · rename_i hf
    split at h
    · rename_i hop
      simp only [classifyRead] at h
      split at h
      · cases h
      · cases h; simp_all
    · split at h
      · cases h
      · simp only [classifyWrite, ifBufferFree, requestFrame] at h
        grind

/-- Each hold and its reason: a read with a conflict, a write to a full buffer, or a write to a page of the current
record (R115, R118 to R120). -/
theorem classify_hold {s : State} {r : Request} {w : HoldReason} {a : Option WordAddr} (h : classify s r = .hold w a) :
    faultSteps s r = none ∧
      ((w = .readWait ∧ r.op = .read ∧ a = some (resolveRead s r) ∧ conflicts s.buffer (resolveRead s r) = true) ∨
       (w = .bufferFull ∧ r.isWrite = true ∧ a = none ∧ bufferCapacity ≤ s.buffer.entries.length) ∨
       (w = .record ∧ r.isWrite = true ∧ a = none ∧
          ∃ e, lookupPage s.pageMap (pageOf r.addr) = some e ∧ inRecord e = true)) := by
  unfold classify at h
  split at h
  · cases h
  · rename_i hf
    refine ⟨hf, ?_⟩
    split at h
    · rename_i hop
      simp only [classifyRead] at h
      split at h
      · cases h; simp_all
      · cases h
    · rename_i d l hop
      have hw : r.isWrite = true := by simp [Request.isWrite, hop]
      split at h
      · cases h
      · simp only [classifyWrite, ifBufferFree, requestFrame] at h
        simp only [inRecord, MapEntry.position?, hw]
        grind

end Sys2Proof.Machine
end

