-- ==== Sys2Proof/Laws/Array.lean ====
section
/-! SUPPORT. The laws of the array: a read after a write, the bytes a write leaves alone, and that every memory operation
keeps the canonical form. -/

namespace Sys2Proof.Machine

theorem byteAddr_lt (w : WordAddr) {l : Nat} (h : l < 4) : byteAddr w l < byteSpace := by
  have := w.isLt
  simp only [byteAddr, byteSpace]; omega

theorem byteAddr_inj {v w : WordAddr} {k l : Nat} (hk : k < 4) (hl : l < 4) (h : byteAddr v k = byteAddr w l) :
    v = w ∧ k = l := by
  simp only [byteAddr] at h
  exact ⟨BitVec.eq_of_toNat_eq (by omega), by omega⟩

/-- A byte read where the list begins at a higher address is an unwritten byte. -/
theorem readByte_of_lt_all {m : Memory} {a : Nat} (h : ∀ c ∈ m, a < c.1) : readByte m a = blankByte := by
  induction m with
  | nil => rfl
  | cons c m ih =>
    have hc := h c (by simp)
    rw [readByte, if_neg (by omega), ih fun d hd => h d (by simp [hd])]

theorem readByte_writeByte_ne (m : Memory) {a x : Nat} (b : Byte) (h : x ≠ a) :
    readByte (writeByte m a b) x = readByte m x := by
  induction m with
  | nil => simp only [writeByte]; split <;> simp [readByte, Ne.symm h]
  | cons c m ih =>
    simp only [writeByte]
    split_ifs with h1 h2 h3 h4
    · rfl
    · rw [readByte, if_neg (Ne.symm h)]
    · rw [readByte, if_neg (by omega)]
    · rw [readByte, readByte, if_neg (Ne.symm h), if_neg (by omega)]
    · rw [readByte, readByte, ih]

theorem readByte_writeByte_self {m : Memory} (hm : m.Pairwise (fun a b => a.1 < b.1)) (a : Nat) (b : Byte) :
    readByte (writeByte m a b) a = b := by
  induction m with
  | nil => simp only [writeByte]; split <;> simp_all [readByte]
  | cons c m ih =>
    rw [List.pairwise_cons] at hm
    simp only [writeByte]
    split_ifs with h1 h2 h3 h4
    · rw [readByte_of_lt_all, h2]
      intro d hd
      rcases List.mem_cons.mp hd with rfl | hd
      · exact h1
      · exact h1.trans (hm.1 d hd)
    · simp [readByte]
    · rw [readByte_of_lt_all, h4]
      intro d hd
      exact h3 ▸ hm.1 d hd
    · simp [readByte]
    · rw [readByte, if_neg (Ne.symm h3), ih hm.2]

/-- Every entry after a byte write is an entry from before or the byte written. -/
theorem mem_writeByte {m : Memory} {a : Nat} {b : Byte} {c : Host.Cell} (h : c ∈ writeByte m a b) :
    c ∈ m ∨ (c = (a, b) ∧ b ≠ blankByte) := by
  induction m with
  | nil => simp only [writeByte] at h; split at h <;> simp_all
  | cons d m ih =>
    simp only [writeByte] at h
    split_ifs at h with h1 h2 h3 h4 <;> simp_all <;> tauto

theorem writeByte_wf {m : Memory} (hm : Memory.wf m) {a : Nat} (ha : a < byteSpace) (b : Byte) :
    Memory.wf (writeByte m a b) := by
  refine ⟨?_, fun c hc => ?_⟩
  · have h := hm.1
    clear hm
    induction m with
    | nil => simp only [writeByte]; split <;> simp
    | cons c m ih =>
      have h' := List.pairwise_cons.mp h
      simp only [writeByte]
      split_ifs with h1 h2 h3 h4
      · exact h
      · refine List.pairwise_cons.mpr ⟨fun d hd => ?_, h⟩
        rcases List.mem_cons.mp hd with rfl | hd
        · exact h1
        · exact h1.trans (h'.1 d hd)
      · exact h'.2
      · exact List.pairwise_cons.mpr ⟨fun d hd => h3 ▸ h'.1 d hd, h'.2⟩
      · refine List.pairwise_cons.mpr ⟨fun d hd => ?_, ih h'.2⟩
        rcases mem_writeByte hd with hd | ⟨rfl, -⟩
        · exact h'.1 d hd
        · show c.1 < a; omega
  · rcases mem_writeByte hc with hc | ⟨rfl, hb⟩
    · exact hm.2 c hc
    · exact ⟨hb, ha⟩

theorem writeLane_wf {m : Memory} (hm : Memory.wf m) (a : WordAddr) (w : Word) (lanes : Lanes) {l : Nat} (hl : l < 4) :
    Memory.wf (writeLane m a w lanes l) := by
  unfold writeLane; split
  · exact writeByte_wf hm (byteAddr_lt a hl) _
  · exact hm

/-- A word write keeps the canonical form. -/
theorem writeWord_wf {m : Memory} (hm : Memory.wf m) (a : WordAddr) (w : Word) (lanes : Lanes) :
    Memory.wf (writeWord m a w lanes) :=
  writeLane_wf (writeLane_wf (writeLane_wf (writeLane_wf hm a w lanes (by decide)) a w lanes (by decide)) a w lanes
    (by decide)) a w lanes (by decide)

/-- A word write cut by a power loss keeps the canonical form. -/
theorem cutWrite_wf {m : Memory} (hm : Memory.wf m) (t : Transfer) (n : Nat) (o : LossOutcome) :
    Memory.wf (cutWrite m t n o) := by
  cases o
  · exact writeWord_wf hm _ _ _
  · exact writeWord_wf hm _ _ _
  · exact hm

theorem readByte_writeLane {m : Memory} (hm : Memory.wf m) (a : WordAddr) (w : Word) (lanes : Lanes) (l x : Nat) :
    readByte (writeLane m a w lanes l) x =
      if lanes.getLsbD l = true ∧ x = byteAddr a l then laneOf w l else readByte m x := by
  unfold writeLane
  by_cases h : lanes.getLsbD l = true <;> by_cases hx : x = byteAddr a l
  · subst hx; simp [h, readByte_writeByte_self hm.1]
  · simp [h, hx, readByte_writeByte_ne _ _ hx]
  · simp [h]
  · simp [h]

/-- A byte read after a word write: the byte written in an enabled lane, the byte from before anywhere else (R135). -/
theorem readByte_writeWord {m : Memory} (hm : Memory.wf m) (a v : WordAddr) (w : Word) (lanes : Lanes) {l : Nat}
    (hl : l < 4) :
    readByte (writeWord m a w lanes) (byteAddr v l) =
      if v = a ∧ lanes.getLsbD l = true then laneOf w l else readByte m (byteAddr v l) := by
  have h0 := writeLane_wf hm a w lanes (l := 0) (by decide)
  have h1 := writeLane_wf h0 a w lanes (l := 1) (by decide)
  have h2 := writeLane_wf h1 a w lanes (l := 2) (by decide)
  rw [writeWord, readByte_writeLane h2, readByte_writeLane h1, readByte_writeLane h0, readByte_writeLane hm]
  by_cases hv : v = a
  · subst hv
    have e : ∀ k, (byteAddr v l = byteAddr v k) = (l = k) := by intro k; simp [byteAddr]
    simp only [e]
    interval_cases l <;> simp
  · have e : ∀ k < 4, (byteAddr v l = byteAddr a k) = False := fun k hk =>
      eq_false fun h => hv (byteAddr_inj hl hk h).1
    simp [hv, e]

/-- A word write changes no byte outside the word it addresses. -/
theorem readByte_writeWord_outside (m : Memory) (a : WordAddr) (w : Word) (lanes : Lanes) {x : Nat}
    (hx : x < byteAddr a 0 ∨ byteAddr a 3 < x) : readByte (writeWord m a w lanes) x = readByte m x := by
  have e : ∀ (m : Memory) (l : Nat), l < 4 → readByte (writeLane m a w lanes l) x = readByte m x := by
    intro m l hl
    unfold writeLane; split
    · exact readByte_writeByte_ne _ _ (by simp only [byteAddr] at *; omega)
    · rfl
  rw [writeWord, e _ 3 (by decide), e _ 2 (by decide), e _ 1 (by decide), e _ 0 (by decide)]

theorem toNat_append_add {m n : Nat} (x : BitVec m) (y : BitVec n) :
    (x ++ y).toNat = x.toNat * 2 ^ n + y.toNat := by
  rw [BitVec.toNat_append, ← Nat.shiftLeft_add_eq_or_of_lt y.isLt, Nat.shiftLeft_eq]

/-- The number of a word put together from four lanes. -/
theorem ofLanes_toNat (b0 b1 b2 b3 : Byte) :
    (ofLanes b0 b1 b2 b3).toNat = b3.toNat * 16777216 + b2.toNat * 65536 + b1.toNat * 256 + b0.toNat := by
  have h : (ofLanes b0 b1 b2 b3).toNat = (b3 ++ b2 ++ b1 ++ b0).toNat := rfl
  rw [h, toNat_append_add, toNat_append_add, toNat_append_add]
  omega

theorem laneOf_toNat (w : Word) (l : Nat) : (laneOf w l).toNat = w.toNat / 2 ^ (8 * l) % 256 := by
  simp [laneOf, BitVec.extractLsb'_toNat, Nat.shiftRight_eq_div_pow]

theorem ofLanes_laneOf (w : Word) : ofLanes (laneOf w 0) (laneOf w 1) (laneOf w 2) (laneOf w 3) = w := by
  apply BitVec.eq_of_toNat_eq
  have := w.isLt
  simp only [ofLanes_toNat, laneOf_toNat]
  omega

/-- A word read after a write of all four lanes to the same word. -/
theorem readWord_writeWord_self {m : Memory} (hm : Memory.wf m) (a : WordAddr) (w : Word) :
    readWord (writeWord m a w 0xF) a = w := by
  simp only [readWord]
  rw [readByte_writeWord hm a a w 0xF (l := 0) (by decide), readByte_writeWord hm a a w 0xF (l := 1) (by decide),
    readByte_writeWord hm a a w 0xF (l := 2) (by decide), readByte_writeWord hm a a w 0xF (l := 3) (by decide)]
  simp [ofLanes_laneOf]

/-- A word read after a write to another word. -/
theorem readWord_writeWord_ne {m : Memory} (hm : Memory.wf m) {a v : WordAddr} (w : Word) (lanes : Lanes) (h : v ≠ a) :
    readWord (writeWord m a w lanes) v = readWord m v := by
  simp only [readWord]
  rw [readByte_writeWord hm a v w lanes (l := 0) (by decide), readByte_writeWord hm a v w lanes (l := 1) (by decide),
    readByte_writeWord hm a v w lanes (l := 2) (by decide), readByte_writeWord hm a v w lanes (l := 3) (by decide)]
  simp [h]

/-- The transfer that completes keeps the canonical form of the array. -/
theorem completeTransfer_wf {s : State} (hm : Memory.wf s.array) (t : Transfer) :
    Memory.wf (completeTransfer s t).array := by
  unfold completeTransfer; dsimp only; split
  · exact writeWord_wf hm _ _ _
  · exact hm

/-- The machine after reset has the canonical form. -/
theorem reset_array_wf : Memory.wf State.reset.array := by decide

end Sys2Proof.Machine
end

