-- ==== Sys2Proof/Laws/Claims.lean ====
section
/-! SUPPORT. Everything a classification, and so every release of a held request, can do to the page map, the free-frame
list and the context table (R27 to R31, R38, R53). -/

namespace Sys2Proof.Machine

/-- What the access path can do to the map, the list and the context table between two states: nothing, an Add block
claim, a granted allocation, or the failure of a context; each of the last three in SERVING, for an OPEN context. -/
inductive HostClaim (s t : State) : Prop where
  | none (hm : t.pageMap = s.pageMap) (hf : t.freeFrames = s.freeFrames) (hc : t.contexts = s.contexts)
  | addBlock (c : ContextId) (p b : Nat) (e : MapEntry) (hs : s.bridge.state = .serving)
      (ho : (s.contexts.get c).state = .opened) (hl : lookupPage s.pageMap p = some e) (he : e.state = .context c)
      (hm : t.pageMap = addBlockClaim s.pageMap p b) (hf : t.freeFrames = s.freeFrames) (hc : t.contexts = s.contexts)
  | allocate (c : ContextId) (k p b : Nat) (rest : List Nat) (hs : s.bridge.state = .serving)
      (ho : (s.contexts.get c).state = .opened) (hl : lookupPage s.pageMap p = Option.none) (hp : p < s.homePages)
      (hb : b < 16) (hk : s.freeFrames = k :: rest) (hn : (s.contexts.get c).entryCount < contextCapacity)
      (hm : t.pageMap = (s.allocate c k p b).pageMap) (hf : t.freeFrames = (s.allocate c k p b).freeFrames)
      (hc : t.contexts = (s.allocate c k p b).contexts)
  | fail (c : ContextId) (f : FailReason) (a : WordAddr) (hs : s.bridge.state = .serving)
      (ho : (s.contexts.get c).state = .opened) (hm : t.pageMap = s.pageMap) (hf : t.freeFrames = s.freeFrames)
      (hc : t.contexts = s.contexts.set c { s.contexts.get c with state := .failed f a })

theorem HostClaim.refl (s : State) : HostClaim s s := .none rfl rfl rfl

/-- A request that passes steps 1 to 5 and does not pass through is made in SERVING. -/
theorem serving_of_faultSteps {s : State} {r : Request} (h : faultSteps s r = none) (hu : s.bridge.state ≠ .unformatted) :
    s.bridge.state = .serving :=
  (stateStep_none.mp (faultSteps_none.mp h).1).resolve_right hu

theorem hostClaim_classifyRequest (s : State) (r : Request) : HostClaim s (classifyRequest s r) := by
  unfold classifyRequest
  generalize hv : classify s r = v
  cases v with
  | fault f => exact .none (by simp [settle]) (by simp [settle]) (by simp [settle])
  | withoutEffect => exact .none (by simp [settle]) (by simp [settle]) (by simp [settle])
  | hold h a => exact .none (by simp [settle]) (by simp [settle]) (by simp [settle])
  | grantRead a => exact .none (by simp [settle]) (by simp [settle]) (by simp [settle])
  | allocationFault c f =>
    obtain ⟨hw, hf, hu, hc, hl, -⟩ := classify_allocationFault hv
    have hs := serving_of_faultSteps hf hu
    refine .fail c f r.addr hs ((contextStep_write hw hc).mp (faultSteps_none.mp hf).2.2.2.2) ?_ ?_ ?_ <;>
      simp [settle, failContext, State.setContext]
  | post p =>
    obtain ⟨d, l, hop, -, hf, -, hcase⟩ := classify_post hv
    have hw : r.isWrite = true := by simp [Request.isWrite, hop]
    rcases hcase with ⟨rfl, -⟩ | ⟨hu, c, hc, hcase⟩
    · exact .none (by simp [settle, hop, acceptWrite, planClaim]) (by simp [settle, hop, acceptWrite, planClaim])
        (by simp [settle, hop, acceptWrite, planClaim])
    · have hs := serving_of_faultSteps hf hu
      have ho := (contextStep_write hw hc).mp (faultSteps_none.mp hf).2.2.2.2
      rcases hcase with ⟨e, hl, he, rfl⟩ | ⟨hl, hn, k, rest, hk, rfl⟩
      · by_cases hb : hasBlock e.written (blockOf r.addr) = true
        · rw [if_pos hb]
          exact .none (by simp [settle, hop, acceptWrite, planClaim]) (by simp [settle, hop, acceptWrite, planClaim])
            (by simp [settle, hop, acceptWrite, planClaim])
        · rw [if_neg hb]
          exact .addBlock c (pageOf r.addr) (blockOf r.addr) e hs ho hl he (by simp [settle, hop, acceptWrite, planClaim])
            (by simp [settle, hop, acceptWrite, planClaim]) (by simp [settle, hop, acceptWrite, planClaim])
      · exact .allocate c k (pageOf r.addr) (blockOf r.addr) rest hs ho hl ((addressStep_serving hs).mp (faultSteps_none.mp hf).2.2.1)
          (by simp only [blockOf]; omega) hk hn (by simp [settle, hop, acceptWrite, planClaim])
          (by simp [settle, hop, acceptWrite, planClaim]) (by simp [settle, hop, acceptWrite, planClaim])

theorem hostClaim_releaseHeld (s : State) (h : HoldReason) : HostClaim s (releaseHeld s h) := by
  unfold releaseHeld
  repeat' split
  · exact hostClaim_classifyRequest _ _
  · exact .refl _
  · exact .refl _

theorem hostClaim_releaseReadWait (s : State) : HostClaim s (releaseReadWait s) := by
  unfold releaseReadWait
  repeat' split
  · exact hostClaim_classifyRequest _ _
  · exact .refl _
  · exact .refl _

end Sys2Proof.Machine
end

