-- ==== Sys2Proof/Laws/PageMap.lean ====
section
/-! SUPPORT. What each claim does to the page map and the free-frame list: which frames the two hold, the order and the
membership of the map, and the entries of a context and of the record (chapter 2). -/

namespace Sys2Proof.Machine

/-! ### Block sets -/

theorem addToBlocks_ne_zero (bs : BlockSet) {b : Nat} (hb : b < 16) : addToBlocks bs b ≠ 0 := by
  intro h
  have := congrArg (fun x => x.getLsbD b) h
  interval_cases b <;> simp [addToBlocks] at this

theorem blockOf_lt (a : WordAddr) : blockOf a < 16 := by simp only [blockOf]; omega

/-! ### Lists -/

theorem insertEntry_perm (e : MapEntry) (m : List MapEntry) : (insertEntry e m).Perm (e :: m) := by
  induction m with
  | nil => exact .refl _
  | cons x xs ih =>
    simp only [insertEntry]; split
    · exact .refl _
    · exact (ih.cons x).trans (.swap e x xs)

theorem insertByPosition_perm (e : MapEntry) (m : List MapEntry) : (insertByPosition e m).Perm (e :: m) := by
  induction m with
  | nil => exact .refl _
  | cons x xs ih =>
    simp only [insertByPosition]; split
    · exact .refl _
    · exact (ih.cons x).trans (.swap e x xs)

theorem entriesOfRecord_perm (m : List MapEntry) : (entriesOfRecord m).Perm (m.filter inRecord) := by
  unfold entriesOfRecord
  induction m.filter inRecord with
  | nil => exact .refl _
  | cons x xs ih => exact (insertByPosition_perm x _).trans (ih.cons x)

theorem mem_insertEntry {e x : MapEntry} {m : List MapEntry} : x ∈ insertEntry e m ↔ x = e ∨ x ∈ m := by
  rw [(insertEntry_perm e m).mem_iff, List.mem_cons]

theorem insertEntry_ascending {e : MapEntry} {m : List MapEntry}
    (hm : m.Pairwise (fun a b => a.homePage < b.homePage)) (he : ∀ x ∈ m, x.homePage ≠ e.homePage) :
    (insertEntry e m).Pairwise (fun a b => a.homePage < b.homePage) := by
  induction m with
  | nil => simp [insertEntry]
  | cons x xs ih =>
    have h := List.pairwise_cons.mp hm
    have hx := he x (by simp)
    simp only [insertEntry]; split
    · refine List.pairwise_cons.mpr ⟨fun y hy => ?_, hm⟩
      rcases List.mem_cons.mp hy with rfl | hy
      · assumption
      · exact Nat.lt_trans ‹_› (h.1 y hy)
    · refine List.pairwise_cons.mpr ⟨fun y hy => ?_, ih h.2 fun z hz => he z (by simp [hz])⟩
      rcases mem_insertEntry.mp hy with rfl | hy
      · omega
      · exact h.1 y hy

theorem lookupPage_none {m : List MapEntry} {p : Nat} : lookupPage m p = none ↔ ∀ e ∈ m, e.homePage ≠ p := by
  simp [lookupPage]

theorem lookupPage_some {m : List MapEntry} {p : Nat} {e : MapEntry} (h : lookupPage m p = some e) :
    e ∈ m ∧ e.homePage = p := by
  refine ⟨List.mem_of_find?_eq_some h, ?_⟩
  simpa using List.find?_some h

/-! ### The claims -/

theorem updatePage_map {α : Type} (m : List MapEntry) (p : Nat) (f : MapEntry → MapEntry) (g : MapEntry → α)
    (h : ∀ e, g (f e) = g e) : (updatePage m p f).map g = m.map g := by
  simp only [updatePage, List.map_map]
  apply List.map_congr_left
  intro e _
  simp only [Function.comp]; split <;> simp [h]

theorem markClaim_map {α : Type} (c : ContextId) (n : Nat) (m : List MapEntry) (g : MapEntry → α)
    (h : ∀ (e : MapEntry) k, g { e with state := .pending k } = g e) : (markClaim c n m).map g = m.map g := by
  induction m generalizing n with
  | nil => rfl
  | cons e es ih => simp only [markClaim]; split <;> simp [ih, h]

@[simp] theorem toCopied_homePage (e : MapEntry) : e.toCopied.homePage = e.homePage := by
  unfold MapEntry.toCopied; split <;> rfl

@[simp] theorem toCopied_frame (e : MapEntry) : e.toCopied.frame = e.frame := by
  unfold MapEntry.toCopied; split <;> rfl

@[simp] theorem toCopied_written (e : MapEntry) : e.toCopied.written = e.written := by
  unfold MapEntry.toCopied; split <;> rfl

@[simp] theorem toCopied_inRecord (e : MapEntry) : inRecord e.toCopied = inRecord e := by
  simp only [MapEntry.toCopied, inRecord, MapEntry.position?]
  cases h : e.state <;> simp [h]

@[simp] theorem toCopied_ownedBy (c : ContextId) (e : MapEntry) : ownedBy c e.toCopied = ownedBy c e := by
  unfold MapEntry.toCopied ownedBy
  split <;> simp_all

@[simp] theorem addBlockClaim_frames (m : List MapEntry) (p b : Nat) :
    (addBlockClaim m p b).map MapEntry.frame = m.map MapEntry.frame :=
  updatePage_map _ _ _ _ fun _ => rfl

@[simp] theorem copiedClaim_frames (m : List MapEntry) (p : Nat) :
    (copiedClaim m p).map MapEntry.frame = m.map MapEntry.frame :=
  updatePage_map _ _ _ _ toCopied_frame

@[simp] theorem markClaim_frames (c : ContextId) (n : Nat) (m : List MapEntry) :
    (markClaim c n m).map MapEntry.frame = m.map MapEntry.frame :=
  markClaim_map _ _ _ _ fun _ _ => rfl

/-- The frames on the list and in the map, together (R36). -/
abbrev State.allFramesHeld (s : State) : List Nat := s.freeFrames ++ s.pageMap.map MapEntry.frame

theorem allocate_frames {s : State} {c : ContextId} {k p b : Nat} {rest : List Nat} (h : s.freeFrames = k :: rest) :
    (s.allocate c k p b).allFramesHeld.Perm s.allFramesHeld := by
  simp only [State.allFramesHeld, State.allocate, h, List.tail_cons]
  refine (((insertEntry_perm _ _).map MapEntry.frame).append_left rest).trans ?_
  simp only [List.map_cons, List.cons_append]
  exact List.perm_middle

theorem filter_split_perm {α : Type} (m : List α) (p : α → Bool) :
    (m.filter p ++ m.filter (fun x => !p x)).Perm m := List.filter_append_perm p m

theorem abortClaim_frames (s : State) (c : ContextId) : (s.abortClaim c).allFramesHeld.Perm s.allFramesHeld := by
  simp only [State.allFramesHeld, State.abortClaim, List.append_assoc]
  refine List.Perm.append_left _ ?_
  rw [← List.map_append]
  exact (filter_split_perm _ _).map _

theorem retireClaim_frames (s : State) : s.retireClaim.allFramesHeld.Perm s.allFramesHeld := by
  simp only [State.allFramesHeld, State.retireClaim, List.append_assoc]
  refine List.Perm.append_left _ ?_
  rw [← List.map_append]
  exact (((entriesOfRecord_perm _).append_right _).trans (filter_split_perm _ _)).map _

/-- After the Mark claim `c` owns no entry, and the entries of any other context are as before (R23). -/
theorem entriesOf_markClaim (c d : ContextId) (n : Nat) (m : List MapEntry) :
    entriesOf (markClaim c n m) d = if d = c then [] else entriesOf m d := by
  induction m generalizing n with
  | nil => simp [markClaim, entriesOf]
  | cons e es ih =>
    simp only [entriesOf] at ih
    simp only [markClaim, entriesOf]
    by_cases hd : d = c
    · subst hd
      split
      · simpa [ownedBy] using ih (n + 1)
      · rename_i he
        have he' : ¬ e.state = .context d := by simpa [ownedBy] using he
        simpa [he', ownedBy] using ih n
    · have hne : e.state = .context c → ¬ e.state = .context d := by
        intro h1 h2; rw [h1] at h2; exact hd (by cases h2; rfl)
      split <;> simp_all [List.filter_cons, ownedBy]

theorem entriesOf_insertEntry_length (e : MapEntry) (m : List MapEntry) (c : ContextId) :
    (entriesOf (insertEntry e m) c).length = (entriesOf m c).length + if e.state = .context c then 1 else 0 := by
  rw [entriesOf, ((insertEntry_perm e m).filter _).length_eq]
  by_cases h : e.state = .context c <;> simp [entriesOf, ownedBy, h]

theorem entriesOf_insertEntry_ne (e : MapEntry) (m : List MapEntry) (c : ContextId) (h : e.state ≠ .context c) :
    entriesOf (insertEntry e m) c = entriesOf m c := by
  induction m with
  | nil => simp [insertEntry, entriesOf, ownedBy, h]
  | cons x xs ih =>
    simp only [entriesOf] at ih
    simp only [insertEntry, entriesOf]; split
    · simp [List.filter_cons, ownedBy, h]
    · simp [List.filter_cons, ih]

theorem entriesOf_updatePage_length (m : List MapEntry) (p : Nat) (f : MapEntry → MapEntry) (c : ContextId)
    (hf : ∀ e, ownedBy c (f e) = ownedBy c e) : (entriesOf (updatePage m p f) c).length = (entriesOf m c).length := by
  simp only [entriesOf, updatePage, List.filter_map, List.length_map]
  congr 1
  apply List.filter_congr
  intro e _
  simp only [Function.comp]; split <;> simp [hf]

theorem entriesOf_filter_other (m : List MapEntry) (c d : ContextId) :
    entriesOf (m.filter (fun e => !ownedBy c e)) d = if d = c then [] else entriesOf m d := by
  simp only [entriesOf, List.filter_filter]
  split
  · subst d; simp
  · apply List.filter_congr
    intro e _
    simp only [ownedBy]
    by_cases h : e.state = .context d <;> simp [h]; grind

theorem entriesOf_filter_record (m : List MapEntry) (d : ContextId) :
    entriesOf (m.filter (fun e => !inRecord e)) d = entriesOf m d := by
  simp only [entriesOf, List.filter_filter]
  apply List.filter_congr
  intro e _
  simp only [ownedBy, inRecord, MapEntry.position?]
  cases e.state <;> simp

end Sys2Proof.Machine
end

