-- ==== Sys2Proof/Laws/Wrappers.lean ====
section
/-! SUPPORT. What the wrappers of the meanings can do: an event of a powered part, the decode of a command, the
completion of a transfer, the bits of a frame; and that every command completes. -/

namespace Sys2Proof.Machine

/-! ### Equations under the premises a statement names -/

theorem whenPowered_on {s : State} (h : s.powered = true) (f : State → State) : whenPowered s f = f s := by
  simp [whenPowered, h]

theorem whenPowered_off {s : State} (h : s.powered = false) (f : State → State) : whenPowered s f = s := by
  simp [whenPowered, h]

theorem decodeCommand_at {s : State} {code : Byte} {args : List Byte} (h : atDecode s code args = true)
    (f : State → Answer) :
    decodeCommand s code args f = respond (f s).state code args ((f s).status.byte :: (f s).data) := by
  simp [decodeCommand, h]

theorem decodeCommand_elsewhere {s : State} {code : Byte} {args : List Byte} (h : atDecode s code args = false)
    (f : State → Answer) : decodeCommand s code args f = s := by
  simp [decodeCommand, h]

theorem onCompletion_at {s : State} {t : Transfer} {p : Purpose} (hp : s.powered = true) (ht : s.port = some t)
    (hu : t.purpose = p) (f : Transfer → Word → State → State) :
    onCompletion s p f = f t (readWord s.array t.addr) (completeTransfer s t) := by
  simp [onCompletion, hp, ht, hu]

@[simp] theorem accepted_state (s : State) (d : List Byte) : (accepted s d).state = s := rfl

@[simp] theorem accepted_status (s : State) (d : List Byte) : (accepted s d).status = .accepted := rfl

@[simp] theorem accepted_data (s : State) (d : List Byte) : (accepted s d).data = d := rfl

@[simp] theorem refused_state (s : State) (st : Status) : (refused s st).state = s := rfl

@[simp] theorem refused_status (s : State) (st : Status) : (refused s st).status = st := rfl

@[simp] theorem refused_data (s : State) (st : Status) : (refused s st).data = [] := rfl

/-- A context command leaves the state as it is unless it passes steps 1 and 2 (R44). -/
theorem contextCommand_cases (s : State) (c : Byte) (f : ContextId → Answer) :
    (s.bridge.state = .serving ∧ ∃ k, contextOf c = some k ∧ contextCommand s c f = f k) ∨
      (contextCommand s c f).state = s := by
  unfold contextCommand
  split
  · exact .inr rfl
  · rename_i h
    rw [not_not] at h
    split
    · exact .inr rfl
    · exact .inl ⟨h, _, ‹_›, rfl⟩

/-! ### Induction: what holds before and after the effect holds after the wrapper -/

theorem whenPowered_induct {P : State → Prop} {s : State} {f : State → State} (h : P s) (hf : s.powered = true → P (f s)) :
    P (whenPowered s f) := by
  unfold whenPowered; split
  · exact hf ‹_›
  · exact h

theorem decodeCommand_induct {P : State → Prop} {s : State} {code : Byte} {args : List Byte} {f : State → Answer}
    (hr : ∀ s response, P s → P (respond s code args response)) (h : P s)
    (hf : s.powered = true → P (f s).state) : P (decodeCommand s code args f) := by
  unfold decodeCommand; split
  · rename_i ha
    exact hr _ _ (hf (by simp [atDecode] at ha; exact ha.1.1))
  · exact h

theorem onCompletion_induct {P : State → Prop} {s : State} {p : Purpose} {f : Transfer → Word → State → State} (h : P s)
    (hf : ∀ t w, s.powered = true → s.port = some t → t.purpose = p → P (f t w (completeTransfer s t))) :
    P (onCompletion s p f) := by
  unfold onCompletion
  split
  · split
    · rename_i t ht hc
      simp only [Bool.and_eq_true, decide_eq_true_eq] at hc
      exact hf t _ hc.1 ht hc.2
    · exact h
  · exact h

/-- The completion of an engine transfer keeps what the completion on the array, the effect in its stage, the pause and
an auto-resume keep. -/
theorem onEngineCompletion_induct {P : State → Prop} {s : State} {p : Purpose} {st : Stage} {o : TakenOrder}
    {f : Word → State → State} (h : P s) (hc : ∀ t, P (completeTransfer s t))
    (hf : ∀ t w, P (completeTransfer s t) → (completeTransfer s t).engine.stage = st →
      engineCounts (completeTransfer s t) o = true → P (f w (completeTransfer s t)))
    (hp : ∀ s, P s → P (takePause s)) (ha : ∀ s, P s → P (autoResume s)) : P (onEngineCompletion s p st o f) := by
  unfold onEngineCompletion
  refine onCompletion_induct h fun t w _ _ _ => ha _ (hp _ ?_)
  split
  · rename_i hs
    simp only [Bool.and_eq_true, decide_eq_true_eq] at hs
    exact hf t w (hc t) hs.2 hs.1
  · exact hc t

/-! ### The framing of the management port -/

/-- The bits of a byte, most significant first, are the byte's. -/
theorem byteOfBits_msbFirst : ∀ b : Byte, byteOfBits (msbFirst b) = b := by decide +kernel

/-- A completed byte either is at the decode point and changes nothing here, or leaves no bit of the next one (R156). -/
theorem takeByte_cases (m : MgmtPort) (b : Byte) :
    takeByte m b = m ∨ ((takeByte m b).bits = [] ∧ (takeByte m b).bytes = m.bytes + 1 ∧ (takeByte m b).mselN = m.mselN) := by
  unfold takeByte
  repeat' split
  all_goals first | exact .inl rfl | exact .inr ⟨rfl, rfl, rfl⟩

/-- A bit is not taken without a frame, joins the byte in progress, or completes it (R156). -/
theorem takeBit_cases (m : MgmtPort) (b : Bool) :
    (m.phase = .idle ∧ takeBit m b = m) ∨
    (m.phase ≠ .idle ∧ m.bits.length < 7 ∧ takeBit m b = { m with bits := m.bits ++ [b] }) ∨
    (m.phase ≠ .idle ∧ 7 ≤ m.bits.length ∧ takeBit m b = takeByte m (byteOfBits (m.bits ++ [b]))) := by
  unfold takeBit
  by_cases hi : m.phase = .idle
  · exact .inl ⟨hi, if_pos hi⟩
  · by_cases hb : m.bits.length < 7
    · exact .inr (.inl ⟨hi, hb, by rw [if_neg hi, if_pos hb]⟩)
    · exact .inr (.inr ⟨hi, by omega, by rw [if_neg hi, if_neg hb]⟩)

/-- The byte in progress never holds eight bits (R156). -/
theorem takeBits_incomplete (bs : List Bool) (m : MgmtPort) (h : m.bits.length < 8) :
    (bs.foldl takeBit m).bits.length < 8 := by
  induction bs generalizing m with
  | nil => exact h
  | cons b bs ih =>
    refine ih _ ?_
    rcases takeBit_cases m b with ⟨_, e⟩ | ⟨_, hl, e⟩ | ⟨_, _, e⟩ <;> rw [e]
    · exact h
    · simp only [List.length_append, List.length_singleton]; omega
    · rcases takeByte_cases m (byteOfBits (m.bits ++ [b])) with e | ⟨e, _⟩ <;> rw [e]
      · exact h
      · decide

/-- Bits that do not complete the byte in progress join it (R156). -/
theorem takeBits_append (bs : List Bool) (m : MgmtPort) (hp : m.phase ≠ .idle) (h : m.bits.length + bs.length < 8) :
    bs.foldl takeBit m = { m with bits := m.bits ++ bs } := by
  induction bs generalizing m with
  | nil => simp
  | cons b bs ih =>
    simp only [List.length_cons] at h
    rw [List.foldl_cons]
    rcases takeBit_cases m b with ⟨hi, _⟩ | ⟨_, _, e⟩ | ⟨_, hl, _⟩
    · exact absurd hi hp
    · rw [e]
      refine (ih { m with bits := m.bits ++ [b] } hp
        (by simp only [List.length_append, List.length_singleton]; omega)).trans ?_
      simp only [List.append_assoc, List.singleton_append]
    · omega

/-- Bits that make up the byte in progress complete it (R156). -/
theorem takeBits_complete (bs : List Bool) (b : Byte) (m : MgmtPort) (hp : m.phase ≠ .idle) (hl : m.bits.length < 8)
    (h : m.bits ++ bs = msbFirst b) : bs.foldl takeBit m = takeByte { m with bits := (msbFirst b).take 7 } b := by
  have hlen : m.bits.length + bs.length = 8 := by rw [← List.length_append, h]; rfl
  obtain ⟨init, x, rfl⟩ : ∃ init x, bs = init ++ [x] := by
    rcases List.eq_nil_or_concat bs with rfl | ⟨i, x, e⟩
    · simp at hlen; omega
    · exact ⟨i, x, by simpa using e⟩
  simp only [List.length_append, List.length_singleton] at hlen
  have e7 : m.bits ++ init = (msbFirst b).take 7 := by
    rw [← h, ← List.append_assoc, List.take_left' (by rw [List.length_append]; omega)]
  rw [List.foldl_append, takeBits_append init m hp (by omega), List.foldl_cons, List.foldl_nil, e7]
  rcases takeBit_cases { m with bits := (msbFirst b).take 7 } x with ⟨hi, _⟩ | ⟨_, hs, _⟩ | ⟨_, _, e⟩
  · exact absurd hi hp
  · exact absurd hs (by simp [msbFirst])
  · rw [e]
    congr 1
    show byteOfBits ((msbFirst b).take 7 ++ [x]) = b
    rw [← e7, List.append_assoc, h, byteOfBits_msbFirst]

/-! ### Every command completes -/

/-- No command faults and none is refused. -/
theorem exec_next (i : Instr) (s : State) : ∃ t, exec i s = .next t := by
  cases i <;> exact ⟨_, rfl⟩

/-- A property that no command and no change of the queue breaks holds after every step. -/
theorem step_induct {P : State → Prop} (hq : ∀ s q, P s → P { s with pending := q })
    (he : ∀ i s t, P s → exec i s = .next t → P t) {s t : State} (h : P s) (hs : step s = .next t) : P t := by
  unfold step at hs
  split at hs
  · cases hs; exact h
  · exact he _ _ _ (hq _ _ h) hs

end Sys2Proof.Machine
end

