-- ==== Sys2Proof/WellFormed.lean ====
section
/-! DEFINITION. Which commands are well formed. The operand types admit exactly the values the lines and the frame bytes
can carry, so one check remains: BAD_COMMAND carries a code that names no command. -/

namespace Sys2Proof

/-- A command is well formed when its operands are such as its row describes (R159 for BAD_COMMAND). -/
def Instr.wellFormed : Instr → Bool
  | .badCommand code => (Machine.argumentCount code).isNone
  | .powerOnReset _ | .rstNFall | .rstNRise | .warmResetPoint | .supplyFallAssert | .supplyFallDeassert | .trip
  | .gateOpen _ | .resumeDelayMet | .rearmDelayMet | .holdTimeout | .hostRequest _ _ _ | .hreqFall | .frameStart
  | .frameEnd | .status | .readContext _ | .lookup _ | .readEvents _ | .readFaults | .getConfig _ | .getRegion _
  | .openContext _ | .commit _ | .abort _ | .setConfig _ _ | .setRegion _ _ _ _ | .clearFaults | .format _ | .resume
  | .restart | .takeWork | .arrayGrant | .hostReadComplete | .fillRead | .fillWrite | .drainWrite | .anchorRead
  | .sumRead _ | .journalWrite _ | .markWrite _ | .copyRead _ | .copyWrite _ | .retireWrite _ | .scanRead _
  | .verifyRead _ | .applyCopyRead _ | .applyCopyWrite _ | .recoveryRetireWrite _ | .formatWrite _ | .powerLoss _
  | .byteComplete _ => true

end Sys2Proof
end

