-- ==== Sys2Proof/Tests/Slice0.lean ====
section
/-! SUPPORT. Tests on fixed values, each with the place of the manual its expected value comes from, the smoke test of
well-formedness, and for each obligation with premises a witness: concrete states and operands that meet them, clause by
clause. -/

namespace Sys2Proof.Tests

open Sys2Proof Sys2Proof.Machine

/-! ### States -/

/-- SERVING with the geometry of section 11.6: A = 1024, F = 64, H = 951, last sequence 7, all frames free. -/
def serving : State :=
  { State.reset with
    bridge := { State.reset.bridge with
      state := .serving, strapPages := 1024
      geometry := some { arrayPages := 1024, frames := 64, homePages := 951 } }
    freeFrames := List.range 64
    monitor := { State.reset.monitor with phase := .armed, delayTimer := .stopped }
    engine := { State.reset.engine with lastSequence := 7 } }

/-- A bridge state, all else kept. -/
def inState (s : State) (b : BridgeState) : State := { s with bridge := { s.bridge with state := b } }

/-- UNFORMATTED at strap size 1024. -/
def unformatted : State :=
  { inState serving .unformatted with
    bridge := { serving.bridge with state := .unformatted, geometry := none }, freeFrames := [] }

/-- FROZEN, returning to `r`, the resume delay met and the drain finished. -/
def frozenFrom (s : State) (r : BridgeState) : State :=
  { s with
    bridge := { s.bridge with state := .frozen, returnState := some r }
    engine := { s.engine with pause := .paused }
    monitor := { s.monitor with phase := .resumeWait, delayTimer := .met } }

/-- A frame at the decode point of a command. -/
def framed (s : State) (code : Byte) (args : List Byte) : State :=
  { s with mgmt :=
      if args = [] then { mselN := false, phase := .command, code := none, args := [], bits := [], bytes := 0, response := [] }
      else { mselN := false, phase := .arguments, code := some code, args := args.dropLast, bits := [], bytes := args.length
             response := [] } }

/-- Context `c` in a state, with this many entries. -/
def withContext (s : State) (c : ContextId) (x : ContextState) (n : Nat) : State :=
  { s with contexts := s.contexts.set c { state := x, entryCount := n, lastSequence := 0 } }

/-- The engine in a stage at a position, with a record. -/
def withEngine (s : State) (st : Stage) (p : Position) (r : Option CurrentRecord) : State :=
  { s with engine := { s.engine with stage := st, pos := p, record := r } }

/-- A transfer in progress. -/
def during (s : State) (t : Transfer) : State := { s with port := some t }

/-- An outstanding request; the hold timer runs while it is HELD. -/
def asking (s : State) (r : Request) : State :=
  { s with host := { s.host with
      hreq := true, outstanding := some r
      holdTimer := match r.phase with
        | .held _ => some 2000
        | _ => none } }

/-- A direct write of one word that waits. -/
def waitingWrite (h : HoldReason) (a : WordAddr) : Request :=
  { addr := a, tag := 0, op := .write 0x11223344 0xF, phase := .held h, resolved := none, regionPassed := true }

/-- A direct read resolved to its own address. -/
def waitingRead (p : HostPhase) (a : WordAddr) : Request :=
  { addr := a, tag := 0, op := .read, phase := p, resolved := some a, regionPassed := false }

/-- A posted write of one word to home. -/
def homeWrite (a : WordAddr) : PostedEntry :=
  { target := .home, addr := a, data := 0xA5, lanes := 0xF, tag := none, fill := none }

/-- A buffer whose head stands at its write. -/
def draining (s : State) (es : List PostedEntry) : State :=
  { s with buffer := { entries := es, head := some { pos := .write, begun := true, store := [] } } }

/-- The position at a word of a block of an entry. -/
def posAt (entry block word : Nat) (pass : Pass) : Position := { slotIndex := 0, entry, block, word, pass }

/-- The item of page 100 with frame 0 and block 0, as in section 11.6. -/
def item100 : RecordItem := { homePage := 100, frame := 0, written := 1, checksum := some 0 }

/-- The record of sequence 8 with pages 100 and 101. -/
def record8 : CurrentRecord :=
  { sequence := 8, slot := .slot0, context := some .c1, entryCount := 2
    items := [item100, { homePage := 101, frame := 2, written := 1, checksum := some 0 }], recordChecksum := some 0 }

/-- One field of the state after a command. -/
def after {α : Type} (s : State) (c : Instr) (f : State → α) : Option α :=
  match exec c s with
  | .next t => some (f t)
  | _ => none

/-! ### Well-formedness and decoding -/

/-- R159, R173: 08h names no command, so BAD_COMMAND may carry it. -/
theorem test_wellFormed_unknown_code : (Instr.badCommand 0x08).wellFormed = true := by decide

/-- R159, R173: an ill-formed term: 3Fh is RESTART, so BAD_COMMAND may not carry it. -/
theorem test_illFormed_known_code : (Instr.badCommand 0x3F).wellFormed = false := by decide

/-- No row of the table gives bits, so no word spells a command, and none is put in the queue. -/
theorem test_no_word_spells_a_command :
    decodeTableWord 8 0x3F = none ∧ (serving.withFetchWord 8 0x3F).pending = [] := by decide

/-! ### Values of the manual -/

/-- R86: the stream 01h 00h 02h has sums 3 and 5; 257 bytes FFh give a first sum of 0. -/
theorem test_checksum_of_three_bytes : (feedBytes .zero [1, 0, 2]).checksum = 0x00050003 := by decide

/-- R2, R3, R64 at SIZE 3: the anchor page is 1023 with first word 1FF80h, the slots stand at pages 1015 and 1019. -/
theorem test_partition_1024 :
    sizePages 3 = 1024 ∧ anchorAddr 1024 0 = 0x1FF80 ∧ headerPage 1024 .slot0 = 1015 ∧ headerPage 1024 .slot1 = 1019 ∧
      markAddr 1024 .slot0 = 129928 ∧ retireAddr 1024 .slot1 = 130448 := by decide

/-- R4: the largest F of the smallest array is 55, of an array of 512 pages 256. -/
theorem test_frame_counts :
    frameCountAcceptable 128 15 = false ∧ frameCountAcceptable 128 16 = true ∧ frameCountAcceptable 128 55 = true ∧
      frameCountAcceptable 128 56 = false ∧ frameCountAcceptable 512 256 = true ∧
      frameCountAcceptable 512 257 = false := by decide

/-- R7: an array of all zeros fails step 1. -/
theorem test_anchor_zeros : testAnchor 128 [0, 0, 0, 0, 0] = .invalid .checksum := by decide

/-- R7: an anchor of another size is a MISMATCH even where its F would not suit the present array. -/
theorem test_anchor_other_size : testAnchor 128 (anchorWords 512 256) = .invalid .mismatch := by decide

/-- R6, R7: the anchor of A = 1024 and F = 64 gives H = 951. -/
theorem test_anchor_valid :
    testAnchor 1024 (anchorWords 1024 64) = .valid { arrayPages := 1024, frames := 64, homePages := 951 } := by decide

/-- R178: COMMITTED (1, 8, 2) of section 11.6, and HOST_FAULT (0, CONFLICT, 12802). -/
theorem test_event_records :
    Event.bytes (.committed .c1 8 2) = [1, 1, 0, 2, 0, 0, 0, 8] ∧
      Event.bytes (.hostFault 0 .conflict 12802) = [3, 0, 6, 0, 0, 0, 0x32, 0x02] := by decide

/-- R179: the entry words of page 300 (012Ch), frame 3 and blocks 0 and 1. -/
theorem test_item_words :
    itemWords { homePage := 300, frame := 3, written := 3, checksum := some 0x1234 } = [0x0003012C, 3, 0x1234] := by
  decide

/-! ### The sequence of section 11.6 -/

/-- Context 1 OPEN with a direct write of word 12800 in the buffer. -/
def afterEvent1 : State := draining (withContext serving .c1 .opened 0) [homeWrite 12800]

/-- Event 2: frame 0 is allocated, and the write goes to word 121729 behind a fill from 12800. -/
theorem test_first_tagged_write :
    after afterEvent1 (.hostRequest 12801 1 (.write 5 0xF)) (fun t => (t.pageMap, t.freeFrames.head?,
      (t.buffer.entries[1]?).map fun e => (e.addr, e.fill))) =
    some ([{ homePage := 100, frame := 0, state := .context .c1, written := 1 }], some 1, some (121729, some 12800)) := by
  decide

/-- Event 3: a direct write to page 100 faults CONFLICT. -/
theorem test_conflict :
    after { afterEvent1 with pageMap := [{ homePage := 100, frame := 0, state := .context .c1, written := 1 }] }
      (.hostRequest 12802 0 (.write 5 0xF)) (fun t => (t.host.hreason, t.events)) =
    some (6, [.hostFault 0 .conflict 12802]) := by decide

/-- Section 11.6: COMMIT 1 is taken with SEQUENCE 8 in slot 0, and DRAIN ends at once. -/
theorem test_take_work :
    after { withContext serving .c1 .queued 1 with
        pageMap := [{ homePage := 100, frame := 0, state := .context .c1, written := 1 }], commitQueue := [.c1] }
      .takeWork (fun t => (t.engine.stage, t.engine.record.map fun r => (r.sequence, r.slot))) =
    some (.sum, some (8, .slot0)) := by decide

/-- Event 6: a direct read of page 100 word 2 while PENDING is resolved to frame word 121730. -/
theorem test_committed_view :
    after { serving with pageMap := [{ homePage := 100, frame := 0, state := .pending 0, written := 1 }] }
      (.hostRequest 12802 0 .read) (fun t => t.host.outstanding.bind Request.resolved) = some (some 121730) := by decide

/-- Event 10: the retire puts frames 0 and 2 at the tail of the list, and the write held RECORD is posted. -/
theorem test_retire :
    after (during (asking { withEngine serving .retire .start (some record8) with
          freeFrames := (List.range 61).map (· + 3)
          pageMap := [{ homePage := 100, frame := 0, state := .copied 0, written := 1 },
                      { homePage := 101, frame := 2, state := .copied 1, written := 1 },
                      { homePage := 200, frame := 1, state := .context .c2, written := 4 }] }
        (waitingWrite .record 12933)) (writeOf .retireWrite 129936 8))
      (.retireWrite .completionFirst)
      (fun t => (t.freeFrames.drop 61, t.pageMap.map MapEntry.homePage, t.buffer.entries.map PostedEntry.addr, t.host.hdone)) =
    some ([0, 2], [200], [12933], true) := by decide

/-! ### The sequence of section 11.9 -/

/-- The buffer of section 11.9: T3a begun at FILL_READ 4, T3b, D1, T3c, D2, and the held read of word 7841. -/
def beforeAbort : State :=
  let tagged := fun k a f => { target := .frame k, addr := a, data := 0, lanes := 0xF, tag := some .c3, fill := f : PostedEntry }
  asking { withContext serving .c3 .opened 2 with
      freeFrames := (List.range 55).map (· + 9)
      pageMap := [{ homePage := 60, frame := 7, state := .context .c3, written := 1 },
                  { homePage := 61, frame := 8, state := .context .c3, written := 16 }]
      buffer := { entries := [tagged 7 122624 (some 7680), tagged 7 122625 none, homeWrite 64000,
                              tagged 8 122784 (some 7840), homeWrite 64128]
                  head := some { pos := .fillRead 4, begun := true, store := [0, 0, 0, 0] } } }
    { addr := 7841, tag := 3, op := .read, phase := .held .readWait, resolved := some 122785, regionPassed := false }

/-- Section 11.9: ABORT 3 keeps the begun head and the direct writes, returns frames 7 and 8 and faults the held read. -/
theorem test_abort :
    after (framed beforeAbort 0x12 [3]) (.abort 3) (fun t =>
        (t.buffer.entries.map PostedEntry.addr, t.freeFrames.drop 55, t.events)) =
      some ([122624, 64000, 64128], [7, 8], [.hostFault 3 .contextClosed 7841]) ∧
    after (framed beforeAbort 0x12 [3]) (.abort 3) (fun t => (t.pageMap, t.mgmt.response)) = some ([], [0]) := by decide

/-! ### Recovery, FORMAT and the frames -/

/-- Section 11.8: a mismatch of the last entry is tallied and leads to RETIRE. -/
theorem test_verify_mismatch :
    after (during { withEngine (inState serving .recovering) .apply (posAt 0 0 7 .checksum)
            (some { record8 with context := none, items := [{ item100 with homePage := 42, checksum := some 1 }] }) with
          engine := { serving.engine with
            stage := .apply, pos := posAt 0 0 7 .checksum, applyList := [.slot0]
            record := some { record8 with context := none, items := [{ item100 with homePage := 42, checksum := some 1 }] }
            image0 := some (.live 8 1 [{ item100 with homePage := 42, checksum := some 1 }] 0) } }
        (readOf .verifyRead 0))
      (.verifyRead .completionFirst) (fun t => (t.engine.stage, t.engine.faultList, t.engine.faultCount)) =
    some (.retire, [42], 1) := by decide

/-- R4, R14, R15: FORMAT 64 on an empty UNFORMATTED part begins at step 2; FORMAT 272 is refused with BAD_ARGUMENT. -/
theorem test_format :
    after (framed unformatted 0x30 [0, 64]) (.format 64) (fun t => (t.bridge.state, t.engine.formatStep)) =
      some (.formatting, some 2) ∧
    after (framed serving 0x30 [1, 16]) (.format 272) (fun t => t.mgmt.response) = some [2] := by decide

/-- R176: the first and the last bytes of the status record in SERVING of A = 1024, F = 64, H = 951. -/
theorem test_status :
    after (framed serving 0x01 []) .status (fun t => (t.mgmt.response.length, t.mgmt.response.take 2, t.mgmt.response.drop 24)) =
    some (30, [0, 4], [4, 0, 0, 64, 3, 0xB7]) := by decide

/-- R158, R174: the frame of GET_CONFIG 1 shifts out 00h, 00h, ACCEPTED, 07h, D0h (2000), then 00h. -/
theorem test_get_config :
    after (framed serving 0x06 [1]) (.getConfig 1) (fun t => (List.range 6).map t.mdoByte) = some
      [some 0, some 0, some 0, some 7, some 0xD0, some 0] := by
  decide

/-- R156, R173: 20h (SET_CONFIG) goes in most significant bit first, here in two commands; then an argument byte is due. -/
theorem test_bits_of_a_byte :
    (match exec (.byteComplete [false, false, true]) (framed serving 0x20 []) with
      | .next t => after t (.byteComplete [false, false, false, false, false]) fun u => (u.mgmt.phase, u.mgmt.code, u.mgmt.bytes)
      | _ => none) = some (.arguments, some 0x20, 1) := by decide

/-- R156, R158: MDO is not driven with MSEL_N high; the status BAD_ARGUMENT (02h) goes out as 0, 0, 0, 0, 0, 0, 1, 0. -/
theorem test_mdo :
    serving.mdo = none ∧
    (List.range 8).map (fun n => after (refusedWith (framed serving 0x10 [5]) 0x10 [5] .badArgument)
      (.byteComplete (List.replicate n true)) State.mdo) =
      [some (some false), some (some false), some (some false), some (some false), some (some false), some (some false),
       some (some true), some (some false)] := by decide

/-- R144, R146: with trip filter code 0 an assertion of SUPPLY_FALL in ARMED enters FROZEN. -/
theorem test_trip_without_filter :
    after { serving with settings := { serving.settings with tripFilter := 0 } } .supplyFallAssert
      (fun t => (t.bridge.state, t.bridge.returnState, t.events)) = some (.frozen, some .serving, [.trip]) := by decide

/-- R100: CLEAR_FAULTS in RECOVERING is refused with WRONG_STATE. -/
theorem test_clear_faults_refused :
    after (framed (inState serving .recovering) 0x22 []) .clearFaults (fun t => t.mgmt.response) = some [3] := by decide

/-- R145, R146: a trip in SERVING enters FROZEN, returns to SERVING later, and starts the resume timer at 20 ms. -/
theorem test_trip :
    after { serving with monitor := { serving.monitor with filterTimer := some 4 } } .trip (fun t =>
      (t.bridge.state, t.bridge.returnState, t.monitor.delayTimer, t.events)) =
    some (.frozen, some .serving, .running 20, [.trip]) := by decide

/-- R135: a write changes the enabled lanes alone: lane 0 is bits 7:0. -/
theorem test_drain_write_lanes :
    after (during (draining serving [{ homeWrite 3 with data := 0x44332211, lanes := 0x5 }])
        { writeOf .drainWrite 3 0x44332211 with lanes := 0x5 })
      .drainWrite (fun t => t.array) = some [(12, 0x11), (14, 0x33)] := by decide

/-! ### Witnesses: the step, the array, power and reset -/

theorem witness_StepRunsFrontCommand :
    ({ serving with pending := [.status] } : State).pending = .status :: [] ∧ serving.pending = [] := by decide

theorem witness_EveryCommandCompletes :
    ({ serving with powered := false } : State).powered = false ∧ ∀ pins, Instr.rstNFall ≠ .powerOnReset pins :=
  ⟨rfl, fun _ h => nomatch h⟩

theorem witness_AnchorRoundTrip :
    frameCountAcceptable (sizePages 0) 16 = true ∧ frameCountAcceptable (sizePages 0) 55 = true ∧
      frameCountAcceptable (sizePages 7) 256 = true ∧
      testAnchor 128 (anchorWords 128 55) = .valid { arrayPages := 128, frames := 55, homePages := 64 } := by decide +kernel

/-- With 1 item and with 128. -/
theorem witness_RecordRoundTrip : ∀ n ∈ [1, 128], ∀ r : CurrentRecord,
    r = { record8 with entryCount := n, items := List.replicate n { item100 with homePage := 65535, frame := 255 } } →
    r.sequence ≠ 0 ∧ 1 ≤ r.items.length ∧ r.items.length ≤ 128 ∧ r.entryCount = r.items.length ∧
      ∀ it ∈ r.items, it.homePage < 65536 ∧ it.frame < 256 ∧ it.checksum.isSome = true := by
  intro n hn r hr
  subst hr
  simp only [List.mem_cons, List.not_mem_nil, or_false] at hn
  rcases hn with rfl | rfl <;> decide +kernel

theorem witness_BytesChangedOnlyByCompletions :
    ArrayCanonical (during (draining serving [homeWrite 3]) (writeOf .drainWrite 3 0xA5)) ∧
      (∀ o, Instr.drainWrite ≠ .powerLoss o) ∧
      ∃ u, exec .drainWrite (during (draining serving [homeWrite 3]) (writeOf .drainWrite 3 0xA5)) = .next u :=
  ⟨(⟨.nil, fun _ h => nomatch h⟩ : Memory.wf []), fun _ => Instr.noConfusion, _, rfl⟩

theorem witness_ResettingEntered :
    (∀ s ∈ [framed serving 0x3F []], s.powered = true ∧ s.bridge.state ≠ .resetting ∧ s.host.outstanding = none ∧
      s.bridge.rstN = true ∧ atDecode s 0x3F [] = true) ∧
    ∀ s ∈ [framed (inState serving .resetting) 0x3F []], s.powered = true ∧ s.bridge.state = .resetting ∧
      s.bridge.rstN = true ∧ atDecode s 0x3F [] = true := by decide +kernel

/-- A read in READ_GRANT and a held write; FORMAT with 16 and with 256 frames. -/
theorem witness_WaitingRequestFaulted :
    (∀ r ∈ [waitingRead .readGrant 5, waitingWrite .bufferFull 5], ∀ s ∈ [framed (asking serving r) 0x3F []],
      s.powered = true ∧ s.host.outstanding = some r ∧ r.phase.waiting = true ∧ s.bridge.state ≠ .resetting ∧
      s.bridge.rstN = true ∧ atDecode s 0x3F [] = true) ∧
    (∀ n ∈ [16, 256], ∀ s ∈ [framed (asking serving (waitingRead .readGrant 5)) 0x30
        [highByte (BitVec.ofNat 16 n), lowByte (BitVec.ofNat 16 n)]],
      formatAdmitted s = true ∧ frameCountAcceptable s.bridge.strapPages (BitVec.ofNat 16 n).toNat = true ∧
      atDecode s 0x30 [highByte (BitVec.ofNat 16 n), lowByte (BitVec.ofNat 16 n)] = true) ∧
    ∀ s ∈ [{ asking serving (waitingRead .readGrant 5) with monitor := { serving.monitor with filterTimer := some 4 } }],
      s.bridge.state.trippable = true ∧ s.monitor.phase = .armed ∧ s.monitor.filterTimer.isSome = true ∧
      s.settings.tripMode = .freeze := by decide +kernel

theorem witness_WarmResetSequence :
    (∀ passed ∈ [false, true], ∀ s ∈ [{ serving with bridge := { serving.bridge with
        state := .resetting, rstN := false, warmPointPassed := passed } }],
      s.powered = true ∧ s.bridge.state = .resetting ∧ s.bridge.rstN = false ∧ s.bridge.warmPointPassed = passed) ∧
    ∀ s ∈ [inState serving .resetting], s.powered = true ∧ s.bridge.warmPointPassed = false ∧ s.buffer.entries = [] ∧
      s.port = none := by decide +kernel

theorem witness_PowerLossCutsTheArrayPath :
    serving.powered = true ∧ serving.port = none ∧
    ∀ t ∈ [writeOf .markWrite 129928 8], ∀ s ∈ [during serving t], s.powered = true ∧ s.port = some t ∧ t.isWrite = true ∧
      t.lanes ≠ 0 := by decide +kernel

/-! ### Witnesses: the supply monitor -/

theorem witness_SupplyLineMoves :
    ∀ level ∈ [false, true], ∀ phase ∈ [MonitorPhase.gating, .armed, .reported, .resumeWait, .ignoring],
      ∀ k ∈ [0, 1, 4], ∀ s ∈ [{ serving with
          monitor := { serving.monitor with level := level, phase := phase }
          settings := { serving.settings with tripFilter := k } }],
      s.powered = true ∧ s.monitor.level = level ∧ s.monitor.phase = phase ∧ s.settings.tripFilter = k ∧
      s.bridge.state.trippable = true := by decide +kernel

theorem witness_TripTaken :
    ∀ mode ∈ [TripMode.freeze, .report], ∀ b ∈ [BridgeState.unformatted, .recovering, .serving, .formatting],
      ∀ s ∈ [{ inState serving b with
          monitor := { serving.monitor with filterTimer := some 4 }
          settings := { serving.settings with tripMode := mode } }],
      s.powered = true ∧ s.bridge.state.trippable = true ∧ s.monitor.phase = .armed ∧
      s.monitor.filterTimer.isSome = true ∧ s.settings.tripMode = mode := by decide +kernel

/-- An entry to ARMED with the line deasserted, and with it asserted at filter codes 0, 1 and 4. -/
theorem witness_armsTo : ∀ k ∈ [0, 1, 4], ∀ level ∈ [false, true], ∀ s ∈ [{ serving with
      monitor := { serving.monitor with phase := .reported, level := level, delayTimer := .running 20 }
      settings := { serving.settings with tripFilter := k } }],
    s.powered = true ∧ s.monitor.phase = .reported ∧ s.monitor.delayTimer = .running 20 ∧ ∃ u, armsTo s u := by
  intro k hk level hl s hs
  obtain rfl := List.mem_singleton.mp hs
  refine ⟨rfl, rfl, rfl, ?_⟩
  simp only [List.mem_cons, List.not_mem_nil, or_false] at hk hl
  rcases hl with rfl | rfl
  · exact ⟨_, .inl ⟨rfl, rfl⟩⟩
  · rcases hk with rfl | rfl | rfl
    · exact ⟨_, .inr (.inr ⟨rfl, rfl, rfl, rfl⟩)⟩
    · exact ⟨_, .inr (.inl ⟨rfl, 2, by decide, rfl⟩)⟩
    · exact ⟨_, .inr (.inl ⟨rfl, 16, by decide, rfl⟩)⟩

theorem witness_DelaysMet :
    (State.reset.powered = true ∧ State.reset.monitor.delayTimer = .running 20 ∧ State.reset.bridge.state = .starting) ∧
    (∀ auto ∈ [false, true], ∀ s ∈ [{ during (frozenFrom serving .serving) (readOf .fillRead 0) with
        monitor := { serving.monitor with phase := .resumeWait, delayTimer := .running 255 }
        settings := { serving.settings with autoResume := auto } }],
      s.powered = true ∧ s.monitor.delayTimer = .running 255 ∧ s.monitor.phase = .resumeWait ∧ s.port.isSome = true) ∧
    ∀ s ∈ [{ serving with monitor := { serving.monitor with phase := .reported, delayTimer := .running 1 } }],
      s.powered = true ∧ s.monitor.delayTimer = .running 1 ∧ s.monitor.phase = .reported := by
  decide +kernel

/-- The state, the return state, the line and the drain of a resume, with the resume delay met or about to be. -/
theorem witness_ResumeRestartsStage_state :
    (∀ s ∈ [framed serving 0x31 []], atDecode s 0x31 [] = true ∧ s.bridge.state ≠ .frozen) ∧
    ∀ r ∈ [BridgeState.unformatted, .recovering, .serving, .formatting],
      ∀ s ∈ [framed { frozenFrom serving r with
          monitor := { (frozenFrom serving r).monitor with delayTimer := .running 20 } } 0x31 []],
      s.bridge.state = .frozen ∧ s.bridge.returnState = some r ∧ s.monitor.level = false ∧ s.buffer.entries = [] ∧
      s.port = none ∧ atDecode s 0x31 [] = true ∧ s.powered = true ∧ s.settings.autoResume = true ∧
      s.monitor.phase = .resumeWait ∧ s.monitor.delayTimer = .running 20 := by decide +kernel

/-- Each stage restarts as some engine; COPY with page 100 COPIED restarts at page 101, its second item. -/
theorem witness_ResumeRestartsStage_stage :
    (∃ e, restartsAs (frozenFrom unformatted .unformatted) e .unformatted) ∧
    (∀ st ∈ [Stage.idle, .mark, .retire, .drain, .sum, .write],
      ∃ e, restartsAs (frozenFrom (withEngine serving st .start (some record8)) .serving) e .serving) ∧
    (∃ e, restartsAs { frozenFrom (withEngine serving .copy .start (some record8)) .serving with
        pageMap := [{ homePage := 100, frame := 0, state := .copied 0, written := 1 },
                    { homePage := 101, frame := 2, state := .pending 1, written := 1 }] } e .serving) ∧
    (∀ st ∈ [Stage.scan, .apply, .retire],
      ∃ e, restartsAs (frozenFrom (withEngine serving st .start none) .recovering) e .recovering) ∧
    ∃ e, restartsAs (frozenFrom (withEngine serving .format .start none) .formatting) e .formatting := by
  refine ⟨⟨_, rfl⟩, fun st h => ?_, ⟨_, .inr (.inr (.inr ⟨rfl, record8, 1, _, 0, rfl, rfl, rfl, ?_, ?_, rfl⟩))⟩,
    fun st h => ?_, ⟨_, rfl, rfl⟩⟩
  · simp only [List.mem_cons, List.not_mem_nil, or_false] at h
    rcases h with rfl | rfl | rfl | rfl | rfl | rfl
    · exact ⟨_, .inl ⟨by decide, rfl⟩⟩
    · exact ⟨_, .inl ⟨by decide, rfl⟩⟩
    · exact ⟨_, .inl ⟨by decide, rfl⟩⟩
    · exact ⟨_, .inr (.inl ⟨by decide, record8, .c1, item100, 0, rfl, rfl, rfl, rfl, rfl⟩)⟩
    · exact ⟨_, .inr (.inl ⟨by decide, record8, .c1, item100, 0, rfl, rfl, rfl, rfl, rfl⟩)⟩
    · exact ⟨_, .inr (.inr (.inl ⟨rfl, rfl⟩))⟩
  · intro j jt hj hi
    obtain rfl : j = 0 := by omega
    cases hi
    exact ⟨0, rfl⟩
  · intro n h
    exact nomatch h
  · simp only [List.mem_cons, List.not_mem_nil, or_false] at h
    rcases h with rfl | rfl | rfl
    · exact ⟨_, .inl ⟨by decide, rfl⟩⟩
    · exact ⟨_, .inl ⟨by decide, rfl⟩⟩
    · exact ⟨_, .inr ⟨rfl, rfl⟩⟩

theorem witness_AutoResumeMoments :
    (∀ s ∈ [during (draining (frozenFrom serving .serving) [homeWrite 3]) (writeOf .drainWrite 3 0xA5)],
      s.bridge.state = .frozen ∧ s.bridge.returnState = some .serving ∧ s.monitor.level = false ∧
      s.monitor.delayTimer = .met ∧ s.host.outstanding = none ∧ s.engine.stage = .idle ∧ s.settings.autoResume = true ∧
      s.buffer = { entries := [homeWrite 3], head := some { pos := .write, begun := true, store := [] } } ∧
      s.powered = true ∧ s.port = some (writeOf .drainWrite 3 0xA5)) ∧
    (∃ e, restartsAs (frozenFrom serving .serving) e .serving) ∧
    ∀ s ∈ [framed { frozenFrom serving .serving with settings := { serving.settings with autoResume := false } } 0x20 [4, 0, 1]],
      s.buffer.entries = [] ∧ s.port = none ∧ atDecode s 0x20 [4, 0, 1] = true ∧ s.monitor.delayTimer = .met :=
  ⟨by decide, ⟨_, .inl ⟨by decide, rfl⟩⟩, by decide⟩

/-- The last transfer in progress at the trip: a host read, and an engine transfer whose completion counts or does not. -/
theorem witness_AutoResumeMoments_transfer :
    (∀ q ∈ [waitingRead .readTransfer 5],
      ∀ s ∈ [during (asking (frozenFrom serving .serving) q) (readOf .hostRead 5)],
      s.bridge.state = .frozen ∧ s.bridge.returnState = some .serving ∧ s.monitor.level = false ∧
      s.monitor.delayTimer = .met ∧ s.settings.autoResume = true ∧ s.buffer.entries = [] ∧
      transferring s (readOf .hostRead 5) ∧ s.host.outstanding = some q ∧ q.phase = .readTransfer ∧ q.op = .read) ∧
    (∀ o ∈ [TakenOrder.completionFirst, .pauseFirst], Instr.markWrite o ∈ engineCompletions o ∧
      completionOf (.markWrite o) = some (writeOf .markWrite 129928 8).purpose) ∧
    ∀ s ∈ [during (frozenFrom (withEngine serving .mark .start (some record8)) .serving) (writeOf .markWrite 129928 8)],
      ∀ x ∈ [{ s with engine := { s.engine with pause := .requested } }],
      x.bridge.state = .frozen ∧ x.engine.pause = .requested ∧ x.buffer.entries = [] ∧ x.settings.autoResume = true ∧
      transferring x (writeOf .markWrite 129928 8) ∧ (∃ e, restartsAs x e .serving) ∧
      ∃ v e, exec (.markWrite .completionFirst) { x with settings := { x.settings with autoResume := false } } = .next v ∧
        restartsAs v e .serving := by
  refine ⟨by unfold transferring; decide, by decide, fun s hs x hx => ?_⟩
  obtain rfl := List.mem_singleton.mp hs
  obtain rfl := List.mem_singleton.mp hx
  refine ⟨rfl, rfl, rfl, rfl, ⟨rfl, rfl⟩, ⟨_, .inl ⟨by decide, rfl⟩⟩, _, _, rfl,
    .inr (.inr (.inr ⟨rfl, record8, 0, item100, 0, rfl, rfl, rfl, fun j _ hj => absurd hj (Nat.not_lt_zero j),
      fun n h => ?_, rfl⟩))⟩
  exact nomatch h

/-! ### Witnesses: the host port -/

theorem disabled_at_reset : ∀ i : Fin 8, State.reset.regions[i].kind.isSome = false := by decide

/-- A request of an OPEN context below H is admitted where no descriptor is enabled. -/
theorem admitted {s : State} {a : WordAddr} {tag : BitVec 3} (h1 : s.bridge.state = .serving)
    (h2 : a.toNat < s.homePages * 128) (h3 : s.regions = State.reset.regions)
    (h4 : tag = 0 ∨ ∃ c, contextOf tag = some c ∧ (s.contexts.get c).state = .opened) : writeAdmitted s a tag := by
  refine ⟨.inl ⟨h1, h2⟩, ?_, h4⟩
  unfold regionDenies Region.covers
  rw [h3]
  rintro ⟨i, ⟨h, _⟩, _⟩
  exact Bool.noConfusion (h.symm.trans (disabled_at_reset i))

theorem noEntry {s : State} {p : Nat} (h : s.pageMap = []) : noEntryFor s p := by
  intro e he
  rw [h] at he
  exact nomatch he

theorem arrives {s : State} (h1 : s.powered = true) (h2 : s.host.hreq = false) (h3 : s.host.outstanding = none) :
    requestArrives s := ⟨h1, h2, h3⟩

theorem witness_RequestFaultsEarly :
    requestArrives serving ∧ requestArrives unformatted ∧
    (∀ b ∈ [BridgeState.starting, .recovering, .formatting, .resetting, .frozen],
      (inState serving b).bridge.state = b ∧ requestArrives (inState serving b)) ∧
    5 ≤ (5 : BitVec 3).toNat ∧ 5 ≤ (7 : BitVec 3).toNat ∧ (0 : BitVec 3).toNat ≤ 4 ∧ (4 : BitVec 3).toNat ≤ 4 ∧
    serving.homePages * 128 ≤ (121728 : WordAddr).toNat ∧ serving.homePages * 128 ≤ (2097151 : WordAddr).toNat ∧
    unformatted.bridge.strapPages * 128 ≤ (131072 : WordAddr).toNat ∧
    ∀ n ∈ [130944, 131071], (unformatted.bridge.strapPages - 1) * 128 ≤ (BitVec.ofNat 21 n).toNat ∧
      (BitVec.ofNat 21 n).toNat < unformatted.bridge.strapPages * 128 := by
  unfold requestArrives
  decide +kernel

/-- Descriptor 0 READ_ONLY over all home pages, and descriptor 7 CONTEXT_ONLY or DIRECT_ONLY over the last one. -/
theorem witness_WriteDeniedByRegion :
    ∀ x ∈ [(0, RegionKind.readOnly, (0 : WordAddr), (0 : BitVec 3)), (0, .readOnly, 121727, 4), (7, .contextOnly, 121727, 0),
        (7, .directOnly, 121600, 1)],
      ∀ s ∈ [{ serving with regions := serving.regions.setIfInBounds x.1 { kind := some x.2.1, first := 0, last := 950 } }],
      requestArrives s ∧ addressAdmitted s x.2.2.1 ∧ x.2.2.2.toNat ≤ 4 ∧ regionDenies s x.2.2.1 x.2.2.2 := by
  unfold requestArrives addressAdmitted regionDenies Region.covers
  decide +kernel

theorem witness_RequestFaultsByContextAndPage :
    (∀ x ∈ [ContextState.idle, .queued, .committing, .failed .poolExhausted 5], ∀ s ∈ [withContext serving .c4 x 0],
      requestArrives s ∧ addressAdmitted s 121727 ∧ contextOf (4 : BitVec 3) = some .c4 ∧ (s.contexts.get .c4).state = x ∧
      ¬ regionDenies s 121727 4) ∧
    ∀ s ∈ [{ serving with pageMap := [{ homePage := 100, frame := 0, state := .context .c2, written := 1 }] }],
      requestArrives s ∧ writeAdmitted s 12800 0 ∧ s.bridge.state = .serving ∧ (1 : Lanes) ≠ 0 ∧
      lookupPage s.pageMap (pageOf 12800) = some { homePage := 100, frame := 0, state := .context .c2, written := 1 } ∧
      contextOf (0 : BitVec 3) ≠ some .c2 := by
  refine ⟨?_, fun s h => ?_⟩
  · unfold requestArrives addressAdmitted regionDenies Region.covers
    decide +kernel
  · obtain rfl := List.mem_singleton.mp h
    exact ⟨arrives rfl rfl rfl, admitted rfl (by decide) rfl (.inl rfl), rfl, by decide, rfl, by decide⟩

/-- The buffer empty and with seven entries; direct, tagged and pass-through. -/
theorem witness_DirectWriteAccepted :
    (requestArrives serving ∧ writeAdmitted serving 121727 0 ∧ noEntryFor serving (pageOf 121727) ∧
      serving.buffer.entries.length < 8) ∧
    (∀ s ∈ [draining serving (List.replicate 7 (homeWrite 3))], requestArrives s ∧ writeAdmitted s 0 0 ∧
      noEntryFor s (pageOf 0) ∧ s.buffer.entries.length < 8) ∧
    writeAdmitted (withContext serving .c1 .opened 0) 0 1 ∧
    requestArrives unformatted ∧ writeAdmitted unformatted 130943 0 ∧ unformatted.bridge.state = .unformatted := by
  refine ⟨⟨arrives rfl rfl rfl, admitted rfl (by decide) rfl (.inl rfl), noEntry rfl, by decide⟩, fun s h => ?_,
    admitted rfl (by decide) rfl (.inr ⟨.c1, rfl, rfl⟩), arrives rfl rfl rfl, ⟨.inr ⟨rfl, by decide⟩, ?_, .inl rfl⟩, rfl⟩
  · obtain rfl := List.mem_singleton.mp h
    exact ⟨arrives rfl rfl rfl, admitted rfl (by decide) rfl (.inl rfl), noEntry rfl, by decide⟩
  · unfold regionDenies Region.covers
    decide +kernel

/-- Between pages 99 and 101, with 127 entries and a free frame, with 128 entries, and with 127 and no free frame. -/
theorem witness_FirstTaggedWrite :
    ∀ x ∈ [(127, [63]), (128, [63]), (127, ([] : List Nat))],
      ∀ before ∈ [[{ homePage := 99, frame := 5, state := .context .c2, written := 1 : MapEntry }]],
      ∀ rest ∈ [[{ homePage := 101, frame := 6, state := .context .c1, written := 1 : MapEntry }]],
      ∀ s ∈ [{ withContext serving .c1 .opened x.1 with pageMap := before ++ rest, freeFrames := x.2 }],
      requestArrives s ∧ writeAdmitted s 12801 1 ∧ s.bridge.state = .serving ∧ contextOf (1 : BitVec 3) = some .c1 ∧
      (8 : Lanes) ≠ 0 ∧ s.buffer.entries.length < 8 ∧ s.pageMap = before ++ rest ∧
      (∀ e ∈ before, e.homePage < pageOf 12801) ∧ (∀ e ∈ rest, pageOf 12801 < e.homePage) ∧
      (s.contexts.get .c1).entryCount = x.1 ∧ s.freeFrames = x.2 := by
  intro x hx before hb rest hr s hs
  obtain rfl := List.mem_singleton.mp hs
  obtain rfl := List.mem_singleton.mp hb
  obtain rfl := List.mem_singleton.mp hr
  exact ⟨arrives rfl rfl rfl, admitted rfl (by decide : _ < 951 * 128) rfl (.inr ⟨.c1, rfl, rfl⟩), rfl, rfl, by decide,
    (by decide : 0 < 8), rfl, by decide, by decide, rfl, rfl⟩

/-- A word of block 0, which the entry holds, and one of block 15, which it does not. -/
theorem witness_WriteToOwnEntry :
    ∀ e ∈ [{ homePage := 100, frame := 0, state := .context .c1, written := 1 : MapEntry }],
      ∀ s ∈ [{ withContext serving .c1 .opened 1 with pageMap := [] ++ e :: [] }],
      requestArrives s ∧ s.bridge.state = .serving ∧ contextOf (1 : BitVec 3) = some .c1 ∧ (1 : Lanes) ≠ 0 ∧
      s.buffer.entries.length < 8 ∧ s.pageMap = [] ++ e :: [] ∧ e.homePage = pageOf 12800 ∧ e.homePage = pageOf 12927 ∧
      e.state = .context .c1 ∧ e.written.getLsbD (blockOf 12800) = true ∧ e.written.getLsbD (blockOf 12927) = false ∧
      writeAdmitted s 12800 1 ∧ writeAdmitted s 12927 1 := by
  intro e he s hs
  obtain rfl := List.mem_singleton.mp he
  obtain rfl := List.mem_singleton.mp hs
  exact ⟨arrives rfl rfl rfl, rfl, rfl, by decide, by decide, rfl, by decide, by decide, rfl, by decide, by decide,
    admitted rfl (by decide) rfl (.inr ⟨.c1, rfl, rfl⟩), admitted rfl (by decide) rfl (.inr ⟨.c1, rfl, rfl⟩)⟩

/-- A page of the record, PENDING or COPIED, and a full buffer with no entry for the page. -/
theorem witness_WriteHeld :
    (∀ st ∈ [EntryState.pending 127, .copied 0],
      ∀ s ∈ [{ serving with pageMap := [{ homePage := 100, frame := 0, state := st, written := 1 }] }],
      requestArrives s ∧ s.host.holdTimer = none ∧ writeAdmitted s 12800 0 ∧ (1 : Lanes) ≠ 0 ∧ s.bridge.state = .serving ∧
      lookupPage s.pageMap (pageOf 12800) = some { homePage := 100, frame := 0, state := st, written := 1 }) ∧
    ∀ s ∈ [draining serving (List.replicate 8 (homeWrite 3))],
      requestArrives s ∧ s.host.holdTimer = none ∧ writeAdmitted s 12800 0 ∧ 8 ≤ s.buffer.entries.length ∧
      noEntryFor s (pageOf 12800) := by
  refine ⟨fun st _ s hs => ?_, fun s hs => ?_⟩
  · obtain rfl := List.mem_singleton.mp hs
    exact ⟨arrives rfl rfl rfl, rfl, admitted rfl (by decide : _ < 951 * 128) rfl (.inl rfl), by decide, rfl, rfl⟩
  · obtain rfl := List.mem_singleton.mp hs
    exact ⟨arrives rfl rfl rfl, rfl, admitted rfl (by decide) rfl (.inl rfl), by decide, noEntry rfl⟩

theorem witness_ViewsFollowThePageMap :
    noEntryFor serving (pageOf 12800) ∧
    ∀ st ∈ [EntryState.pending 0, .copied 127, .context .c3],
      ∀ s ∈ [{ serving with pageMap := [{ homePage := 100, frame := 0, state := st, written := 1 }] }],
      lookupPage s.pageMap (pageOf 12800) = some { homePage := 100, frame := 0, state := st, written := 1 } :=
  ⟨noEntry rfl, by decide⟩

/-- A direct and a tagged read in SERVING and a direct one in UNFORMATTED; an entry of the same block and of another. -/
theorem witness_ReadResolved :
    (∀ s ∈ [serving, unformatted, withContext serving .c4 .committing 1],
      requestArrives s ∧ s.host.holdTimer = none ∧ addressAdmitted s 121727) ∧
    (contextOf (4 : BitVec 3) = some .c4 ∧ ((withContext serving .c4 .committing 1).contexts.get .c4).state ≠ .idle) ∧
    (∀ e ∈ [homeWrite 121719], e.addr.toNat / 8 ≠ (121727 : WordAddr).toNat / 8) ∧
    ∃ e ∈ [homeWrite 121720], e.addr.toNat / 8 = (121727 : WordAddr).toNat / 8 := by
  unfold requestArrives addressAdmitted
  decide +kernel

theorem witness_RequestCompletes :
    (∀ r ∈ [waitingRead .readTransfer 5], ∀ s ∈ [during (asking serving r) (readOf .hostRead 5)],
      s.powered = true ∧ s.host.outstanding = some r ∧ r.phase = .readTransfer ∧ r.op = .read ∧
      transferring s (readOf .hostRead 5) ∧ noResumeDue s) ∧
    (∀ r ∈ [waitingRead (.held .readWait) 5, waitingWrite .record 5], ∀ s ∈ [asking serving r],
      s.powered = true ∧ s.host.outstanding = some r ∧ s.host.holdTimer = some 2000 ∧ (2000 : Nat) ≠ 0) ∧
    ({ serving with host := { serving.host with holdTimer := some 0 } } : State).host.holdTimer = some 0 := by
  unfold transferring noResumeDue
  decide +kernel

/-! ### Witnesses: the management port -/

theorem witness_FrameLifecycle :
    (serving.powered = true ∧ serving.mgmt.mselN = true ∧ serving.mgmt.phase = .idle) ∧
    (∀ s ∈ [framed serving 0x3F []], s.powered = true ∧ s.mgmt.mselN = false ∧ s.mgmt.phase = .command) ∧
    ((0x00 : Byte) ∉ codesWithoutArguments ∧ (0x00 : Byte) ∉ codesWithArguments.map Prod.fst ∧
      (0x40 : Byte) ∉ codesWithoutArguments ∧ (0x40 : Byte) ∉ codesWithArguments.map Prod.fst) ∧
    ((0x02, 1) ∈ codesWithArguments ∧ (0x21, 6) ∈ codesWithArguments) ∧
    ∀ s ∈ [framed serving 0x21 [0, 0, 0, 0, 0]], s.powered = true ∧ s.mgmt.phase = .arguments ∧ s.mgmt.code = some 0x21 ∧
      s.mgmt.args.length + 1 < 6 := by decide

/-- A byte in progress with no bit and with seven, before and after the decode point. -/
theorem witness_FrameLifecycle_bits :
    ∀ x ∈ [([] : List Bool), [false, false, true, false, false, false, false]], ∀ ph ∈ [FramePhase.command, .response, .ignoring],
      ∀ m ∈ [{ (framed serving 0x20 []).mgmt with phase := ph, bits := x }],
      m.phase ≠ .idle ∧ m.bits.length < 8 ∧ m.bits ++ (mdiBits 0x20).drop x.length = mdiBits 0x20 ∧
      (m.bits ++ (mdiBits 0x20).drop x.length).length = 8 ∧ (m.bits ++ []).length < 8 ∧ (0x20, 3) ∈ codesWithArguments := by
  decide

theorem witness_FrameReachesDecodeAndAnswers :
    (serving.powered = true ∧ serving.mgmt.mselN = true ∧ (0x21, [0, 0, 0, 1, 0, (1 : Byte)].length) ∈ codesWithArguments ∧
      (0x02, [(1 : Byte)].length) ∈ codesWithArguments ∧ 0x3F ∈ codesWithoutArguments) ∧
    (∀ s ∈ [acceptedWith serving 0x06 [1] [7, 0xD0]], s.mgmt.phase = .response ∧ s.mgmt.args.length = 1 ∧
      s.mgmt.response = 0 :: [7, 0xD0]) ∧
    ∀ s ∈ [framed serving 0x06 [1]], s.mgmt.phase = .arguments ∧ s.powered = true ∧ s.mgmt.mselN = false ∧
      s.mdoByte s.mgmt.bytes = some 0 ∧ s.mgmt.bits.length = 0 := by decide

theorem witness_StatusAnswers : atDecode (framed serving 0x01 []) 0x01 [] = true := by decide

theorem witness_ContextAndLookupRecords :
    (∀ s ∈ [framed { serving with commitQueue := [.c4, .c1] } 0x02 [1]], atDecode s 0x02 [1] = true ∧
      contextOf (1 : Byte) = some .c1 ∧ s.commitQueue[2 - 1]? = some .c1 ∧ ∀ j < 2 - 1, s.commitQueue[j]? ≠ some .c1) ∧
    (atDecode (framed serving 0x02 [4]) 0x02 [4] = true ∧ contextOf (4 : Byte) = some .c4 ∧ .c4 ∉ serving.commitQueue) ∧
    (atDecode (framed serving 0x02 [0]) 0x02 [0] = true ∧ atDecode (framed serving 0x02 [5]) 0x02 [5] = true ∧
      5 ≤ (5 : Byte).toNat) ∧
    (atDecode (framed unformatted 0x03 [0, 0]) 0x03 [highByte 0, lowByte 0] = true ∧ unformatted.bridge.geometry = none) ∧
    (∀ n ∈ [950, 951], atDecode (framed serving 0x03 [highByte (BitVec.ofNat 16 n), lowByte (BitVec.ofNat 16 n)]) 0x03
      [highByte (BitVec.ofNat 16 n), lowByte (BitVec.ofNat 16 n)] = true) ∧
    (serving.bridge.geometry = some { arrayPages := 1024, frames := 64, homePages := 951 } ∧
      951 ≤ (951 : BitVec 16).toNat ∧ (950 : BitVec 16).toNat < 951 ∧ serving.pageMap = []) ∧
    lookupPage [{ homePage := 950, frame := 0, state := .pending 127, written := 1 }] (950 : BitVec 16).toNat =
      some { homePage := 950, frame := 0, state := .pending 127, written := 1 } := by decide

theorem witness_FaultAndRegionRecords :
    atDecode (framed serving 0x05 []) 0x05 [] = true ∧ atDecode (framed serving 0x07 [0]) 0x07 [0] = true ∧
    atDecode (framed serving 0x07 [7]) 0x07 [7] = true ∧ (7 : Byte).toNat = (7 : Fin 8) ∧
    atDecode (framed serving 0x07 [8]) 0x07 [8] = true ∧ 8 ≤ (8 : Byte).toNat := by decide

theorem witness_GetConfigAnswers :
    (∀ n ∈ [0, 1, 6, 7], atDecode (framed serving 0x06 [BitVec.ofNat 8 n]) 0x06 [BitVec.ofNat 8 n] = true) ∧
    atDecode (framed serving 0x20 [5, 0, 255]) 0x20 [5, highByte 255, lowByte 255] = true ∧
    after (framed serving 0x20 [5, 0, 255]) (.setConfig 5 255) (fun t => t.mgmt.response) = some [0] := by decide

theorem witness_EventQueueServed :
    (∀ n ∈ [0, 1, 16, 17], atDecode (framed serving 0x04 [BitVec.ofNat 8 n]) 0x04 [BitVec.ofNat 8 n] = true) ∧
    ({ serving with events := List.replicate 15 .trip } : State).events.length < 16 ∧
    16 ≤ ({ serving with events := List.replicate 16 .trip } : State).events.length ∧ serving.powered = true := by decide

/-- Each item with the values at the ends of its range, and just outside it. -/
theorem witness_SetConfigApplies :
    (∀ x ∈ [(1, 0), (1, 65535), (2, 4), (3, 0), (3, 1), (4, 0), (4, 1), (5, 1), (5, 255), (6, 0), (6, 1), (0, 1), (7, 1),
        (2, 5), (3, 2), (4, 2), (5, 0), (5, 256), (6, 2)],
      atDecode (framed serving 0x20 [BitVec.ofNat 8 x.1, highByte (BitVec.ofNat 16 x.2), lowByte (BitVec.ofNat 16 x.2)])
        0x20 [BitVec.ofNat 8 x.1, highByte (BitVec.ofNat 16 x.2), lowByte (BitVec.ofNat 16 x.2)] = true) := by
  decide +kernel

/-- The monitor REPORTED, with the line deasserted and asserted; and no resume due. -/
theorem witness_SetConfigApplies_monitor :
    (∀ level ∈ [false, true], ∀ s ∈ [{ framed serving 0x20 [3, 0, 0] with
        monitor := { serving.monitor with phase := .reported, level := level } }],
      atDecode s 0x20 [3, highByte 0, lowByte 0] = true ∧ s.monitor.phase = .reported ∧ s.monitor.level = level) ∧
    (∃ u, armsTo { serving with settings := { serving.settings with tripMode := .freeze } } u) ∧
    serving.monitor.phase ≠ .reported ∧
    noResumeDue { serving with settings := { serving.settings with autoResume := true } } :=
  ⟨by decide, ⟨_, .inl ⟨rfl, rfl⟩⟩, by decide, .inl (by decide)⟩

theorem witness_SetRegionApplies :
    (∀ s ∈ [inState serving .formatting], s.bridge.state ∉ [BridgeState.serving, .unformatted] ∧
      atDecode (framed s 0x21 [0, 0, 0, 0, 0, 1]) 0x21 [0, highByte 0, lowByte 0, highByte 0, lowByte 0, 1] = true) ∧
    (∀ s ∈ [serving, unformatted], s.bridge.state ∈ [BridgeState.serving, .unformatted] ∧
      atDecode (framed s 0x21 [8, 0, 0, 0, 0, 1]) 0x21 [8, highByte 0, lowByte 0, highByte 0, lowByte 0, 1] = true ∧
      atDecode (framed s 0x21 [7, 0, 1, 0, 0, 4]) 0x21 [7, highByte 1, lowByte 1, highByte 0, lowByte 0, 4] = true ∧
      atDecode (framed s 0x21 [7, 0, 0, 0, 0, 0]) 0x21 [7, highByte 0, lowByte 0, highByte 0, lowByte 0, 0] = true ∧
      atDecode (framed s 0x21 [0, 3, 182, 3, 182, 3]) 0x21 [0, highByte 950, lowByte 950, highByte 950, lowByte 950, 3] = true) ∧
    8 ≤ (8 : Byte).toNat ∧ 4 ≤ (4 : Byte).toNat ∧ (0 : BitVec 16).toNat < (1 : BitVec 16).toNat ∧
    (950 : BitVec 16).toNat < serving.homePages ∧ serving.homePages ≤ (951 : BitVec 16).toNat ∧
    (1022 : BitVec 16).toNat < unformatted.bridge.strapPages - 1 := by decide

theorem witness_ContextCommandsRefused :
    (∀ b ∈ [BridgeState.unformatted, .serving], ∀ n ∈ [0x10, 0x11, 0x12], ∀ c ∈ [0, 1, 4, 5],
      ∀ s ∈ [framed (inState serving b) (BitVec.ofNat 8 n) [BitVec.ofNat 8 c]],
      atDecode s (BitVec.ofNat 8 n) [BitVec.ofNat 8 c] = true ∧ s.bridge.state = b) ∧
    contextOf (1 : Byte) = some .c1 ∧ contextOf (4 : Byte) = some .c4 ∧
    (∀ x ∈ [ContextState.idle, .opened, .queued, .committing, .failed .contextFull 0],
      ((withContext serving .c1 x 1).contexts.get .c1).state = x) ∧
    (∀ s ∈ [{ withContext serving .c1 .opened 1 with engine := { serving.engine with lastSequence := 0xFFFFFFFF } }],
      4294967295 < s.engine.lastSequence.toNat + 1 +
        ([ContextId.c1, .c2, .c3, .c4].filter fun d => (s.contexts.get d).state = .queued ∨
          (s.contexts.get d).state = .committing).length) := by decide

theorem witness_OpenAndCommitAccepted :
    (∀ s ∈ [framed serving 0x10 [1]], s.bridge.state = .serving ∧ contextOf (1 : Byte) = some .c1 ∧
      atDecode s 0x10 [1] = true ∧ (s.contexts.get .c1).state = .idle) ∧
    ∀ n ∈ [0, 128], ∀ s ∈ [{ framed (withContext serving .c1 .opened n) 0x11 [1] with
        engine := { serving.engine with lastSequence := 0xFFFFFFFE } }],
      s.bridge.state = .serving ∧ atDecode s 0x11 [1] = true ∧ (s.contexts.get .c1).state = .opened ∧
      (s.contexts.get .c1).entryCount = n ∧
      s.engine.lastSequence.toNat + 1 +
        ([ContextId.c1, .c2, .c3, .c4].filter fun d => (s.contexts.get d).state = .queued ∨
          (s.contexts.get d).state = .committing).length ≤ 4294967295 := by decide

/-- With no request; with the held read of section 11.9, tagged and direct; and with a write held BUFFER_FULL, of the
context and direct (`witness_WriteSettles` has the outcomes). -/
theorem witness_AbortAccepted :
    (∀ x ∈ [ContextState.opened, .queued, .failed .contextFull 0], ∀ s ∈ [framed (withContext serving .c3 x 1) 0x12 [3]],
      s.bridge.state = .serving ∧ contextOf (3 : Byte) = some .c3 ∧ atDecode s 0x12 [3] = true ∧
      (s.contexts.get .c3).state = x ∧ s.host.outstanding = none) ∧
    (∀ s ∈ [framed beforeAbort 0x12 [3]], ∀ r ∈ [beforeAbort.host.outstanding], s.host.outstanding = r ∧
      r.map Request.phase = some (.held .readWait) ∧ (r.bind Request.resolved).map pageOf = some (s.homePages + 8) ∧
      r.map (fun x => contextOf x.tag) = some (some .c3) ∧
      { homePage := 61, frame := 8, state := .context .c3, written := 16 } ∈ s.pageMap) ∧
    (∀ r ∈ [waitingRead (.held .readWait) 7841, waitingRead .readGrant 7841], ∀ s ∈ [asking beforeAbort r],
      s.host.outstanding = some r ∧ r.op = .read ∧ r.resolved = some 7841 ∧ contextOf r.tag ≠ some .c3 ∧
      ∀ e ∈ (afterAbort s.buffer .c3).entries, e.addr.toNat / 8 ≠ (7841 : WordAddr).toNat / 8) ∧
    (∃ e ∈ (afterAbort beforeAbort.buffer .c3).entries, e.addr.toNat / 8 = (64001 : WordAddr).toNat / 8) ∧
    ∀ r ∈ [{ waitingWrite .bufferFull 7680 with tag := 3 }, waitingWrite .bufferFull 7680], ∀ s ∈ [asking beforeAbort r],
      r.op = .write 0x11223344 0xF ∧ r.phase = .held .bufferFull ∧
      (afterAbort s.buffer .c3).entries.length < s.buffer.entries.length ∧ r.addr.toNat < s.homePages * 128 ∧
      r.regionPassed = true := by decide

/-- The aborted context's write faults, and a direct one is posted. -/
theorem witness_AbortAccepted_released :
    (∃ v, WriteSettles (aborted beforeAbort .c3) { waitingWrite .bufferFull 7680 with tag := 3 } 5 0xF v) ∧
    ∃ v, WriteSettles (aborted beforeAbort .c3) (waitingWrite .bufferFull 7680) 5 0xF v :=
  ⟨⟨_, .closed .c3 rfl (by decide)⟩, ⟨_, .home (by decide) rfl (.inr (noEntry rfl)) (by decide)⟩⟩

theorem witness_ClearFaultsApplies :
    (∀ s ∈ [framed (inState serving .recovering) 0x22 []], atDecode s 0x22 [] = true ∧ s.bridge.state = .recovering) ∧
    (∀ s ∈ [framed (frozenFrom serving .recovering) 0x22 []], atDecode s 0x22 [] = true ∧ s.bridge.state = .frozen ∧
      s.bridge.returnState = some .recovering) ∧
    (∀ s ∈ [framed serving 0x22 [], framed (frozenFrom serving .serving) 0x22 []], atDecode s 0x22 [] = true ∧
      ¬ (s.bridge.state = .recovering ∨ (s.bridge.state = .frozen ∧ s.bridge.returnState = some .recovering))) ∧
    ∀ t ∈ [acceptedWith (framed serving 0x22 []) 0x22 [] []], ∀ u ∈ [framed t 0x01 []], after (framed serving 0x22 []) .clearFaults id = some t ∧
      atDecode u 0x01 [] = true ∧ u = { t with mgmt := u.mgmt } := by decide +kernel

theorem witness_FormatDecided :
    (∀ n ∈ [15, 16, 256, 257], ∀ s ∈ [framed serving 0x30 [highByte (BitVec.ofNat 16 n), lowByte (BitVec.ofNat 16 n)]],
      atDecode s 0x30 [highByte (BitVec.ofNat 16 n), lowByte (BitVec.ofNat 16 n)] = true ∧ s.bridge.state = .serving ∧
      s.commitQueue = [] ∧ s.engine.stage = .idle ∧ s.engine.pause = .running ∧ s.host.outstanding = none) ∧
    (∀ c, (serving.contexts.get c).state = .idle) ∧
    (∀ s ∈ [{ unformatted with bridge := { unformatted.bridge with strapPages := 128 } }], s.bridge.state = .unformatted ∧
      s.bridge.strapPages < (56 : BitVec 16).toNat + 73 ∧ (55 : BitVec 16).toNat + 73 ≤ s.bridge.strapPages) ∧
    (inState serving .recovering).bridge.state ∉ [BridgeState.unformatted, .serving] :=
  ⟨by decide, fun c => by cases c <;> rfl, by decide, by decide⟩

/-! ### Witnesses: the sequencer and the drain -/

/-- Pages 100 and 101 of context 1 queued for commit, as in section 11.6. -/
def queued1 : State :=
  { withContext serving .c1 .queued 2 with
    commitQueue := [.c1]
    freeFrames := 1 :: (List.range 61).map (· + 3)
    pageMap := [{ homePage := 100, frame := 0, state := .context .c1, written := 1 },
                { homePage := 101, frame := 2, state := .context .c1, written := 1 }] }

/-- The entry of context 1 that waits in the buffer. -/
def tagged1 : PostedEntry := { homeWrite 121729 with target := .frame 0, tag := some .c1 }

theorem witness_WorkTaken :
    (serving.powered = true ∧ serving.commitQueue = []) ∧
    ∀ s ∈ [queued1, draining queued1 [homeWrite 3, tagged1]], s.powered = true ∧ s.commitQueue = [.c1] ∧
      s.engine.stage = .idle ∧ s.bridge.state = .serving ∧ s.engine.pause = .running ∧
      (s.pageMap.filter fun e => e.state = .context .c1) = s.pageMap ∧ s.pageMap.length = 2 ∧
      (s.pageMap.head?.bind fun e => firstBlock e.written) = some 0 ∧
      ((∃ x ∈ s.buffer.entries, x.tag = some .c1) ∨ ∀ x ∈ s.buffer.entries, x.tag ≠ some .c1) := by decide

/-- A busy port; each client alone, two together, the drain urgent at eight entries and not at seven; and none. -/
theorem witness_GrantDecision :
    (∀ s ∈ [during serving (readOf .hostRead 5)], s.powered = true ∧ s.port.isSome = true) ∧
    (∀ s ∈ [serving, draining serving [homeWrite 3], inState (draining serving [homeWrite 3]) .frozen,
        asking serving (waitingRead .readGrant 5), withEngine serving .mark .start (some record8),
        withEngine (draining serving [homeWrite 3]) .mark .start (some record8)],
      s.powered = true ∧ s.port = none) ∧
    (∀ s ∈ [draining serving (List.replicate 8 (homeWrite 3))], urgentDrain s ∧ (drainAsks s).isSome = true) ∧
    (∀ s ∈ [withEngine (draining serving (List.replicate 7 (homeWrite 3))) .mark .start (some record8)],
      ¬ urgentDrain s ∧ (drainAsks s).isSome = true ∧ readAsks s = none ∧ (engineAsks s).isSome = true) ∧
    (∀ s ∈ [asking (draining serving [homeWrite 3]) (waitingRead .readGrant 5)],
      ¬ urgentDrain s ∧ (drainAsks s).isSome = true ∧ (readAsks s).isSome = true) ∧
    drainAsks serving = none ∧ readAsks serving = none ∧ engineAsks serving = none := by
  have no : ∀ s : State, s.buffer.entries.length < 8 → (s.host.outstanding.map Request.phase) ≠ some (.held .readWait) →
      s.engine.stage ≠ .drain → s.engine.stage ≠ .format → ¬ urgentDrain s := by
    intro s h1 h2 h3 h4 h
    rcases h with h | ⟨r, hr, hp⟩ | h | ⟨h, _⟩
    · omega
    · exact h2 (by rw [hr, Option.map_some, hp])
    · exact h3 h
    · exact h4 h
  refine ⟨by decide, by decide, fun s h => ?_, fun s h => ?_, fun s h => ?_, by decide⟩ <;>
    obtain rfl := List.mem_singleton.mp h
  · exact ⟨.inl (by decide), by decide⟩
  · exact ⟨no _ (by decide) (by decide) (by decide) (by decide), by decide, by decide, by decide⟩
  · exact ⟨no _ (by decide) (by decide) (by decide) (by decide), by decide, by decide⟩

/-- The head at each kind of position, a read in READ_GRANT, the anchor read, and the engine at rest. -/
theorem witness_ClientsAsk_drain :
    serving.buffer.entries = [] ∧
    (∀ h ∈ [{ pos := .fillRead 7, begun := true, store := List.replicate 7 0 : DrainHead },
        { pos := .fillWrite 7, begun := true, store := List.replicate 8 0 }, { pos := .write, begun := false, store := [] }],
      ∀ s ∈ [{ serving with buffer := { entries := [{ tagged1 with fill := some 12800 }], head := some h } }],
      s.buffer.entries = [{ tagged1 with fill := some 12800 }] ∧ s.buffer.head = some h ∧
      (h.pos = .fillWrite 7 → h.store[7]? = some 0)) ∧
    ((asking serving (waitingRead .readGrant 5)).host.outstanding = some (waitingRead .readGrant 5) ∧
      serving.host.outstanding = none) ∧
    (∀ s ∈ [{ State.reset with bridge := { State.reset.bridge with strapPages := 128, anchorRead := some [1, 2, 3, 4] } }],
      s.bridge.state = .starting ∧ s.bridge.anchorRead = some [1, 2, 3, 4]) ∧
    (inState serving .frozen).bridge.state ∉ [BridgeState.starting, .serving, .recovering, .formatting] ∧
    serving.bridge.state ≠ .starting ∧ serving.engine.stage = .idle := by decide

/-- A running engine in each stage that asks for a transfer. -/
theorem witness_ClientsAsk_engine :
    (∀ st ∈ [Stage.sum, .copy, .apply], ∀ pass ∈ [Pass.checksum, .copyRead, .copyWrite], ∀ b ∈ [BridgeState.serving, .recovering],
      ∀ s ∈ [inState (withEngine serving st (posAt 1 15 7 pass) (some record8)) b],
      s.bridge.state ∈ [BridgeState.serving, .recovering, .formatting] ∧ s.engine.pause = .running ∧
      s.engine.record = some record8 ∧ record8.items[s.engine.pos.entry]?.isSome = true ∧ s.engine.pos.pass = pass) ∧
    ([(0 : Word), 1, 2, 3, 4, 5, 6, 7][7]? = some 7) ∧
    (∀ w ∈ [0, 1, 4, 5, 10], ∀ s ∈ [withEngine serving .write (posAt 0 0 w .checksum) (some record8)],
      s.engine.record = some record8 ∧ s.engine.stage = .write ∧ s.engine.pos.word = w) ∧
    ((headerWords record8 ++ [record8.recordChecksum.getD 0])[3]? = some 0 ∧ (entryWords record8)[5]? = some 0) ∧
    (∀ k ∈ [0, 5, 6, 389], ∀ s ∈ [inState { serving with engine := { serving.engine with
        stage := .scan, scanWords := List.replicate k 0 } } .recovering],
      s.engine.stage = .scan ∧ s.engine.pos.slotIndex = 0 ∧ s.engine.scanWords.length = k) ∧
    (∀ s ∈ [inState { serving with engine := { serving.engine with stage := .retire, applyList := [.slot1] } } .recovering],
      s.engine.stage = .retire ∧ s.bridge.state = .recovering ∧ s.engine.applyList[s.engine.pos.slotIndex]? = some .slot1) ∧
    ∀ x ∈ [(1, 0), (2, 3), (3, 4)], ∀ s ∈ [inState { serving with engine := { serving.engine with
        stage := .format, formatFrames := some 64, formatStep := some x.1, pos := posAt 0 0 x.2 .checksum } } .formatting],
      s.engine.pause = .running ∧ s.engine.stage = .format ∧ s.engine.formatFrames = some 64 ∧
      s.engine.formatStep = some x.1 ∧ s.engine.pos.word = x.2 := by decide +kernel

theorem witness_DrainTransfersComplete :
    (∀ i ∈ [0, 7], ∀ h ∈ [{ pos := .fillRead i, begun := true, store := List.replicate i 0 : DrainHead }],
      ∀ s ∈ [during { serving with buffer := { entries := [{ tagged1 with fill := some 12800 }], head := some h } }
        (readOf .fillRead 12807)],
      transferring s (readOf .fillRead 12807) ∧ s.buffer.head = some h ∧ h.pos = .fillRead i ∧ h.store.length = i) ∧
    (∀ i ∈ [0, 7], ∀ h ∈ [{ pos := .fillWrite i, begun := true, store := List.replicate 8 0 : DrainHead }],
      ∀ s ∈ [during { serving with buffer := { entries := [{ tagged1 with fill := some 12800 }], head := some h } }
        (writeOf .fillWrite 121735 0)],
      transferring s (writeOf .fillWrite 121735 0) ∧ s.buffer.head = some h ∧ h.pos = .fillWrite i) ∧
    ∀ s ∈ [during (draining serving [homeWrite 3]) (writeOf .drainWrite 3 0xA5)],
      transferring s (writeOf .drainWrite 3 0xA5) ∧ s.buffer.head.isSome = true ∧ s.host.outstanding = none ∧
      s.engine.stage ≠ .drain ∧ s.engine.stage ≠ .format ∧ noResumeDue { s with buffer := afterDeparture s.buffer } := by
  unfold transferring noResumeDue
  decide

/-- Page 100 in a map entry of this state. -/
def mapped (s : State) (st : EntryState) : State :=
  { s with pageMap := [{ homePage := 100, frame := 0, state := st, written := 1 }] }

/-- A released write of the context 1 to word 12800 or 12927 of page 100. -/
def taggedWrite (a : WordAddr) : Request := { waitingWrite .bufferFull a with tag := 1 }

/-- Each outcome of a released write is met by some state. -/
theorem witness_WriteSettles :
    (∃ v, WriteSettles (withContext serving .c1 .committing 1) (taggedWrite 12800) 5 0xF v) ∧
    (∃ v, WriteSettles (withContext serving .c1 (.failed .contextFull 3) 1) (taggedWrite 12800) 5 0xF v) ∧
    (∃ v, WriteSettles (mapped serving (.context .c2)) (waitingWrite .bufferFull 12800) 5 0xF v) ∧
    (∃ v, WriteSettles (asking (mapped serving (.pending 127)) (waitingWrite .bufferFull 12800))
      (waitingWrite .bufferFull 12800) 5 0xF v) ∧
    (∃ v, WriteSettles (asking (draining serving (List.replicate 8 (homeWrite 3))) (waitingWrite .record 12800))
      (waitingWrite .record 12800) 5 0xF v) ∧
    (∃ v, WriteSettles (draining serving (List.replicate 7 (homeWrite 3))) (waitingWrite .bufferFull 12800) 5 0xF v) ∧
    (∃ v, WriteSettles (withContext serving .c1 .opened 127) (taggedWrite 12800) 5 0xF v) ∧
    (∃ v, WriteSettles (withContext serving .c1 .opened 128) (taggedWrite 12800) 5 0xF v) ∧
    (∃ v, WriteSettles { withContext serving .c1 .opened 127 with freeFrames := [] } (taggedWrite 12800) 5 0xF v) ∧
    (∃ v, WriteSettles (mapped (withContext serving .c1 .opened 1) (.context .c1)) (taggedWrite 12800) 5 0xF v) ∧
    ∃ v, WriteSettles (mapped (withContext serving .c1 .opened 1) (.context .c1)) (taggedWrite 12927) 5 0xF v := by
  refine ⟨⟨_, .closed .c1 rfl (by decide)⟩, ⟨_, .failed .c1 _ _ rfl rfl⟩,
    ⟨_, .conflict _ .c2 (by decide) (.inl rfl) rfl rfl rfl (by decide)⟩,
    ⟨_, .record _ 127 2000 (by decide) (.inl rfl) rfl rfl (.inl rfl) rfl⟩,
    ⟨_, .full 2000 (by decide) (.inl rfl) (.inr (.inl (noEntry rfl))) (by decide) rfl⟩,
    ⟨_, .home (by decide) rfl (.inr (noEntry rfl)) (by decide)⟩,
    ⟨_, .allocate .c1 0 ((List.range 63).map (· + 1)) [] [] (by decide) rfl rfl rfl (by decide) rfl (fun _ h => nomatch h)
      (fun _ h => nomatch h) (by decide) (by decide)⟩,
    ⟨_, .contextFull .c1 (by decide) rfl rfl rfl (by decide) (noEntry rfl) (by decide)⟩,
    ⟨_, .poolExhausted .c1 (by decide) rfl rfl rfl (by decide) (noEntry rfl) (by decide) rfl⟩,
    ⟨_, .ownEntry _ .c1 [] [] _ _ (by decide) rfl rfl rfl (by decide) rfl (by decide) rfl (fun _ h => nomatch h) rfl rfl⟩,
    ⟨_, .ownEntry _ .c1 [] [] _ _ (by decide) rfl rfl rfl (by decide) rfl (by decide) rfl (fun _ h => nomatch h) rfl rfl⟩⟩

/-- A full buffer and a held write; a held read, direct and tagged, whose conflict leaves; one whose conflict stays. -/
theorem witness_DepartureReleases :
    (∀ r ∈ [waitingWrite .bufferFull 121727, taggedWrite 12800], ∀ s ∈ [during (asking (draining
        (withContext serving .c1 .opened 0) (List.replicate 8 (homeWrite 3))) r) (writeOf .drainWrite 3 0xA5)],
      transferring s (writeOf .drainWrite 3 0xA5) ∧ s.engine.stage = .idle ∧ s.bridge.state ≠ .frozen ∧
      s.host.outstanding = some r ∧ r.phase = .held .bufferFull ∧ r.op = .write 0x11223344 0xF ∧ r.regionPassed = true ∧
      addressAdmitted s r.addr ∧ (afterDeparture s.buffer).entries.length < 8 ∧ s.pageMap = []) ∧
    (∀ r ∈ [waitingRead (.held .readWait) 5, { waitingRead (.held .readWait) 5 with tag := 1 }],
      ∀ s ∈ [during (asking (draining (withContext serving .c1 .opened 0) [homeWrite 3, homeWrite 8]) r)
        (writeOf .drainWrite 3 0xA5)],
      transferring s (writeOf .drainWrite 3 0xA5) ∧ s.host.outstanding = some r ∧ r.phase = .held .readWait ∧ r.op = .read ∧
      r.resolved = some 5 ∧ addressAdmitted s r.addr ∧
      ∀ e ∈ (afterDeparture s.buffer).entries, e.addr.toNat / 8 ≠ (5 : WordAddr).toNat / 8) ∧
    (∃ e ∈ (afterDeparture (draining serving [homeWrite 3, homeWrite 4]).buffer).entries,
      e.addr.toNat / 8 = (5 : WordAddr).toNat / 8) := by
  unfold transferring addressAdmitted
  decide +kernel

/-- Each outcome of a released read is met by some state. -/
theorem witness_ReadSettles :
    (∃ v, ReadSettles serving { waitingRead (.held .readWait) 5 with tag := 1 } v) ∧
    (∃ v, ReadSettles serving (waitingRead (.held .readWait) 5) v) ∧
    ∃ v, ReadSettles (asking (draining serving [homeWrite 4]) (waitingRead (.held .readWait) 5))
      (waitingRead (.held .readWait) 5) v :=
  ⟨⟨_, .closed .c1 rfl rfl⟩, ⟨_, .granted _ (.inl ⟨rfl, rfl⟩) (fun _ h => nomatch h)⟩,
    ⟨_, .held 5 2000 (.inl ⟨rfl, by decide⟩) (by decide) rfl⟩⟩

/-- DRAIN with and without an entry of the committing context left, and step 1 of FORMAT. -/
theorem witness_DepartureReleases_engine :
    (∀ xs ∈ [[homeWrite 3], [homeWrite 3, tagged1]],
      ∀ s ∈ [during (withEngine (draining queued1 xs) .drain .start (some record8)) (writeOf .drainWrite 3 0xA5)],
      transferring s (writeOf .drainWrite 3 0xA5) ∧ s.host.outstanding = none ∧ s.engine.stage = .drain ∧
      s.engine.record = some record8 ∧ record8.context = some .c1 ∧ record8.items[0]? = some item100 ∧
      firstBlock item100.written = some 0 ∧ s.bridge.state = .serving ∧ s.engine.pause = .running ∧
      ((∃ e ∈ (afterDeparture s.buffer).entries, e.tag = some .c1) ∨
        ∀ e ∈ (afterDeparture s.buffer).entries, e.tag ≠ some .c1)) ∧
    ∀ xs ∈ [[homeWrite 3], [homeWrite 3, homeWrite 4]],
      ∀ s ∈ [during (inState { draining serving xs with engine := { serving.engine with
        stage := .format, formatFrames := some 64, formatStep := some 1 } } .formatting) (writeOf .drainWrite 3 0xA5)],
      transferring s (writeOf .drainWrite 3 0xA5) ∧ s.host.outstanding = none ∧ s.engine.stage = .format ∧
      s.engine.formatStep = some 1 ∧ s.bridge.state = .formatting ∧ s.engine.pause = .running := by
  unfold transferring
  decide

theorem witness_AnchorJudged :
    (∀ x ∈ [0, 3, 4], ∀ t ∈ [readOf .anchorRead 0x3F84],
      ∀ s ∈ [during { State.reset with
          bridge := { State.reset.bridge with strapPages := 128, anchorRead := some (List.replicate x 0) } } t],
      s.bridge.state = .starting ∧ transferring s t ∧ t.purpose = .anchorRead ∧ t.isWrite = false ∧
      s.bridge.anchorRead = some (List.replicate x 0) ∧ (List.replicate x (0 : Word)).length = x ∧
      t.abandoned = false ∧ s.monitor.level = false) ∧
    (∀ b ∈ [BridgeState.starting, .resetting], ∀ t ∈ [{ readOf .anchorRead 0x3F84 with abandoned := true }],
      ∀ s ∈ [during (inState State.reset b) t],
      transferring s t ∧ t.purpose = .anchorRead ∧ t.isWrite = false ∧ t.abandoned = true ∧ s.bridge.anchorRead = none) ∧
    testAnchor 128 [0, 0, 0, 0, 0] = .invalid .checksum ∧
    testAnchor 128 (anchorWords 128 16) = .valid { arrayPages := 128, frames := 16, homePages := 103 } := by
  unfold transferring
  decide +kernel

/-! ### Witnesses: the stages of the engine -/

/-- A completion counts in a running engine, and in FROZEN when it is taken before the pause. -/
theorem witness_completionCounts :
    (∀ b ∈ [BridgeState.serving, .recovering, .formatting], completionCounts (inState serving b) .pauseFirst .running) ∧
    completionCounts { frozenFrom serving .serving with
      engine := { serving.engine with pause := .requested }
      monitor := { serving.monitor with phase := .resumeWait, delayTimer := .running 20 } } .completionFirst .paused := by
  unfold completionCounts noResumeDue
  decide

theorem witness_SumAndWriteAdvance :
    (∀ x ∈ [(0, 0, 0), (0, 0, 7), (1, 0, 7)], ∀ t ∈ [readOf .sumRead 121728],
      ∀ s ∈ [during (withEngine serving .sum (posAt x.1 x.2.1 x.2.2 .checksum) (some record8)) t],
      transferring s t ∧ completionCounts s .completionFirst .running ∧ s.engine.record = some record8 ∧ t.isWrite = false ∧
      s.engine.stage = .sum ∧ record8.items[s.engine.pos.entry]?.isSome = true ∧ s.engine.pos.word = x.2.2) ∧
    ((blockList 3).find? (fun x => 0 < x) = some 1 ∧ (∀ b ∈ blockList 1, b ≤ 0) ∧
      (record8.items[0 + 1]?.bind fun it => firstBlock it.written) = some 0 ∧ 1 + 1 = record8.items.length) ∧
    ∀ w ∈ [9, 10], ∀ t ∈ [writeOf .journalWrite 130048 0],
      ∀ s ∈ [during (withEngine serving .write (posAt 0 0 w .checksum) (some record8)) t],
      transferring s t ∧ completionCounts s .completionFirst .running ∧ s.engine.stage = .write ∧ s.engine.pos.word = w ∧
      (9 + 1 < 5 + 3 * record8.items.length ∧ 10 + 1 = 5 + 3 * record8.items.length) := by
  unfold completionCounts transferring noResumeDue
  exact ⟨by decide, by decide, by decide⟩

theorem witness_CommitPointPassed :
    ∀ t ∈ [writeOf .markWrite 129928 8], ∀ s ∈ [during (withEngine queued1 .mark .start (some record8)) t],
      transferring s t ∧ t.purpose = .markWrite ∧ completionCounts s .completionFirst .running ∧ s.engine.stage = .mark ∧
      s.engine.record = some record8 ∧ record8.context = some .c1 ∧ record8.items[0]? = some item100 ∧
      firstBlock item100.written = some 0 := by
  unfold completionCounts transferring noResumeDue
  decide

/-- Reads and writes of a block within COPY and APPLY, and the end of the first and of the last item of a commit. -/
theorem witness_CopyAdvances :
    (∀ x ∈ [(Stage.copy, Purpose.copyRead), (.apply, .applyCopyRead)], ∀ w ∈ [0, 7], ∀ t ∈ [readOf x.2 121728],
      ∀ s ∈ [during (withEngine serving x.1 (posAt 0 0 w .copyRead) (some record8)) t],
      transferring s t ∧ completionCounts s .completionFirst .running ∧ s.engine.record = some record8 ∧
      record8.items[s.engine.pos.entry]? = some item100 ∧ t.purpose = x.2 ∧ t.isWrite = false ∧ s.engine.stage = x.1 ∧
      s.engine.pos.pass = .copyRead ∧ s.engine.pos.word = w) ∧
    (∀ x ∈ [(Stage.copy, Purpose.copyWrite), (.apply, .applyCopyWrite)], ∀ e ∈ [0, 1], ∀ w ∈ [0, 7], ∀ t ∈ [writeOf x.2 12800 0],
      ∀ s ∈ [during (withEngine serving x.1 (posAt e 0 w .copyWrite) (some record8)) t],
      transferring s t ∧ completionCounts s .completionFirst .running ∧ s.engine.record = some record8 ∧
      record8.items[s.engine.pos.entry]?.isSome = true ∧ t.purpose = x.2 ∧ s.engine.stage = x.1 ∧
      s.engine.pos.pass = .copyWrite ∧ s.engine.pos.word = w) ∧
    (blockList 3).find? (fun x => 0 < x) = some 1 ∧ (∀ b ∈ blockList item100.written, b ≤ 0) ∧
    (record8.items[0 + 1]?.bind fun it => firstBlock it.written) = some 0 ∧ 1 + 1 = record8.items.length := by
  unfold completionCounts transferring noResumeDue
  exact ⟨by decide, by decide, by decide, by decide, by decide, by decide⟩

/-- The state of event 10 of section 11.6, with no request and with the held write. -/
theorem witness_RecordRetired :
    ∀ l ∈ [[{ homePage := 100, frame := 0, state := .copied 0, written := 1 : MapEntry },
            { homePage := 101, frame := 2, state := .copied 1, written := 1 }]],
      ∀ t ∈ [writeOf .retireWrite 129936 8],
      ∀ s ∈ [during { withEngine serving .retire .start (some record8) with
          pageMap := l ++ [{ homePage := 200, frame := 1, state := .context .c2, written := 4 }] } t],
      transferring s t ∧ t.purpose = .retireWrite ∧ completionCounts s .completionFirst .running ∧ s.engine.stage = .retire ∧
      (∀ e, e ∈ l ↔ e ∈ s.pageMap ∧ ∃ n, e.ofRecord n) ∧
      l.Pairwise (fun a b => ∃ m n, a.ofRecord m ∧ b.ofRecord n ∧ m < n) ∧ s.pageMap.Nodup ∧ s.host.outstanding = none := by
  intro l hl t ht s hs
  obtain rfl := List.mem_singleton.mp hl
  obtain rfl := List.mem_singleton.mp ht
  obtain rfl := List.mem_singleton.mp hs
  refine ⟨⟨rfl, rfl⟩, rfl, .inl ⟨by decide, rfl, rfl⟩, rfl, fun e => ?_, ?_, ?_, rfl⟩
  · constructor
    · intro h
      refine ⟨List.mem_append_left _ h, ?_⟩
      simp only [List.mem_cons, List.not_mem_nil, or_false] at h
      rcases h with rfl | rfl
      · exact ⟨0, .inr rfl⟩
      · exact ⟨1, .inr rfl⟩
    · rintro ⟨h, n, hn⟩
      rcases List.mem_append.mp h with h | h
      · exact h
      · obtain rfl := List.mem_singleton.mp h
        rcases hn with hn | hn <;> exact nomatch hn
  · exact .cons (fun b hb => by obtain rfl := List.mem_singleton.mp hb; exact ⟨0, 1, .inr rfl, .inr rfl, by decide⟩)
      (.cons (fun _ h => nomatch h) .nil)
  · show List.Nodup [({ homePage := 100, frame := 0, state := .copied 0, written := 1 } : MapEntry), _, _]
    decide

/-- The held write of that event, and one of a context; `witness_WriteSettles` has the outcomes. -/
theorem witness_RecordRetired_held :
    ∀ r ∈ [waitingWrite .record 12933, { taggedWrite 12933 with phase := .held .record }], ∀ s ∈ [asking serving r],
      s.host.outstanding = some r ∧ r.phase = .held .record ∧ r.op = .write 0x11223344 0xF ∧ r.regionPassed = true ∧
      addressAdmitted s r.addr := by
  unfold addressAdmitted
  decide

/-- The header words of an unmarked, of a retired and of a live slot of one entry. -/
def scanned (mark retire : Word) : List Word :=
  headerWords { record8 with entryCount := 1, items := [item100] }
    ++ [recordChecksumOf { record8 with entryCount := 1, items := [item100] }, mark, retire]
    ++ entryWords { record8 with entryCount := 1, items := [item100] }

/-- SCAN with `k` words of slot `i` kept, and slot 0 unmarked. -/
def scanning (k i : Nat) : State :=
  during (inState { serving with engine := { serving.engine with
    stage := .scan, scanWords := List.replicate k 0, pos := { Position.start with slotIndex := i }
    image0 := some .unmarked } } .recovering) (readOf .scanRead 129920)

theorem witness_ScanBuildsImages :
    (∀ k ∈ [0, 5], ∀ i ∈ [0, 1], ∀ s ∈ [scanning k i],
      transferring s (readOf .scanRead 129920) ∧ completionCounts s .completionFirst .running ∧ s.engine.stage = .scan ∧
      s.engine.scanWords.length = k ∧ s.engine.pos.slotIndex = i ∧ s.engine.image0 = some .unmarked ∧
      s.bridge.state = .recovering) ∧
    (imageOf (scanned 0 0)).isLive = false ∧ (imageOf (scanned 8 8)).isLive = false ∧
    imageOf (scanned 8 0) = .live 8 1 [item100] (recordChecksumOf { record8 with entryCount := 1, items := [item100] }) ∧
    validItem serving item100 ∧ firstBlock item100.written = some 0 := by
  unfold completionCounts transferring noResumeDue validItem
  exact ⟨by decide +kernel, by decide +kernel, by decide +kernel, by decide +kernel, by decide +kernel, by decide +kernel⟩

/-- The end of SCAN in FROZEN, the completion taken before the pause. -/
theorem witness_ScanBuildsImages_frozen :
    ∀ s ∈ [scanning 5 1], ∀ x ∈ [{ s with
        bridge := { s.bridge with state := .frozen, returnState := some .recovering }
        engine := { s.engine with pause := .requested } }],
      transferring x (readOf .scanRead 129920) ∧ completionCounts x .completionFirst .paused ∧ x.engine.stage = .scan ∧
      x.engine.pos.slotIndex = 1 ∧ x.engine.image0 = some .unmarked ∧ x.bridge.state = .frozen := by
  unfold completionCounts transferring noResumeDue
  decide +kernel

/-- An entry that APPLY cannot verify, with the page H. -/
def badItem : RecordItem := { item100 with homePage := 951 }

/-- An engine with two live slots, slot 1 first, of these entries. -/
def twoLive (es1 es0 : List RecordItem) : Engine :=
  { serving.engine with
    image0 := some (.live 8 1 es0 0), image1 := some (.live 7 1 es1 0), applyList := [.slot1, .slot0] }

theorem bad_not_valid : ¬ validItem serving badItem := by unfold validItem; decide

theorem good_valid : validItem serving item100 := by unfold validItem; decide

/-- APPLY goes on to a valid first entry, past an invalid first entry to a further one, from an invalid last entry of the
first slot to the second, and past invalid entries of both slots to RETIRE. -/
theorem witness_AppliesFrom :
    (∃ e, AppliesFrom serving (twoLive [item100] [item100]) 0 0 e) ∧
    (∃ e, AppliesFrom serving (twoLive [badItem, item100] [item100]) 0 0 e) ∧
    (∃ e, AppliesFrom serving (twoLive [item100, badItem] [item100]) 0 1 e) ∧
    ∃ e, AppliesFrom serving (twoLive [badItem] [badItem]) 0 0 e := by
  refine ⟨⟨_, .verify _ _ _ .slot1 7 0 1 _ item100 0 rfl rfl rfl good_valid rfl⟩,
    ⟨_, .invalid _ _ _ _ 0 .slot1 7 0 1 _ badItem rfl rfl rfl bad_not_valid (.inl ⟨rfl, rfl⟩)
      (.verify _ _ _ .slot1 7 0 1 _ item100 0 rfl rfl rfl good_valid rfl)⟩,
    ⟨_, .invalid _ _ _ _ 1 .slot1 7 0 1 _ badItem rfl rfl rfl bad_not_valid (.inl ⟨rfl, rfl⟩)
      (.nextSlot _ _ _ _ .slot1 7 0 1 _ rfl rfl (by decide) (.verify _ _ _ .slot0 8 0 1 _ item100 0 rfl rfl rfl good_valid rfl))⟩,
    ⟨_, .invalid _ _ _ _ 0 .slot1 7 0 1 _ badItem rfl rfl rfl bad_not_valid (.inl ⟨rfl, rfl⟩)
      (.nextSlot _ _ _ _ .slot1 7 0 1 _ rfl rfl (by decide)
        (.invalid _ _ _ _ 1 .slot0 8 0 1 _ badItem rfl rfl rfl bad_not_valid
          (.inr ⟨rfl, .slot1, 7, 1, _, 0, rfl, rfl, rfl⟩)
          (.nextSlot _ _ _ _ .slot0 8 0 1 _ rfl rfl (by decide) (.done _ _ _ (by decide)))))⟩⟩

/-- APPLY at the first and at the last of two entries, a valid and an invalid second entry, a match and a mismatch. -/
theorem witness_EntriesVerifiedAndApplied :
    (∀ bad ∈ [951, 101], ∀ es ∈ [[item100, { item100 with homePage := bad }]], ∀ e ∈ [0, 1], ∀ pass ∈ [Pass.checksum, .copyWrite],
      ∀ w ∈ [0, 7], ∀ r ∈ [{ record8 with context := none, items := es }], ∀ t ∈ [readOf .verifyRead 121728],
      ∀ s ∈ [during (inState { serving with engine := { serving.engine with
        stage := .apply, pos := posAt e 0 w pass, applyList := [.slot0], record := some r
        image0 := some (.live 8 2 es 0) } } .recovering) t],
      transferring s t ∧ completionCounts s .completionFirst .running ∧ s.engine.stage = .apply ∧
      s.engine.applyList[s.engine.pos.slotIndex]? = some .slot0 ∧ s.engine.pos.slotIndex = 0 ∧ s.engine.image .slot0 = some (.live 8 2 es 0) ∧
      s.engine.record = some { sequence := 8, slot := .slot0, context := none, entryCount := 2, items := es,
                               recordChecksum := some 0 } ∧
      es[s.engine.pos.entry]?.isSome = true ∧ s.engine.pos.word = w) ∧
    validItem serving { item100 with homePage := 950, frame := 63 } ∧ ¬ validItem serving { item100 with homePage := 951 } ∧
    ¬ validItem serving { item100 with frame := 64 } ∧ ¬ validItem serving { item100 with written := 0 } ∧
    item100.checksum = some (BitVec.ofNat 32 (0 * 65536 + 0)) ∧ item100.checksum ≠ some (BitVec.ofNat 32 (1 * 65536 + 1)) := by
  unfold completionCounts transferring noResumeDue validItem
  exact ⟨by decide +kernel, by decide +kernel, by decide +kernel, by decide +kernel, by decide +kernel, by decide +kernel, by decide +kernel⟩

theorem witness_RecoveryAndFormatEnd :
    (∀ l ∈ [[Slot.slot0], [.slot1, .slot0]], ∀ t ∈ [writeOf .recoveryRetireWrite 129936 8],
      ∀ s ∈ [during (inState { serving with engine := { serving.engine with stage := .retire, applyList := l } } .recovering) t],
      transferring s t ∧ completionCounts s .completionFirst .running ∧ t.purpose = .recoveryRetireWrite ∧
      s.engine.stage = .retire ∧ s.bridge.state = .recovering ∧ l.getLast? = some .slot0 ∧
      (s.engine.pos.slotIndex + 1 < s.engine.applyList.length ∨ s.engine.pos.slotIndex + 1 = s.engine.applyList.length)) ∧
    ∀ x ∈ [(2, 0), (2, 3), (3, 0), (3, 4)], ∀ t ∈ [writeOf .formatWrite 130944 1],
      ∀ s ∈ [during (inState { serving with engine := { serving.engine with
        stage := .format, formatFrames := some 64, formatStep := some x.1, pos := posAt 0 0 x.2 .checksum } } .formatting) t],
      transferring s t ∧ completionCounts s .completionFirst .running ∧ s.engine.stage = .format ∧
      s.bridge.state = .formatting ∧ s.engine.formatStep = some x.1 ∧ s.engine.pos.word = x.2 ∧
      s.engine.formatFrames = some 64 := by
  unfold completionCounts transferring noResumeDue
  exact ⟨by decide, by decide⟩

theorem witness_UncountedCompletion :
    (Instr.markWrite .pauseFirst ∈ engineCompletions .pauseFirst ∧
      completionOf (.markWrite .pauseFirst) = some (writeOf .markWrite 129928 8).purpose) ∧
    (∀ t ∈ [writeOf .markWrite 129928 8], ∀ s ∈ [during { frozenFrom queued1 .serving with
        monitor := { serving.monitor with phase := .resumeWait, delayTimer := .running 20 } } t],
      transferring s t ∧ s.bridge.state = .frozen ∧ noResumeDue s) ∧
    ∀ t ∈ [writeOf .markWrite 129928 8], ∀ s ∈ [during (inState queued1 .resetting) t],
      transferring s t ∧ s.bridge.state = .resetting := by
  unfold transferring noResumeDue
  decide

/-! ### Witnesses: what every step keeps -/

/-- Context 1 on its way to its commit point, with pages 100 and 101 in frames 0 and 2. -/
def committing1 : State :=
  { withEngine queued1 .mark .start (some record8) with
    commitQueue := []
    contexts := queued1.contexts.set .c1 { state := .committing, entryCount := 2, lastSequence := 0 } }

theorem witness_FramesStayAccounted :
    FramesAccounted committing1 ∧ ∃ t, step { committing1 with pending := [.status] } = .next t :=
  ⟨by unfold FramesAccounted; decide +kernel, _, rfl⟩

theorem witness_PageMapStaysOrdered : PageMapOrdered committing1 := ⟨by decide, by decide, by decide⟩

theorem witness_RecordStaysTrueToTheMap :
    PageMapOrdered committing1 ∧ CommitQueueExact committing1 ∧ ContextsAccounted committing1 ∧
      RecordMatchesMap committing1 := by
  refine ⟨witness_PageMapStaysOrdered, ⟨by decide, fun c => by cases c <;> decide, ?_⟩,
    ⟨fun c => by cases c <;> decide, fun c => by cases c <;> decide, fun c => by cases c <;> decide, fun h => ?_⟩, ?_⟩
  · intro r c _ hr hc
    obtain rfl := Option.some.inj hr
    obtain rfl := Option.some.inj hc
    decide
  · exact absurd (.inl rfl) h
  · intro r c _ hr hc
    obtain rfl := Option.some.inj hr
    obtain rfl := Option.some.inj hc
    decide

theorem witness_BlocksStayConsistent :
    (BridgeConsistent committing1 ∧ GeometryAcceptable committing1) ∧ (WithinCapacity committing1 ∧ SettingsInRange committing1) ∧
      RequestAccounted committing1 := by
  refine ⟨⟨⟨by decide, by decide, by decide, by decide, fun _ h => (nomatch h), fun _ => by decide, ?_, ?_, ?_⟩, ⟨?_, ?_⟩⟩,
    ⟨⟨by decide, by decide, by decide, by decide, by decide, by decide⟩, ⟨by decide, by decide, by decide⟩⟩, ⟨?_, ?_, ?_, ?_⟩⟩
  · rintro (h | h | ⟨h, _⟩) <;> exact nomatch h
  · intro h; exact nomatch h
  · intro h; exact absurd rfl h
  · intro g h
    obtain rfl := Option.some.inj h
    exact ⟨by decide, by decide, by decide, by decide⟩
  · intro h; exact nomatch h
  · exact ⟨fun h => (nomatch h), fun ⟨_, _, h, _⟩ => (nomatch h)⟩
  · intro r h; exact nomatch h
  · exact ⟨fun ⟨_, h, _⟩ => (nomatch h), fun h => (nomatch h)⟩
  · intro r h; exact nomatch h

theorem witness_UpdatesStayAccounted :
    BridgeConsistent committing1 ∧ ContextsAccounted committing1 ∧ RecordEntriesConfined committing1 :=
  ⟨witness_BlocksStayConsistent.1.1, witness_RecordStaysTrueToTheMap.2.2.1,
    ⟨fun _ _ => by decide, fun h => absurd (.inl rfl) h⟩⟩

end Sys2Proof.Tests
end

section
/-! SUPPORT. The commit queue and the record of the engine through every command: the invariant of O58 with the order of
the page map that its claims need, and the two ways a command can touch it, a change of the engine alone and a change of
one context. -/

namespace Sys2Proof.Machine.Updates

-- One proof at a time: each proof run beside the others takes a thread, and its stack counts against the memory
-- limit of the check.
set_option Elab.async false

/-! ### The invariant -/

/-- The page map stands by ascending HOME_PAGE (R20). -/
abbrev Ascending (m : List MapEntry) : Prop := m.Pairwise (fun a b => a.homePage < b.homePage)

/-- What O58 keeps, with the order of the page map that an Add block claim relies on (R20, R42, R50, R51, R61, R65). -/
structure UpdateSound (s : State) : Prop where
  ascending : Ascending s.pageMap
  queue : CommitQueueExact s
  record : RecordMatchesMap s

/-- A record of `f` on its way to its commit point was already on it in `e`, for the same context and with the same
places of its items: checksums and the stage may have changed (R66 to R69). -/
def EngineFollows (e f : Engine) : Prop :=
  ∀ r c, f.stage.beforeCommitPoint = true → f.record = some r → r.context = some c →
    e.stage.beforeCommitPoint = true ∧ ∃ q, e.record = some q ∧ q.context = some c ∧
      q.items.map RecordItem.place = r.items.map RecordItem.place ∧ q.entryCount = r.entryCount

theorem EngineFollows.of_eq {e f : Engine} (hs : f.stage = e.stage) (hr : f.record = e.record) : EngineFollows e f :=
  fun r _ hb hf hc => ⟨hs ▸ hb, r, hr ▸ hf, hc, rfl, rfl⟩

theorem EngineFollows.of_past {e f : Engine} (hs : f.stage.beforeCommitPoint = false) : EngineFollows e f :=
  fun _ _ hb => absurd hb (by simp [hs])

theorem EngineFollows.trans {e f g : Engine} (h : EngineFollows e f) (h' : EngineFollows f g) : EngineFollows e g := by
  intro r c hb hr hc
  obtain ⟨hb', q, hq, hqc, hqi, hqn⟩ := h' r c hb hr hc
  obtain ⟨hb'', p, hp, hpc, hpi, hpn⟩ := h q c hb' hq hqc
  exact ⟨hb'', p, hp, hpc, hpi.trans hqi, hpn.trans hqn⟩

/-- Between two states the context table, the map and the queue change for one context alone, which the queue of the
second holds exactly when it is QUEUED there. -/
structure OnlyContext (c : ContextId) (s t : State) : Prop where
  others : ∀ d, d ≠ c → t.contexts.get d = s.contexts.get d
  entries : ∀ d, d ≠ c → entriesOf t.pageMap d = entriesOf s.pageMap d
  ascending : Ascending t.pageMap
  once : t.commitQueue.Nodup
  waiting : ∀ d, d ≠ c → (d ∈ t.commitQueue ↔ d ∈ s.commitQueue)
  own : c ∈ t.commitQueue ↔ (t.contexts.get c).state = .queued

/-- A change of one context keeps the invariant when that context has no record on its way to its commit point. -/
theorem UpdateSound.onlyContext {s t : State} {c : ContextId} (h : UpdateSound s) (hc : OnlyContext c s t)
    (he : EngineFollows s.engine t.engine)
    (hp : (s.contexts.get c).state = .committing → t.engine.stage.beforeCommitPoint = false) : UpdateSound t := by
  have key : ∀ r d, t.engine.stage.beforeCommitPoint = true → t.engine.record = some r → r.context = some d →
      d ≠ c ∧ (s.contexts.get d).state = .committing ∧
        r.items.map RecordItem.place = (entriesOf s.pageMap d).map MapEntry.place ∧ r.entryCount = r.items.length := by
    intro r d hb hr hd
    obtain ⟨hb', q, hq, hqd, hqi, hqn⟩ := he r d hb hr hd
    have hcom := h.queue.committing q d hb' hq hqd
    obtain ⟨hplaces, hcount⟩ := h.record q d hb' hq hqd
    have hlen : q.items.length = r.items.length := by simpa using congrArg List.length hqi
    refine ⟨?_, hcom, hqi ▸ hplaces, by omega⟩
    rintro rfl
    simp [hp hcom] at hb
  refine ⟨hc.ascending, ⟨hc.once, fun d => ?_, fun r d hb hr hd => ?_⟩, fun r d hb hr hd => ?_⟩
  · by_cases hd : d = c
    · exact hd ▸ hc.own
    · rw [hc.waiting d hd, hc.others d hd, h.queue.queued d]
  · obtain ⟨hd, hcom, -⟩ := key r d hb hr hd
    rwa [hc.others d hd]
  · obtain ⟨hd, -, hplaces, hcount⟩ := key r d hb hr hd
    exact ⟨hc.entries d hd ▸ hplaces, hcount⟩

/-- A change of the engine alone keeps the invariant when its record follows. -/
theorem UpdateSound.follows {s t : State} (h : UpdateSound s) (he : EngineFollows s.engine t.engine)
    (hm : t.pageMap = s.pageMap := by simp) (hc : t.contexts = s.contexts := by simp)
    (hq : t.commitQueue = s.commitQueue := by simp) : UpdateSound t := by
  refine ⟨hm ▸ h.ascending, ⟨hq ▸ h.queue.once, by rw [hq, hc]; exact h.queue.queued, fun r c hb hr hd => ?_⟩,
    fun r c hb hr hd => ?_⟩
  · obtain ⟨hb', q, hq, hqd, -⟩ := he r c hb hr hd
    exact hc ▸ h.queue.committing q c hb' hq hqd
  · obtain ⟨hb', q, hq, hqd, hqi, hqn⟩ := he r c hb hr hd
    obtain ⟨hplaces, hcount⟩ := h.record q c hb' hq hqd
    have hlen : q.items.length = r.items.length := by simpa using congrArg List.length hqi
    exact ⟨hm ▸ hqi ▸ hplaces, by omega⟩

/-- A change that leaves the map, the contexts, the queue, the stage and the record as they are keeps the invariant. -/
theorem UpdateSound.frame {s t : State} (h : UpdateSound s) (hm : t.pageMap = s.pageMap := by simp)
    (hc : t.contexts = s.contexts := by simp) (hq : t.commitQueue = s.commitQueue := by simp)
    (hs : t.engine.stage = s.engine.stage := by simp) (hr : t.engine.record = s.engine.record := by simp) :
    UpdateSound t :=
  h.follows (.of_eq hs hr) hm hc hq

/-- Past the commit point any ordered map will do. -/
theorem UpdateSound.past {s t : State} (h : UpdateSound s) (hs : t.engine.stage.beforeCommitPoint = false)
    (hm : Ascending t.pageMap) (hc : t.contexts = s.contexts := by simp)
    (hq : t.commitQueue = s.commitQueue := by simp) : UpdateSound t :=
  ⟨hm, ⟨hq ▸ h.queue.once, by rw [hq, hc]; exact h.queue.queued, fun _ _ hb => absurd hb (by simp [hs])⟩,
    fun _ _ hb => absurd hb (by simp [hs])⟩

/-- With every update forgotten the invariant holds (R37, R43, R62). -/
theorem UpdateSound.of_reset {s : State} (hm : s.pageMap = []) (hc : s.contexts = .reset) (hq : s.commitQueue = [])
    (hs : s.engine.stage = .idle) : UpdateSound s := by
  refine ⟨by simp [hm], ⟨by simp [hq], fun c => ?_, ?_⟩, ?_⟩
  · rw [hq, hc]; cases c <;> simp [ContextTable.get, ContextTable.reset, ContextRecord.reset]
  · simp [hs, Stage.beforeCommitPoint]
  · simp [RecordMatchesMap, hs, Stage.beforeCommitPoint]

/-! ### The page map -/

theorem eq_of_homePage_eq {m : List MapEntry} {x y : MapEntry} (hm : Ascending m)
    (hx : x ∈ m) (hy : y ∈ m) (h : x.homePage = y.homePage) : x = y :=
  List.inj_on_of_nodup_map (List.pairwise_map.mpr (hm.imp Nat.ne_of_lt)) hx hy h

theorem ascending_of_homePages {m n : List MapEntry} (h : n.map MapEntry.homePage = m.map MapEntry.homePage)
    (hm : Ascending m) : Ascending n := by
  have hm' : (m.map MapEntry.homePage).Pairwise (· < ·) := List.pairwise_map.mpr hm
  exact List.pairwise_map.mp (h ▸ hm')

theorem updatePage_ascending {m : List MapEntry} {p : Nat} {f : MapEntry → MapEntry}
    (hf : ∀ e, (f e).homePage = e.homePage) (hm : Ascending m) :
    Ascending (updatePage m p f) :=
  ascending_of_homePages (updatePage_map _ _ _ _ hf) hm

theorem copiedClaim_ascending {m : List MapEntry} {p : Nat} (hm : Ascending m) :
    Ascending (copiedClaim m p) :=
  updatePage_ascending toCopied_homePage hm

theorem markClaim_ascending {m : List MapEntry} {c : ContextId} {n : Nat}
    (hm : Ascending m) :
    Ascending (markClaim c n m) :=
  ascending_of_homePages (markClaim_map _ _ _ _ fun _ _ => rfl) hm

theorem entriesOf_updatePage_of_not_owned {m : List MapEntry} {p : Nat} {f : MapEntry → MapEntry} {d : ContextId}
    (hf : ∀ e, ownedBy d (f e) = ownedBy d e) (h : ∀ e ∈ m, e.homePage = p → ownedBy d e = false) :
    entriesOf (updatePage m p f) d = entriesOf m d := by
  induction m with
  | nil => rfl
  | cons e es ih =>
    have ih' := ih fun x hx => h x (by simp [hx])
    simp only [entriesOf, updatePage, List.map_cons] at ih' ⊢
    by_cases hp : e.homePage = p
    · simp [hp, hf, h e (by simp) hp, ih']
    · simp [hp, List.filter_cons, ih']

/-- An Add block claim for `c` leaves the entries of every other context as they are: the page has one entry (R20,
R31). -/
theorem entriesOf_addBlockClaim_ne {m : List MapEntry} {p b : Nat} {e : MapEntry} {c d : ContextId}
    (hm : Ascending m) (hl : lookupPage m p = some e) (he : e.state = .context c)
    (hd : d ≠ c) : entriesOf (addBlockClaim m p b) d = entriesOf m d := by
  obtain ⟨hmem, hpage⟩ := lookupPage_some hl
  refine entriesOf_updatePage_of_not_owned (fun _ => rfl) fun x hx hxp => ?_
  rw [eq_of_homePage_eq hm hx hmem (hxp.trans hpage.symm), ownedBy, he]
  simpa using hd.symm

/-! ### Claims of the host access path -/

/-- A claim of the host access path is about an OPEN context, which is neither QUEUED nor COMMITTING (R117). -/
theorem UpdateSound.hostClaim {s t : State} (h : UpdateSound s) (hc : HostClaim s t)
    (hq : t.commitQueue = s.commitQueue) (he : t.engine = s.engine) : UpdateSound t := by
  have hfollows : EngineFollows s.engine t.engine := .of_eq (by rw [he]) (by rw [he])
  have notWaiting : ∀ c, (s.contexts.get c).state = .opened → c ∉ t.commitQueue := fun c ho => by
    rw [hq, h.queue.queued c, ho]; simp
  cases hc with
  | none hm _ hc => exact h.follows hfollows hm hc hq
  | addBlock c p b e _ ho hl he' hm _ hc =>
    refine h.onlyContext (c := c)
      ⟨fun d _ => by rw [hc], fun d hd => ?_, ?_, hq ▸ h.queue.once, fun d _ => by rw [hq], ?_⟩ hfollows (by simp [ho])
    · rw [hm, entriesOf_addBlockClaim_ne h.ascending hl he' hd]
    · rw [hm]; exact updatePage_ascending (fun _ => rfl) h.ascending
    · simp [notWaiting c ho, hc, ho]
  | allocate c k p b rest _ ho hl _ _ _ _ hm _ hc =>
    refine h.onlyContext (c := c)
      ⟨fun d hd => ?_, fun d hd => ?_, ?_, hq ▸ h.queue.once, fun d _ => by rw [hq], ?_⟩ hfollows (by simp [ho])
    · simp [hc, State.allocate, hd]
    · rw [hm]; exact entriesOf_insertEntry_ne _ _ _ (by simpa using hd.symm)
    · rw [hm]; exact insertEntry_ascending h.ascending (lookupPage_none.mp hl)
    · simp [notWaiting c ho, hc, State.allocate, ho]
  | fail c f a _ ho hm _ hc =>
    refine h.onlyContext (c := c)
      ⟨fun d hd => ?_, fun d _ => by rw [hm], hm ▸ h.ascending, hq ▸ h.queue.once, fun d _ => by rw [hq], ?_⟩ hfollows
      (by simp [ho])
    · simp [hc, hd]
    · simp [notWaiting c ho, hc]

theorem UpdateSound.classifyRequest {s : State} (h : UpdateSound s) (r : Request) :
    UpdateSound (classifyRequest s r) :=
  h.hostClaim (hostClaim_classifyRequest s r) (by simp) (by simp)

theorem UpdateSound.releaseHeld {s : State} (h : UpdateSound s) (w : HoldReason) : UpdateSound (releaseHeld s w) :=
  h.hostClaim (hostClaim_releaseHeld s w) (by simp) (by simp)

theorem UpdateSound.releaseDeparture {s : State} (h : UpdateSound s) : UpdateSound (releaseDeparture s) :=
  (h.releaseHeld .bufferFull).hostClaim (hostClaim_releaseReadWait _) (by simp) (by simp)

/-! ### The engine before the commit point -/

theorem clearChecksums_places (r : CurrentRecord) :
    r.clearChecksums.items.map RecordItem.place = r.items.map RecordItem.place := by
  simp [CurrentRecord.clearChecksums, RecordItem.place]

theorem setChecksum_places (r : CurrentRecord) (i : Nat) (q : Word) :
    (r.setChecksum i q).items.map RecordItem.place = r.items.map RecordItem.place := by
  refine List.ext_getElem (by simp [CurrentRecord.setChecksum]) fun n _ _ => ?_
  simp only [CurrentRecord.setChecksum, List.getElem_map, List.getElem_modify]
  split <;> rfl

theorem beginSum_follows {s : State} (h : s.engine.stage.beforeCommitPoint = true) :
    EngineFollows s.engine (beginSum s).engine := by
  unfold beginSum
  cases hr : s.engine.record with
  | none => exact .of_eq rfl rfl
  | some q =>
    rintro r c - hr' hc
    obtain rfl := Option.some.inj hr'
    exact ⟨h, q, hr, hc, (clearChecksums_places q).symm, rfl⟩

theorem endDrain_follows (s : State) : EngineFollows s.engine (endDrain s).engine := by
  unfold endDrain
  split
  · split
    · rename_i hs
      simp only [Bool.and_eq_true, decide_eq_true_eq] at hs
      obtain ⟨⟨hdrain, -⟩, -⟩ := hs
      exact beginSum_follows (by rw [hdrain]; rfl)
    · exact .of_eq rfl rfl
  · exact .of_eq rfl rfl

theorem sumWord_follows {s : State} (w : Word) (h : s.engine.stage = .sum) :
    EngineFollows s.engine (sumWord s w).engine := by
  have hb : s.engine.stage.beforeCommitPoint = true := by rw [h]; rfl
  unfold sumWord
  split
  · rename_i q it hq _
    dsimp only
    split
    · exact .of_eq rfl rfl
    · split
      all_goals
        rintro r c - hr hc
        obtain rfl := Option.some.inj hr
        exact ⟨hb, q, hq, hc, (setChecksum_places q _ _).symm, rfl⟩
  · exact .of_eq rfl rfl

theorem journalWritten_follows {s : State} (h : s.engine.stage = .write) :
    EngineFollows s.engine (journalWritten s).engine := by
  unfold journalWritten
  split
  · split
    · exact .of_eq rfl rfl
    · rename_i q hq _
      exact fun r c _ hr hc => ⟨by rw [h]; rfl, r, hr, hc, rfl, rfl⟩
  · exact .of_eq rfl rfl

/-! ### The engine past the commit point -/

/-- APPLY stands at an entry or has ended in RETIRE (R91 to R95). -/
theorem seekEntry_past (l : List (Nat × Nat × Slot × RecordItem)) (s : State) :
    (seekEntry l s).engine.stage.beforeCommitPoint = false := by
  induction l generalizing s with
  | nil => rfl
  | cons x rest ih =>
    obtain ⟨j, i, sl, it⟩ := x
    simp only [seekEntry]
    split
    · exact ih _
    · rfl

theorem applyFrom_past (s : State) (j i : Nat) : (applyFrom s j i).engine.stage.beforeCommitPoint = false :=
  seekEntry_past _ _

theorem reportRecovery_past {s : State} (h : s.engine.stage.beforeCommitPoint = false) :
    (reportRecovery s).engine.stage.beforeCommitPoint = false := by
  unfold reportRecovery
  split
  · simp [Stage.beforeCommitPoint]
  · exact h

theorem scanWord_past {s : State} (w : Word) (h : s.engine.stage = .scan) :
    (scanWord s w).engine.stage.beforeCommitPoint = false := by
  have hb : s.engine.stage.beforeCommitPoint = false := by rw [h]; rfl
  unfold scanWord
  split
  · dsimp only
    split
    · exact hb
    · split
      · simpa using hb
      · unfold endScan
        dsimp only
        split
        · exact reportRecovery_past (by simpa using hb)
        · exact applyFrom_past _ _ _
  · exact hb

theorem verifyWord_past {s : State} (w : Word) (h : s.engine.stage = .apply) :
    (verifyWord s w).engine.stage.beforeCommitPoint = false := by
  have hb : s.engine.stage.beforeCommitPoint = false := by rw [h]; rfl
  unfold verifyWord
  split
  · dsimp only
    split
    · simpa using hb
    · split
      · exact applyFrom_past _ _ _
      · simpa using hb
  · exact hb

theorem applyWritten_past {s : State} (h : s.engine.stage = .apply) :
    (applyWritten s).engine.stage.beforeCommitPoint = false := by
  have hb : s.engine.stage.beforeCommitPoint = false := by rw [h]; rfl
  unfold applyWritten
  split
  · split
    · simpa using hb
    · exact applyFrom_past _ _ _
  · exact hb

theorem recoveryRetired_past {s : State} (h : s.engine.stage = .retire) :
    (recoveryRetired s).engine.stage.beforeCommitPoint = false := by
  have hb : (setPos s { s.engine.pos with slotIndex := s.engine.pos.slotIndex + 1 }).engine.stage.beforeCommitPoint
      = false := by simp [h, Stage.beforeCommitPoint]
  unfold recoveryRetired
  dsimp only
  split
  · exact hb
  · exact reportRecovery_past hb

theorem formatWritten_past {s : State} (h : s.engine.stage = .format) :
    (formatWritten s).engine.stage.beforeCommitPoint = false := by
  have hb : s.engine.stage.beforeCommitPoint = false := by rw [h]; rfl
  unfold formatWritten
  split
  · simpa using hb
  · split
    · simpa using hb
    · simp [finishFormat, Stage.beforeCommitPoint]

/-! ### Resume -/

theorem restartCommit_follows (s : State) : EngineFollows s.engine (restartCommit s).engine := by
  unfold restartCommit
  split
  case h_1 => exact endDrain_follows s
  case h_2 hs => exact beginSum_follows (by rw [hs]; rfl)
  case h_4 => split <;> exact .of_eq (by simp) (by simp)
  all_goals exact .of_eq (by simp) (by simp)

theorem restartRecovery_follows (s : State) : EngineFollows s.engine (restartRecovery s).engine := by
  unfold restartRecovery
  split
  case h_1 | h_2 => exact .of_past rfl
  all_goals exact .of_eq (by simp) (by simp)

/-- The restart of a paused stage keeps the record on its way to its commit point: only its checksums go (R79). -/
theorem restartStage_follows (s : State) : EngineFollows s.engine (restartStage s).engine := by
  unfold restartStage
  split
  case h_1 => exact restartCommit_follows s
  case h_2 => exact restartRecovery_follows s
  all_goals exact .of_eq (by simp [restartFormat]) (by simp [restartFormat])

theorem resumeBridge_follows (s : State) : EngineFollows s.engine (resumeBridge s).engine := by
  unfold resumeBridge
  split
  · rename_i r _
    have hs := restartStage_follows
      { s with
        bridge := { s.bridge with state := r, returnState := none }
        engine := { s.engine with pause := .running } }
    exact (EngineFollows.of_eq rfl rfl).trans (hs.trans (.of_eq (by simp) (by simp)))
  · exact .of_eq rfl rfl

theorem UpdateSound.endDrain {s : State} (h : UpdateSound s) : UpdateSound (endDrain s) :=
  h.follows (endDrain_follows s)

theorem UpdateSound.resumeBridge {s : State} (h : UpdateSound s) : UpdateSound (resumeBridge s) :=
  h.follows (resumeBridge_follows s)

theorem UpdateSound.autoResume {s : State} (h : UpdateSound s) : UpdateSound (autoResume s) := by
  unfold Machine.autoResume
  split
  · exact h.resumeBridge
  · exact h

/-! ### The take, the commit point and the retire -/

/-- The take of the head: the record names the entries of the context, which leaves the queue as COMMITTING (R51,
R65). -/
theorem UpdateSound.takeContext {s : State} {c : ContextId} {rest : List ContextId} (h : UpdateSound s)
    (ha : ContextsAccounted s) (hq : s.commitQueue = c :: rest) : UpdateSound (takeContext s c rest) := by
  have hone := h.queue.once
  rw [hq, List.nodup_cons] at hone
  have taken : UpdateSound { s with
      commitQueue := rest
      contexts := s.contexts.set c { s.contexts.get c with state := .committing }
      engine := { s.engine with stage := .drain, record := some (recordFor s c), pos := .start } } := by
    refine ⟨h.ascending, ⟨hone.2, fun d => ?_, fun r d _ hr hd => ?_⟩, fun r d _ hr hd => ?_⟩
    · have hd := h.queue.queued d
      rw [hq, List.mem_cons] at hd
      by_cases hdc : d = c
      · subst hdc; simp [hone.1]
      · simpa [hdc] using hd
    · obtain rfl := Option.some.inj hr
      obtain rfl := Option.some.inj hd
      simp
    · obtain rfl := Option.some.inj hr
      obtain rfl := Option.some.inj hd
      exact ⟨by simp [recordFor, itemOfEntry, RecordItem.place, MapEntry.place], by simp [recordFor, ha.counted]⟩
  exact taken.endDrain

/-- The commit point: the committing context is IDLE and the record is past it (R52, R71). -/
theorem UpdateSound.commitPoint {s : State} (h : UpdateSound s) (hs : s.engine.stage = .mark) :
    UpdateSound (commitPoint s) := by
  unfold Machine.commitPoint
  split
  · rename_i r c hr hc
    have hcom := h.queue.committing r c (by rw [hs]; rfl) hr (by simpa [hr] using hc)
    refine h.onlyContext (c := c)
      ⟨fun d hd => by simp [hd], fun d hd => ?_, ?_, by simpa using h.queue.once, fun d _ => by simp, ?_⟩
      (.of_past (by simp [Stage.beforeCommitPoint])) fun _ => by simp [Stage.beforeCommitPoint]
    · simp [entriesOf_markClaim, hd]
    · simpa using markClaim_ascending h.ascending
    · simp [h.queue.queued c, hcom]
  · exact h

theorem copyWritten_past {s : State} (h : s.engine.stage = .copy) :
    (copyWritten s).engine.stage.beforeCommitPoint = false := by
  have hb : s.engine.stage.beforeCommitPoint = false := by rw [h]; rfl
  unfold copyWritten
  split
  · split
    · simpa using hb
    · dsimp only
      split
      · simpa using hb
      · rfl
  · exact hb

theorem copyWritten_ascending {s : State} (h : Ascending s.pageMap) :
    Ascending (copyWritten s).pageMap := by
  unfold copyWritten
  split
  · split
    · simpa using h
    · dsimp only
      split <;> simpa using copiedClaim_ascending h
  · exact h

theorem UpdateSound.copyWritten {s : State} (h : UpdateSound s) (hs : s.engine.stage = .copy) :
    UpdateSound (copyWritten s) :=
  h.past (copyWritten_past hs) (copyWritten_ascending h.ascending)

theorem UpdateSound.retireCommit {s : State} (h : UpdateSound s) : UpdateSound (retireCommit s) := by
  have retired : UpdateSound { s.retireClaim with
      engine := { s.retireClaim.engine with record := none, stage := .idle, pos := .start } } :=
    h.past rfl (h.ascending.filter _)
  exact retired.releaseHeld .record

/-- FORMAT empties the map with the engine past every commit point (R15, R35). -/
theorem UpdateSound.formatWritten {s : State} (h : UpdateSound s) (hs : s.engine.stage = .format) :
    UpdateSound (formatWritten s) := by
  refine h.past (formatWritten_past hs) ?_
  unfold Machine.formatWritten
  split
  · simpa using h.ascending
  · split
    · simpa using h.ascending
    · simp [finishFormat]

/-! ### Context commands -/

theorem UpdateSound.openContext {s : State} {k : ContextId} (h : UpdateSound s)
    (hk : (s.contexts.get k).state = .idle) :
    UpdateSound (s.setContext k { s.contexts.get k with state := .opened, entryCount := 0 }) := by
  refine h.onlyContext (c := k)
    ⟨fun d hd => by simp [hd], fun _ _ => rfl, h.ascending, h.queue.once, fun _ _ => .rfl, ?_⟩
    (.of_eq rfl rfl) (by simp [hk])
  simp [h.queue.queued k, hk]

/-- COMMIT: an empty update leaves no trace in the queue, and any other joins its tail as QUEUED (R47, R48). -/
theorem UpdateSound.commitContext {s : State} {k : ContextId} (h : UpdateSound s)
    (hk : (s.contexts.get k).state = .opened) : UpdateSound (commitContext s k) := by
  have hout : k ∉ s.commitQueue := by simp [h.queue.queued k, hk]
  unfold Machine.commitContext
  dsimp only
  split
  · refine h.onlyContext (c := k)
      ⟨fun d hd => by simp [hd], fun _ _ => by simp, by simpa using h.ascending, by simpa using h.queue.once,
        fun _ _ => by simp, by simp [hout]⟩ (.of_eq (by simp) (by simp)) (by simp [hk])
  · refine h.onlyContext (c := k)
      ⟨fun d hd => by simp [hd], fun _ _ => by simp, by simpa using h.ascending, ?_, fun d hd => by simp [hd], by simp⟩
      (.of_eq (by simp) (by simp)) (by simp [hk])
    exact List.nodup_append.mpr ⟨h.queue.once, List.nodup_singleton k, by grind⟩

theorem UpdateSound.abortHost {s : State} (h : UpdateSound s) (c : ContextId) (removed : List MapEntry) (freed : Bool) :
    UpdateSound (abortHost s c removed freed) := by
  unfold Machine.abortHost
  split
  · exact h
  · split
    case h_1 =>
      split
      · exact h.releaseHeld .bufferFull
      · exact h
    all_goals
      repeat' split
      all_goals exact h.frame

/-- ABORT: the context leaves the queue and the map, and every other context keeps its place and its entries (R55). -/
theorem UpdateSound.abortContext {s : State} {k : ContextId} (h : UpdateSound s)
    (hk : (s.contexts.get k).state ≠ .committing) : UpdateSound (abortContext s k) := by
  unfold Machine.abortContext
  refine UpdateSound.abortHost ?_ _ _ _
  refine h.onlyContext (c := k) ⟨fun d hd => by simp [hd], fun d hd => ?_, h.ascending.filter _, h.queue.once.filter _,
    fun d hd => by simp [hd], by simp⟩ (.of_eq rfl rfl) fun hc => absurd hc hk
  exact (entriesOf_filter_other _ _ _).trans (if_neg hd)

/-! ### The wrappers of the meanings -/

theorem UpdateSound.whenPowered {s : State} {f : State → State} (h : UpdateSound s) (hf : UpdateSound (f s)) :
    UpdateSound (whenPowered s f) :=
  whenPowered_induct h fun _ => hf

theorem UpdateSound.decodeCommand {s : State} {code : Byte} {args : List Byte} {f : State → Answer} (h : UpdateSound s)
    (hf : UpdateSound (f s).state) : UpdateSound (decodeCommand s code args f) :=
  decodeCommand_induct (fun _ _ h => h.frame) h fun _ => hf

theorem UpdateSound.contextCommand {s : State} {c : Byte} {f : ContextId → Answer} (h : UpdateSound s)
    (hf : ∀ k, UpdateSound (f k).state) : UpdateSound (contextCommand s c f).state := by
  rcases contextCommand_cases s c f with ⟨_, k, _, e⟩ | e <;> rw [e]
  · exact hf k
  · exact h

theorem UpdateSound.onCompletion {s : State} {p : Purpose} {f : Transfer → Word → State → State} (h : UpdateSound s)
    (hf : ∀ t w, UpdateSound (completeTransfer s t) → UpdateSound (f t w (completeTransfer s t))) :
    UpdateSound (onCompletion s p f) :=
  onCompletion_induct h fun t w _ _ _ => hf t w h.frame

/-- The completion of an engine transfer keeps the invariant when its effect in its stage does (R78, R80). -/
theorem UpdateSound.onEngineCompletion {s : State} {p : Purpose} {st : Stage} {o : TakenOrder}
    {f : Word → State → State} (h : UpdateSound s)
    (hf : ∀ w u, UpdateSound u → u.engine.stage = st → UpdateSound (f w u)) :
    UpdateSound (onEngineCompletion s p st o f) :=
  onEngineCompletion_induct h (fun _ => h.frame) (fun t w hc hs _ => hf w _ hc hs) (fun _ h => h.frame)
    (fun _ h => h.autoResume)

/-! ### The commands with an effect of their own -/

theorem UpdateSound.departHead {s : State} (h : UpdateSound s) : UpdateSound (departHead s) := by
  have left : UpdateSound { s with buffer := bufferFrom s.buffer.entries.tail } := h.frame
  exact (UpdateSound.frame left.releaseDeparture.endDrain).autoResume

theorem beginRecovery_past (s : State) : (beginRecovery s).engine.stage.beforeCommitPoint = false := rfl

theorem enterFormatting_past (s : State) (frames : Nat) :
    (enterFormatting s frames).engine.stage.beforeCommitPoint = false := by
  simp [enterFormatting, Stage.beforeCommitPoint]

/-- The end of the anchor read leaves the updates alone, or begins recovery with an empty map (R10, R35, R90). -/
theorem UpdateSound.judgeAnchor {s : State} (h : UpdateSound s) (ws : List Word) : UpdateSound (judgeAnchor s ws) := by
  unfold Machine.judgeAnchor
  dsimp only
  split
  · exact h.frame
  · exact h.past (by simp [beginRecovery_past]) (by simp)

/-- FORMAT brings the engine to its FORMAT stage, where no record waits for its commit point (R14, R15). -/
theorem UpdateSound.enterFormatting {s : State} (h : UpdateSound s) (frames : Nat) :
    UpdateSound (enterFormatting s frames) :=
  h.past (enterFormatting_past s frames) (by simpa using h.ascending)

theorem UpdateSound.itemEffect {s : State} (h : UpdateSound s) (item : Nat) : UpdateSound (itemEffect s item) := by
  unfold Machine.itemEffect
  split
  · split <;> exact h.frame
  · exact h.autoResume
  · exact h

/-- Every command keeps the commit queue exact and the record true to its context (R42, R48, R50, R51, R61, R65). -/
theorem UpdateSound.exec {i : Instr} {s t : State} (h : UpdateSound s) (ha : ContextsAccounted s)
    (he : exec i s = .next t) : UpdateSound t := by
  cases i
  all_goals obtain rfl : _ = t := Host.Outcome.next.inj he
  case powerOnReset pins =>
    have hp : UpdateSound (powerOnState s pins) := .of_reset rfl rfl rfl rfl
    dsimp only
    split
    · exact hp
    · exact hp.frame
  case powerLoss =>
    refine h.whenPowered ?_
    repeat' split
    all_goals exact .of_reset rfl rfl rfl rfl
  case warmResetPoint =>
    have hr : UpdateSound (warmResetState s) := .of_reset rfl rfl rfl rfl
    refine h.whenPowered ?_
    dsimp only
    split
    · split
      · exact hr.frame
      · exact hr
    · exact h
  case rstNFall | rstNRise | supplyFallAssert | supplyFallDeassert | trip | gateOpen | rearmDelayMet | holdTimeout
      | hreqFall | frameStart | frameEnd | badCommand | arrayGrant | byteComplete =>
    refine h.whenPowered ?_
    repeat' split
    all_goals exact h.frame
  case status | readContext | lookup | readEvents | readFaults | getConfig | getRegion | setRegion | clearFaults
      | restart =>
    refine h.decodeCommand ?_
    repeat' split
    all_goals exact h.frame
  case resumeDelayMet =>
    refine h.whenPowered ?_
    split
    · exact UpdateSound.autoResume h.frame
    · exact h
  case hostRequest addr tag op =>
    have raised : UpdateSound { s with host := { s.host with hreq := true } } := h.frame
    refine h.whenPowered ?_
    dsimp only
    split
    · exact h
    · split
      · exact raised
      · exact raised.classifyRequest _
  case openContext c =>
    refine h.decodeCommand (h.contextCommand fun k => ?_)
    split
    · exact h.openContext ‹_›
    all_goals exact h
  case commit c =>
    refine h.decodeCommand (h.contextCommand fun k => ?_)
    split
    · split
      · exact h
      · exact h.commitContext ‹_›
    all_goals exact h
  case abort c =>
    refine h.decodeCommand (h.contextCommand fun k => ?_)
    split
    case h_4 | h_5 => exact h
    all_goals exact h.abortContext (by simp [*])
  case setConfig item value =>
    refine h.decodeCommand ?_
    split
    · exact h
    · exact UpdateSound.itemEffect h.frame _
  case format frames =>
    refine h.decodeCommand ?_
    split
    · split
      · exact h.enterFormatting _
      · exact h
    · exact h
  case resume =>
    refine h.decodeCommand ?_
    split
    · exact h.resumeBridge
    · exact h
  case takeWork =>
    refine h.whenPowered ?_
    split
    · rename_i c rest hq
      split
      · exact h.takeContext ha hq
      · exact h
    · exact h
  case hostReadComplete =>
    refine h.onCompletion fun t w hu => UpdateSound.autoResume ?_
    repeat' split
    all_goals exact hu.frame
  case fillRead | fillWrite =>
    refine h.onCompletion fun t w hu => ?_
    repeat' split
    all_goals exact hu.frame
  case drainWrite => exact h.onCompletion fun t w hu => hu.departHead
  case anchorRead =>
    refine h.onCompletion fun t w hu => ?_
    dsimp only
    repeat' split
    case h_1.isFalse.isFalse => exact hu.judgeAnchor _
    all_goals exact hu.frame
  case sumRead o => exact h.onEngineCompletion fun w u hu hs => hu.follows (sumWord_follows w hs)
  case journalWrite o => exact h.onEngineCompletion fun w u hu hs => hu.follows (journalWritten_follows hs)
  case markWrite o => exact h.onEngineCompletion fun w u hu hs => hu.commitPoint hs
  case copyRead o | applyCopyRead o => exact h.onEngineCompletion fun w u hu hs => hu.frame
  case copyWrite o => exact h.onEngineCompletion fun w u hu hs => hu.copyWritten hs
  case retireWrite o => exact h.onEngineCompletion fun w u hu hs => hu.retireCommit
  case scanRead o =>
    exact h.onEngineCompletion fun w u hu hs => hu.past (scanWord_past w hs) (by simpa using hu.ascending)
  case verifyRead o =>
    exact h.onEngineCompletion fun w u hu hs => hu.past (verifyWord_past w hs) (by simpa using hu.ascending)
  case applyCopyWrite o =>
    exact h.onEngineCompletion fun w u hu hs => hu.past (applyWritten_past hs) (by simpa using hu.ascending)
  case recoveryRetireWrite o =>
    exact h.onEngineCompletion fun w u hu hs => hu.past (recoveryRetired_past hs) (by simpa using hu.ascending)
  case formatWrite o =>
    refine h.onEngineCompletion fun w u hu hs => ?_
    split
    · exact hu.formatWritten hs
    · exact hu

/-- Settles O58: the invariant holds of a state that has its parts, and every command keeps it. -/
theorem recordStaysTrueToTheMap : Obligations.RecordStaysTrueToTheMap := by
  intro s t hm hq ha hr hs
  have h : UpdateSound s := ⟨hm.ascending, hq, hr⟩
  unfold step at hs
  split at hs
  · cases hs
    exact ⟨hq, hr⟩
  · rename_i i rest _
    have queued : UpdateSound { s with pending := rest } := h.frame
    have ht := queued.exec ⟨ha.counted, ha.capped, ha.idleEmpty, ha.quiet⟩ hs
    exact ⟨ht.queue, ht.record⟩

end Sys2Proof.Machine.Updates
end

section
/-! SUPPORT. The context commands OPEN, COMMIT and ABORT: what the checks of R44 answer, and what their answers leave. -/

namespace Sys2Proof.Machine.Updates

-- One proof at a time: each proof run beside the others takes a thread, and its stack counts against the memory
-- limit of the check.
set_option Elab.async false

/-- A byte outside 1 to 4 names no context (R44). -/
theorem contextOf_out_of_range {c : Byte} (h : c = 0 ∨ 5 ≤ c.toNat) : contextOf c = none := by
  have hn : c.toNat = 0 ∨ 5 ≤ c.toNat := h.imp_left fun e => by simp [e]
  unfold contextOf contextOfNumber
  split
  case h_5 => rfl
  all_goals omega

section
variable {s : State} {code c : Byte} {k : ContextId} {f : ContextId → Answer}

theorem contextCommand_not_serving (h : s.bridge.state ≠ .serving) : contextCommand s c f = refused s .wrongState :=
  if_pos h

theorem contextCommand_no_context (hs : s.bridge.state = .serving) (hc : contextOf c = none) :
    contextCommand s c f = refused s .badArgument := by
  simp [contextCommand, hs, hc]

theorem contextCommand_step3 (hs : s.bridge.state = .serving) (hc : contextOf c = some k) :
    contextCommand s c f = f k := by
  simp [contextCommand, hs, hc]

theorem decodeCommand_refused {f : State → Answer} {args : List Byte} {st : Status} (h : atDecode s code args = true)
    (hf : f s = refused s st) : decodeCommand s code args f = refusedWith s code args st := by
  rw [decodeCommand_at h, hf]; rfl

theorem decodeCommand_accepted {f : State → Answer} {args : List Byte} {t : State} (h : atDecode s code args = true)
    (hf : f s = accepted t) : decodeCommand s code args f = acceptedWith t code args [] := by
  rw [decodeCommand_at h, hf]; rfl

/-- Past steps 1 and 2 a refusal is that of step 3. -/
theorem step3_refused {step3 : State → ContextId → Answer} {st : Status} (h : atDecode s code [c] = true)
    (hs : s.bridge.state = .serving) (hc : contextOf c = some k) (h3 : step3 s k = refused s st) :
    (.next (decodeCommand s code [c] fun s => contextCommand s c (step3 s)) : Host.Outcome State Fault Refusal) =
      .next (refusedWith s code [c] st) := by
  rw [decodeCommand_refused h ((contextCommand_step3 hs hc).trans h3)]

/-- Past steps 1 and 2 an acceptance is that of step 3. -/
theorem step3_accepted {step3 : State → ContextId → Answer} {t : State} (h : atDecode s code [c] = true)
    (hs : s.bridge.state = .serving) (hc : contextOf c = some k) (h3 : step3 s k = accepted t) :
    (.next (decodeCommand s code [c] fun s => contextCommand s c (step3 s)) : Host.Outcome State Fault Refusal) =
      .next (acceptedWith t code [c] []) := by
  rw [decodeCommand_accepted h ((contextCommand_step3 hs hc).trans h3)]

theorem commitContext_empty (h : (s.contexts.get k).entryCount = 0) : commitContext s k =
    pushEvent (s.setContext k { s.contexts.get k with state := .idle }) (.committed k 0 0) :=
  if_pos h

theorem commitContext_queued (h : (s.contexts.get k).entryCount ≠ 0) : commitContext s k =
    { s.setContext k { s.contexts.get k with state := .queued } with commitQueue := s.commitQueue ++ [k] } :=
  if_neg h

/-- The three context commands share steps 1 and 2 of the check and differ in step 3 (R44). -/
theorem exec_contextCommand {x : Instr}
    (hx : (code, x) ∈ [((0x10 : Byte), Instr.openContext c), (0x11, .commit c), (0x12, .abort c)]) (s : State) :
    ∃ step3 : State → ContextId → Answer,
      exec x s = .next (decodeCommand s code [c] fun s => contextCommand s c (step3 s)) := by
  simp only [List.mem_cons, Prod.mk.injEq, List.not_mem_nil, or_false] at hx
  rcases hx with ⟨rfl, rfl⟩ | ⟨rfl, rfl⟩ | ⟨rfl, rfl⟩ <;> exact ⟨_, rfl⟩

end

/-- Settles O37: steps 1 and 2 are common to the three commands, and step 3 looks at the state of the context. -/
theorem contextCommandsRefused : Obligations.ContextCommandsRefused := by
  intro s c code x hx hat
  refine ⟨fun hs => ?_, fun hs hc => ?_, fun k hs hc => ?_⟩
  · obtain ⟨step3, hexec⟩ := exec_contextCommand hx s
    rw [hexec, decodeCommand_refused hat (contextCommand_not_serving hs)]
  · obtain ⟨step3, hexec⟩ := exec_contextCommand hx s
    rw [hexec, decodeCommand_refused hat (contextCommand_no_context hs (contextOf_out_of_range hc))]
  · simp only [List.mem_cons, Prod.mk.injEq, List.not_mem_nil, or_false] at hx
    rcases hx with ⟨rfl, rfl⟩ | ⟨rfl, rfl⟩ | ⟨rfl, rfl⟩
    · refine ⟨fun _ hk => step3_refused hat hs hc ?_, nofun, nofun, nofun, nofun⟩
      split
      · contradiction
      all_goals rfl
    · refine ⟨nofun, fun _ hk => step3_refused hat hs hc ?_, fun _ hk hseq => step3_refused hat hs hc ?_, nofun, nofun⟩
      · split
        · contradiction
        all_goals rfl
      · simp only [hk]
        exact if_pos hseq
    · refine ⟨nofun, nofun, nofun, fun _ hk => step3_refused hat hs hc ?_, fun _ hk => step3_refused hat hs hc ?_⟩
      all_goals simp only [hk]

/-- Settles O38: the checks of R44 pass, and step 3 accepts. -/
theorem openAndCommitAccepted : Obligations.OpenAndCommitAccepted := by
  intro s c k hs hc
  refine ⟨fun hat hk => ?_, fun hat hk hseq => ?_⟩
  · refine step3_accepted hat hs hc ?_
    simp only [hk]
    rfl
  · have passed : exec (.commit c) s = .next (acceptedWith (commitContext s k) 0x11 [c] []) := by
      refine step3_accepted hat hs hc ?_
      simp only [hk]
      exact if_neg (Nat.not_lt.mpr hseq)
    refine ⟨fun hn => ?_, fun hn => ?_⟩
    · rw [passed, commitContext_empty hn]; rfl
    · rw [passed, commitContext_queued hn]; rfl

end Sys2Proof.Machine.Updates
end

section
/-! SUPPORT. A journal record as SCAN reads it back, and the array as a power loss leaves it: the words of a slot
against the image made of them (R84 to R90), and the lanes of a torn word (R80, R84). -/

namespace Sys2Proof.Machine.Completions

-- One proof at a time: each proof run beside the others takes a thread, and its stack counts against the memory
-- limit of the check.
set_option Elab.async false

/-! ### A journal record in its slot -/

/-- An item whose numbers fit their fields and whose checksum is known is read back from its entry words (R89, R179). -/
theorem itemsOfWords_itemWords_append {it : RecordItem} (hp : it.homePage < 65536) (hf : it.frame < 256)
    (hc : it.checksum.isSome = true) (ws : List Word) :
    itemsOfWords (itemWords it ++ ws) = it :: itemsOfWords ws := by
  obtain ⟨homePage, frame, written, checksum⟩ := it
  obtain ⟨q, rfl⟩ := Option.isSome_iff_exists.mp hc
  have hword : (BitVec.ofNat 32 (frame % 256 * 65536 + homePage % 65536)).toNat = frame * 65536 + homePage := by
    dsimp only at hp hf
    rw [BitVec.toNat_ofNat]; omega
  have hpage : (frame * 65536 + homePage) % 65536 = homePage := by dsimp only at hp; omega
  have hframe : (frame * 65536 + homePage) / 65536 % 256 = frame := by dsimp only at hp hf; omega
  simp [itemWords, itemsOfWords, itemOfWords, hword, hpage, hframe]

/-- The entry area of a record is read back item by item (R89, R179). -/
theorem itemsOfWords_flatMap {items : List RecordItem}
    (h : ∀ it ∈ items, it.homePage < 65536 ∧ it.frame < 256 ∧ it.checksum.isSome = true) :
    itemsOfWords (items.flatMap itemWords) = items := by
  induction items with
  | nil => rfl
  | cons it items ih =>
    obtain ⟨hp, hf, hc⟩ := h it (by simp)
    rw [List.flatMap_cons, itemsOfWords_itemWords_append hp hf hc, ih fun x hx => h x (by simp [hx])]

/-- What SCAN reads of a record's slot: header words 0 to 3, the mark word, the retire word, the entry area (R90). -/
theorem imageOf_slotWords (r : CurrentRecord) (mark retire : Word) (hn : r.entryCount ≤ 128) :
    imageOf (headerWords r ++ [recordChecksumOf r, mark, retire] ++ entryWords r) =
      if r.sequence ≠ 0 ∧ mark = r.sequence ∧ 1 ≤ r.entryCount then
        if retire = r.sequence then .retired r.sequence r.entryCount
        else .live r.sequence r.entryCount (itemsOfWords (entryWords r)) (recordChecksumOf r)
      else .unmarked := by
  have hcount : (BitVec.ofNat 32 r.entryCount).toNat = r.entryCount := by rw [BitVec.toNat_ofNat]; omega
  have htests : headerTests (headerWords r ++ [recordChecksumOf r, mark, retire] ++ entryWords r) =
      decide (r.sequence ≠ 0 ∧ mark = r.sequence ∧ 1 ≤ r.entryCount) := by
    simp [headerTests, headerWords, hcount, hn]
  unfold imageOf
  rw [htests]
  simp [headerWords, recordChecksumOf, hcount]

/-- Settles O5: the header tests and the checksum test of the record pass, and its items are read back. -/
theorem recordRoundTrip : Obligations.RecordRoundTrip := by
  intro r mark retire hq hlow hhigh hn hitems
  have hcount : 1 ≤ r.entryCount := hn ▸ hlow
  rw [imageOf_slotWords r mark retire (hn ▸ hhigh), entryWords, itemsOfWords_flatMap hitems]
  simp only [hq, hcount, ne_eq, not_false_eq_true, true_and, and_true]

/-! ### A word write cut by a power loss -/

/-- A word all of whose lanes are 0 is 0. -/
theorem eq_zero_of_lanes {w : Word} (h : ∀ l < 4, laneOf w l = 0) : w = 0 := by
  rw [← ofLanes_laneOf w, h 0 (by decide), h 1 (by decide), h 2 (by decide), h 3 (by decide)]
  rfl

theorem laneOf_xor (v w : Word) (l : Nat) : laneOf (v ^^^ w) l = laneOf v l ^^^ laneOf w l :=
  BitVec.extractLsb'_xor ..

theorem laneOf_and (v w : Word) (l : Nat) : laneOf (v &&& w) l = laneOf v l &&& laneOf w l :=
  BitVec.extractLsb'_and ..

theorem laneOf_laneMask (lanes : Lanes) {l : Nat} (hl : l < 4) :
    laneOf (laneMask lanes) l = if lanes.getLsbD l = true then 0xFF else 0 := by
  revert l
  revert lanes
  decide

/-- The mask of a write that enables a lane is not empty. -/
theorem laneMask_ne_zero {lanes : Lanes} (h : lanes ≠ 0) : laneMask lanes ≠ 0 := by
  revert lanes
  decide

/-- A word that differs from another in a bit, and in bits of the enabled lanes alone, differs in an enabled lane. -/
theorem exists_lane_xor_ne {d m : Word} {lanes : Lanes} (hm : m ≠ 0) (hin : m &&& laneMask lanes = m) :
    ∃ l, l < 4 ∧ lanes.getLsbD l = true ∧ laneOf (d ^^^ m) l ≠ laneOf d l := by
  by_contra! hsame
  refine hm (eq_zero_of_lanes fun l hl => ?_)
  by_cases he : lanes.getLsbD l = true
  · have := hsame l hl he
    rw [laneOf_xor] at this
    exact (BitVec.xor_right_inj (laneOf d l)).mp (by simpa using this)
  · rw [← hin, laneOf_and, laneOf_laneMask lanes hl, if_neg he]
    exact BitVec.and_zero

/-- A torn word differs from the word being written in an enabled lane, whatever the free value is (R84). -/
theorem exists_lane_tornWord_ne (d : Word) {lanes : Lanes} (bits : Word) (h : lanes ≠ 0) :
    ∃ l, l < 4 ∧ lanes.getLsbD l = true ∧ laneOf (tornWord d lanes bits) l ≠ laneOf d l := by
  unfold tornWord
  split
  · exact exists_lane_xor_ne (laneMask_ne_zero h) (BitVec.and_self ..)
  · exact exists_lane_xor_ne ‹_› (by rw [BitVec.and_assoc, BitVec.and_self])

/-- What a power loss leaves where no write is in progress (R80, R142). -/
theorem execPowerLoss_without_write {o : LossOutcome} {s : State} (hp : s.powered = true)
    (h : ∀ t, s.port = some t → t.isWrite = false) :
    exec (.powerLoss o) s = .next (unpoweredState s s.array s.freeCount) := by
  show Host.Outcome.next _ = _
  rw [whenPowered_on hp]
  split
  · rename_i t ht
    rw [h t ht]; rfl
  · rfl

/-- What a power loss leaves of a write in progress (R80, R136, R142). -/
theorem execPowerLoss_in_write {o : LossOutcome} {s : State} {t : Transfer} (hp : s.powered = true)
    (ht : s.port = some t) (hw : t.isWrite = true) :
    exec (.powerLoss o) s = .next (unpoweredState s (cutWrite s.array t s.freeCount o)
      (if o = .torn then s.freeCount + 1 else s.freeCount)) := by
  show Host.Outcome.next _ = _
  rw [whenPowered_on hp]
  simp only [ht, hw, if_true]

/-- Settles O12: the write in progress, if there is one, is cut, and all else of the part is reset. -/
theorem powerLossCutsTheArrayPath : Obligations.PowerLossCutsTheArrayPath := by
  intro o s hp
  by_cases h : ∃ t, s.port = some t ∧ t.isWrite = true
  · obtain ⟨t, ht, hw⟩ := h
    refine ⟨_, execPowerLoss_in_write hp ht hw, rfl, fun hr => ?_, fun t' ht' _ => ?_⟩
    · rw [hr t ht] at hw; contradiction
    · obtain rfl : t = t' := Option.some.inj (ht.symm.trans ht')
      refine ⟨?_, ?_, ?_⟩
      · rintro rfl; rfl
      · rintro rfl; rfl
      · rintro rfl hl
        exact ⟨_, rfl, exists_lane_tornWord_ne _ _ hl⟩
  · have hr : ∀ t, s.port = some t → t.isWrite = false := by simpa using h
    refine ⟨_, execPowerLoss_without_write hp hr, rfl, fun _ => rfl, fun t ht hw => ?_⟩
    rw [hr t ht] at hw; contradiction

end Sys2Proof.Machine.Completions
end

section
/-! SUPPORT. The completions of the engine's transfers: when they count, what their effects keep in FROZEN, and that no
effect reads the configuration items there (R76 to R80). -/

namespace Sys2Proof.Machine.Completions

-- One proof at a time: each proof run beside the others takes a thread, and its stack counts against the memory
-- limit of the check.
set_option Elab.async false

/-! ### Effects of the engine do not depend on the configuration items -/

/-- The machine with other configuration items (R165). -/
def configured (s : State) (c : Settings) : State := { s with settings := c }

section
variable (s : State) (c : Settings)

@[simp] theorem configured_fields :
    (configured s c).bridge = s.bridge ∧ (configured s c).pageMap = s.pageMap ∧
    (configured s c).freeFrames = s.freeFrames ∧ (configured s c).contexts = s.contexts ∧
    (configured s c).engine = s.engine ∧ (configured s c).host = s.host ∧ (configured s c).events = s.events ∧
    (configured s c).arrayPages = s.arrayPages :=
  ⟨rfl, rfl, rfl, rfl, rfl, rfl, rfl, rfl⟩

theorem sumWord_configured (w : Word) : sumWord (configured s c) w = configured (sumWord s w) c := by
  simp only [sumWord, configured_fields]
  split
  · split
    · rfl
    · split <;> rfl
  · rfl

theorem journalWritten_configured : journalWritten (configured s c) = configured (journalWritten s) c := by
  simp only [journalWritten, configured_fields]
  split
  · split <;> rfl
  · rfl

theorem copyWordRead_configured (w : Word) : copyWordRead (configured s c) w = configured (copyWordRead s w) c := by
  simp only [copyWordRead, configured_fields]
  split
  · split <;> rfl
  · rfl

theorem copyWritten_configured : copyWritten (configured s c) = configured (copyWritten s) c := by
  simp only [copyWritten, configured_fields]
  split
  · split
    · rfl
    · split <;> rfl
  · rfl

theorem tally_configured (i : Nat) (b : Bool) (p : Nat) :
    tally (configured s c) i b p = configured (tally s i b p) c := by
  simp only [tally, configured_fields]
  split
  · split <;> rfl
  · rfl

theorem seekEntry_configured (l : List (Nat × Nat × Slot × RecordItem)) :
    seekEntry l (configured s c) = configured (seekEntry l s) c := by
  induction l generalizing s with
  | nil => rfl
  | cons x rest ih =>
    obtain ⟨j, i, sl, it⟩ := x
    have hload : loadSlot (configured s c) sl = configured (loadSlot s sl) c := rfl
    have hinvalid : invalidItem (configured (loadSlot s sl) c) it = invalidItem (loadSlot s sl) it := rfl
    simp only [seekEntry, hload, hinvalid, configured_fields, tally_configured, ih]
    split <;> rfl

end

section
variable {s t : State} {c : Settings}

theorem pushEvent_configured (e : Event) (h : t = configured s c := by rfl) :
    pushEvent t e = configured (pushEvent s e) c := by
  subst h
  simp only [pushEvent, configured_fields]
  split <;> rfl

theorem applyFrom_configured (j i : Nat) (h : t = configured s c := by rfl) :
    applyFrom t j i = configured (applyFrom s j i) c := by
  subst h
  exact seekEntry_configured ..

theorem reportRecovery_configured (h : t = configured s c := by rfl) :
    reportRecovery t = configured (reportRecovery s) c := by
  subst h
  simp only [reportRecovery, configured_fields]
  split
  · exact pushEvent_configured _
  · rfl

theorem endScan_configured (h : t = configured s c := by rfl) : endScan t = configured (endScan s) c := by
  subst h
  simp only [endScan, configured_fields]
  split
  · exact reportRecovery_configured
  · exact applyFrom_configured _ _

theorem completeFault_configured (r : Request) (f : FaultReason) (h : t = configured s c := by rfl) :
    completeFault t r f = configured (completeFault s r f) c := by
  subst h
  simp only [completeFault]
  split
  · exact pushEvent_configured _
  · rfl

/-- Every request classified in FROZEN faults FROZEN (R105). -/
theorem classifyRequest_frozen (h : s.bridge.state = .frozen) (r : Request) :
    classifyRequest s r = completeFault s r .frozen := by
  simp [classifyRequest, classify, faultSteps, stateStep, h, settle]

theorem releaseHeld_configured (hs : s.bridge.state = .frozen) (w : HoldReason) (h : t = configured s c := by rfl) :
    releaseHeld t w = configured (releaseHeld s w) c := by
  subst h
  simp only [releaseHeld, configured_fields]
  split
  · split
    · rw [classifyRequest_frozen hs, classifyRequest_frozen (by exact hs), completeFault_configured]
    · rfl
  · rfl

end

section
variable (s : State) (c : Settings)

theorem commitPoint_configured : commitPoint (configured s c) = configured (commitPoint s) c := by
  cases hr : s.engine.record with
  | none => simp only [commitPoint, configured_fields, hr]
  | some r =>
    cases hc : r.context with
    | none => simp only [commitPoint, configured_fields, hr, Option.bind_some, hc]
    | some k =>
      simp only [commitPoint, configured_fields, hr, Option.bind_some, hc]
      exact pushEvent_configured _

theorem retireCommit_configured (h : s.bridge.state = .frozen) :
    retireCommit (configured s c) = configured (retireCommit s) c := by
  unfold retireCommit
  exact releaseHeld_configured (by exact h) _

theorem scanWord_configured (w : Word) : scanWord (configured s c) w = configured (scanWord s w) c := by
  simp only [scanWord, configured_fields]
  split
  · split
    · rfl
    · split
      · rfl
      · exact endScan_configured
  · rfl

theorem verifyWord_configured (w : Word) : verifyWord (configured s c) w = configured (verifyWord s w) c := by
  have hsums : addToSums (configured s c) w = configured (addToSums s w) c := rfl
  simp only [verifyWord, configured_fields, hsums, tally_configured]
  split
  · split
    · rfl
    · split
      · exact applyFrom_configured _ _
      · rfl
  · rfl

theorem applyWritten_configured : applyWritten (configured s c) = configured (applyWritten s) c := by
  simp only [applyWritten, configured_fields]
  split
  · split
    · rfl
    · exact applyFrom_configured _ _
  · rfl

theorem recoveryRetired_configured : recoveryRetired (configured s c) = configured (recoveryRetired s) c := by
  have hpos : ∀ p, setPos (configured s c) p = configured (setPos s p) c := fun _ => rfl
  simp only [recoveryRetired, configured_fields, hpos]
  split
  · rfl
  · exact reportRecovery_configured

end

/-! ### What the effects keep in FROZEN -/

/-- What an auto-resume looks at, beside the configuration items, is the same in both states (R150, R151). -/
structure SameDrain (s t : State) : Prop where
  state : t.bridge.state = s.bridge.state
  returnState : t.bridge.returnState = s.bridge.returnState
  monitor : t.monitor = s.monitor
  buffer : t.buffer = s.buffer
  port : t.port = s.port

theorem SameDrain.refl (s : State) : SameDrain s s := ⟨rfl, rfl, rfl, rfl, rfl⟩

/-- In FROZEN the effect leaves what an auto-resume looks at and does not depend on the configuration items (R78). -/
def FrozenEffect (f : State → State) : Prop :=
  ∀ s, s.bridge.state = .frozen → SameDrain s (f s) ∧ ∀ c, f (configured s c) = configured (f s) c

theorem reportRecovery_frozen {s : State} (h : s.bridge.state = .frozen) : reportRecovery s = s :=
  if_neg (by simp [h])

theorem endScan_frozen_state {s : State} (h : s.bridge.state = .frozen) : (endScan s).bridge.state = .frozen := by
  unfold endScan
  dsimp only
  split
  · rwa [reportRecovery_frozen (by exact h)]
  · simpa using h

theorem scanWord_frozen_state {s : State} (h : s.bridge.state = .frozen) (w : Word) :
    (scanWord s w).bridge.state = .frozen := by
  unfold scanWord
  split
  · dsimp only
    split
    · exact h
    · split
      · exact h
      · exact endScan_frozen_state h
  · exact h

theorem recoveryRetired_frozen_state {s : State} (h : s.bridge.state = .frozen) :
    (recoveryRetired s).bridge.state = .frozen := by
  unfold recoveryRetired
  dsimp only
  split
  · exact h
  · rwa [reportRecovery_frozen (by exact h)]

/-- A request released in FROZEN is not posted: the buffer stays as it was (R105). -/
theorem releaseHeld_frozen_buffer {s : State} (h : s.bridge.state = .frozen) (w : HoldReason) :
    (releaseHeld s w).buffer = s.buffer := by
  unfold releaseHeld
  split
  · split
    · rw [classifyRequest_frozen h]; simp
    · rfl
  · rfl

theorem retireCommit_frozen_buffer {s : State} (h : s.bridge.state = .frozen) : (retireCommit s).buffer = s.buffer :=
  releaseHeld_frozen_buffer (by exact h) _

/-- The command that completes an engine transfer has its effect through `onEngineCompletion`, and in FROZEN that effect
keeps what an auto-resume looks at (R78). -/
theorem exec_engineCompletion {o : TakenOrder} {c : Instr} (hc : c ∈ engineCompletions o) :
    ∃ p st f, completionOf c = some p ∧ (∀ s, exec c s = .next (onEngineCompletion s p st o f)) ∧
      ∀ w, FrozenEffect (f w) := by
  simp only [engineCompletions, List.mem_cons, List.not_mem_nil, or_false] at hc
  rcases hc with rfl | rfl | rfl | rfl | rfl | rfl | rfl | rfl | rfl | rfl | rfl | rfl
  all_goals refine ⟨_, _, _, rfl, fun _ => rfl, fun w s h => ?_⟩
  · exact ⟨by constructor <;> simp, fun c => sumWord_configured s c w⟩
  · exact ⟨by constructor <;> simp, journalWritten_configured s⟩
  · exact ⟨by constructor <;> simp, commitPoint_configured s⟩
  · exact ⟨by constructor <;> simp, fun c => copyWordRead_configured s c w⟩
  · exact ⟨by constructor <;> simp, copyWritten_configured s⟩
  · exact ⟨⟨by simp, by simp, by simp, retireCommit_frozen_buffer h, by simp⟩, fun c => retireCommit_configured s c h⟩
  · exact ⟨⟨by rw [scanWord_frozen_state h, h], by simp, by simp, by simp, by simp⟩, fun c => scanWord_configured s c w⟩
  · exact ⟨by constructor <;> simp, fun c => verifyWord_configured s c w⟩
  · exact ⟨by constructor <;> simp, fun c => copyWordRead_configured s c w⟩
  · exact ⟨by constructor <;> simp, applyWritten_configured s⟩
  · exact ⟨⟨by rw [recoveryRetired_frozen_state h, h], by simp, by simp, by simp, by simp⟩,
      recoveryRetired_configured s⟩
  · have idle : ∀ u : State, u.bridge.state = .frozen →
        (if u.bridge.state = .formatting then formatWritten u else u) = u := fun u hu => if_neg (by simp [hu])
    exact ⟨by rw [idle s h]; exact .refl s, fun c => by rw [idle s h, idle (configured s c) h]⟩

/-! ### The completion of an engine transfer -/

section
variable {s : State} {t : Transfer} {pu : Purpose} {st : Stage} {o : TakenOrder} {f : Word → State → State}

/-- What the engine makes of its completed transfer: the effect where the completion counts in its stage (R78, R80). -/
def engineTakes (s : State) (t : Transfer) (st : Stage) (o : TakenOrder) (f : Word → State → State) : State :=
  if engineCounts s o && decide (s.engine.stage = st) then f (readWord s.array t.addr) (completeTransfer s t)
  else completeTransfer s t

theorem onEngineCompletion_at (ht : transferring s t) (hu : t.purpose = pu) :
    onEngineCompletion s pu st o f = autoResume (takePause (engineTakes s t st o f)) :=
  onCompletion_at ht.1 ht.2 hu _

theorem engineTakes_counted (hc : engineCounts s o = true) (hs : s.engine.stage = st) :
    engineTakes s t st o f = f (readWord s.array t.addr) (completeTransfer s t) := by
  simp [engineTakes, hc, hs]

theorem engineTakes_uncounted (hc : engineCounts s o = false) : engineTakes s t st o f = completeTransfer s t := by
  simp [engineTakes, hc]

theorem autoResume_of_noResumeDue (h : noResumeDue s) : autoResume s = s := by
  refine if_neg ?_
  simp only [autoResumeDue, drainFinished, Bool.and_eq_true, decide_eq_true_eq, List.isEmpty_iff]
  rintro ⟨⟨⟨hstate, hauto⟩, hmet⟩, hempty, -⟩
  simp [noResumeDue, hstate, hauto, hmet, hempty] at h

theorem takePause_frozen (h : s.bridge.state = .frozen) :
    takePause s = { s with engine := { s.engine with pause := .paused } } := if_pos h

theorem takePause_elsewhere (h : s.bridge.state ≠ .frozen) : takePause s = s := if_neg h

theorem engineCounts_pauseFirst (h : s.bridge.state = .frozen) : engineCounts s .pauseFirst = false := by
  simp [engineCounts, h]

theorem engineCounts_completionFirst (h : s.bridge.state = .frozen) (hp : s.engine.pause = .requested) :
    engineCounts s .completionFirst = true := by
  simp [engineCounts, h, hp]

theorem engineCounts_resetting (h : s.bridge.state = .resetting) : engineCounts s o = false := by
  simp [engineCounts, h]

theorem engineCounts_of_completionCounts {p : Pause} (h : completionCounts s o p) : engineCounts s o = true := by
  rcases h with ⟨hs, hp, -⟩ | ⟨hs, hp, rfl, -⟩
  · simp only [List.mem_cons, List.not_mem_nil, or_false] at hs
    rcases hs with hs | hs | hs <;> simp [engineCounts, hs, hp]
  · exact engineCounts_completionFirst hs hp

/-- The pause and the resume that follow a counting completion leave the pause the premise names, and all else (R78). -/
theorem completed_of_completionCounts {p : Pause} {e : Engine} (h : completionCounts s o p)
    (he : e.pause = s.engine.pause) :
    autoResume (takePause (completed s t e)) = completed s t { e with pause := p } := by
  rcases h with ⟨hs, hp, rfl⟩ | ⟨hs, -, -, rfl, hn⟩
  · have hf : s.bridge.state ≠ .frozen := by rintro hf; simp [hf] at hs
    rw [takePause_elsewhere (by exact hf), autoResume_of_noResumeDue (.inl (by exact hf)), ← hp, ← he]
  · rw [takePause_frozen (by exact hs)]
    exact autoResume_of_noResumeDue hn

/-- A completion that counts and changes the engine alone leaves that engine with the pause the premise names (R78). -/
theorem onEngineCompletion_counted {p : Pause} {e : Engine} (ht : transferring s t) (hu : t.purpose = pu)
    (hc : completionCounts s o p) (hs : s.engine.stage = st)
    (hf : f (readWord s.array t.addr) (completeTransfer s t) = completed s t e) (he : e.pause = s.engine.pause) :
    onEngineCompletion s pu st o f = completed s t { e with pause := p } := by
  rw [onEngineCompletion_at ht hu, engineTakes_counted (engineCounts_of_completionCounts hc) hs, hf,
    completed_of_completionCounts hc he]

end

/-- Settles O55: no completion counts that the pause came before, and none in RESETTING. -/
theorem uncountedCompletion : Obligations.UncountedCompletion := by
  intro s t o c hc hu ht
  obtain ⟨p, st, f, hp, hexec, -⟩ := exec_engineCompletion hc
  have hpurpose : t.purpose = p := Option.some.inj (hu.symm.trans hp)
  rw [hexec, onEngineCompletion_at ht hpurpose]
  refine ⟨fun hs ho hn => ?_, fun hs => ?_⟩
  · subst ho
    rw [engineTakes_uncounted (engineCounts_pauseFirst hs), takePause_frozen (by exact hs)]
    exact congrArg _ (autoResume_of_noResumeDue hn)
  · rw [engineTakes_uncounted (engineCounts_resetting hs), takePause_elsewhere (by simp [hs]),
      autoResume_of_noResumeDue (.inl (by simp [hs]))]
    rfl

end Sys2Proof.Machine.Completions
end

section
/-! SUPPORT. The words of SUM and the writes of WRITE, each a counted completion that changes the engine alone (R67 to
R69). -/

namespace Sys2Proof.Machine.Completions

-- One proof at a time: each proof run beside the others takes a thread, and its stack counts against the memory
-- limit of the check.
set_option Elab.async false

/-! ### SUM and WRITE -/

section
variable {it : RecordItem} {p : Position}

theorem nextWord_in_block (h : p.word < 7) : nextWord it p = some { p with word := p.word + 1 } := if_pos h

theorem nextWord_next_block {b : Nat} (h : p.word = 7)
    (hb : (blockList it.written).find? (fun x => p.block < x) = some b) :
    nextWord it p = some { p with block := b, word := 0 } := by
  rw [nextWord, if_neg (by omega), nextBlock, hb]
  rfl

theorem nextWord_last (h : p.word = 7) (hb : ∀ b ∈ blockList it.written, b ≤ p.block) : nextWord it p = none := by
  have hnone : nextBlock it.written p.block = none := List.find?_eq_none.mpr fun b hm => by simpa using hb b hm
  rw [nextWord, if_neg (by omega), hnone]
  rfl

end

theorem setChecksum_items {r : CurrentRecord} {i : Nat} {it : RecordItem} (h : r.items[i]? = some it) (q : Word) :
    r.setChecksum i q = { r with items := r.items.set i { it with checksum := some q } } := by
  simp [CurrentRecord.setChecksum, List.modify_eq_set_getElem?, h]

theorem itemStart_first_block {items : List RecordItem} {i b : Nat} {it : RecordItem} (hi : items[i]? = some it)
    (hb : firstBlock it.written = some b) (slotIndex : Nat) (pass : Pass) :
    itemStart items slotIndex i pass = { slotIndex, entry := i, block := b, word := 0, pass } := by
  simp [itemStart, hi, hb]

section
variable {s : State} {r : CurrentRecord} {it : RecordItem} {w : Word}

/-- SUM within an item adds the word and goes on to the next one (R67). -/
theorem sumWord_next {p : Position} (hr : s.engine.record = some r) (hi : r.items[s.engine.pos.entry]? = some it)
    (hn : nextWord it s.engine.pos = some p) : sumWord s w = setPos (addToSums s w) p := by
  simp [sumWord, Engine.item?, hr, hi, hn]

/-- SUM at the last word of an item sets its CHECKSUM and begins the next one (R67). -/
theorem sumWord_nextItem (hr : s.engine.record = some r) (hi : r.items[s.engine.pos.entry]? = some it)
    (hn : nextWord it s.engine.pos = none) (hl : s.engine.pos.entry + 1 < r.items.length) :
    sumWord s w = { s with engine := { s.engine with
      record := some (r.setChecksum s.engine.pos.entry (feedWord s.engine.sums w).checksum)
      sums := .zero, pos := itemStart r.items 0 (s.engine.pos.entry + 1) .checksum } } := by
  simp [sumWord, Engine.item?, hr, hi, hn, hl]

/-- SUM at the last word of the last item forms the record checksum, and WRITE begins (R68, R69). -/
theorem sumWord_last {r1 : CurrentRecord} (hr : s.engine.record = some r) (hi : r.items[s.engine.pos.entry]? = some it)
    (hn : nextWord it s.engine.pos = none) (hl : s.engine.pos.entry + 1 = r.items.length)
    (h1 : r1 = r.setChecksum s.engine.pos.entry (feedWord s.engine.sums w).checksum) :
    sumWord s w = { s with engine := { s.engine with
      stage := .write, sums := feedWord s.engine.sums w, pos := .start
      record := some { r1 with recordChecksum := some (recordChecksumOf r1) } } } := by
  subst h1
  simp [sumWord, Engine.item?, hr, hi, hn, hl]

end

/-- WRITE has 5 + 3n writes for n entries (R69). -/
theorem journalWrites_length (a : Nat) (r : CurrentRecord) : (journalWrites a r).length = 5 + 3 * r.items.length := by
  have hentries : (entryWords r).length = 3 * r.items.length := by
    simp [entryWords, List.length_flatMap, itemWords, Nat.mul_comm]
  simp [journalWrites, headerWords, hentries]
  omega

theorem journalWritten_next {s : State} {r : CurrentRecord} (hr : s.engine.record = some r)
    (hl : s.engine.pos.word + 1 < 5 + 3 * r.items.length) :
    journalWritten s = setPos s { s.engine.pos with word := s.engine.pos.word + 1 } := by
  simp [journalWritten, hr, journalWrites_length, hl]

theorem journalWritten_last {s : State} {r : CurrentRecord} (hr : s.engine.record = some r)
    (hl : s.engine.pos.word + 1 = 5 + 3 * r.items.length) : journalWritten s = enterStage s .mark .start := by
  simp [journalWritten, hr, journalWrites_length, hl]

section
variable {s : State} {t : Transfer} {o : TakenOrder} {p : Pause} {e : Engine}

/-- SUM_READ where it counts, from what it makes of the engine (R67, R78). -/
theorem exec_sumRead_counted (ht : transferring s t) (hu : t.purpose = .sumRead) (hc : completionCounts s o p)
    (hs : s.engine.stage = .sum)
    (hf : sumWord (completeTransfer s t) (readWord s.array t.addr) = completed s t e)
    (he : e.pause = s.engine.pause := by rfl) :
    exec (.sumRead o) s = .next (completed s t { e with pause := p }) :=
  congrArg _ (onEngineCompletion_counted ht hu hc hs hf he)

/-- JOURNAL_WRITE where it counts, from what it makes of the engine (R69, R78). -/
theorem exec_journalWrite_counted (ht : transferring s t) (hu : t.purpose = .journalWrite) (hc : completionCounts s o p)
    (hs : s.engine.stage = .write) (hf : journalWritten (completeTransfer s t) = completed s t e)
    (he : e.pause = s.engine.pause := by rfl) :
    exec (.journalWrite o) s = .next (completed s t { e with pause := p }) :=
  congrArg _ (onEngineCompletion_counted ht hu hc hs hf he)

end

/-- Settles O48: each completion counts, and changes the engine alone. -/
theorem sumAndWriteAdvance : Obligations.SumAndWriteAdvance := by
  intro s t o p r e sums ht hc hr hsums he
  subst he hsums
  refine ⟨fun hu _ hs it hi => ?_, fun hu hs => ⟨fun hl => ?_, fun hl => ?_⟩⟩
  · have step {q : Position} (hn : nextWord it s.engine.pos = some q) :=
      exec_sumRead_counted ht hu hc hs (sumWord_next (s := completeTransfer s t) hr hi hn)
    refine ⟨fun hw => step (nextWord_in_block hw), fun hw => ⟨fun b hb => step (nextWord_next_block hw hb),
      fun hb r1 h1 => ?_⟩⟩
    have hset := h1.trans (setChecksum_items hi _).symm
    have hend := nextWord_last hw hb
    refine ⟨fun it2 b hi2 hb2 => ?_, fun hl => ?_⟩
    · have hlt : s.engine.pos.entry + 1 < r.items.length := (List.getElem?_eq_some_iff.mp hi2).1
      have begun := exec_sumRead_counted ht hu hc hs (sumWord_nextItem (s := completeTransfer s t) hr hi hend hlt)
      rw [hset, ← itemStart_first_block hi2 hb2]
      exact begun
    · exact exec_sumRead_counted ht hu hc hs (sumWord_last (s := completeTransfer s t) hr hi hend hl hset)
  · exact exec_journalWrite_counted ht hu hc hs (journalWritten_next (s := completeTransfer s t) hr hl)
  · exact exec_journalWrite_counted ht hu hc hs (journalWritten_last (s := completeTransfer s t) hr hl)

end Sys2Proof.Machine.Completions
end

section
/-! SUPPORT. The resume: the paused stage started again in each return state (R79, R97, R16), and the completions that
finish the drain and so let an auto-resume happen (R150, R151, R153). -/

namespace Sys2Proof.Machine.Completions

-- One proof at a time: each proof run beside the others takes a thread, and its stack counts against the memory
-- limit of the check.
set_option Elab.async false

/-! ### Resume -/

/-- The machine in the state a resume returns to, its engine not yet started again (R153). -/
def resuming (s : State) (r : BridgeState) : State :=
  { s with bridge := { s.bridge with state := r, returnState := none }, engine := { s.engine with pause := .running } }

/-- The engine with the pause taken back, before and after its stage starts again (R153). -/
def unpaused (e : Engine) : Engine := { e with pause := .running }

/-- COPY restarts at the first item of the record whose entry is not COPIED (R79). -/
theorem firstNotCopied_eq {s : State} {items : List RecordItem} {i : Nat} {it : RecordItem} (hi : items[i]? = some it)
    (hbefore : ∀ j jt, j < i → items[j]? = some jt →
      ∃ n, (lookupPage s.pageMap jt.homePage).map MapEntry.state = some (.copied n))
    (hit : ∀ n, (lookupPage s.pageMap it.homePage).map MapEntry.state ≠ some (.copied n)) :
    firstNotCopied s items = i := by
  obtain ⟨hlt, hget⟩ := List.getElem?_eq_some_iff.mp hi
  rw [firstNotCopied, List.findIdx?_eq_some_iff_getElem.mpr ⟨hlt, ?_, fun j hj => ?_⟩]
  · rfl
  · rw [hget]
    split
    · exact absurd ‹_› (hit _)
    · rfl
  · obtain ⟨n, hn⟩ := hbefore j _ hj (List.getElem?_eq_getElem (hj.trans hlt))
    simp [hn]

/-- SUM begins at the first block of item 0 with every checksum absent (R66, R67, R79). -/
theorem beginSum_eq {s : State} {q : CurrentRecord} (h : s.engine.record = some q) :
    beginSum s = { s with engine := { s.engine with
      stage := .sum, record := some q.clearChecksums, sums := .zero, pos := itemStart q.items 0 0 .checksum } } := by
  simp only [beginSum, h]

theorem holdsTag_empty {b : PostedBuffer} (h : b.entries = []) (c : ContextId) : holdsTag b c = false := by
  simp [holdsTag, h]

/-- DRAIN ends at once in a running engine with an empty buffer (R66). -/
theorem endDrain_empty {s : State} {q : CurrentRecord} {c : ContextId} (hq : s.engine.record = some q)
    (hc : q.context = some c) (hs : s.engine.stage = .drain) (hr : engineRuns s = true) (hd : s.buffer.entries = []) :
    endDrain s = beginSum s := by
  simp [endDrain, hq, hc, hs, hr, holdsTag_empty hd]

section
variable {s u : State} {r : BridgeState} {e : Engine}

theorem engineRuns_of_unpaused (he : u.engine = unpaused s.engine)
    (hb : u.bridge.state ∈ [.serving, .recovering, .formatting]) : engineRuns u = true := by
  simp only [List.mem_cons, List.not_mem_nil, or_false] at hb
  rcases hb with hb | hb | hb <;> simp [engineRuns, he, unpaused, hb]

/-- The paused stage of a commit starts again, with the buffer empty (R79). -/
theorem restartCommit_eq (h : restartsAs s e .serving) (hm : u.pageMap = s.pageMap) (he : u.engine = unpaused s.engine)
    (hb : u.bridge.state = .serving) (hd : u.buffer.entries = []) :
    restartCommit u = { u with engine := unpaused e } := by
  have hst : u.engine.stage = s.engine.stage := by rw [he]; rfl
  have hrec : u.engine.record = s.engine.record := by rw [he]; rfl
  rcases h with ⟨hs, rfl⟩ | ⟨hs, q, c, it, b, hq, hc, hi, hfb, rfl⟩ | ⟨hs, rfl⟩ |
    ⟨hs, q, i, it, b, hq, hi, hfb, hcopied, hnot, rfl⟩
  · rw [← he]
    simp only [List.mem_cons, List.not_mem_nil, or_false] at hs
    rcases hs with hs | hs | hs <;> simp only [restartCommit, hst, hs]
  · have hsum : restartCommit u = beginSum u := by
      simp only [List.mem_cons, List.not_mem_nil, or_false] at hs
      rcases hs with hs | hs <;> simp only [restartCommit, hst, hs]
      exact endDrain_empty (hrec.trans hq) hc (hst.trans hs) (engineRuns_of_unpaused he (by simp [hb])) hd
    rw [hsum, beginSum_eq (hrec.trans hq), itemStart_first_block hi hfb, he]
    rfl
  · have hwrite : restartCommit u = setPos u .start := by simp only [restartCommit, hst, hs]
    rw [hwrite, setPos, he]
    rfl
  · have hfirst : firstNotCopied u q.items = i := firstNotCopied_eq hi (hm ▸ hcopied) (hm ▸ hnot)
    have hcopy : restartCommit u = setPos u (itemStart q.items 0 i .copyRead) := by
      simp only [restartCommit, hst, hs, hrec, hq, hfirst]
    rw [hcopy, itemStart_first_block hi hfb, setPos, he]
    rfl

/-- Recovery starts again with SCAN, or RETIRE with its first slot (R97). -/
theorem restartRecovery_eq (h : restartsAs s e .recovering) (he : u.engine = unpaused s.engine) :
    restartRecovery u = { u with engine := unpaused e } := by
  have hst : u.engine.stage = s.engine.stage := by rw [he]; rfl
  rcases h with ⟨hs, rfl⟩ | ⟨hs, rfl⟩
  · simp only [List.mem_cons, List.not_mem_nil, or_false] at hs
    have hscan : restartRecovery u = beginScan u := by
      rcases hs with hs | hs <;> simp only [restartRecovery, hst, hs]
    rw [hscan, beginScan, he]
    rfl
  · have hretire : restartRecovery u = setPos u .start := by simp only [restartRecovery, hst, hs]
    rw [hretire, setPos, he]
    rfl

/-- FORMAT starts again at step 1, which ends at once with the buffer empty (R16). -/
theorem restartFormat_eq (h : restartsAs s e .formatting) (he : u.engine = unpaused s.engine)
    (hb : u.bridge.state = .formatting) (hd : u.buffer.entries = []) :
    restartFormat u = { u with engine := unpaused e } := by
  obtain ⟨hs, rfl⟩ := h
  have hstage : u.engine.stage = .format := by rw [he]; exact hs
  have hruns : engineRuns (enterFormatStep u 1) = true := engineRuns_of_unpaused (s := enterFormatStep s 1)
    (by simp only [enterFormatStep, he]; rfl) (by simp [hb])
  have hends : restartFormat u = enterFormatStep (enterFormatStep u 1) 2 := by
    simp [restartFormat, endFormatDrain, hstage, hruns, hd]
  rw [hends]
  simp only [enterFormatStep, he]
  rfl

/-- The engine starts its paused stage again as the rules give it for each return state (R79, R97, R16). -/
theorem restartStage_eq (h : restartsAs s e r) (hm : u.pageMap = s.pageMap) (he : u.engine = unpaused s.engine)
    (hb : u.bridge.state = r) (hd : u.buffer.entries = []) : restartStage u = { u with engine := unpaused e } := by
  cases r with
  | unformatted =>
    obtain rfl : e = s.engine := h
    rw [← he]
    simp only [restartStage, hb]
  | serving =>
    simp only [restartStage, hb]
    exact restartCommit_eq h hm he hb hd
  | recovering =>
    simp only [restartStage, hb]
    exact restartRecovery_eq h he
  | formatting =>
    simp only [restartStage, hb]
    exact restartFormat_eq h he hb hd
  | starting | frozen | resetting => exact h.elim

theorem enterArmed_deasserted (h : u.monitor.level = false) : enterArmed u = armedIdle u :=
  if_neg (by simp [h])

theorem armedIdle_pushEvent (u : State) (x : Event) : armedIdle (pushEvent u x) = pushEvent (armedIdle u) x := by
  have hevents : (armedIdle u).events = u.events := rfl
  simp only [pushEvent, hevents]
  split <;> rfl

/-- A resume with the drain finished and the line deasserted, for a machine with the map of `s` and, beside its pause,
the engine of `s` (R153). -/
theorem resumeBridge_eq (h : restartsAs s e r) (hm : u.pageMap = s.pageMap) (he : unpaused u.engine = unpaused s.engine)
    (hr : u.bridge.returnState = some r) (hl : u.monitor.level = false) (hd : u.buffer.entries = []) :
    resumeBridge u = resumedInto u r e := by
  have hstart : restartStage (resuming u r) = { resuming u r with engine := unpaused e } :=
    restartStage_eq h (u := resuming u r) hm he rfl hd
  calc resumeBridge u = enterArmed (pushEvent (restartStage (resuming u r)) .resumed) := by
        simp only [resumeBridge, hr]; rfl
    _ = armedIdle (pushEvent { resuming u r with engine := unpaused e } .resumed) := by
        rw [hstart, enterArmed_deasserted (by simpa [resuming] using hl)]
    _ = resumedInto u r e := armedIdle_pushEvent _ _

/-- What an auto-resume needs beside the configuration item that turns it on: FROZEN with this return state, the line
deasserted with the resume delay met, and the drain finished (R150, R151). -/
structure ReadyToResume (u : State) (r : BridgeState) : Prop where
  frozen : u.bridge.state = .frozen
  returnState : u.bridge.returnState = some r
  deasserted : u.monitor.level = false
  met : u.monitor.delayTimer = .met
  drained : u.buffer.entries = []
  idle : u.port = none

/-- With auto-resume on, a machine that is ready resumes (R151, R153). -/
theorem autoResume_eq (hu : ReadyToResume u r) (ha : u.settings.autoResume = true) (h : restartsAs s e r)
    (hm : u.pageMap = s.pageMap := by rfl) (he : unpaused u.engine = unpaused s.engine := by rfl) :
    autoResume u = resumedInto u r e := by
  have hdue : autoResumeDue u = true := by
    simp [autoResumeDue, drainFinished, hu.frozen, ha, hu.met, hu.drained, hu.idle]
  rw [autoResume, if_pos hdue]
  exact resumeBridge_eq h hm he hu.returnState hu.deasserted hu.drained

theorem ReadyToResume.sameDrain (h : ReadyToResume u r) {v : State} (hv : SameDrain u v) : ReadyToResume v r :=
  ⟨hv.state.trans h.frozen, hv.returnState.trans h.returnState, hv.monitor ▸ h.deasserted, hv.monitor ▸ h.met,
    hv.buffer ▸ h.drained, hv.port.trans h.idle⟩

end

/-! ### The completions that finish the drain -/

section
variable {s : State} {t : Transfer} {st : Stage} {o : TakenOrder} {f : Word → State → State}

theorem engineRuns_frozen (h : s.bridge.state = .frozen) : engineRuns s = false := by
  simp [engineRuns, h]

/-- In FROZEN neither DRAIN nor step 1 of FORMAT ends (R78). -/
theorem endDrain_frozen (h : s.bridge.state = .frozen) : endDrain s = s := by
  unfold endDrain
  split
  · simp [engineRuns_frozen h]
  · rfl

theorem endFormatDrain_frozen (h : s.bridge.state = .frozen) : endFormatDrain s = s := by
  simp [endFormatDrain, engineRuns_frozen h]

theorem releaseDeparture_no_request (h : s.host.outstanding = none) : releaseDeparture s = s := by
  simp [releaseDeparture, releaseHeld, releaseReadWait, h]

/-- The last departure in FROZEN, with no request outstanding, leaves the buffer empty and may resume (R131, R151). -/
theorem departHead_last_frozen {x : PostedEntry} (h : s.bridge.state = .frozen) (hr : s.host.outstanding = none)
    (hx : s.buffer.entries = [x]) :
    departHead s = autoResume { s with buffer := { entries := [], head := none } } := by
  have hempty : bufferFrom s.buffer.entries.tail = { entries := [], head := none } := by rw [hx]; rfl
  rw [departHead, hempty, releaseDeparture_no_request (by exact hr), endDrain_frozen (by exact h),
    endFormatDrain_frozen (by exact h)]

theorem completeDone_read {q : Request} (hq : q.op = .read) (w : Word) :
    completeDone s q w = { s with host := hostDone s.host w } := by
  simp [completeDone, completeHost, Request.isWrite, hq, hostDone]

/-- A host read that completes with nothing else to drain is handed its word, and the bridge may resume (R115, R151). -/
theorem exec_hostReadComplete {q : Request} (ht : transferring s t) (hu : t.purpose = .hostRead)
    (hw : t.isWrite = false) (hr : s.host.outstanding = some q) (hp : q.phase = .readTransfer) (hq : q.op = .read) :
    exec .hostReadComplete s =
      .next (autoResume { s with port := none, host := hostDone s.host (readWord s.array t.addr) }) := by
  have hdone : completeTransfer s t = { s with port := none } := by simp [completeTransfer, hw]
  refine congrArg _ ((onCompletion_at ht.1 ht.2 hu _).trans ?_)
  simp only [hdone, hr, hp, if_true, completeDone_read hq]

/-- The SET_CONFIG that turns auto-resume on may resume (R151, R165). -/
theorem exec_setConfig_autoResume (h : atDecode s 0x20 [4, 0, 1] = true) :
    exec (.setConfig 4 1) s = .next (acceptedWith
      (autoResume (configured s { s.settings with autoResume := true })) 0x20 [4, 0, 1] []) :=
  congrArg _ (decodeCommand_at h _)

theorem takePause_sameDrain (s : State) : SameDrain s (takePause s) := by
  unfold takePause
  split
  · exact ⟨rfl, rfl, rfl, rfl, rfl⟩
  · exact .refl s

theorem takePause_configured (s : State) (c : Settings) : takePause (configured s c) = configured (takePause s) c := by
  simp only [takePause, configured_fields]
  split <;> rfl

theorem engineTakes_sameDrain (hf : ∀ w, FrozenEffect (f w)) (h : s.bridge.state = .frozen) :
    SameDrain (completeTransfer s t) (engineTakes s t st o f) := by
  unfold engineTakes
  split
  · exact (hf _ (completeTransfer s t) h).1
  · exact .refl _

theorem engineTakes_configured (hf : ∀ w, FrozenEffect (f w)) (h : s.bridge.state = .frozen) (c : Settings) :
    engineTakes (configured s c) t st o f = configured (engineTakes s t st o f) c := by
  have hcounts : engineCounts (configured s c) o = engineCounts s o := rfl
  have hstage : (configured s c).engine.stage = s.engine.stage := rfl
  unfold engineTakes
  rw [hcounts, hstage]
  split
  · exact (hf _ (completeTransfer s t) h).2 c
  · rfl

/-- What a completion in FROZEN leaves before any resume (R78). -/
def pausedAfter (s : State) (t : Transfer) (st : Stage) (o : TakenOrder) (f : Word → State → State) : State :=
  takePause (engineTakes s t st o f)

theorem pausedAfter_configured (hf : ∀ w, FrozenEffect (f w)) (h : s.bridge.state = .frozen) (c : Settings) :
    pausedAfter (configured s c) t st o f = configured (pausedAfter s t st o f) c := by
  rw [pausedAfter, engineTakes_configured hf h, takePause_configured, pausedAfter]

/-- A completion leaves the configuration items as they are. -/
theorem pausedAfter_own_settings (hf : ∀ w, FrozenEffect (f w)) (h : s.bridge.state = .frozen) :
    configured (pausedAfter s t st o f) s.settings = pausedAfter s t st o f :=
  (pausedAfter_configured hf h s.settings).symm

theorem pausedAfter_sameDrain (hf : ∀ w, FrozenEffect (f w)) (h : s.bridge.state = .frozen) :
    SameDrain (completeTransfer s t) (pausedAfter s t st o f) :=
  have taken := engineTakes_sameDrain (st := st) (o := o) hf h
  have paused := takePause_sameDrain (engineTakes s t st o f)
  ⟨paused.state.trans taken.state, paused.returnState.trans taken.returnState, paused.monitor.trans taken.monitor,
    paused.buffer.trans taken.buffer, paused.port.trans taken.port⟩

end

/-- In FROZEN a completion of the engine that leaves the drain finished resumes, from the machine `v` that it leaves
with auto-resume off (R78, R151). The engine starts again from that of `v`, whatever its pause. -/
theorem engineCompletion_resumes {s v x : State} {t : Transfer} {o : TakenOrder} {c : Instr} {off : Settings}
    {r : BridgeState} {e : Engine} (hready : ReadyToResume (completeTransfer s t) r)
    (ha : s.settings.autoResume = true) (ht : transferring s t) (hc : c ∈ engineCompletions o)
    (hu : completionOf c = some t.purpose) (hoff : off.autoResume = false)
    (hv : exec c (configured s off) = .next v) (he : restartsAs x e r)
    (hm : v.pageMap = x.pageMap := by rfl) (hx : unpaused v.engine = unpaused x.engine := by rfl) :
    exec c s = .next (resumedInto (configured v s.settings) r e) := by
  obtain ⟨pu, st, f, hp, hexec, hf⟩ := exec_engineCompletion hc
  have hfrozen : s.bridge.state = .frozen := hready.frozen
  have hpurpose : t.purpose = pu := Option.some.inj (hu.symm.trans hp)
  have hrun (u : State) (h : transferring u t) : exec c u = .next (autoResume (pausedAfter u t st o f)) :=
    (hexec u).trans (congrArg _ (onEngineCompletion_at h hpurpose))
  have hleft : v = configured (pausedAfter s t st o f) off := by
    rw [hrun (configured s off) ht, pausedAfter_configured hf hfrozen] at hv
    rw [← Host.Outcome.next.inj hv]
    exact autoResume_of_noResumeDue (.inr (.inl hoff))
  have hon : configured v s.settings = pausedAfter s t st o f := by
    rw [hleft]
    exact pausedAfter_own_settings hf hfrozen
  rw [hrun s ht, ← hon]
  exact congrArg _ (autoResume_eq (hon ▸ hready.sameDrain (pausedAfter_sameDrain hf hfrozen)) ha he hm hx)

/-- Settles O17: each moment leaves the bridge ready, and a ready bridge resumes. -/
theorem autoResumeMoments : Obligations.AutoResumeMoments := by
  intro s r hs hr hl hm
  have ready (u : State) (hb : u.bridge = s.bridge) (hmon : u.monitor = s.monitor) (hd : u.buffer.entries = [])
      (hp : u.port = none) : ReadyToResume u r := ⟨hb ▸ hs, hb ▸ hr, hmon ▸ hl, hmon ▸ hm, hd, hp⟩
  refine ⟨fun e he => ⟨fun x h t hout ha hbuf ht hu => ?drain, fun t q ha hd ht hu hw hq hph hop => ?read,
    fun t c ha hd ht hc hu => ?pauseFirst, fun hd hp hat => ?setConfig⟩, fun t c v e ha hd ht _ hc hu hv he => ?counts⟩
  case drain =>
    refine congrArg _ ((onCompletion_at ht.1 ht.2 hu _).trans ?_)
    rw [departHead_last_frozen (x := x) (by exact hs) (by exact hout) (by simp [hbuf])]
    exact autoResume_eq (ready _ rfl rfl rfl rfl) ha he
  case read =>
    rw [exec_hostReadComplete ht hu hw hq hph hop]
    exact congrArg _ (autoResume_eq (ready _ rfl rfl hd rfl) ha he)
  case pauseFirst =>
    have hv := (uncountedCompletion (configured s { s.settings with autoResume := false }) t .pauseFirst c hc hu ht).1
      hs rfl (.inr (.inl rfl))
    exact engineCompletion_resumes (ready _ rfl rfl hd rfl) ha ht hc hu rfl hv he
  case setConfig =>
    rw [exec_setConfig_autoResume hat]
    exact congrArg (fun u => Host.Outcome.next (acceptedWith u 0x20 [4, 0, 1] []))
      (autoResume_eq (ready (configured s _) rfl rfl hd hp) rfl he)
  case counts =>
    exact engineCompletion_resumes (ready _ rfl rfl hd rfl) ha ht hc hu rfl hv he

end Sys2Proof.Machine.Completions
end

section
/-! SUPPORT. The answers of the classification step by step: what a completion leaves on the host port, which descriptor
governs a page, and what steps 1 to 8 answer under the premises the statements name (R102 to R126). -/

namespace Sys2Proof.Machine.HostAccess

-- One proof at a time: each proof run beside the others takes a thread, and its stack counts against the memory
-- limit of the check.
set_option Elab.async false

/-! ### Completion (R102, R126) -/

section
variable {s : State} {r : Request} {f : FaultReason}

theorem faultData_raised (h : HostPort) (op : HostOp) : faultData (raised h) op = faultData h op := by
  cases op <;> rfl

theorem completeHost_fault :
    completeHost s r (some f) 0 = { s with host := hostFaulted s.host f (faultData s.host r.op) } := by
  cases h : r.op <;> simp [completeHost, hostFaulted, faultData, Request.isWrite, h]

/-- A fault with a reportable reason queues HOST_FAULT (R126). -/
theorem completeFault_reportable (h : f.reportable = true) : completeFault s r f =
    pushEvent { s with host := hostFaulted s.host f (faultData s.host r.op) } (.hostFault r.tag f r.addr) := by
  simp only [completeFault, h, if_true, completeHost_fault]

/-- A fault with any other reason queues nothing (R126). -/
theorem completeFault_silent (h : f.reportable = false) :
    completeFault s r f = { s with host := hostFaulted s.host f (faultData s.host r.op) } := by
  simp only [completeFault, h, Bool.false_eq_true, if_false, completeHost_fault]

/-- A write that completes DONE leaves HDATA as it was (R102). -/
theorem completeDone_write {data : Word} {lanes : Lanes} (h : r.op = .write data lanes) (w : Word) :
    completeDone s r w = { s with host := hostDone s.host s.host.hdata } := by
  simp [completeDone, completeHost, Request.isWrite, h, hostDone]

end

/-! ### Region descriptors (R107, R108) -/

section
variable {s : State} {p : Nat} {k : RegionKind} {addr : WordAddr} {tag : BitVec 3}

/-- The test by which the model looks for the governing descriptor (R107). -/
theorem covers_iff {g : Region} : (g.kind.isSome && decide (g.first ≤ p ∧ p ≤ g.last)) = true ↔ g.covers p := by
  simp [Region.covers]

/-- The governing descriptor is the lowest-numbered enabled one that covers the page (R107). -/
theorem governing_eq_some : governing s p = some k ↔ ∃ i : Fin 8, s.regions[i].covers p ∧
    (∀ j : Fin 8, j < i → ¬ s.regions[j].covers p) ∧ s.regions[i].kind = some k := by
  simp only [governing, Option.bind_eq_some_iff, List.find?_eq_some_iff_getElem, covers_iff, Bool.not_eq_true',
    ← Bool.not_eq_true]
  constructor
  · rintro ⟨_, ⟨hc, i, hi, rfl, hlow⟩, hk⟩
    exact ⟨⟨i, by simpa using hi⟩, hc, fun j hj => hlow j hj, hk⟩
  · rintro ⟨i, hc, hlow, hk⟩
    exact ⟨s.regions[i], ⟨hc, i, by simp, rfl, fun j hj => hlow ⟨j, by omega⟩ hj⟩, hk⟩

/-- Step 4 denies a write exactly where the statements say so (R107). -/
theorem regionDenies_iff : regionDenies s addr tag ↔ regionAllows (governing s (pageOf addr)) (decide (tag ≠ 0)) = false := by
  have denies : regionDenies s addr tag ↔ ∃ k, governing s (pageOf addr) = some k ∧
      (k = .readOnly ∨ (k = .contextOnly ∧ tag = 0) ∨ (k = .directOnly ∧ tag ≠ 0)) := by
    simp only [governing_eq_some, regionDenies]
    grind
  rw [denies]
  cases governing s (pageOf addr) with
  | none => simp [regionAllows]
  | some k => cases k <;> simp [regionAllows]

end

/-! ### Steps 1 to 5 (R104 to R117) -/

section
variable {s : State} {r : Request} {f : FaultReason} {c : ContextId} {addr : WordAddr} {tag : BitVec 3}

theorem contextOf_zero : contextOf (0 : BitVec 3) = none := rfl

theorem tag_le_of_contextOf (h : contextOf tag = some c) : tag.toNat ≤ 4 := by
  by_contra hlt
  unfold contextOf contextOfNumber at h
  split at h
  case h_5 => cases h
  all_goals omega

theorem tagAdmitted_le (h : tagAdmitted s tag) : tag.toNat ≤ 4 := by
  rcases h with rfl | ⟨c, hc, -⟩
  · decide
  · exact tag_le_of_contextOf hc

theorem stateStep_admitted (h : addressAdmitted s addr) : stateStep s = none :=
  stateStep_none.mpr (h.imp And.left And.left)

theorem addressStep_admitted (h : addressAdmitted s r.addr) : addressStep s r = none := by
  rcases h with ⟨hs, ha⟩ | ⟨hs, ha⟩
  · simp [addressStep, hs, ha]
  · rw [addressStep, if_pos hs, if_neg (by omega), if_neg (by omega)]

/-- A request that passes steps 1 to 3 faults by step 4 or step 5, if it faults (R104). -/
theorem faultSteps_admitted (ha : addressAdmitted s r.addr) (ht : r.tag.toNat ≤ 4) :
    faultSteps s r = (regionStep s r).or (contextStep s r) := by
  simp [faultSteps, stateStep_admitted ha, tagStep, ht, addressStep_admitted ha]

/-- The region descriptors do not look at a read (R107). -/
theorem regionStep_read (h : r.op = .read) : regionStep s r = none := by
  simp [regionStep, Request.isWrite, h]

theorem regionStep_denied (hw : r.isWrite = true) (hp : r.regionPassed = false) (h : regionDenies s r.addr r.tag) :
    regionStep s r = some .regionDenied := by
  rw [regionStep, hw, hp, regionDenies_iff.mp h]
  rfl

theorem regionStep_allowed (h : ¬ regionDenies s r.addr r.tag) : regionStep s r = none := by
  have hallow := regionDenies_iff.not.mp h
  rw [Bool.not_eq_false] at hallow
  simp only [regionStep, hallow, Bool.not_true, Bool.and_false, Bool.false_eq_true, if_false]

theorem contextStep_direct (h : r.tag = 0) : contextStep s r = none := by
  rw [contextStep, h, contextOf_zero]

theorem contextStep_read (hr : r.op = .read) (hc : contextOf r.tag = some c) :
    contextStep s r = if (s.contexts.get c).state = .idle then some .contextClosed else none := by
  simp only [contextStep, hc]
  cases (s.contexts.get c).state <;> simp [Request.isWrite, hr]

/-- Steps 1 to 5 pass for an admitted write (R104). -/
theorem faultSteps_write_admitted (hw : r.isWrite = true) (h : writeAdmitted s r.addr r.tag) : faultSteps s r = none := by
  obtain ⟨ha, hregion, htag⟩ := h
  rw [faultSteps_admitted ha (tagAdmitted_le htag), regionStep_allowed hregion, Option.none_or]
  rcases htag with ht | ⟨c, hc, hopen⟩
  · exact contextStep_direct ht
  · exact (contextStep_write hw hc).mpr hopen

/-- Steps 1 to 5 pass for a read that its view resolves (R112). -/
theorem faultSteps_read_resolved {a : WordAddr} (hr : r.op = .read) (ha : addressAdmitted s r.addr)
    (h : readResolves s r.addr r.tag a) : faultSteps s r = none := by
  rcases h with ⟨ht, -⟩ | ⟨c, -, hc, hidle, -⟩
  · rw [faultSteps_admitted ha (by rw [ht]; decide), regionStep_read hr, contextStep_direct ht, Option.none_or]
  · rw [faultSteps_admitted ha (tag_le_of_contextOf hc), regionStep_read hr, contextStep_read hr hc, if_neg hidle,
      Option.none_or]

theorem classify_fault (h : faultSteps s r = some f) : classify s r = .fault f := by
  rw [classify, h]

end

/-! ### Steps 6 to 8 (R115 to R120) -/

section
variable {s : State} {r : Request} {e : MapEntry} {owner : ContextId} {data : Word} {lanes : Lanes} {a : WordAddr}

theorem classify_write (hf : faultSteps s r = none) (hop : r.op = .write data lanes) (hl : lanes ≠ 0) :
    classify s r = classifyWrite s r := by
  simp only [classify, hf, hop, hl, if_false]

theorem classify_read (hf : faultSteps s r = none) (hop : r.op = .read) : classify s r = classifyRead s r := by
  simp only [classify, hf, hop]

/-- A write with no lane has no effect (R117). -/
theorem classify_no_lane (hf : faultSteps s r = none) (hop : r.op = .write data 0) : classify s r = .withoutEffect := by
  simp only [classify, hf, hop, if_true]

/-- A write goes home in UNFORMATTED, and a direct one to a page without entry does so in SERVING (R118, R125). -/
theorem classifyWrite_home
    (h : s.bridge.state = .unformatted ∨ (contextOf r.tag = none ∧ noEntryFor s (pageOf r.addr))) :
    classifyWrite s r = ifBufferFree s (.post .home) := by
  rcases h with hs | ⟨hc, hl⟩
  · exact if_pos hs
  · simp only [classifyWrite, hc, lookupPage_none.mpr hl, ite_self]

/-- A write to a page of the current record waits for its retire (R118, R119). -/
theorem classifyWrite_record {n : Nat} (hs : s.bridge.state = .serving) (hl : lookupPage s.pageMap (pageOf r.addr) = some e)
    (he : e.state = .pending n ∨ e.state = .copied n) : classifyWrite s r = .hold .record none := by
  rcases he with he | he <;> simp [classifyWrite, hs, hl, he]

/-- A write to a page that an entry of another holder names conflicts (R118, R119). -/
theorem classifyWrite_conflict (hs : s.bridge.state = .serving) (hl : lookupPage s.pageMap (pageOf r.addr) = some e)
    (he : e.state = .context owner) (hc : contextOf r.tag ≠ some owner) : classifyWrite s r = .fault .conflict := by
  simp [classifyWrite, hs, hl, he, hc]

theorem ifBufferFree_full (h : bufferCapacity ≤ s.buffer.entries.length) (v : Verdict) :
    ifBufferFree s v = .hold .bufferFull none := if_pos h

theorem ifBufferFree_free (h : s.buffer.entries.length < bufferCapacity) (v : Verdict) : ifBufferFree s v = v :=
  if_neg (Nat.not_le.mpr h)

/-- A write that step 7 leaves to step 8 is held while the buffer is full (R120). -/
theorem classifyWrite_full (h : bufferCapacity ≤ s.buffer.entries.length)
    (hpage : s.bridge.state = .unformatted ∨ noEntryFor s (pageOf r.addr) ∨
      ∃ e c, lookupPage s.pageMap (pageOf r.addr) = some e ∧ e.state = .context c ∧ contextOf r.tag = some c) :
    classifyWrite s r = .hold .bufferFull none := by
  rcases hpage with hs | hl | ⟨e, c, hl, he, hc⟩
  · rw [classifyWrite_home (.inl hs), ifBufferFree_full h]
  · simp only [classifyWrite, lookupPage_none.mpr hl, ifBufferFree_full h]
    cases contextOf r.tag <;> simp
  · simp [classifyWrite, hl, he, hc, ifBufferFree_full h]

theorem resolveRead_eq (h : readResolves s r.addr r.tag a) : resolveRead s r = a := by
  rcases h with ⟨ht, rfl⟩ | ⟨c, hs, hc, -, rfl⟩
  · rw [resolveRead, ht, contextOf_zero]
  · simp [resolveRead, hs, hc]

theorem conflicts_iff {b : PostedBuffer} : conflicts b a = true ↔ ∃ e ∈ b.entries, e.addr.toNat / 8 = a.toNat / 8 := by
  simp [conflicts, arrayBlock]

theorem classifyRead_conflict (h : readResolves s r.addr r.tag a)
    (hb : ∃ e ∈ s.buffer.entries, e.addr.toNat / 8 = a.toNat / 8) :
    classifyRead s r = .hold .readWait (some a) := by
  rw [classifyRead, resolveRead_eq h]
  exact if_pos (conflicts_iff.mpr hb)

theorem classifyRead_free (h : readResolves s r.addr r.tag a)
    (hb : ∀ e ∈ s.buffer.entries, e.addr.toNat / 8 ≠ a.toNat / 8) : classifyRead s r = .grantRead a := by
  rw [classifyRead, resolveRead_eq h]
  exact if_neg fun hc => by obtain ⟨e, he, heq⟩ := conflicts_iff.mp hc; exact hb e he heq

end

end Sys2Proof.Machine.HostAccess
end

section
/-! SUPPORT. A request as it arrives: what each answer of its classification leaves, from step 1 to step 8, and the
statements about HOST_REQUEST (R102 to R129). -/

namespace Sys2Proof.Machine.HostAccess

-- One proof at a time: each proof run beside the others takes a thread, and its stack counts against the memory
-- limit of the check.
set_option Elab.async false

/-! ### The arrival of a request (R102, R104) -/

/-- The machine as HREQ rises. -/
def arrived (s : State) : State := { s with host := raised s.host }

section
variable {s : State} {addr : WordAddr} {tag : BitVec 3} {op : HostOp} {f : FaultReason} {data : Word} {lanes : Lanes}

/-- A request that arrives is sampled and classified; the level of HREQ has no part in that (R102, R104). -/
theorem exec_hostRequest {v : Verdict} (h : requestArrives s) (hv : classify s (sampledRequest addr tag op) = v) :
    exec (.hostRequest addr tag op) s = .next (settle (arrived s) (sampledRequest addr tag op) v) := by
  obtain ⟨hp, hreq, hout⟩ := h
  subst hv
  refine congrArg _ ((whenPowered_on hp _).trans ?_)
  exact (if_neg (by simp [hreq])).trans (if_neg (by simp [hout]))

/-- A request that faults with a reportable reason queues HOST_FAULT (R126). -/
theorem exec_hostRequest_fault (h : requestArrives s) (hr : f.reportable = true)
    (hv : classify s (sampledRequest addr tag op) = .fault f) :
    exec (.hostRequest addr tag op) s = .next (requestFaulted s addr tag op f) := by
  rw [exec_hostRequest h hv, settle, completeFault_reportable hr, requestFaulted, ← faultData_raised]
  rfl

/-- A request that faults with any other reason queues nothing (R126). -/
theorem exec_hostRequest_silent (h : requestArrives s) (hr : f.reportable = false)
    (hv : classify s (sampledRequest addr tag op) = .fault f) : exec (.hostRequest addr tag op) s =
      .next { s with host := hostFaulted (raised s.host) f (faultData s.host op) } := by
  rw [exec_hostRequest h hv, settle, completeFault_silent hr, ← faultData_raised]
  rfl

/-- An arriving write that is held has passed the region test, and its hold timer starts (R108, R121). -/
theorem settle_hold_write {w : HoldReason} (h : s.host.holdTimer = none) :
    settle (arrived s) (sampledRequest addr tag (.write data lanes)) (.hold w none) =
      { s with host := { raised s.host with
        outstanding := some { addr := addr, tag := tag, op := .write data lanes, phase := .held w, resolved := none
                              regionPassed := true }
        holdTimer := some s.settings.holdTimeout } } := by
  simp [settle, holdRequest, arrived, raised, sampledRequest, Request.isWrite, h]

end

/-! ### Steps 1 to 3 -/

section
variable {s : State} {r : Request} {f : FaultReason}

/-- Step 1 comes before every other (R104, R105). -/
theorem classify_of_stateStep (h : stateStep s = some f) : classify s r = .fault f :=
  classify_fault (by rw [faultSteps, h, Option.some_or])

/-- Step 2 comes before every other but step 1 (R104, R106). -/
theorem classify_badTag (hs : s.bridge.state = .serving ∨ s.bridge.state = .unformatted)
    (h : 5 ≤ r.tag.toNat) : classify s r = .fault .badTag :=
  classify_fault (by rw [faultSteps, stateStep_none.mpr hs, tagStep, if_neg (by omega), Option.none_or, Option.some_or])

/-- Step 3 looks at a request with a good tag (R104, R106). -/
theorem classify_of_addressStep (hs : s.bridge.state = .serving ∨ s.bridge.state = .unformatted)
    (ht : r.tag.toNat ≤ 4) (h : addressStep s r = some f) : classify s r = .fault f :=
  classify_fault (by
    rw [faultSteps, stateStep_none.mpr hs, tagStep, if_pos ht, h, Option.none_or, Option.none_or, Option.some_or])

end

/-- Settles O18: the first of the three steps that fails gives the reason. -/
theorem requestFaultsEarly : Obligations.RequestFaultsEarly := by
  intro s addr tag op h
  refine ⟨fun hs => ?notReady, fun hs => ?frozen, fun hs ht => ?badTag, fun hs ht ha => ?serving,
    fun hs ht ha => ?beyondStrap, fun hs ht hlow hhigh => ?anchorPage⟩
  case notReady =>
    simp only [List.mem_cons, List.not_mem_nil, or_false] at hs
    refine exec_hostRequest_silent h rfl (classify_of_stateStep ?_)
    rcases hs with hs | hs | hs | hs <;> rw [stateStep, hs]
  case frozen => exact exec_hostRequest_silent h rfl (classify_of_stateStep (by rw [stateStep, hs]))
  case badTag => exact exec_hostRequest_fault h rfl (classify_badTag hs ht)
  case serving =>
    refine exec_hostRequest_fault h rfl (classify_of_addressStep (.inl hs) ht ?_)
    rw [addressStep, if_neg (by simp [hs])]
    exact if_pos ha
  case beyondStrap =>
    refine exec_hostRequest_fault h rfl (classify_of_addressStep (.inr hs) ht ?_)
    rw [addressStep, if_pos hs]
    exact if_pos ha
  case anchorPage =>
    refine exec_hostRequest_fault h rfl (classify_of_addressStep (.inr hs) ht ?_)
    rw [addressStep, if_pos hs]
    exact (if_neg (Nat.not_le.mpr hhigh)).trans (if_pos hlow)

/-! ### Steps 4 to 8 -/

section
variable {s : State} {r : Request} {f : FaultReason}

/-- Step 4 comes before the context and the page map are looked at (R104, R107). -/
theorem classify_of_regionStep (ha : addressAdmitted s r.addr) (ht : r.tag.toNat ≤ 4) (h : regionStep s r = some f) :
    classify s r = .fault f :=
  classify_fault (by rw [faultSteps_admitted ha ht, h, Option.some_or])

/-- Step 5 looks at a request that the region descriptors allow (R104, R117). -/
theorem classify_of_contextStep {c : ContextId} (ha : addressAdmitted s r.addr) (hc : contextOf r.tag = some c)
    (hregion : regionStep s r = none) (h : contextStep s r = some f) : classify s r = .fault f :=
  classify_fault (by rw [faultSteps_admitted ha (tag_le_of_contextOf hc), hregion, h, Option.none_or])

end

/-- Settles O19: past step 3 the governing descriptor decides. -/
theorem writeDeniedByRegion : Obligations.WriteDeniedByRegion := by
  intro s addr tag data lanes h ha ht hd
  exact exec_hostRequest_fault h rfl (classify_of_regionStep ha ht (regionStep_denied rfl rfl hd))

/-- Settles O20: step 5 looks at the context alone, and step 7 at the entry of the page. -/
theorem requestFaultsByContextAndPage : Obligations.RequestFaultsByContextAndPage := by
  intro s addr tag h ha
  refine ⟨fun c hc hs => ?read, fun c data lanes hc hs hd => ?closed, fun c data lanes reason a hc hs hd => ?failed,
    fun e owner data lanes hadm hs hl hpage he hother => ?conflict⟩
  case read =>
    refine exec_hostRequest_fault h rfl (classify_of_contextStep ha hc (regionStep_read rfl) ?_)
    rw [contextStep_read rfl hc, if_pos hs]
  case closed =>
    simp only [List.mem_cons, List.not_mem_nil, or_false] at hs
    refine exec_hostRequest_fault h rfl (classify_of_contextStep ha hc (regionStep_allowed hd) ?_)
    rcases hs with hs | hs | hs <;> simp [contextStep, sampledRequest, Request.isWrite, hc, hs]
  case failed =>
    refine exec_hostRequest_fault h rfl (classify_of_contextStep ha hc (regionStep_allowed hd) ?_)
    simp [contextStep, sampledRequest, Request.isWrite, hc, hs]
  case conflict =>
    refine exec_hostRequest_fault h rfl ?_
    rw [classify_write (faultSteps_write_admitted rfl hadm) rfl hl]
    exact classifyWrite_conflict hs hpage he hother

theorem appendPosted_eq (b : PostedBuffer) (e : PostedEntry) : appendPosted b e = withPosted b e := by
  obtain ⟨entries, head⟩ := b
  cases entries <;> rfl

/-- Settles O21: a write with no lane stops at step 6, and step 8 finds a free entry for the other. -/
theorem directWriteAccepted : Obligations.DirectWriteAccepted := by
  intro s addr data h
  refine ⟨fun tag hadm => ?noLane, fun lanes hadm hl hpage hfree => ?posted⟩
  case noLane =>
    rw [exec_hostRequest h (classify_no_lane (faultSteps_write_admitted rfl hadm) rfl), settle, completeDone_write rfl]
    rfl
  case posted =>
    have hv : classify s (sampledRequest addr 0 (.write data lanes)) = .post .home := by
      rw [classify_write (faultSteps_write_admitted rfl hadm) rfl hl,
        classifyWrite_home (hpage.imp_right fun hn => ⟨contextOf_zero, hn⟩), ifBufferFree_free hfree]
    rw [exec_hostRequest h hv]
    refine congrArg _ ((completeDone_write rfl 0).trans ?_)
    rw [appendPosted_eq]
    rfl

/-- Settles O24: step 7 holds a write to a page of the record, and step 8 one that finds no free entry. -/
theorem writeHeld : Obligations.WriteHeld := by
  intro s addr tag data lanes h htimer hadm hl
  have step7 : classify s (sampledRequest addr tag (.write data lanes)) =
      classifyWrite s (sampledRequest addr tag (.write data lanes)) :=
    classify_write (faultSteps_write_admitted rfl hadm) rfl hl
  refine ⟨fun e n hs hpage he => ?record, fun hfull hpage => ?bufferFull⟩
  case record =>
    rw [exec_hostRequest h (step7.trans (classifyWrite_record hs hpage he)), settle_hold_write htimer]
  case bufferFull =>
    rw [exec_hostRequest h (step7.trans (classifyWrite_full hfull hpage)), settle_hold_write htimer]

/-- Settles O26: the view resolves the read, and the conflict test decides whether it waits. -/
theorem readResolved : Obligations.ReadResolved := by
  intro s addr tag a h htimer ha hres
  have step7 : classify s (sampledRequest addr tag .read) = classifyRead s (sampledRequest addr tag .read) :=
    classify_read (faultSteps_read_resolved rfl ha hres) rfl
  refine ⟨fun hfree => ?granted, fun hconflict => ?held⟩
  case granted =>
    rw [exec_hostRequest h (step7.trans (classifyRead_free hres hfree))]
    simp [settle, grantRead, arrived, raised, sampledRequest, htimer]
  case held =>
    rw [exec_hostRequest h (step7.trans (classifyRead_conflict hres hconflict))]
    simp [settle, holdRequest, arrived, raised, sampledRequest, Request.isWrite, htimer]

end Sys2Proof.Machine.HostAccess
end

section
/-! SUPPORT. The views of the page map (R113, R114). -/

namespace Sys2Proof.Machine.HostAccess

-- One proof at a time: each proof run beside the others takes a thread, and its stack counts against the memory
-- limit of the check.
set_option Elab.async false

/-! ### The committed view and the context views -/

section
variable {s : State} {w : WordAddr} {e : MapEntry} {c d : ContextId} {n : Nat}

theorem committedView_no_entry (h : noEntryFor s (pageOf w)) : s.committedView w = w := by
  rw [State.committedView, lookupPage_none.mpr h]

theorem committedView_pending (hl : lookupPage s.pageMap (pageOf w) = some e) (he : e.state = .pending n) :
    s.committedView w = if hasBlock e.written (blockOf w) then s.frameWord e.frame w else w := by
  simp only [State.committedView, hl, he]

/-- The committed view reads home for every entry that is not PENDING (R113). -/
theorem committedView_not_pending (hl : lookupPage s.pageMap (pageOf w) = some e) (he : ∀ n, e.state ≠ .pending n) :
    s.committedView w = w := by
  rw [State.committedView, hl]
  dsimp only
  cases hs : e.state with
  | pending n => exact absurd hs (he n)
  | context _ | copied _ => rfl

theorem contextView_no_entry (h : noEntryFor s (pageOf w)) : s.contextView c w = s.committedView w := by
  rw [State.contextView, lookupPage_none.mpr h]

/-- The context view of `c` is the committed view for every entry that is not one of `c` (R114). -/
theorem contextView_not_owned (hl : lookupPage s.pageMap (pageOf w) = some e) (he : e.state ≠ .context c) :
    s.contextView c w = s.committedView w := by
  simp [State.contextView, hl, ownedBy, he]

theorem contextView_owned (hl : lookupPage s.pageMap (pageOf w) = some e) (he : e.state = .context c) :
    s.contextView c w = if hasBlock e.written (blockOf w) then s.frameWord e.frame w else s.committedView w := by
  simp [State.contextView, hl, ownedBy, he]

end

/-- Settles O25: the state of the entry decides which view may read its frame. -/
theorem viewsFollowThePageMap : Obligations.ViewsFollowThePageMap := by
  intro s w
  refine ⟨fun hn => ?noEntry, fun e hl => ⟨fun n he a ha => ?pending, fun n he => ?copied, fun d he => ?context⟩⟩
  case noEntry =>
    have home := committedView_no_entry hn
    exact ⟨home, fun c => (contextView_no_entry hn).trans home⟩
  case pending =>
    have view : s.committedView w = a := (committedView_pending hl he).trans ha.symm
    exact ⟨view, fun c => (contextView_not_owned hl (by simp [he])).trans view⟩
  case copied =>
    have home : s.committedView w = w := committedView_not_pending hl (by simp [he])
    exact ⟨home, fun c => (contextView_not_owned hl (by simp [he])).trans home⟩
  case context =>
    have home : s.committedView w = w := committedView_not_pending hl (by simp [he])
    refine ⟨home, fun c hc => (contextView_not_owned hl (by simp [he, hc.symm])).trans home, ?_⟩
    rw [contextView_owned hl he, home]
    rfl

end Sys2Proof.Machine.HostAccess
end

section
/-! SUPPORT. The outstanding request at a change of bridge state and at its end: trips, RESETTING, FORMATTING, and the
three commands that end a request or its pulse (R102, R115, R121 to R124, R145 to R147). -/

namespace Sys2Proof.Machine.HostAccess

-- One proof at a time: each proof run beside the others takes a thread, and its stack counts against the memory
-- limit of the check.
set_option Elab.async false

/-! ### A waiting request (R124) -/

section
variable {s : State} {r : Request} {f : FaultReason}

/-- A waiting request is completed by a change of bridge state; NOT_READY and FROZEN queue no event (R124, R126). -/
theorem faultWaiting_waiting (hr : s.host.outstanding = some r) (hw : r.phase.waiting = true) (hf : f.reportable = false) :
    faultWaiting s f = { s with host := hostFaulted s.host f (faultData s.host r.op) } := by
  simp only [faultWaiting, hr, hw, if_true, completeFault_silent hf]

theorem hostAtTrip_waiting {h : HostPort} (hr : h.outstanding = some r) (hw : r.phase.waiting = true) :
    hostAtTrip h = hostFaulted h .frozen (faultData h r.op) := by
  simp only [hostAtTrip, hr, hw, if_true]

/-- The host port after the change of state of a trip (R124). -/
theorem faultWaiting_frozen : faultWaiting s .frozen = { s with host := hostAtTrip s.host } := by
  cases hr : s.host.outstanding with
  | none => simp only [faultWaiting, hostAtTrip, hr]
  | some r =>
    by_cases hw : r.phase.waiting = true
    · rw [faultWaiting_waiting hr hw (by rfl), hostAtTrip_waiting hr hw]
    · simp only [faultWaiting, hostAtTrip, hr, if_neg hw]

end

/-! ### Trips (R145 to R147) -/

section
variable {s : State} {e : Event}

theorem startDelay_pushEvent : startDelay (pushEvent s e) = pushEvent (startDelay s) e := by
  have hevents : (startDelay s).events = s.events := rfl
  simp only [pushEvent, hevents]
  split <;> rfl

/-- Whether the engine has a transfer to finish before its pause (R78, R146). -/
theorem pause_at_trip : (if engineTransferring s then Pause.requested else .paused) =
    match s.port.map Transfer.purpose with
    | none | some .hostRead | some .fillRead | some .fillWrite | some .drainWrite | some .anchorRead => .paused
    | some _ => .requested := by
  rw [engineTransferring]
  cases hp : s.port with
  | none => rfl
  | some t => cases hu : t.purpose <;> simp [hu]

theorem enterFrozen_eq_tripped (h : s.settings.tripMode = .freeze) : enterFrozen s = tripped s := by
  rw [enterFrozen, faultWaiting_frozen, startDelay_pushEvent, pause_at_trip, tripped, h]
  rfl

theorem reportSupplyLow_eq_tripped (h : s.settings.tripMode = .report) : reportSupplyLow s = tripped s := by
  rw [reportSupplyLow, startDelay_pushEvent, tripped, h]
  rfl

/-- A trip is taken in the four states that can be tripped (R145). -/
theorem takeTrip_trippable (h : s.bridge.state.trippable = true) : takeTrip s = tripped s := by
  unfold takeTrip
  cases hs : s.bridge.state
  case starting | frozen | resetting => simp [hs, BridgeState.trippable] at h
  all_goals
    dsimp only
    split
    · exact enterFrozen_eq_tripped ‹_›
    · exact reportSupplyLow_eq_tripped ‹_›

end

/-- Settles O14: the running filter timer of ARMED takes the trip. -/
theorem tripTaken : Obligations.TripTaken := by
  intro s hp ht hphase htimer
  refine congrArg _ ((whenPowered_on hp _).trans ?_)
  rw [if_pos ⟨hphase, htimer⟩, takeTrip_trippable ht]

/-! ### The changes of bridge state that fault a waiting request (R124) -/

section
variable {s : State} {r : Request}

/-- What a waiting request is left with at a change of bridge state that queues no event (R124). -/
def FaultedAt (s t : State) (b : BridgeState) (f : FaultReason) (op : HostOp) : Prop :=
  t.bridge.state = b ∧ t.host = hostFaulted s.host f (faultData s.host op) ∧ t.events = s.events ∧ t.overflow = s.overflow

theorem enterResetting_waiting (hr : s.host.outstanding = some r) (hw : r.phase.waiting = true)
    (hs : s.bridge.state ≠ .resetting) : FaultedAt s (enterResetting s) .resetting .notReady r.op := by
  rw [enterResetting, if_neg hs, faultWaiting_waiting hr hw rfl]
  exact ⟨rfl, rfl, rfl, rfl⟩

theorem enterFormatting_waiting (hr : s.host.outstanding = some r) (hw : r.phase.waiting = true) (frames : Nat) :
    FaultedAt s (enterFormatting s frames) .formatting .notReady r.op := by
  rw [enterFormatting, faultWaiting_waiting hr hw rfl]
  refine ⟨?_, ?_, ?_, ?_⟩ <;> simp

/-- RST_N falls in a powered part (R18). -/
theorem exec_rstNFall (hp : s.powered = true) (hrst : s.bridge.rstN = true) :
    exec .rstNFall s = .next (enterResetting { s with bridge := { s.bridge with rstN := false } }) :=
  congrArg Host.Outcome.next ((whenPowered_on hp _).trans (if_pos hrst))

theorem exec_restart (hat : atDecode s 0x3F [] = true) :
    exec .restart s = .next (acceptedWith (enterResetting s) 0x3F [] []) :=
  congrArg Host.Outcome.next (Updates.decodeCommand_accepted hat rfl)

theorem exec_format_accepted {frames : BitVec 16} (hadm : formatAdmitted s = true)
    (hcount : frameCountAcceptable s.bridge.strapPages frames.toNat = true)
    (hat : atDecode s 0x30 [highByte frames, lowByte frames] = true) : exec (.format frames) s =
      .next (acceptedWith (enterFormatting s frames.toNat) 0x30 [highByte frames, lowByte frames] []) :=
  congrArg Host.Outcome.next (Updates.decodeCommand_accepted hat ((if_pos hadm).trans (if_pos hcount)))

end

/-- Settles O10: each of the four changes of bridge state faults the waiting request. -/
theorem waitingRequestFaulted : Obligations.WaitingRequestFaulted := by
  intro s r hp hr hw
  refine ⟨fun hs hrst => ⟨_, exec_rstNFall hp hrst, ?fall⟩, fun hs hat => ⟨_, exec_restart hat, ?restart⟩,
    fun frames hadm hcount hat => ⟨_, exec_format_accepted hadm hcount hat, ?format⟩,
    fun ht hphase htimer hmode => ⟨_, tripTaken s hp ht hphase htimer, ?trip⟩⟩
  case fall => exact enterResetting_waiting (s := { s with bridge := { s.bridge with rstN := false } }) hr hw hs
  case restart => exact enterResetting_waiting hr hw hs
  case format => exact enterFormatting_waiting hr hw frames.toNat
  case trip =>
    rw [tripped, hmode]
    refine ⟨by simp, by simpa using hostAtTrip_waiting hr hw, ?_⟩
    simp only [pushEvent]
    split <;> exact ⟨rfl, rfl⟩

/-! ### The end of a request (R102, R115, R123) -/

theorem execHoldTimeout_held {s : State} {r : Request} {h : HoldReason} {us : Nat} (hp : s.powered = true)
    (hr : s.host.outstanding = some r) (hh : r.phase = .held h) (ht : s.host.holdTimer = some us) :
    exec .holdTimeout s = .next (if us = 0 then s else completeFault s r .holdTimeout) := by
  refine congrArg _ ((whenPowered_on hp _).trans ?_)
  by_cases hus : us = 0 <;> simp [hr, hh, ht, hus, HostPhase.isHeld, holdExpires]

/-- A hold timer that measures against 0 sets no limit (R121). -/
theorem execHoldTimeout_no_limit {s : State} (hp : s.powered = true) (ht : s.host.holdTimer = some 0) :
    exec .holdTimeout s = .next s := by
  refine congrArg _ ((whenPowered_on hp _).trans ?_)
  have never : holdExpires s = false := by simp [holdExpires, ht]
  simp only [never, Bool.and_false, Bool.false_eq_true, if_false]
  split <;> rfl

/-- Settles O27: the fall of HREQ, the word of the array, and the hold timer against its limit. -/
theorem requestCompletes : Obligations.RequestCompletes := by
  intro s hp
  refine ⟨congrArg _ (whenPowered_on hp _), fun r t hr hphase hread ht hu hw hn => ?read,
    fun r h us hr hh ht hus => ?timeout, execHoldTimeout_no_limit hp⟩
  case read =>
    rw [Completions.exec_hostReadComplete ht hu hw hr hphase hread]
    exact congrArg _ (Completions.autoResume_of_noResumeDue hn)
  case timeout => rw [execHoldTimeout_held hp hr hh ht, if_neg hus, completeFault_reportable rfl]

end Sys2Proof.Machine.HostAccess
end

section
/-! SUPPORT. SET_REGION: its checks in order and what its answers leave (R109, R173). -/

namespace Sys2Proof.Machine.HostAccess

-- One proof at a time: each proof run beside the others takes a thread, and its stack counts against the memory
-- limit of the check.
set_option Elab.async false

/-! ### The checks of SET_REGION -/

theorem setIfInBounds_fin {α : Type} {n : Nat} (v : Vector α n) (x : α) (j : Fin n) :
    v.setIfInBounds j x = v.set j x := by
  simp [Vector.setIfInBounds, Vector.set, Array.setIfInBounds]

/-- The codes 1 to 3 name a kind, and 0 is NONE (R175). -/
theorem regionKindOf_isSome {code : Nat} (hlow : 1 ≤ code) (hhigh : code ≤ 3) : ∃ k, regionKindOf code = some k := by
  interval_cases code <;> exact ⟨_, rfl⟩

theorem regionLimit_eq {s : State} (hs : s.bridge.state = .serving ∨ s.bridge.state = .unformatted) :
    regionLimit s = if s.bridge.state = .serving then s.homePages else s.bridge.strapPages - 1 := by
  rcases hs with hs | hs <;> simp [regionLimit, hs]

/-- Settles O36: the checks come in order, and only the last of them looks at the bounds. -/
theorem setRegionApplies : Obligations.SetRegionApplies := by
  intro s i first last kind args hargs hat
  subst hargs
  refine ⟨fun hs => ?wrongState, fun hs => ?_⟩
  case wrongState =>
    simp only [List.mem_cons, List.not_mem_nil, or_false, not_or] at hs
    exact congrArg Host.Outcome.next (Updates.decodeCommand_refused hat (if_pos hs))
  simp only [List.mem_cons, List.not_mem_nil, or_false] at hs
  have hstate : ¬ (s.bridge.state ≠ .serving ∧ s.bridge.state ≠ .unformatted) := by tauto
  refine ⟨fun h => ?badArgument, fun limit hlimit => ⟨fun hkind hbad => ?badBounds, fun j hj => ⟨fun hkind => ?none,
    fun k hk hle hlt => ?enabled⟩⟩⟩
  case badArgument =>
    exact congrArg Host.Outcome.next
      (Updates.decodeCommand_refused hat ((if_neg hstate).trans (if_pos h)))
  case badBounds =>
    refine congrArg Host.Outcome.next (Updates.decodeCommand_refused hat ((if_neg hstate).trans ?_))
    by_cases h : 7 < i.toNat ∨ 3 < kind.toNat
    · exact if_pos h
    · obtain ⟨k, hk⟩ := regionKindOf_isSome hkind (by omega)
      rw [← regionLimit_eq hs] at hlimit
      rw [if_neg h, hk]
      exact if_neg (by omega)
  case none =>
    have hcode : kind.toNat = 0 := by rw [hkind]; rfl
    refine congrArg Host.Outcome.next (Updates.decodeCommand_accepted hat ((if_neg hstate).trans ?_))
    rw [if_neg (by omega), hcode, hj, setIfInBounds_fin]
    rfl
  case enabled =>
    have hcode : kind.toNat ≤ 3 ∧ regionKindOf kind.toNat = some k := by
      simp only [List.mem_cons, Prod.mk.injEq, List.not_mem_nil, or_false] at hk
      rcases hk with ⟨rfl, rfl⟩ | ⟨rfl, rfl⟩ | ⟨rfl, rfl⟩ <;> exact ⟨by decide, rfl⟩
    obtain ⟨hhigh, hkind⟩ := hcode
    refine congrArg Host.Outcome.next (Updates.decodeCommand_accepted hat ((if_neg hstate).trans ?_))
    rw [← regionLimit_eq hs] at hlimit
    rw [if_neg (by omega), hkind, hj]
    simp only [setIfInBounds_fin]
    exact if_pos (by omega)

end Sys2Proof.Machine.HostAccess
end

section
/-! SUPPORT. The array through every command: a command that completes a transfer leaves the array as the transfer
leaves it, POWER_LOSS may cut a word write, and every other command leaves the array as it was (R135). -/

namespace Sys2Proof.Machine.ArrayPort

-- One proof at a time: each proof run beside the others takes a thread, and its stack counts against the memory
-- limit of the check.
set_option Elab.async false

/-! ### The array after the completion of a transfer -/

/-- The array after a command that completes a transfer of this purpose: with no such transfer in progress, or without
the supply, there is no completion (R135; assumption logs 5 and 7). -/
def landed (s : State) (p : Purpose) : Memory :=
  match s.port with
  | some t => if s.powered = true ∧ t.purpose = p then arrayAfter s t else s.array
  | none => s.array

/-- The array as a command other than POWER_LOSS leaves it (R135). -/
def arrayLeft (s : State) (c : Instr) : Memory := (completionOf c).elim s.array (landed s)

section
variable {s : State} {t : Transfer} {p : Purpose}

theorem completeTransfer_array (s : State) (t : Transfer) : (completeTransfer s t).array = arrayAfter s t := rfl

theorem completeTransfer_eq (s : State) (t : Transfer) :
    completeTransfer s t = { s with array := arrayAfter s t, port := none } := rfl

theorem arrayAfter_read (h : t.isWrite = false) : arrayAfter s t = s.array := by simp [arrayAfter, h]

theorem arrayAfter_wf (hm : ArrayCanonical s) (t : Transfer) : Memory.wf (arrayAfter s t) := completeTransfer_wf hm t

/-- A completed transfer changes the enabled lanes of the word it writes, and no other byte (R135). -/
theorem readByte_arrayAfter (hm : ArrayCanonical s) (t : Transfer) (v : WordAddr) {l : Nat} (hl : l < 4) :
    readByte (arrayAfter s t) (byteAddr v l) =
      if t.isWrite = true ∧ v = t.addr ∧ t.lanes.getLsbD l = true then laneOf t.data l
      else readByte s.array (byteAddr v l) := by
  cases hw : t.isWrite with
  | false => simp [arrayAfter_read hw]
  | true => simp [arrayAfter, hw, readByte_writeWord hm t.addr v t.data t.lanes hl]

theorem landed_at (ht : s.port = some t) :
    landed s p = if s.powered = true ∧ t.purpose = p then arrayAfter s t else s.array := by
  simp [landed, ht]

theorem landed_free (h : s.port = none) : landed s p = s.array := by simp [landed, h]

theorem landed_wf (hm : ArrayCanonical s) (p : Purpose) : Memory.wf (landed s p) := by
  cases h : s.port with
  | none => rwa [landed_free h]
  | some t =>
    rw [landed_at h]
    split
    · exact arrayAfter_wf hm t
    · exact hm

theorem arrayLeft_wf (hm : ArrayCanonical s) (c : Instr) : Memory.wf (arrayLeft s c) := by
  unfold arrayLeft
  cases completionOf c with
  | none => exact hm
  | some p => exact landed_wf hm p

end

/-! ### The wrappers of the meanings -/

section
variable {s : State} {p : Purpose}

theorem whenPowered_array {f : State → State} (hf : (f s).array = s.array) : (whenPowered s f).array = s.array :=
  whenPowered_induct (P := fun u => u.array = s.array) rfl fun _ => hf

theorem decodeCommand_array {code : Byte} {args : List Byte} {f : State → Answer} (hf : (f s).state.array = s.array) :
    (decodeCommand s code args f).array = s.array :=
  decodeCommand_induct (P := fun u => u.array = s.array) (fun u _ h => by simpa using h) rfl fun _ => hf

theorem contextCommand_array {c : Byte} {f : ContextId → Answer} (hf : ∀ k, (f k).state.array = s.array) :
    (contextCommand s c f).state.array = s.array := by
  rcases contextCommand_cases s c f with ⟨_, k, _, e⟩ | e <;> rw [e]
  exact hf k

/-- A completion whose effect leaves the array alone leaves it as the transfer does (R135). -/
theorem onCompletion_array {f : Transfer → Word → State → State} (hf : ∀ t w u, (f t w u).array = u.array) :
    (onCompletion s p f).array = landed s p := by
  cases ht : s.port with
  | none => simp only [onCompletion, ht, landed_free ht]
  | some t =>
    simp only [onCompletion, ht, landed_at ht, Bool.and_eq_true, decide_eq_true_eq]
    split
    · rw [hf, completeTransfer_array]
    · rfl

/-- The same of the engine: neither the pause nor a resume reaches the array (R78, R151). -/
theorem onEngineCompletion_array {st : Stage} {o : TakenOrder} {f : Word → State → State}
    (hf : ∀ w u, (f w u).array = u.array) : (onEngineCompletion s p st o f).array = landed s p := by
  refine onCompletion_array fun t w u => ?_
  simp only [autoResume_frame, takePause_frame]
  split
  · exact hf w u
  · rfl

end

/-! ### The commands -/

/-- Every command but POWER_LOSS leaves the array as the transfer it completes, if any, leaves it (R135). -/
theorem exec_array {c : Instr} {s u : State} (hc : ∀ o, c ≠ .powerLoss o) (he : exec c s = .next u) :
    u.array = arrayLeft s c := by
  cases c
  all_goals obtain rfl : _ = u := Host.Outcome.next.inj he
  case powerLoss o => exact absurd rfl (hc o)
  case powerOnReset pins =>
    show State.array (if pins.rstN then _ else _) = s.array
    split <;> simp
  case rstNFall | rstNRise | warmResetPoint | supplyFallAssert | supplyFallDeassert | trip | gateOpen | resumeDelayMet
      | rearmDelayMet | holdTimeout | hostRequest | hreqFall | frameStart | frameEnd | badCommand | takeWork
      | arrayGrant | byteComplete =>
    refine whenPowered_array ?_
    repeat' split
    all_goals simp
  case status | readContext | lookup | readEvents | readFaults | getConfig | getRegion | setConfig | setRegion
      | clearFaults | format | resume | restart =>
    refine decodeCommand_array ?_
    repeat' split
    all_goals simp
  case openContext | commit | abort =>
    refine decodeCommand_array (contextCommand_array fun k => ?_)
    repeat' split
    all_goals simp
  case hostReadComplete | fillRead | fillWrite | drainWrite | anchorRead =>
    refine onCompletion_array fun t w u => ?_
    repeat' split
    all_goals simp
  case sumRead | journalWrite | markWrite | copyRead | copyWrite | retireWrite | scanRead | verifyRead | applyCopyRead
      | applyCopyWrite | recoveryRetireWrite =>
    exact onEngineCompletion_array fun w u => by simp
  case formatWrite =>
    refine onEngineCompletion_array fun w u => ?_
    split
    · simp
    · rfl

/-- A power loss leaves the array as it was or with the word write in progress cut: canonical in both cases (R80). -/
theorem execPowerLoss_wf {s u : State} {o : LossOutcome} (hm : ArrayCanonical s)
    (he : exec (.powerLoss o) s = .next u) : ArrayCanonical u := by
  obtain rfl : _ = u := Host.Outcome.next.inj he
  refine whenPowered_induct (P := ArrayCanonical) hm fun _ => ?_
  split
  · split
    · exact cutWrite_wf hm _ _ _
    · exact hm
  · exact hm

/-- Settles O6: the array after every command but POWER_LOSS is the one the completed transfer leaves. -/
theorem bytesChangedOnlyByCompletions : Obligations.BytesChangedOnlyByCompletions := by
  refine ⟨fun c s u hm he => ?canonical, fun c s u hm hc he v l hl => ?bytes⟩
  case canonical =>
    by_cases hc : ∃ o, c = .powerLoss o
    · obtain ⟨o, rfl⟩ := hc
      exact execPowerLoss_wf hm he
    · rw [ArrayCanonical, exec_array (not_exists.mp hc) he]
      exact arrayLeft_wf hm c
  case bytes =>
    rw [exec_array hc he, arrayLeft]
    cases completionOf c with
    | none => rfl
    | some p =>
      cases ht : s.port with
      | none => rw [Option.elim_some, landed_free ht]
      | some t =>
        rw [Option.elim_some, landed_at ht]
        dsimp only
        by_cases h : s.powered = true ∧ t.purpose = p
        · simp only [h, and_self, if_true, true_and, readByte_arrayAfter hm t v hl]
        · rw [if_neg h, if_neg (by tauto)]

end Sys2Proof.Machine.ArrayPort
end

section
/-! SUPPORT. The array sequencer and the drain: the steps of the grant decision, one equation a step, and what the
completion of a transfer of the drain does to the head entry and the buffer (R128 to R131, R137 to R141). -/

namespace Sys2Proof.Machine.ArrayPort

-- One proof at a time: each proof run beside the others takes a thread, and its stack counts against the memory
-- limit of the check.
set_option Elab.async false

/-! ### The grant decision (R138) -/

section
variable {s : State} {d t : Transfer} {g : Grant}

theorem drainUrgent_iff : drainUrgent s = true ↔ urgentDrain s := by
  simp only [drainUrgent, Bool.or_eq_true, decide_eq_true_eq, Option.map_eq_some_iff, or_assoc]
  rfl

/-- In FROZEN and RESETTING the drain alone is served. -/
theorem decideGrant_drainOnly (h : s.bridge.state = .frozen ∨ s.bridge.state = .resetting) :
    decideGrant s = (drainAsks s).map .drain := if_pos h

section
variable (hf : s.bridge.state ≠ .frozen) (hr : s.bridge.state ≠ .resetting)
include hf hr

theorem decideGrant_urgent (hd : drainAsks s = some d) (hu : urgentDrain s) : decideGrant s = some (.drain d) := by
  simp [decideGrant, hf, hr, hd, drainUrgent_iff.mpr hu]

/-- A read comes before the engine and a drain that is not urgent. -/
theorem decideGrant_read (ht : readAsks s = some t) (hd : drainAsks s = none ∨ ¬ urgentDrain s) :
    decideGrant s = some (.read t) := by
  rw [← drainUrgent_iff] at hd
  cases ha : drainAsks s with
  | none => simp [decideGrant, hf, hr, ha, ht]
  | some d => simp [decideGrant, hf, hr, ha, ht, hd.resolve_left (by simp [ha])]

/-- Engine and drain take turns where both ask. -/
theorem decideGrant_turn (ht : readAsks s = none) (hd : drainAsks s = some d) (hu : ¬ urgentDrain s)
    (he : engineAsks s = some t) : decideGrant s = some (if s.turn = .engine then .drain d else .engine t) := by
  rw [← drainUrgent_iff] at hu
  simp [decideGrant, hf, hr, hd, ht, he, hu]

theorem decideGrant_drainAlone (ht : readAsks s = none) (hd : drainAsks s = some d) (he : engineAsks s = none) :
    decideGrant s = some (.drain d) := by
  simp [decideGrant, hf, hr, hd, ht, he]

theorem decideGrant_noDrain (ht : readAsks s = none) (hd : drainAsks s = none) :
    decideGrant s = (engineAsks s).map .engine := by
  cases he : engineAsks s <;> simp [decideGrant, hf, hr, hd, ht, he]

end

theorem exec_arrayGrant_busy (hp : s.powered = true) (h : s.port.isSome = true) :
    exec .arrayGrant s = .next s := by
  obtain ⟨t, ht⟩ := Option.isSome_iff_exists.mp h
  exact congrArg Host.Outcome.next ((whenPowered_on hp _).trans (by simp [ht]))

theorem exec_arrayGrant_free (hp : s.powered = true) (hn : s.port = none) :
    exec .arrayGrant s = .next ((decideGrant s).elim s (beginTransfer s)) := by
  refine congrArg Host.Outcome.next ((whenPowered_on hp _).trans ?_)
  cases hg : decideGrant s <;> simp [hn]

end

/-- Settles O43: each row of the decision, by the step of R138 that applies first. -/
theorem grantDecision : Obligations.GrantDecision := by
  intro s hp
  refine ⟨exec_arrayGrant_busy hp, fun hn => ?_⟩
  rw [exec_arrayGrant_free hp hn]
  refine ⟨fun hs => ?drainOnly, fun hf hr => ⟨fun d hdrain hu => ?urgent, fun t hread hdrain => ?read,
    fun d t hread hdrain hu hengine => ?turn, fun d hread hdrain hengine => ?drainAlone,
    fun t hread hdrain hengine => ?engineAlone, fun hread hdrain hengine => ?nobody⟩⟩
  case drainOnly =>
    rw [decideGrant_drainOnly hs]
    exact ⟨fun d hd => by rw [hd]; rfl, fun hd => by rw [hd]; rfl⟩
  case urgent => rw [decideGrant_urgent hf hr hdrain hu]; rfl
  case read => rw [decideGrant_read hf hr hread hdrain]; rfl
  case turn =>
    rw [decideGrant_turn hf hr hread hdrain hu hengine]
    cases s.turn <;> rfl
  case drainAlone => rw [decideGrant_drainAlone hf hr hread hdrain hengine]; rfl
  case engineAlone => rw [decideGrant_noDrain hf hr hread hdrain, hengine]; rfl
  case nobody => rw [decideGrant_noDrain hf hr hread hdrain, hengine]; rfl

/-! ### The transfers of the drain (R128, R130, R131) -/

section
variable {s : State}

theorem bufferFrom_tail (b : PostedBuffer) : bufferFrom b.entries.tail = afterDeparture b := by
  unfold bufferFrom afterDeparture
  cases b.entries.tail <;> rfl

/-- With no request held for the buffer, a departure releases none (R122). -/
theorem releaseDeparture_none_held
    (h : ∀ r, s.host.outstanding = some r → r.phase ≠ .held .bufferFull ∧ r.phase ≠ .held .readWait) :
    releaseDeparture s = s := by
  cases ho : s.host.outstanding with
  | none => exact Completions.releaseDeparture_no_request ho
  | some r =>
    obtain ⟨hfull, hwait⟩ := h r ho
    simp [releaseDeparture, releaseHeld, releaseReadWait, ho, hfull, hwait]

theorem endDrain_elsewhere (h : s.engine.stage ≠ .drain) : endDrain s = s := by
  unfold endDrain
  split
  · simp [h]
  · rfl

theorem endFormatDrain_elsewhere (h : s.engine.stage ≠ .format) : endFormatDrain s = s := by
  simp [endFormatDrain, h]

/-- A departure on which nothing waits changes the buffer alone (R131). -/
theorem departHead_nothing_waiting
    (hr : ∀ r, s.host.outstanding = some r → r.phase ≠ .held .bufferFull ∧ r.phase ≠ .held .readWait)
    (hd : s.engine.stage ≠ .drain) (hf : s.engine.stage ≠ .format)
    (hn : noResumeDue { s with buffer := afterDeparture s.buffer }) :
    departHead s = { s with buffer := afterDeparture s.buffer } := by
  rw [departHead, bufferFrom_tail, releaseDeparture_none_held (by exact hr), endDrain_elsewhere (by exact hd),
    endFormatDrain_elsewhere (by exact hf), Completions.autoResume_of_noResumeDue hn]

end

/-- Settles O45: the transfers of the head entry in the order of its positions, and its departure. -/
theorem drainTransfersComplete : Obligations.DrainTransfersComplete := by
  intro s t h ⟨hp, ht⟩ hh
  refine ⟨fun i hu hw hpos hlen => ?read, fun i hu hpos => ?write, fun hu hr hd hf hn => ?departs⟩
  all_goals refine congrArg Host.Outcome.next ((onCompletion_at hp ht hu _).trans ?_)
  case read =>
    have hstore : h.store.take i = h.store := by rw [← hlen, List.take_length]
    simp only [completeTransfer_eq, arrayAfter_read hw, hh, hpos, hstore, setHead]
  case write => simp only [completeTransfer_eq, hh, hpos, setHead]
  case departs => exact departHead_nothing_waiting hr hd hf hn

end Sys2Proof.Machine.ArrayPort
end

section
/-! SUPPORT. The bytes of the management port: the codes of commands, the fields of responses and event records, and
what a decode answers (R157, R158, R173, R174). -/

namespace Sys2Proof.Machine.ManagementPort

-- One proof at a time: each proof run beside the others takes a thread, and its stack counts against the memory
-- limit of the check.
set_option Elab.async false

/-! ### Codes and fields -/

/-- The codes with arguments are those of the table, each with at least one argument byte (R157, R173). -/
theorem argumentCount_of_mem {code : Byte} {n : Nat} (h : (code, n) ∈ codesWithArguments) :
    argumentCount code = some n ∧ 0 < n :=
  (by decide : ∀ x ∈ codesWithArguments, argumentCount x.1 = some x.2 ∧ 0 < x.2) (code, n) h

/-- A code in neither list names no command (R159). -/
theorem argumentCount_unknown : ∀ code : Byte, code ∉ codesWithoutArguments → code ∉ codesWithArguments.map Prod.fst →
    argumentCount code = none := by
  decide +kernel

theorem mdiBits_eq_msbFirst (b : Byte) : mdiBits b = msbFirst b := rfl

theorem extractLsb'_ofNat_byte (k n : Nat) (h : k + 8 ≤ 32) :
    (BitVec.ofNat 32 n).extractLsb' k 8 = BitVec.ofNat 8 (n / 2 ^ k) := by
  apply BitVec.eq_of_getLsbD_eq
  intro i hi
  simp only [BitVec.getLsbD_extractLsb', BitVec.getLsbD_ofNat, Nat.testBit_div_two_pow, hi, decide_true, Bool.true_and,
    (by omega : k + i < 32), Nat.add_comm i k]

/-- A four-byte field holds its number modulo 2^32 (R173). -/
theorem fourBytes_eq (n : Nat) : fourBytes n = bigEndian (BitVec.ofNat 32 n) := by
  simp [fourBytes, bigEndian, extractLsb'_ofNat_byte]

@[simp] theorem fourBytes_word (w : Word) : fourBytes w.toNat = bigEndian w := by
  rw [fourBytes_eq, BitVec.ofNat_toNat, BitVec.setWidth_eq]

@[simp] theorem fourBytes_addr (a : WordAddr) : fourBytes a.toNat = bigEndian (a.zeroExtend 32) := by
  rw [fourBytes_eq, BitVec.ofNat_toNat]

@[simp] theorem byteField_tag (t : BitVec 3) : byteField t.toNat = [t.zeroExtend 8] :=
  congrArg (fun b => [b]) (BitVec.ofNat_toNat 8 t)

/-! ### The answer of a command -/

/-- At its decode point an accepted command is answered with its response data, in the state its effect leaves. -/
theorem decodeCommand_answered {s t : State} {code : Byte} {args data : List Byte} {f : State → Answer}
    (h : atDecode s code args = true) (hf : f s = accepted t data) :
    decodeCommand s code args f = acceptedWith t code args data := by
  rw [decodeCommand_at h, hf]; rfl

end Sys2Proof.Machine.ManagementPort
end

section
/-! SUPPORT. The frame of the management port: its bits, the bytes before the decode point, and MDO (R156 to R160). -/

namespace Sys2Proof.Machine.ManagementPort

-- One proof at a time: each proof run beside the others takes a thread, and its stack counts against the memory
-- limit of the check.
set_option Elab.async false

/-! ### Bits of a byte -/

theorem takeBits_idle {m : MgmtPort} (h : m.phase = .idle) (xs : List Bool) : xs.foldl takeBit m = m := by
  induction xs with
  | nil => rfl
  | cons x xs ih => rwa [List.foldl_cons, takeBit, if_pos h]

/-- Any eight bits are those of a byte. -/
theorem exists_msbFirst {xs : List Bool} (h : xs.length = 8) : ∃ b, xs = msbFirst b := by
  refine ⟨byteOfBits xs, ?_⟩
  obtain ⟨b7, b6, b5, b4, b3, b2, b1, b0, rfl⟩ : ∃ b7 b6 b5 b4 b3 b2 b1 b0, xs = [b7, b6, b5, b4, b3, b2, b1, b0] := by
    match xs, h with
    | [b7, b6, b5, b4, b3, b2, b1, b0], _ => exact ⟨b7, b6, b5, b4, b3, b2, b1, b0, rfl⟩
  revert b7 b6 b5 b4 b3 b2 b1 b0
  decide +kernel

theorem completesAs_of_append {m : MgmtPort} {b : Byte} {xs : List Bool} (h : m.bits ++ xs = mdiBits b) :
    m.completesAs b = true := by
  simp [MgmtPort.completesAs, ← mdiBits_eq_msbFirst, ← h]

section
variable {m : MgmtPort} {code b : Byte} {n : Nat} {xs : List Bool}

/-- Byte 0 with the code of a command with arguments (R156, R157). -/
theorem takeBits_code (hp : m.phase = .command) (hl : m.bits.length < 8) (h : m.bits ++ xs = mdiBits code)
    (hc : (code, n) ∈ codesWithArguments) :
    xs.foldl takeBit m =
      { m with phase := .arguments, code := some code, args := [], bits := [], bytes := m.bytes + 1 } := by
  obtain ⟨hn, hpos⟩ := argumentCount_of_mem hc
  obtain ⟨k, rfl⟩ := Nat.exists_eq_succ_of_ne_zero hpos.ne'
  rw [takeBits_complete xs code m (by simp [hp]) hl h]
  simp [takeByte, hp, hn, MgmtPort.nextByte]

/-- An argument byte before the last one joins the arguments (R156, R157). -/
theorem takeBits_argument (hp : m.phase = .arguments) (hl : m.bits.length < 8) (h : m.bits ++ xs = mdiBits b)
    (hcode : m.code = some code) (hc : (code, n) ∈ codesWithArguments) (hn : m.args.length + 1 < n) :
    xs.foldl takeBit m = { m with args := m.args ++ [b], bits := [], bytes := m.bytes + 1 } := by
  obtain ⟨hcount, -⟩ := argumentCount_of_mem hc
  rw [takeBits_complete xs b m (by simp [hp]) hl h]
  simp [takeByte, hp, hcode, hcount, hn, MgmtPort.nextByte]

/-- A byte after the decode point is ignored (R158, R159). -/
theorem takeBits_ignored (hp : m.phase = .response ∨ m.phase = .ignoring) (hl : m.bits.length < 8)
    (h : (m.bits ++ xs).length = 8) : xs.foldl takeBit m = { m with bits := [], bytes := m.bytes + 1 } := by
  obtain ⟨b, hb⟩ := exists_msbFirst h
  have hidle : m.phase ≠ .idle := by rcases hp with hp | hp <;> simp [hp]
  rw [takeBits_complete xs b m hidle hl hb]
  rcases hp with hp | hp <;> simp [takeByte, hp, MgmtPort.nextByte]

end

/-! ### The commands of a frame -/

section
variable {s : State}

theorem exec_byteComplete (hp : s.powered = true) (xs : List Bool) :
    exec (.byteComplete xs) s = .next { s with mgmt := xs.foldl takeBit s.mgmt } :=
  congrArg Host.Outcome.next (whenPowered_on hp _)

theorem exec_frameStart (hp : s.powered = true) (hm : s.mgmt.mselN = true) : exec .frameStart s = .next { s with
    mgmt := { mselN := false, phase := .command, code := none, args := [], bits := [], bytes := 0, response := [] } } :=
  congrArg Host.Outcome.next ((whenPowered_on hp _).trans (if_pos hm))

theorem exec_frameEnd (hp : s.powered = true) (hm : s.mgmt.mselN = false) : exec .frameEnd s = .next { s with
    mgmt := { mselN := true, phase := .idle, code := none, args := [], bits := [], bytes := 0, response := [] } } :=
  congrArg Host.Outcome.next ((whenPowered_on hp _).trans (if_neg (by simp [hm])))

theorem exec_badCommand {code : Byte} (hp : s.powered = true) (hm : s.mgmt.phase = .command)
    (hc : argumentCount code = none) (hb : s.mgmt.completesAs code = true) :
    exec (.badCommand code) s = .next { s with mgmt := { s.mgmt with
      phase := .ignoring, code := some code, args := [], bits := [], bytes := s.mgmt.bytes + 1, response := [1] } } :=
  congrArg Host.Outcome.next ((whenPowered_on hp _).trans (if_pos ⟨hm, hc, hb⟩))

end

/-- Settles O28: each command of the frame in each phase, the bits of a byte taken in one command or in several. -/
theorem frameLifecycle : Obligations.FrameLifecycle := by
  intro s m hp hm
  subst hm
  refine ⟨exec_frameStart hp, exec_frameEnd hp, fun code xs hph hno harg hb => ?bad, fun xs hph hl => ?part,
    fun hl => ⟨fun code n xs hph hb hc => ?code, fun code n b xs hph hcode hc hn hb => ?argument,
      fun xs hph h8 => ?ignored⟩, fun xs hph => ?idle, fun xs ys => ?append⟩
  case bad => exact exec_badCommand hp hph (argumentCount_unknown code hno harg) (completesAs_of_append hb)
  case part => rw [exec_byteComplete hp, takeBits_append xs _ hph (by simpa using hl)]
  case code => rw [exec_byteComplete hp, takeBits_code hph hl hb hc]
  case argument => rw [exec_byteComplete hp, takeBits_argument hph hl hb hcode hc hn]
  case ignored => rw [exec_byteComplete hp, takeBits_ignored (by simpa using hph) hl h8]
  case idle => rw [exec_byteComplete hp, takeBits_idle hph]
  case append =>
    rw [exec_byteComplete hp, List.foldl_append]
    simp only [execAll, exec_byteComplete, hp]

/-! ### From the start of a frame to the decode point -/

theorem execAll_cons {c : Instr} {cs : List Instr} {s t : State} (h : exec c s = .next t) :
    execAll (c :: cs) s = execAll cs t := by
  rw [execAll, h]

/-- Argument bytes short of the last one are received in order. -/
theorem execAll_arguments {code : Byte} {n : Nat} (hc : (code, n) ∈ codesWithArguments) (bs : List Byte) (s : State)
    (hp : s.powered = true) (hph : s.mgmt.phase = .arguments) (hcode : s.mgmt.code = some code) (hbits : s.mgmt.bits = [])
    (hn : s.mgmt.args.length + bs.length < n) :
    execAll (bs.map fun b => Instr.byteComplete (mdiBits b)) s = .next { s with
      mgmt := { s.mgmt with args := s.mgmt.args ++ bs, bytes := s.mgmt.bytes + bs.length } } := by
  induction bs generalizing s with
  | nil => simp [execAll]
  | cons b bs ih =>
    rw [List.length_cons] at hn
    have hb : s.mgmt.bits ++ mdiBits b = mdiBits b := by rw [hbits, List.nil_append]
    rw [List.map_cons, execAll_cons (exec_byteComplete hp _),
      takeBits_argument hph (by simp [hbits]) hb hcode hc (by omega)]
    refine (ih { s with mgmt := { s.mgmt with args := s.mgmt.args ++ [b], bits := [], bytes := s.mgmt.bytes + 1 } }
      hp hph hcode rfl (by simp only [List.length_append, List.length_singleton]; omega)).trans ?_
    simp only [hbits, List.append_assoc, List.singleton_append, List.length_cons, Nat.add_assoc, Nat.add_comm 1]

/-- A frame of a command without arguments stands at its decode point from its start (R157). -/
theorem frame_reaches_decode_of_code {s : State} (hp : s.powered = true) (hm : s.mgmt.mselN = true) (code : Byte) :
    ∃ t, execAll [.frameStart] s = .next t ∧
      t = { s with mgmt := t.mgmt } ∧ atDecode t code [] = true ∧ t.mgmt.bits = [] ∧ t.mgmt.bytes = 0 := by
  refine ⟨_, execAll_cons (exec_frameStart hp hm), rfl, ?_, rfl, rfl⟩
  simp [atDecode, hp, MgmtPort.completesAs]

/-- A frame of a command with arguments reaches its decode point after the code and all arguments but the last (R157). -/
theorem frame_reaches_decode_of_arguments {s : State} (hp : s.powered = true) (hm : s.mgmt.mselN = true) {code : Byte}
    {args : List Byte} (hne : args ≠ []) (hc : (code, args.length) ∈ codesWithArguments) :
    ∃ t, execAll (.frameStart :: (code :: args.dropLast).map fun b => Instr.byteComplete (mdiBits b)) s = .next t ∧
      t = { s with mgmt := t.mgmt } ∧ atDecode t code args = true ∧ t.mgmt.bits = [] ∧ t.mgmt.bytes = args.length := by
  have hpos : 0 < args.length := List.length_pos_of_ne_nil hne
  rw [execAll_cons (exec_frameStart hp hm), List.map_cons, execAll_cons (exec_byteComplete (by exact hp) _),
    takeBits_code (by rfl) (by exact Nat.zero_lt_succ 7) (by rfl) hc]
  refine ⟨_, execAll_arguments hc args.dropLast _ hp rfl rfl rfl ?_, rfl, ?_, rfl, ?_⟩
  · simp only [List.length_nil, List.length_dropLast]; omega
  · simp [atDecode, hp, hne, MgmtPort.completesAs]
  · simp only [List.length_dropLast]; omega

/-! ### MDO -/

section
variable {s : State}

theorem mdoByte_before (h : s.mgmt.phase = .command ∨ s.mgmt.phase = .arguments) (i : Nat) : s.mdoByte i = some 0 := by
  rcases h with h | h <;> simp [State.mdoByte, h]

/-- After a decode the answer follows the arguments (R158). -/
theorem mdoByte_after (h : s.mgmt.phase = .response ∨ s.mgmt.phase = .ignoring) (i : Nat) : s.mdoByte i =
    some (if i < 1 + s.mgmt.args.length then 0 else s.mgmt.response.getD (i - (1 + s.mgmt.args.length)) 0) := by
  rcases h with h | h <;> simp [State.mdoByte, h]

theorem mdo_isSome_iff : s.mdo.isSome = true ↔ s.powered = true ∧ s.mgmt.mselN = false := by
  unfold State.mdo
  split
  case isTrue h => rcases h with h | h <;> simp [h]
  case isFalse h =>
    have hdriven : s.powered = true ∧ s.mgmt.mselN = false := by simpa using h
    cases s.mdoByte s.mgmt.bytes <;> simp [hdriven]

/-- MDO carries the bit of the byte being shifted out at the place of the next bit to be taken (R156). -/
theorem mdo_carries {b : Byte} (hp : s.powered = true) (hm : s.mgmt.mselN = false)
    (hb : s.mdoByte s.mgmt.bytes = some b) : s.mdo = some (b.getMsbD s.mgmt.bits.length) := by
  simp [State.mdo, hp, hm, hb]

theorem mdiBits_getElem? (b : Byte) {j : Nat} (h : j < 8) : (mdiBits b)[j]? = some (b.getMsbD j) := by
  simp [mdiBits_eq_msbFirst, msbFirst, h]

end

/-- Settles O29: the bytes before the decode point are received by induction on the arguments, and MDO is read off the
byte places of R158. -/
theorem frameReachesDecodeAndAnswers : Obligations.FrameReachesDecodeAndAnswers := by
  refine ⟨fun s code args hp hm hcode => ?decodePoint, fun s i h => mdoByte_before h i,
    fun s k status data hph hk hr => ?places, fun s => ⟨mdo_isSome_iff, fun b j hp hm hb hj h8 => ?level⟩⟩
  case decodePoint =>
    by_cases hne : args = []
    · subst hne
      exact frame_reaches_decode_of_code hp hm code
    · rw [if_neg hne]
      exact frame_reaches_decode_of_arguments hp hm hne (hcode.resolve_right fun h => hne h.1)
  case places =>
    subst hk
    simp only [mdoByte_after hph, hr]
    refine ⟨fun i hi => by rw [if_pos (by omega)], by simp [Nat.add_comm], fun j b hj => ?_, fun i hi => ?_⟩
    · rw [if_neg (by omega), (by omega : s.mgmt.args.length + 2 + j - (1 + s.mgmt.args.length) = j + 1)]
      simp [hj]
    · rw [if_neg (by omega), List.getD_eq_default _ _ (by simp only [List.length_cons]; omega)]
  case level => rw [mdo_carries hp hm hb, hj, mdiBits_getElem? b h8]

end Sys2Proof.Machine.ManagementPort
end

section
/-! SUPPORT. The management commands that answer with a record: STATUS, GET_CONFIG and READ_EVENTS, with the event queue
and the configuration items they read (R164 to R169, R176, R178). -/

namespace Sys2Proof.Machine.ManagementPort

-- One proof at a time: each proof run beside the others takes a thread, and its stack counts against the memory
-- limit of the check.
set_option Elab.async false

/-! ### STATUS -/

/-- QUEUE in the status record: the numbers of the queued contexts in four places. -/
theorem queue_bytes (s : State) : (padTo 4 (s.commitQueue.map ContextId.number)).flatMap byteField =
    [queuePlace s 0, queuePlace s 1, queuePlace s 2, queuePlace s 3] := by
  unfold queuePlace
  match s.commitQueue with
  | [] | [_] | [_, _] | [_, _, _] | _ :: _ :: _ :: _ :: _ => rfl

/-- A one-bit field of the status record. -/
theorem byteField_flag (b : Bool) : byteField (if b then 1 else 0) = [if b then 1 else 0] := by
  cases b <;> rfl

/-- Settles O30: the codes by evaluation, and the status record field by field. -/
theorem statusAnswers : Obligations.StatusAnswers := by
  refine ⟨⟨rfl, rfl, fun _ _ => rfl, rfl, fun _ _ => rfl, rfl, rfl, rfl⟩, fun s hat => ?_⟩
  refine congrArg Host.Outcome.next ((decodeCommand_answered hat rfl).trans (congrArg (acceptedWith s 0x01 []) ?_))
  rw [statusRecord, byteField_flag, byteField_flag, queue_bytes, fourBytes_word]
  cases hreturn : s.bridge.returnState <;> cases hgeometry : s.bridge.geometry <;>
    simp [byteField, twoBytes, allContexts, ContextTable.get, State.arrayPages, State.frames, State.homePages, hgeometry]

/-! ### Configuration items -/

/-- The numbers 1 to 6 are those of the items (R165). -/
theorem settings_item_of_mem {c : Settings} {item : Byte} {v : Nat}
    (h : (item, v) ∈ [((1 : Byte), c.holdTimeout), (2, c.tripFilter),
      (3, match c.tripMode with | .freeze => 0 | .report => 1), (4, c.autoResume.toNat), (5, c.resumeDelay),
      (6, c.irqEnable.toNat)]) : c.item item.toNat = some v := by
  simp only [List.mem_cons, Prod.mk.injEq, List.not_mem_nil, or_false] at h
  rcases h with ⟨rfl, rfl⟩ | ⟨rfl, rfl⟩ | ⟨rfl, rfl⟩ | ⟨rfl, rfl⟩ | ⟨rfl, rfl⟩ | ⟨rfl, rfl⟩
  case inr.inr.inl => show some _ = _; cases c.tripMode <;> rfl
  case inr.inr.inr.inl => show some _ = _; cases c.autoResume <;> rfl
  case inr.inr.inr.inr.inr => show some _ = _; cases c.irqEnable <;> rfl
  all_goals rfl

theorem settings_item_unknown (c : Settings) {item : Byte} (h : item = 0 ∨ 7 ≤ item.toNat) : c.item item.toNat = none := by
  have hn : item.toNat = 0 ∨ 7 ≤ item.toNat := h.imp_left fun e => by simp [e]
  unfold Settings.item
  split
  case h_7 => rfl
  all_goals omega

/-- An item reads back as the value it was set to (R165, R166). -/
theorem item_setItem {c d : Settings} {i v : Nat} (h : c.setItem i v = some d) : d.item i = some v := by
  unfold Settings.setItem at h
  split at h
  case h_7 => cases h
  all_goals
    obtain ⟨hv, hd⟩ := Option.ite_none_right_eq_some.mp h
    obtain rfl := Option.some.inj hd
  case h_1 | h_2 | h_5 => rfl
  case h_3 | h_4 | h_6 => simp only [Settings.item, decide_eq_true_eq]; split <;> grind

/-- A SET_CONFIG answered with ACCEPTED alone leaves an item that reads back as its value. -/
theorem item_of_setConfig_accepted {s t : State} {item : Byte} {v : BitVec 16}
    (hat : atDecode s 0x20 [item, highByte v, lowByte v] = true) (he : exec (.setConfig item v) s = .next t)
    (hr : t.mgmt.response = [0]) : t.settings.item item.toNat = some v.toNat := by
  obtain rfl : _ = t := Host.Outcome.next.inj he
  rw [decodeCommand_at hat] at hr ⊢
  cases hset : s.settings.setItem item.toNat v.toNat with
  | none => simp [hset, Status.byte] at hr
  | some c => simpa [hset] using item_setItem hset

/-- Settles O33: GET_CONFIG reads the item by its number, and SET_CONFIG sets the item it reads. -/
theorem getConfigAnswers : Obligations.GetConfigAnswers := by
  refine ⟨fun s item hat => ⟨fun v hv => ?known, fun hi => ?unknown⟩, fun s t item v => item_of_setConfig_accepted⟩
  all_goals refine congrArg Host.Outcome.next ?_
  case known => exact decodeCommand_answered hat (by rw [settings_item_of_mem hv]; rfl)
  case unknown => exact Updates.decodeCommand_refused hat (by rw [settings_item_unknown _ hi])

/-! ### The event queue -/

section
variable {s : State}

/-- The flag stays only when records are left (R169). -/
theorem popEvents_eq (s : State) (n : Nat) : popEvents s n =
    { s with events := s.events.drop n, overflow := s.overflow && decide (n < s.events.length) } := by
  by_cases h : n < s.events.length <;> simp [popEvents, h]

theorem pushEvent_room {e : Event} (h : s.events.length < 16) : pushEvent s e = { s with events := s.events ++ [e] } :=
  if_pos h

theorem pushEvent_full {e : Event} (h : 16 ≤ s.events.length) : pushEvent s e = { s with overflow := true } :=
  if_neg h.not_gt

theorem irqN_low_iff (hp : s.powered = true) : s.irqN = false ↔ s.settings.irqEnable = true ∧ s.events ≠ [] := by
  simp [State.irqN, hp]

theorem exec_readEvents {n : Byte} (hat : atDecode s 0x04 [n] = true) (hlow : 1 ≤ n.toNat) (hhigh : n.toNat ≤ 16) :
    exec (.readEvents n) s = .next (acceptedWith
      { s with events := s.events.drop n.toNat, overflow := s.overflow && decide (n.toNat < s.events.length) } 0x04 [n]
      (BitVec.ofNat 8 (min n.toNat s.events.length) :: (s.events.take n.toNat).flatMap Event.bytes)) := by
  rw [← popEvents_eq, ← List.length_take]
  exact congrArg Host.Outcome.next (decodeCommand_answered hat (if_pos ⟨hlow, hhigh⟩))

theorem exec_readEvents_refused {n : Byte} (hat : atDecode s 0x04 [n] = true) (h : n = 0 ∨ 17 ≤ n.toNat) :
    exec (.readEvents n) s = .next (refusedWith s 0x04 [n] .badArgument) := by
  have hn : n.toNat = 0 ∨ 17 ≤ n.toNat := h.imp_left fun e => by simp [e]
  exact congrArg Host.Outcome.next (Updates.decodeCommand_refused hat (if_neg (by omega)))

end

/-- The bytes of an event record in the order of its fields (R178). -/
theorem event_bytes (e : Event) : e.bytes = byteField e.record.kind ++ byteField e.record.context ++
    byteField e.record.reason ++ byteField e.record.count ++ fourBytes e.record.value := rfl

/-- Settles O34: the commands and operations of the event queue, and the record of each kind of event. -/
theorem eventQueueServed : Obligations.EventQueueServed := by
  refine ⟨fun s n hat => ⟨exec_readEvents hat, exec_readEvents_refused hat⟩, fun s e => ⟨pushEvent_room, pushEvent_full⟩,
    fun s => irqN_low_iff, fun c q n => ?committed, fun c r a => ?contextFailed, fun t r a => ?hostFault,
    ⟨rfl, rfl, rfl⟩, fun q n => ?recoveryDone, fun r => ?anchorInvalid, fun f => ?formatDone⟩
  all_goals simp only [event_bytes, Event.record, fourBytes_word, fourBytes_addr, byteField_tag]
  case contextFailed => cases r <;> rfl
  case anchorInvalid => cases r <;> rfl
  case formatDone => rw [fourBytes_eq]; rfl
  all_goals rfl

end Sys2Proof.Machine.ManagementPort
end

section
/-! SUPPORT. The step by the two forms of the queue, a command at its front or none (assumption log 8). -/

namespace Sys2Proof.Machine

-- One proof at a time: each proof run beside the others takes a thread, and its stack counts against the memory
-- limit of the check.
set_option Elab.async false

theorem step_of_pending_cons {s : State} {c : Instr} {rest : List Instr} (h : s.pending = c :: rest) :
    step s = exec c { s with pending := rest } := by
  simp only [step, h]

theorem step_of_pending_nil {s : State} (h : s.pending = []) : step s = .next s := by
  simp only [step, h]

/-- Settles O1: the queue has a command at its front or is empty. -/
theorem stepRunsFrontCommand : Obligations.StepRunsFrontCommand :=
  ⟨fun _ _ _ => step_of_pending_cons, fun _ => step_of_pending_nil⟩

end Sys2Proof.Machine
end

section
/-! SUPPORT. What any command can do to the page map and the free-frame list: each claim of chapter 2 in turn, the access
path's own, or both built anew; and the two invariants of the map and the list (R19, R20, R25 to R36). -/

namespace Sys2Proof.Machine.Invariants

-- One proof at a time: each proof run beside the others takes a thread, and its stack counts against the memory
-- limit of the check.
set_option Elab.async false

/-! ### The moves of the page map and the list -/

/-- One claim at the page map and the free-frame list, under the same geometry but where both are built anew (R15, R23 to
R25, R30, R31, R33, R35, R37). -/
inductive MapMove (s t : State) : Prop where
  | kept (hm : t.pageMap = s.pageMap) (hf : t.freeFrames = s.freeFrames) (hg : t.bridge.geometry = s.bridge.geometry)
  | host (hc : HostClaim s t) (hg : t.bridge.geometry = s.bridge.geometry)
  | mark (c : ContextId) (n : Nat) (hm : t.pageMap = markClaim c n s.pageMap) (hf : t.freeFrames = s.freeFrames)
      (hg : t.bridge.geometry = s.bridge.geometry)
  | copied (p : Nat) (hm : t.pageMap = copiedClaim s.pageMap p) (hf : t.freeFrames = s.freeFrames)
      (hg : t.bridge.geometry = s.bridge.geometry)
  | abort (c : ContextId) (hm : t.pageMap = (s.abortClaim c).pageMap) (hf : t.freeFrames = (s.abortClaim c).freeFrames)
      (hg : t.bridge.geometry = s.bridge.geometry)
  | retire (hm : t.pageMap = s.retireClaim.pageMap) (hf : t.freeFrames = s.retireClaim.freeFrames)
      (hg : t.bridge.geometry = s.bridge.geometry)
  | rebuilt (hm : t.pageMap = []) (hf : t.freeFrames = List.range t.frames)

/-- Claims one after the other. -/
abbrev MapMoves : State → State → Prop := Relation.ReflTransGen MapMove

section
variable {s u v : State}

theorem MapMoves.kept (h : MapMoves s u) (hm : v.pageMap = u.pageMap := by simp)
    (hf : v.freeFrames = u.freeFrames := by simp) (hg : v.bridge.geometry = u.bridge.geometry := by simp) :
    MapMoves s v :=
  h.tail (.kept hm hf hg)

theorem MapMoves.host (h : MapMoves s u) (hc : HostClaim u v) (hg : v.bridge.geometry = u.bridge.geometry := by simp) :
    MapMoves s v :=
  h.tail (.host hc hg)

theorem MapMoves.rebuilt (h : MapMoves s u) (hm : v.pageMap = []) (hf : v.freeFrames = List.range v.frames) :
    MapMoves s v :=
  h.tail (.rebuilt hm hf)

theorem MapMoves.releaseHeld (h : MapMoves s u) (w : HoldReason) : MapMoves s (releaseHeld u w) :=
  h.host (hostClaim_releaseHeld u w)

theorem MapMoves.releaseDeparture (h : MapMoves s u) : MapMoves s (releaseDeparture u) :=
  (h.releaseHeld .bufferFull).host (hostClaim_releaseReadWait _)

theorem MapMoves.departHead (h : MapMoves s u) : MapMoves s (departHead u) := by
  have left : MapMoves s { u with buffer := bufferFrom u.buffer.entries.tail } := h.kept
  exact left.releaseDeparture.kept (v := Machine.departHead u) (by simp [Machine.departHead]) (by simp [Machine.departHead])

theorem MapMoves.commitPoint (h : MapMoves s u) : MapMoves s (commitPoint u) := by
  unfold Machine.commitPoint
  split
  · rename_i c _ _
    exact h.tail (.mark c 0 (by simp) (by simp) (by simp))
  · exact h

theorem MapMoves.copyWritten (h : MapMoves s u) : MapMoves s (copyWritten u) := by
  unfold Machine.copyWritten
  split
  · rename_i it _ _
    have claimed : MapMoves s { u with pageMap := copiedClaim u.pageMap it.homePage } :=
      h.tail (.copied it.homePage rfl rfl rfl)
    split
    · exact h.kept
    · dsimp only
      split <;> exact claimed.kept
  · exact h

theorem MapMoves.retireCommit (h : MapMoves s u) : MapMoves s (retireCommit u) := by
  have retired : MapMoves s { u.retireClaim with
      engine := { u.retireClaim.engine with record := none, stage := .idle, pos := .start } } :=
    h.tail (.retire rfl rfl rfl)
  exact retired.releaseHeld .record

/-- FORMAT step 4 builds the list anew from the new geometry (R15, R35). -/
theorem MapMoves.formatWritten (h : MapMoves s u) : MapMoves s (formatWritten u) := by
  unfold Machine.formatWritten
  split
  · exact h.kept
  · split
    · exact h.kept
    · exact h.rebuilt (by simp [finishFormat]) (by simp [finishFormat, State.frames, allFrames])

/-- A valid anchor builds the list from its geometry (R35). -/
theorem MapMoves.judgeAnchor (h : MapMoves s u) (ws : List Word) : MapMoves s (judgeAnchor u ws) := by
  unfold Machine.judgeAnchor
  dsimp only
  split
  · exact h.kept
  · exact h.rebuilt (by simp) (by simp [State.frames, allFrames])

theorem MapMoves.abortHost (h : MapMoves s u) (c : ContextId) (removed : List MapEntry) (freed : Bool) :
    MapMoves s (abortHost u c removed freed) := by
  unfold Machine.abortHost
  split
  · exact h
  · split
    case h_1 =>
      split
      · exact h.releaseHeld .bufferFull
      · exact h
    all_goals
      repeat' split
      all_goals exact h.kept

theorem MapMoves.abortContext (h : MapMoves s u) (c : ContextId) : MapMoves s (abortContext u c) := by
  unfold Machine.abortContext
  refine MapMoves.abortHost ?_ _ _ _
  exact h.tail (.abort c rfl rfl rfl)

end

/-! ### The commands -/

section
variable {s : State}

theorem whenPowered_moves {f : State → State} (hf : MapMoves s (f s)) : MapMoves s (whenPowered s f) :=
  whenPowered_induct (P := MapMoves s) .refl fun _ => hf

theorem decodeCommand_moves {code : Byte} {args : List Byte} {f : State → Answer} (hf : MapMoves s (f s).state) :
    MapMoves s (decodeCommand s code args f) :=
  decodeCommand_induct (P := MapMoves s) (fun _ _ h => h.kept) .refl fun _ => hf

theorem contextCommand_moves {c : Byte} {f : ContextId → Answer} (hf : ∀ k, MapMoves s (f k).state) :
    MapMoves s (contextCommand s c f).state := by
  rcases contextCommand_cases s c f with ⟨_, k, _, e⟩ | e <;> rw [e]
  exact hf k

theorem onCompletion_moves {p : Purpose} {f : Transfer → Word → State → State}
    (hf : ∀ t w u, MapMoves s u → MapMoves s (f t w u)) : MapMoves s (onCompletion s p f) :=
  onCompletion_induct (P := MapMoves s) .refl fun t w _ _ _ => hf t w _ (.kept .refl)

theorem onEngineCompletion_moves {p : Purpose} {st : Stage} {o : TakenOrder} {f : Word → State → State}
    (hf : ∀ w u, MapMoves s u → MapMoves s (f w u)) : MapMoves s (onEngineCompletion s p st o f) :=
  onEngineCompletion_induct (P := MapMoves s) .refl (fun _ => .kept .refl) (fun _ w h _ _ => hf w _ h)
    (fun _ h => h.kept) fun _ h => h.kept

end

/-- Every command is a series of claims (chapter 2). -/
theorem exec_moves {c : Instr} {s t : State} (he : exec c s = .next t) : MapMoves s t := by
  cases c
  all_goals obtain rfl : _ = t := Host.Outcome.next.inj he
  case powerOnReset pins =>
    have on : MapMoves s (powerOnState s pins) := .rebuilt .refl rfl rfl
    dsimp only
    split
    · exact on
    · exact on.kept
  case powerLoss =>
    refine whenPowered_moves ?_
    repeat' split
    all_goals exact .rebuilt .refl rfl rfl
  case warmResetPoint =>
    have warm : MapMoves s (warmResetState s) := .rebuilt .refl rfl rfl
    refine whenPowered_moves ?_
    dsimp only
    repeat' split
    · exact warm.kept
    · exact warm
    · exact .refl
  case rstNFall | rstNRise | supplyFallAssert | supplyFallDeassert | trip | gateOpen | resumeDelayMet | rearmDelayMet
      | holdTimeout | hreqFall | frameStart | frameEnd | badCommand | takeWork | arrayGrant | byteComplete =>
    refine whenPowered_moves ?_
    repeat' split
    all_goals exact .kept .refl
  case status | readContext | lookup | readEvents | readFaults | getConfig | getRegion | setConfig | setRegion
      | clearFaults | format | resume | restart =>
    refine decodeCommand_moves ?_
    repeat' split
    all_goals exact .kept .refl
  case openContext | commit =>
    refine decodeCommand_moves (contextCommand_moves fun k => ?_)
    repeat' split
    all_goals exact .kept .refl
  case abort =>
    refine decodeCommand_moves (contextCommand_moves fun k => ?_)
    split
    case h_4 | h_5 => exact .refl
    all_goals exact MapMoves.abortContext .refl k
  case hostRequest addr tag op =>
    have raised : MapMoves s { s with host := { s.host with hreq := true } } := .kept .refl
    refine whenPowered_moves ?_
    dsimp only
    repeat' split
    · exact .refl
    · exact raised
    · exact raised.host (hostClaim_classifyRequest _ _)
  case hostReadComplete | fillRead | fillWrite =>
    refine onCompletion_moves fun t w u hu => ?_
    repeat' split
    all_goals exact hu.kept
  case drainWrite => exact onCompletion_moves fun t w u hu => hu.departHead
  case anchorRead =>
    refine onCompletion_moves fun t w u hu => ?_
    dsimp only
    repeat' split
    case h_1.isFalse.isFalse => exact hu.judgeAnchor _
    all_goals exact hu.kept
  case markWrite => exact onEngineCompletion_moves fun w u hu => hu.commitPoint
  case copyWrite => exact onEngineCompletion_moves fun w u hu => hu.copyWritten
  case retireWrite => exact onEngineCompletion_moves fun w u hu => hu.retireCommit
  case sumRead | journalWrite | copyRead | scanRead | verifyRead | applyCopyRead | applyCopyWrite
      | recoveryRetireWrite =>
    exact onEngineCompletion_moves fun w u hu => hu.kept
  case formatWrite =>
    refine onEngineCompletion_moves fun w u hu => ?_
    split
    · exact hu.formatWritten
    · exact hu

/-- What no claim breaks and no change of the queue breaks holds after every step. -/
theorem step_keeps {P : State → Prop} (hq : ∀ s q, P s → P { s with pending := q })
    (hp : ∀ s t, MapMove s t → P s → P t) {s t : State} (h : P s) (hs : step s = .next t) : P t := by
  refine step_induct hq (fun i s t hi he => ?_) h hs
  have moves := exec_moves he
  clear he
  induction moves with
  | refl => exact hi
  | tail _ hm ih => exact hp _ _ hm ih

/-! ### Frames stay accounted (R34, R36) -/

theorem frames_of_geometry {s t : State} (hg : t.bridge.geometry = s.bridge.geometry) : t.frames = s.frames := by
  simp only [State.frames, hg]

/-- The same frames held under the same geometry. -/
theorem framesAccounted_of_perm {s t : State} (h : FramesAccounted s) (hp : t.allFramesHeld.Perm s.allFramesHeld)
    (hg : t.bridge.geometry = s.bridge.geometry) : FramesAccounted t := by
  rw [FramesAccounted, frames_of_geometry hg]
  exact hp.trans h

theorem allFramesHeld_congr {s t : State} (hm : t.pageMap.map MapEntry.frame = s.pageMap.map MapEntry.frame)
    (hf : t.freeFrames = s.freeFrames) : t.allFramesHeld.Perm s.allFramesHeld := by
  rw [State.allFramesHeld, hm, hf]

/-- A claim of the access path takes a frame off the list only into the map (R27 to R31). -/
theorem hostClaim_allFramesHeld {s t : State} (h : HostClaim s t) : t.allFramesHeld.Perm s.allFramesHeld := by
  cases h with
  | none hm hf _ => exact allFramesHeld_congr (by rw [hm]) hf
  | addBlock c p b e _ _ _ _ hm hf _ => exact allFramesHeld_congr (by rw [hm, addBlockClaim_frames]) hf
  | allocate c k p b rest _ _ _ _ _ hk _ hm hf _ =>
    rw [State.allFramesHeld, hm, hf]
    exact allocate_frames hk
  | fail c f a _ _ hm hf _ => exact allFramesHeld_congr (by rw [hm]) hf

theorem MapMove.framesAccounted {s t : State} (hm : MapMove s t) (h : FramesAccounted s) : FramesAccounted t := by
  cases hm with
  | kept hm hf hg => exact framesAccounted_of_perm h (allFramesHeld_congr (by rw [hm]) hf) hg
  | host hc hg => exact framesAccounted_of_perm h (hostClaim_allFramesHeld hc) hg
  | mark c n hm hf hg => exact framesAccounted_of_perm h (allFramesHeld_congr (by rw [hm, markClaim_frames]) hf) hg
  | copied p hm hf hg => exact framesAccounted_of_perm h (allFramesHeld_congr (by rw [hm, copiedClaim_frames]) hf) hg
  | abort c hm hf hg =>
    refine framesAccounted_of_perm h ?_ hg
    rw [State.allFramesHeld, hm, hf]
    exact abortClaim_frames s c
  | retire hm hf hg =>
    refine framesAccounted_of_perm h ?_ hg
    rw [State.allFramesHeld, hm, hf]
    exact retireClaim_frames s
  | rebuilt hm hf => simp [FramesAccounted, hm, hf]

/-- Settles O56: every command is a series of claims, and each claim keeps the frames that map and list hold together. -/
theorem framesStayAccounted : Obligations.FramesStayAccounted :=
  fun _ _ h hs => step_keeps (fun _ _ h => h) (fun _ _ hm h => hm.framesAccounted h) h hs

/-! ### The page map stays ordered (R19, R20) -/

theorem homePages_of_geometry {s t : State} (hg : t.bridge.geometry = s.bridge.geometry) : t.homePages = s.homePages := by
  simp only [State.homePages, hg]

/-- What an entry of the map needs beside its place in the order (R19, R20). -/
def EntryGood (s : State) (e : MapEntry) : Prop := e.homePage < s.homePages ∧ e.written ≠ 0

theorem pageMapOrdered_iff {s : State} :
    PageMapOrdered s ↔ Updates.Ascending s.pageMap ∧ ∀ e ∈ s.pageMap, EntryGood s e :=
  ⟨fun ⟨ha, hh, hb⟩ => ⟨ha, fun e he => ⟨hh e he, hb e he⟩⟩,
    fun ⟨ha, hg⟩ => ⟨ha, fun e he => (hg e he).1, fun e he => (hg e he).2⟩⟩

section
variable {s t : State}

/-- Under the same geometry an ordered map whose entries each come from a good one is good. -/
theorem ordered_of_entries (h : PageMapOrdered s) (ha : Updates.Ascending t.pageMap)
    (hg : t.bridge.geometry = s.bridge.geometry)
    (he : ∀ e ∈ t.pageMap, (∃ x ∈ s.pageMap, e.homePage = x.homePage ∧ (x.written ≠ 0 → e.written ≠ 0)) ∨
      (e.homePage < s.homePages ∧ e.written ≠ 0)) : PageMapOrdered t := by
  refine pageMapOrdered_iff.mpr ⟨ha, fun e hm => ?_⟩
  rw [EntryGood, homePages_of_geometry hg]
  rcases he e hm with ⟨x, hx, hp, hw⟩ | hgood
  · exact ⟨hp ▸ h.inHomeArea x hx, hw (h.someBlock x hx)⟩
  · exact hgood

/-- Entries taken out of the map leave it ordered. -/
theorem ordered_of_sublist (h : PageMapOrdered s) (hm : t.pageMap.Sublist s.pageMap)
    (hg : t.bridge.geometry = s.bridge.geometry) : PageMapOrdered t :=
  ordered_of_entries h (h.ascending.sublist hm) hg fun e he => .inl ⟨e, hm.subset he, rfl, id⟩

/-- A claim that changes the state of entries alone leaves the map ordered (R23, R24). -/
theorem ordered_of_places (h : PageMapOrdered s)
    (hp : t.pageMap.map MapEntry.homePage = s.pageMap.map MapEntry.homePage)
    (hw : t.pageMap.map MapEntry.written = s.pageMap.map MapEntry.written)
    (hg : t.bridge.geometry = s.bridge.geometry) : PageMapOrdered t := by
  refine pageMapOrdered_iff.mpr ⟨Updates.ascending_of_homePages hp h.ascending, fun e he => ⟨?_, fun hz => ?_⟩⟩
  · have : e.homePage ∈ s.pageMap.map MapEntry.homePage := hp ▸ List.mem_map_of_mem he
    obtain ⟨x, hx, hxe⟩ := List.mem_map.mp this
    rw [homePages_of_geometry hg, ← hxe]
    exact h.inHomeArea x hx
  · have : e.written ∈ s.pageMap.map MapEntry.written := hw ▸ List.mem_map_of_mem he
    obtain ⟨x, hx, hxe⟩ := List.mem_map.mp this
    exact h.someBlock x hx (hxe.trans hz)

theorem addToBlocks_keeps_some {bs : BlockSet} (h : bs ≠ 0) (b : Nat) : addToBlocks bs b ≠ 0 := by
  intro hz
  exact h (BitVec.or_eq_zero_iff.mp hz).1

/-- A claim of the access path keeps the map ordered: a new entry has a page of its own below H and a block (R30, R31). -/
theorem ordered_of_hostClaim (h : PageMapOrdered s) (hc : HostClaim s t)
    (hg : t.bridge.geometry = s.bridge.geometry) : PageMapOrdered t := by
  cases hc with
  | none hm _ _ => exact ordered_of_sublist h (by rw [hm]) hg
  | addBlock c p b e _ _ _ _ hm _ _ =>
    refine ordered_of_entries h (hm ▸ Updates.updatePage_ascending (fun _ => rfl) h.ascending) hg fun e he => .inl ?_
    obtain ⟨x, hx, rfl⟩ := List.mem_map.mp (hm ▸ he)
    refine ⟨x, hx, ?_⟩
    split
    · exact ⟨rfl, fun hw => addToBlocks_keeps_some hw b⟩
    · exact ⟨rfl, id⟩
  | allocate c k p b rest _ _ hl hp hb _ _ hm _ _ =>
    refine ordered_of_entries h (hm ▸ insertEntry_ascending h.ascending (lookupPage_none.mp hl)) hg fun e he => ?_
    rcases mem_insertEntry.mp (hm ▸ he) with rfl | he
    · exact .inr ⟨hp, addToBlocks_ne_zero 0 hb⟩
    · exact .inl ⟨e, he, rfl, id⟩
  | fail c f a _ _ hm _ _ => exact ordered_of_sublist h (by rw [hm]) hg

theorem MapMove.pageMapOrdered (hm : MapMove s t) (h : PageMapOrdered s) : PageMapOrdered t := by
  cases hm with
  | kept hm _ hg => exact ordered_of_sublist h (by rw [hm]) hg
  | host hc hg => exact ordered_of_hostClaim h hc hg
  | mark c n hm _ hg =>
    exact ordered_of_places h (hm ▸ markClaim_map _ _ _ _ fun _ _ => rfl) (hm ▸ markClaim_map _ _ _ _ fun _ _ => rfl) hg
  | copied p hm _ hg =>
    exact ordered_of_places h (hm ▸ updatePage_map _ _ _ _ toCopied_homePage) (hm ▸ updatePage_map _ _ _ _ toCopied_written) hg
  | abort c hm _ hg => exact ordered_of_sublist h (hm ▸ List.filter_sublist) hg
  | retire hm _ hg => exact ordered_of_sublist h (hm ▸ List.filter_sublist) hg
  | rebuilt hm _ => exact ⟨by simp [hm], by simp [hm], by simp [hm]⟩

end

/-- Settles O57: every command is a series of claims, and each claim keeps the order and the entries good. -/
theorem pageMapStaysOrdered : Obligations.PageMapStaysOrdered :=
  fun _ _ h hs => step_keeps (fun _ _ h => ⟨h.ascending, h.inHomeArea, h.someBlock⟩)
    (fun _ _ hm h => hm.pageMapOrdered h) h hs

end Sys2Proof.Machine.Invariants
end

section
/-! SUPPORT. The contexts against the page map: ENTRY_COUNT, the entries of the record, and what is empty while no update
can be under way, through every command (R21, R26, R36, R41, R43, R75). -/

namespace Sys2Proof.Machine.Invariants

-- One proof at a time: each proof run beside the others takes a thread, and its stack counts against the memory
-- limit of the check.
set_option Elab.async false

/-! ### The invariant -/

/-- The return state is present in FROZEN alone (R5). -/
def ReturnsFromFrozen (s : State) : Prop := s.bridge.returnState.isSome = true → s.bridge.state = .frozen

/-- What O59 keeps, with the one agreement of bridge control that it relies on (R5, R21, R26, R36, R41, R43, R75). -/
structure Accounted (s : State) : Prop where
  returns : ReturnsFromFrozen s
  contexts : ContextsAccounted s
  record : RecordEntriesConfined s

/-- A stage change that leaves no entry of the record behind: none at all, or one from outside COPY and RETIRE, where the
map holds no such entry (R75). -/
def StageMove (a b : Stage) : Prop := b = a ∨ (a ≠ .copy ∧ a ≠ .retire)

section
variable {s t : State}

theorem activeState_of_not_frozen (h : ReturnsFromFrozen s) (hs : s.bridge.state ≠ .frozen) :
    s.bridge.returnState = none ∧ s.activeState = s.bridge.state := by
  have hnone : s.bridge.returnState = none := by
    cases hr : s.bridge.returnState with
    | none => rfl
    | some r => exact absurd (h (by simp [hr])) hs
  exact ⟨hnone, by simp [State.activeState, hnone]⟩

/-- Contexts and map may hold something in SERVING. -/
theorem mayHold_serving (h : ReturnsFromFrozen s) (hs : s.bridge.state = .serving) : s.mayHoldUpdates :=
  .inl (by rw [(activeState_of_not_frozen h (by simp [hs])).2, hs])

/-- No update is under way in a bridge state other than SERVING, FROZEN and RESETTING (R36, R43). -/
theorem not_mayHold (h : ReturnsFromFrozen s) (hs : s.bridge.state ∈ [.starting, .unformatted, .recovering, .formatting]) :
    ¬ s.mayHoldUpdates := by
  simp only [List.mem_cons, List.not_mem_nil, or_false] at hs
  have hactive := (activeState_of_not_frozen h (by rintro hf; simp [hf] at hs)).2
  rw [State.mayHoldUpdates, hactive]
  rcases hs with hs | hs | hs | hs <;> simp [hs]

theorem mayHold_congr (ha : t.activeState = s.activeState) (hw : t.bridge.warmPointPassed = s.bridge.warmPointPassed)
    (h : s.mayHoldUpdates) : t.mayHoldUpdates := by
  rwa [State.mayHoldUpdates, ha, hw]

/-- With map and context table as they are, the invariant asks for the stage and for the updates that were under way. -/
theorem Accounted.keeps (h : Accounted s) (hs : StageMove s.engine.stage t.engine.stage) (hr : ReturnsFromFrozen t)
    (ha : s.mayHoldUpdates → t.mayHoldUpdates) (hm : t.pageMap = s.pageMap := by simp)
    (hc : t.contexts = s.contexts := by simp) : Accounted t := by
  refine ⟨hr, ⟨by rw [hc, hm]; exact h.contexts.counted, by rw [hc]; exact h.contexts.capped,
    by rw [hc]; exact h.contexts.idleEmpty, fun hq => by rw [hc]; exact h.contexts.quiet (mt ha hq)⟩,
    ⟨fun hcopy hretire => ?_, fun hq => by rw [hm]; exact h.record.quiet (mt ha hq)⟩⟩
  rw [hm]
  rcases hs with hs | ⟨hs, hs'⟩
  · exact h.record.confined (hs ▸ hcopy) (hs ▸ hretire)
  · exact h.record.confined hs hs'

/-- A change of the stage alone, or of what the invariant does not look at. -/
theorem Accounted.frame (h : Accounted s) (hs : StageMove s.engine.stage t.engine.stage := by exact .inl (by simp))
    (hb : t.bridge.state = s.bridge.state ∧ t.bridge.returnState = s.bridge.returnState ∧
      t.bridge.warmPointPassed = s.bridge.warmPointPassed := by simp)
    (hm : t.pageMap = s.pageMap := by simp) (hc : t.contexts = s.contexts := by simp) : Accounted t := by
  obtain ⟨hstate, hreturn, hwarm⟩ := hb
  refine h.keeps hs ?_ (mayHold_congr ?_ hwarm) hm hc
  · rw [ReturnsFromFrozen, hreturn, hstate]; exact h.returns
  · rw [State.activeState, State.activeState, hreturn, hstate]

/-- With no update under way any stage and bridge state may follow (R36, R43). -/
theorem Accounted.quiet (h : Accounted s) (hq : ¬ s.mayHoldUpdates) (hr : ReturnsFromFrozen t)
    (hm : t.pageMap = [] ∨ t.pageMap = s.pageMap) (hc : t.contexts = s.contexts := by simp) : Accounted t := by
  have hempty : s.pageMap = [] := h.record.quiet hq
  have hnone : t.pageMap = [] := hm.elim id fun e => e.trans hempty
  have hcounted := h.contexts.counted
  rw [hempty] at hcounted
  exact ⟨hr, ⟨by rw [hc, hnone]; exact hcounted, by rw [hc]; exact h.contexts.capped,
    by rw [hc]; exact h.contexts.idleEmpty, fun _ => by rw [hc]; exact h.contexts.quiet hq⟩,
    ⟨by simp [hnone], fun _ => hnone⟩⟩

/-- With every update forgotten the invariant holds (R37, R43). -/
theorem Accounted.of_reset (hr : ReturnsFromFrozen t) (hm : t.pageMap = [] := by simp)
    (hc : t.contexts = .reset := by simp) : Accounted t := by
  refine ⟨hr, ⟨fun c => ?_, fun c => ?_, fun c _ => ?_, fun _ c => ?_⟩, ⟨by simp [hm], fun _ => hm⟩⟩
  all_goals
    rw [hc]
    cases c <;> simp [ContextTable.get, ContextTable.reset, ContextRecord.reset, hm, entriesOf]

end

/-! ### Claims of the access path -/

section
variable {s t : State}

theorem entry_context_of_not_inRecord {e : MapEntry} (h : inRecord e = false) : ∃ c, e.state = .context c := by
  unfold inRecord MapEntry.position? at h
  cases hs : e.state with
  | context c => exact ⟨c, rfl⟩
  | pending n | copied n => simp [hs] at h

theorem inRecord_context {e : MapEntry} {c : ContextId} (h : e.state = .context c) : inRecord e = false := by
  simp [inRecord, MapEntry.position?, h]

theorem entriesOf_addBlockClaim_length (m : List MapEntry) (p b : Nat) (c : ContextId) :
    (entriesOf (addBlockClaim m p b) c).length = (entriesOf m c).length :=
  entriesOf_updatePage_length m p _ c fun _ => rfl

/-- In SERVING a context command or a claim of the access path asks for the counts, and for new entries owned by a context
(R26, R41). -/
theorem Accounted.in_serving (h : Accounted s) (hs : s.bridge.state = .serving)
    (hc : ∀ c, (t.contexts.get c).entryCount = (entriesOf t.pageMap c).length ∧
      (t.contexts.get c).entryCount ≤ contextCapacity ∧
      ((t.contexts.get c).state = .idle → (t.contexts.get c).entryCount = 0))
    (hm : (∀ e ∈ s.pageMap, inRecord e = false) → ∀ e ∈ t.pageMap, inRecord e = false)
    (hg : StageMove s.engine.stage t.engine.stage := by exact .inl (by simp))
    (hb : t.bridge = s.bridge := by simp) : Accounted t := by
  have hreturns : ReturnsFromFrozen t := by rw [ReturnsFromFrozen, hb]; exact h.returns
  have holds : t.mayHoldUpdates := mayHold_serving hreturns (by rw [hb, hs])
  refine ⟨hreturns, ⟨fun c => (hc c).1, fun c => (hc c).2.1, fun c => (hc c).2.2, fun hq => absurd holds hq⟩,
    ⟨fun hcopy hretire => hm ?_, fun hq => absurd holds hq⟩⟩
  rcases hg with hg | ⟨hg, hg'⟩
  · exact h.record.confined (hg ▸ hcopy) (hg ▸ hretire)
  · exact h.record.confined hg hg'

theorem Accounted.count (h : Accounted s) (c : ContextId) :
    (s.contexts.get c).entryCount = (entriesOf s.pageMap c).length ∧
      (s.contexts.get c).entryCount ≤ contextCapacity ∧
      ((s.contexts.get c).state = .idle → (s.contexts.get c).entryCount = 0) :=
  ⟨h.contexts.counted c, h.contexts.capped c, h.contexts.idleEmpty c⟩

theorem Accounted.hostClaim (h : Accounted s) (hc : HostClaim s t) (hb : t.bridge = s.bridge := by simp)
    (hg : t.engine.stage = s.engine.stage := by simp) : Accounted t := by
  cases hc with
  | none hm _ hc => exact h.frame (.inl hg) (by simp [hb]) hm hc
  | addBlock c p b e hs _ _ _ hm _ hc =>
    refine h.in_serving hs (fun d => ?_) (fun hin x hx => ?_) (.inl hg) hb
    · rw [hc, hm, entriesOf_addBlockClaim_length]
      exact h.count d
    · obtain ⟨y, hy, rfl⟩ := List.mem_map.mp (hm ▸ hx)
      have hyin := hin y hy
      split <;> exact hyin
  | allocate c k p b rest hs ho _ _ _ _ hn hm _ hc =>
    refine h.in_serving hs (fun d => ?_) (fun hin x hx => ?_) (.inl hg) hb
    · have hcount := h.count d
      rw [hc, hm]
      simp only [State.allocate, ContextTable.get_set, entriesOf_insertEntry_length]
      by_cases hd : d = c
      · subst hd
        simp only [ho, reduceCtorEq, if_true, false_implies, and_true]
        omega
      · simpa [hd, Ne.symm hd] using hcount
    · rcases mem_insertEntry.mp (hm ▸ hx) with rfl | hx
      · rfl
      · exact hin x hx
  | fail c f a hs _ hm _ hc =>
    refine h.in_serving hs (fun d => ?_) (fun hin => hm ▸ hin) (.inl hg) hb
    rw [hc, hm, ContextTable.get_set]
    split
    · rename_i hd
      subst hd
      exact ⟨h.contexts.counted d, h.contexts.capped d, nofun⟩
    · exact h.count d

theorem Accounted.releaseHeld (h : Accounted s) (w : HoldReason) : Accounted (releaseHeld s w) :=
  h.hostClaim (hostClaim_releaseHeld s w)

theorem Accounted.releaseDeparture (h : Accounted s) : Accounted (releaseDeparture s) :=
  (h.releaseHeld .bufferFull).hostClaim (hostClaim_releaseReadWait _)

end

/-! ### Trips and resumes -/

section
variable {s : State}

theorem Accounted.takeTrip (h : Accounted s) : Accounted (takeTrip s) := by
  unfold Machine.takeTrip
  split
  case h_5 | h_6 | h_7 => exact h
  all_goals
    rename_i hs
    have hactive := (activeState_of_not_frozen h.returns (by simp [hs])).2
    split
    · refine h.keeps (.inl (by simp)) (fun _ => by simp [enterFrozen]) (mayHold_congr ?_ (by simp))
      rw [hactive]
      simp [enterFrozen, State.activeState]
    · exact h.frame

theorem Accounted.startFilter (h : Accounted s) : Accounted (startFilter s) := by
  unfold Machine.startFilter
  split
  · exact h.takeTrip
  · exact h.frame

theorem Accounted.enterArmed (h : Accounted s) : Accounted (enterArmed s) := by
  unfold Machine.enterArmed
  dsimp only
  split
  · exact Accounted.startFilter h.frame
  · exact h.frame

theorem endDrain_stage (s : State) : StageMove s.engine.stage (endDrain s).engine.stage := by
  unfold endDrain
  split
  · split
    · rename_i hc
      simp only [Bool.and_eq_true, decide_eq_true_eq] at hc
      exact .inr (by simp [hc.1.1])
    · exact .inl rfl
  · exact .inl rfl

theorem restartStage_stage (s : State) : StageMove s.engine.stage (restartStage s).engine.stage := by
  unfold restartStage
  split
  · unfold restartCommit
    split
    case h_1 => exact endDrain_stage s
    case h_2 hs => exact .inr (by simp [hs])
    case h_4 => split <;> exact .inl (by simp)
    all_goals exact .inl (by simp)
  · unfold restartRecovery
    split
    case h_1 hs | h_2 hs => exact .inr (by simp [hs])
    all_goals exact .inl (by simp)
  all_goals exact .inl (by simp)

theorem Accounted.endDrain (h : Accounted s) : Accounted (endDrain s) := h.frame (endDrain_stage s)

/-- A resume leaves what is under way under way: it enters the state that FROZEN was entered from (R5, R153). -/
theorem Accounted.resumeBridge (h : Accounted s) : Accounted (resumeBridge s) := by
  unfold Machine.resumeBridge
  split
  · rename_i r hr
    have resuming : Accounted { s with
        bridge := { s.bridge with state := r, returnState := none }
        engine := { s.engine with pause := .running } } :=
      h.keeps (.inl rfl) nofun (mayHold_congr (by simp [State.activeState, hr]) rfl)
    exact Accounted.enterArmed ((resuming.frame (restartStage_stage _)).frame)
  · exact h

theorem Accounted.autoResume (h : Accounted s) : Accounted (autoResume s) := by
  unfold Machine.autoResume
  split
  · exact h.resumeBridge
  · exact h

theorem Accounted.lineAsserted (h : Accounted s) : Accounted (lineAsserted s) := by
  unfold Machine.lineAsserted
  split
  · exact h.frame
  · exact h.startFilter
  all_goals exact h.frame

theorem Accounted.itemEffect (h : Accounted s) (item : Nat) : Accounted (itemEffect s item) := by
  unfold Machine.itemEffect
  split
  · split
    · exact h.enterArmed
    · exact h
  · exact h.autoResume
  · exact h

end

/-! ### The engine -/

section
variable {s : State}

/-- The commit point: the entries of the context become the record's, and the context has none left (R23, R52). -/
theorem Accounted.commitPoint (h : Accounted s) : Accounted (commitPoint s) := by
  unfold Machine.commitPoint
  split
  · rename_i r c _ _
    have hreturns : ReturnsFromFrozen (pushEvent { s with
        pageMap := markClaim c 0 s.pageMap
        contexts := s.contexts.set c { state := .idle, entryCount := 0, lastSequence := r.sequence }
        engine := { s.engine with
          lastSequence := r.sequence, stage := .copy, copyStore := [], pos := itemStart r.items 0 0 .copyRead } }
        (.committed c r.sequence r.entryCount)) := by simpa [ReturnsFromFrozen] using h.returns
    have counts : ∀ d, ((s.contexts.set c { state := .idle, entryCount := 0, lastSequence := r.sequence }).get d).entryCount
          = (entriesOf (markClaim c 0 s.pageMap) d).length ∧
        ((s.contexts.set c { state := .idle, entryCount := 0, lastSequence := r.sequence }).get d).entryCount
          ≤ contextCapacity := by
      intro d
      rw [ContextTable.get_set, entriesOf_markClaim]
      split
      · simp
      · exact ⟨h.contexts.counted d, h.contexts.capped d⟩
    refine ⟨hreturns, ⟨fun d => by simpa using (counts d).1, fun d => by simpa using (counts d).2, fun d => ?_,
      fun hq d => ?_⟩, ⟨by simp, fun hq => ?_⟩⟩
    · simp only [pushEvent_frame, ContextTable.get_set]
      split
      · simp
      · exact h.contexts.idleEmpty d
    all_goals replace hq : ¬ s.mayHoldUpdates := mt (mayHold_congr (by simp [State.activeState]) (by simp)) hq
    · simp only [pushEvent_frame, ContextTable.get_set]
      split
      · rfl
      · exact h.contexts.quiet hq d
    · simp [h.record.quiet hq, markClaim]
  · exact h

/-- The Copied claim changes no owner, and the engine stays in COPY or goes on to RETIRE (R24, R73). -/
theorem Accounted.copyWritten (h : Accounted s) (hs : s.engine.stage = .copy) : Accounted (copyWritten s) := by
  unfold Machine.copyWritten
  split
  · rename_i r it _ _
    have claimed : Accounted { s with pageMap := copiedClaim s.pageMap it.homePage } := by
      refine ⟨h.returns, ⟨fun c => ?_, h.contexts.capped, h.contexts.idleEmpty, h.contexts.quiet⟩,
        ⟨fun hcopy => absurd hs hcopy, fun hq => ?_⟩⟩
      · dsimp only
        rw [copiedClaim, entriesOf_updatePage_length _ _ _ _ fun e => toCopied_ownedBy c e]
        exact h.contexts.counted c
      · simp [h.record.quiet hq, copiedClaim, updatePage]
    split
    · exact h.frame
    · dsimp only
      split
      · exact claimed.frame
      · obtain ⟨counted, capped, idleEmpty, quiet⟩ := claimed.contexts
        exact ⟨claimed.returns, ⟨counted, capped, idleEmpty, quiet⟩,
          ⟨fun _ hretire => absurd rfl hretire, claimed.record.quiet⟩⟩
  · exact h

/-- After the Retire claim the map holds entries of contexts alone (R25). -/
theorem Accounted.retireCommit (h : Accounted s) : Accounted (retireCommit s) := by
  have retired : Accounted { s.retireClaim with
      engine := { s.retireClaim.engine with record := none, stage := .idle, pos := .start } } := by
    refine ⟨h.returns, ⟨fun c => ?_, h.contexts.capped, h.contexts.idleEmpty, h.contexts.quiet⟩,
      ⟨fun _ _ e he => ?_, fun hq => ?_⟩⟩
    · exact (h.contexts.counted c).trans (by simp only [State.retireClaim, entriesOf_filter_record])
    · simpa using (List.mem_filter.mp he).2
    · exact (congrArg _ (h.record.quiet hq)).trans List.filter_nil
  exact retired.releaseHeld .record

/-- The end of recovery finds no update under way (R12, R95). -/
theorem Accounted.reportRecovery (h : Accounted s) : Accounted (reportRecovery s) := by
  unfold Machine.reportRecovery
  split
  · rename_i hs
    have hnone := (activeState_of_not_frozen h.returns (by simp [hs])).1
    exact h.quiet (not_mayHold h.returns (by simp [hs])) (by simp [ReturnsFromFrozen, hnone]) (.inr (by simp))
  · exact h

theorem Accounted.applyFrom (h : Accounted s) (hs : s.engine.stage = .scan ∨ s.engine.stage = .apply) (j i : Nat) :
    Accounted (applyFrom s j i) :=
  h.frame (.inr (by rcases hs with hs | hs <;> simp [hs]))

theorem Accounted.endScan (h : Accounted s) (hs : s.engine.stage = .scan) : Accounted (endScan s) := by
  have listed : Accounted { s with engine := { s.engine with
      lastSequence := largestSequence s.engine, applyList := liveSlots s.engine } } := h.frame
  unfold Machine.endScan
  dsimp only
  split
  · exact listed.reportRecovery
  · exact listed.applyFrom (.inl hs) 0 0

theorem Accounted.scanWord (h : Accounted s) (hs : s.engine.stage = .scan) (w : Word) : Accounted (scanWord s w) := by
  unfold Machine.scanWord
  split
  · rename_i sl _
    dsimp only
    split
    · exact h.frame
    · have built : Accounted { s with engine := { setImage s.engine sl (imageOf (s.engine.scanWords ++ [w])) with
          scanWords := [], pos := { s.engine.pos with slotIndex := s.engine.pos.slotIndex + 1 } } } := h.frame
      split
      · exact built
      · exact built.endScan (by simpa using hs)
  · exact h

theorem Accounted.recoveryRetired (h : Accounted s) : Accounted (recoveryRetired s) := by
  have moved : Accounted (setPos s { s.engine.pos with slotIndex := s.engine.pos.slotIndex + 1 }) := h.frame
  unfold Machine.recoveryRetired
  dsimp only
  split
  · exact moved
  · exact moved.reportRecovery

/-- FORMAT finds no update under way (R14, R36). -/
theorem Accounted.formatWritten (h : Accounted s) (hs : s.bridge.state = .formatting) : Accounted (formatWritten s) := by
  have hnone := (activeState_of_not_frozen h.returns (by simp [hs])).1
  unfold Machine.formatWritten
  split
  · exact h.frame
  · split
    · exact h.frame
    · exact h.quiet (not_mayHold h.returns (by simp [hs])) (by simp [ReturnsFromFrozen, hnone])
        (.inl (by simp [finishFormat]))

/-- The anchor is judged in STARTING, with no update under way (R10, R36). -/
theorem Accounted.judgeAnchor (h : Accounted s) (hs : s.bridge.state = .starting) (ws : List Word) :
    Accounted (judgeAnchor s ws) := by
  have hnone := (activeState_of_not_frozen h.returns (by simp [hs])).1
  have hq := not_mayHold h.returns (by simp [hs])
  unfold Machine.judgeAnchor
  dsimp only
  split
  · exact Accounted.enterArmed (h.quiet hq (by simp [ReturnsFromFrozen, hnone]) (.inr (by simp)))
  · exact Accounted.enterArmed (h.quiet hq (by simp [ReturnsFromFrozen, hnone]) (.inl (by simp)))

theorem Accounted.departHead (h : Accounted s) : Accounted (departHead s) := by
  have left : Accounted { s with buffer := bufferFrom s.buffer.entries.tail } := h.frame
  exact (Accounted.frame left.releaseDeparture.endDrain).autoResume

end

/-! ### Resets -/

section
variable {s : State}

/-- RESETTING keeps what the bridge held until its warm-reset point (R18, R37). -/
theorem Accounted.enterResetting (h : Accounted s) : Accounted (enterResetting s) := by
  by_cases hs : s.bridge.state = .resetting
  · rwa [Machine.enterResetting, if_pos hs]
  · have entered : (Machine.enterResetting s).bridge.returnState = none ∧
        (Machine.enterResetting s).bridge.state = .resetting ∧
        (Machine.enterResetting s).bridge.warmPointPassed = false := by
      simp [Machine.enterResetting, hs]
    obtain ⟨hreturn, hstate, hwarm⟩ := entered
    exact h.keeps (.inl (by simp)) (by simp [ReturnsFromFrozen, hreturn])
      fun _ => .inr ⟨by simp [State.activeState, hreturn, hstate], hwarm⟩

theorem enterStarting_returns (s : State) : ReturnsFromFrozen (enterStarting s) := by
  simp [ReturnsFromFrozen, enterStarting]

/-- Past the warm-reset point no update is left (R37, R43). -/
theorem Accounted.enterStarting (h : Accounted s) (hs : s.bridge.state = .resetting)
    (hw : s.bridge.warmPointPassed = true) : Accounted (enterStarting s) := by
  have hactive := (activeState_of_not_frozen h.returns (by simp [hs])).2
  refine h.quiet ?_ (enterStarting_returns s) (.inr (by simp))
  simp [State.mayHoldUpdates, hactive, hs, hw]

end

/-! ### Context commands, the take and FORMAT -/

section
variable {s : State} {c : ContextId}

/-- One record of the context table replaced in SERVING, its count kept (R41). -/
theorem Accounted.setContext (h : Accounted s) (hs : s.bridge.state = .serving) {r : ContextRecord} {t : State}
    (hr : r.entryCount = (s.contexts.get c).entryCount) (hidle : r.state = .idle → r.entryCount = 0)
    (hc : t.contexts = s.contexts.set c r := by rfl) (hm : t.pageMap = s.pageMap := by rfl)
    (hg : StageMove s.engine.stage t.engine.stage := by exact .inl (by simp))
    (hb : t.bridge = s.bridge := by simp) : Accounted t := by
  refine h.in_serving hs (fun d => ?_) (fun hin => hm ▸ hin) hg hb
  rw [hc, hm, ContextTable.get_set]
  split
  · rename_i hd
    subst hd
    exact ⟨hr.trans (h.contexts.counted d), hr ▸ h.contexts.capped d, hidle⟩
  · exact h.count d

theorem Accounted.openContext (h : Accounted s) (hs : s.bridge.state = .serving) (hc : (s.contexts.get c).state = .idle) :
    Accounted (s.setContext c { s.contexts.get c with state := .opened, entryCount := 0 }) :=
  h.setContext hs (c := c) (r := { s.contexts.get c with state := .opened, entryCount := 0 })
    (h.contexts.idleEmpty c hc).symm nofun

theorem Accounted.commitContext (h : Accounted s) (hs : s.bridge.state = .serving) : Accounted (commitContext s c) := by
  unfold Machine.commitContext
  dsimp only
  split
  · rename_i hn
    exact h.setContext hs (c := c) (r := { s.contexts.get c with state := .idle }) rfl (fun _ => hn) (by simp) (by simp)
  · exact h.setContext hs (c := c) (r := { s.contexts.get c with state := .queued }) rfl nofun

theorem Accounted.abortHost (h : Accounted s) (removed : List MapEntry) (freed : Bool) :
    Accounted (abortHost s c removed freed) := by
  unfold Machine.abortHost
  split
  · exact h
  · split
    case h_1 =>
      split
      · exact h.releaseHeld .bufferFull
      · exact h
    all_goals
      repeat' split
      all_goals exact h.frame

/-- ABORT takes every entry of the context from the map (R33, R55). -/
theorem Accounted.abortContext (h : Accounted s) (hs : s.bridge.state = .serving) : Accounted (abortContext s c) := by
  unfold Machine.abortContext
  refine Accounted.abortHost ?_ _ _
  refine h.in_serving hs (fun d => ?_) (fun hin e he => hin e (List.mem_of_mem_filter he)) (.inl rfl) rfl
  simp only [State.setContext, State.abortClaim, ContextTable.get_set, entriesOf_filter_other]
  split
  · simp
  · exact h.count d

theorem Accounted.takeContext (h : Accounted s) (hs : s.bridge.state = .serving) (hi : s.engine.stage = .idle)
    (rest : List ContextId) : Accounted (takeContext s c rest) := by
  have taken : Accounted { s with
      commitQueue := rest
      contexts := s.contexts.set c { s.contexts.get c with state := .committing }
      engine := { s.engine with stage := .drain, record := some (recordFor s c), pos := .start } } :=
    h.setContext hs (c := c) (r := { s.contexts.get c with state := .committing }) rfl nofun rfl rfl (.inr (by simp [hi]))
  exact taken.endDrain

/-- Where FORMAT is admitted no update is under way, and the map is empty (R14). -/
theorem Accounted.formatAdmitted (h : Accounted s) (hf : formatAdmitted s = true) :
    s.pageMap = [] ∧ ∀ c, (s.contexts.get c).state = .idle := by
  unfold Machine.formatAdmitted at hf
  split at hf
  · rename_i hs
    have hq := not_mayHold h.returns (by simp [hs])
    exact ⟨h.record.quiet hq, h.contexts.quiet hq⟩
  · simp only [Bool.and_eq_true, List.all_eq_true, decide_eq_true_eq] at hf
    obtain ⟨⟨hall, -⟩, hstage⟩ := hf
    have hidle : ∀ c, (s.contexts.get c).state = .idle := fun c => hall c (by cases c <;> decide)
    refine ⟨List.eq_nil_iff_forall_not_mem.mpr fun e he => ?_, hidle⟩
    obtain ⟨c, hc⟩ := entry_context_of_not_inRecord
      (h.record.confined (by simp [hstage]) (by simp [hstage]) e he)
    have hnone : entriesOf s.pageMap c = [] :=
      List.eq_nil_of_length_eq_zero ((h.contexts.counted c).symm.trans (h.contexts.idleEmpty c (hidle c)))
    have hmem : e ∈ entriesOf s.pageMap c := List.mem_filter.mpr ⟨he, by simp [ownedBy, hc]⟩
    simp [hnone] at hmem
  all_goals cases hf

theorem formatAdmitted_state (hf : formatAdmitted s = true) : s.bridge.state = .unformatted ∨ s.bridge.state = .serving := by
  unfold formatAdmitted at hf
  split at hf
  · exact .inl ‹_›
  · exact .inr ‹_›
  all_goals cases hf

theorem Accounted.enterFormatting (h : Accounted s) (hf : Machine.formatAdmitted s = true) (frames : Nat) :
    Accounted (enterFormatting s frames) := by
  obtain ⟨hempty, hidle⟩ := h.formatAdmitted hf
  have hnone : s.bridge.returnState = none :=
    (activeState_of_not_frozen h.returns (by rcases formatAdmitted_state hf with hs | hs <;> simp [hs])).1
  have hm : (Machine.enterFormatting s frames).pageMap = [] := by simp [hempty]
  have hc : (Machine.enterFormatting s frames).contexts = s.contexts := by simp
  refine ⟨by simp [ReturnsFromFrozen, hnone], ⟨fun c => ?_, fun c => ?_, fun c => ?_, fun _ => ?_⟩,
    ⟨by simp [hempty], fun _ => hm⟩⟩
  · rw [hc, hm, ← hempty]; exact h.contexts.counted c
  · rw [hc]; exact h.contexts.capped c
  · rw [hc]; exact h.contexts.idleEmpty c
  · rw [hc]; exact hidle

end

/-! ### The commands -/

section
variable {s : State}

theorem Accounted.whenPowered {f : State → State} (h : Accounted s) (hf : Accounted (f s)) : Accounted (whenPowered s f) :=
  whenPowered_induct h fun _ => hf

theorem Accounted.decodeCommand {code : Byte} {args : List Byte} {f : State → Answer} (h : Accounted s)
    (hf : Accounted (f s).state) : Accounted (decodeCommand s code args f) :=
  decodeCommand_induct (fun _ _ h => h.frame) h fun _ => hf

theorem Accounted.contextCommand {c : Byte} {f : ContextId → Answer} (h : Accounted s)
    (hf : s.bridge.state = .serving → ∀ k, Accounted (f k).state) : Accounted (contextCommand s c f).state := by
  rcases contextCommand_cases s c f with ⟨hs, k, _, e⟩ | e <;> rw [e]
  · exact hf hs k
  · exact h

theorem Accounted.onCompletion {p : Purpose} {f : Transfer → Word → State → State} (h : Accounted s)
    (hf : ∀ t w u, Accounted u → Accounted (f t w u)) : Accounted (onCompletion s p f) :=
  onCompletion_induct h fun t w _ _ _ => hf t w _ h.frame

theorem Accounted.onEngineCompletion {p : Purpose} {st : Stage} {o : TakenOrder} {f : Word → State → State}
    (h : Accounted s) (hf : ∀ w u, Accounted u → u.engine.stage = st → Accounted (f w u)) :
    Accounted (onEngineCompletion s p st o f) :=
  onEngineCompletion_induct h (fun _ => h.frame) (fun _ w hc hs _ => hf w _ hc hs) (fun _ h => h.frame)
    fun _ h => h.autoResume

end

theorem Accounted.exec {c : Instr} {s t : State} (h : Accounted s) (he : exec c s = .next t) : Accounted t := by
  cases c
  all_goals obtain rfl : _ = t := Host.Outcome.next.inj he
  case powerOnReset pins =>
    have on : Accounted (powerOnState s pins) := .of_reset nofun rfl rfl
    dsimp only
    split
    · exact on
    · exact on.enterResetting
  case powerLoss =>
    refine h.whenPowered ?_
    repeat' split
    all_goals exact .of_reset nofun rfl rfl
  case warmResetPoint =>
    refine h.whenPowered ?_
    dsimp only
    repeat' split
    · exact .of_reset (enterStarting_returns _) (by simp; rfl) (by simp; rfl)
    · exact .of_reset h.returns rfl rfl
    · exact h
  case rstNFall =>
    refine h.whenPowered ?_
    split
    · exact Accounted.enterResetting h.frame
    · exact h
  case rstNRise =>
    have raised : Accounted { s with bridge := { s.bridge with rstN := true } } := h.frame
    refine h.whenPowered ?_
    dsimp only
    repeat' split
    · exact h
    · rename_i hw
      exact raised.enterStarting hw.1 hw.2
    · exact raised
  case restart => exact h.decodeCommand h.enterResetting
  case supplyFallAssert =>
    refine h.whenPowered ?_
    split
    · exact h
    · exact Accounted.lineAsserted h.frame
  case trip =>
    refine h.whenPowered ?_
    split
    · exact h.takeTrip
    · exact h
  case rearmDelayMet =>
    refine h.whenPowered ?_
    split
    · exact h.enterArmed
    · exact h
  case resumeDelayMet =>
    refine h.whenPowered ?_
    split
    · exact Accounted.autoResume h.frame
    · exact h
  case supplyFallDeassert | gateOpen | holdTimeout | hreqFall | frameStart | frameEnd | badCommand | arrayGrant
      | byteComplete =>
    refine h.whenPowered ?_
    repeat' split
    all_goals exact h.frame
  case status | readContext | lookup | readEvents | readFaults | getConfig | getRegion | setRegion | clearFaults =>
    refine h.decodeCommand ?_
    repeat' split
    all_goals exact h.frame
  case resume =>
    refine h.decodeCommand ?_
    split
    · exact h.resumeBridge
    · exact h
  case setConfig item value =>
    refine h.decodeCommand ?_
    split
    · exact h
    · exact Accounted.itemEffect h.frame _
  case format frames =>
    refine h.decodeCommand ?_
    repeat' split
    · exact h.enterFormatting ‹_› _
    all_goals exact h
  case openContext c =>
    refine h.decodeCommand (h.contextCommand fun hs k => ?_)
    split
    · exact h.openContext hs ‹_›
    all_goals exact h
  case commit c =>
    refine h.decodeCommand (h.contextCommand fun hs k => ?_)
    repeat' split
    case h_1.isFalse => exact h.commitContext hs
    all_goals exact h
  case abort c =>
    refine h.decodeCommand (h.contextCommand fun hs k => ?_)
    split
    case h_4 | h_5 => exact h
    all_goals exact h.abortContext hs
  case takeWork =>
    refine h.whenPowered ?_
    repeat' split
    · rename_i hw
      exact h.takeContext hw.2.1 hw.1 _
    all_goals exact h
  case hostRequest addr tag op =>
    have raised : Accounted { s with host := { s.host with hreq := true } } := h.frame
    refine h.whenPowered ?_
    dsimp only
    repeat' split
    · exact h
    · exact raised
    · exact raised.hostClaim (hostClaim_classifyRequest _ _)
  case hostReadComplete =>
    refine h.onCompletion fun t w u hu => Accounted.autoResume ?_
    repeat' split
    all_goals exact hu.frame
  case fillRead | fillWrite =>
    refine h.onCompletion fun t w u hu => ?_
    repeat' split
    all_goals exact hu.frame
  case drainWrite => exact h.onCompletion fun t w u hu => hu.departHead
  case anchorRead =>
    refine h.onCompletion fun t w u hu => ?_
    dsimp only
    repeat' split
    case h_1.isFalse.isFalse hstate _ => exact hu.judgeAnchor (by simp at hstate; exact hstate.2) _
    all_goals exact hu.frame
  case sumRead | journalWrite => exact h.onEngineCompletion fun w u hu hs => hu.frame (.inr (by simp [hs]))
  case markWrite => exact h.onEngineCompletion fun w u hu hs => hu.commitPoint
  case copyRead | applyCopyRead => exact h.onEngineCompletion fun w u hu hs => hu.frame
  case copyWrite => exact h.onEngineCompletion fun w u hu hs => hu.copyWritten hs
  case retireWrite => exact h.onEngineCompletion fun w u hu hs => hu.retireCommit
  case scanRead => exact h.onEngineCompletion fun w u hu hs => hu.scanWord hs w
  case verifyRead | applyCopyWrite => exact h.onEngineCompletion fun w u hu hs => hu.frame (.inr (by simp [hs]))
  case recoveryRetireWrite => exact h.onEngineCompletion fun w u hu hs => hu.recoveryRetired
  case formatWrite =>
    refine h.onEngineCompletion fun w u hu hs => ?_
    split
    · exact hu.formatWritten ‹_›
    · exact hu

/-- Settles O59: the counts and the confinement hold with the return state in FROZEN alone, and every command keeps the
three together. -/
theorem updatesStayAccounted : Obligations.UpdatesStayAccounted := by
  intro s t hb hc hr hs
  have kept : Accounted t := step_induct (P := Accounted) (fun _ _ h => h.frame) (fun _ _ _ h he => h.exec he)
    ⟨hb.frozen.mp, hc, hr⟩ hs
  exact ⟨kept.contexts, kept.record⟩

end Sys2Proof.Machine.Invariants
end

section
/-! SUPPORT. The lists of fixed capacity, the faults counted, the byte in progress of a frame and the configuration items
through every command (R89, R127, R128, R155, R156, R165, R168). -/

namespace Sys2Proof.Machine.Invariants

-- One proof at a time: each proof run beside the others takes a thread, and its stack counts against the memory
-- limit of the check.
set_option Elab.async false

/-! ### The invariant -/

/-- The posted-write buffer is within its capacity and has a head exactly when it holds an entry (R127, R128). -/
def BufferGood (b : PostedBuffer) : Prop := b.entries.length ≤ bufferCapacity ∧ (b.head.isSome = true ↔ b.entries ≠ [])

/-- The fault list holds the first eight of the pages counted (R89, R94). -/
def FaultsGood (e : Engine) : Prop := e.faultList.length = min faultListCapacity e.faultCount ∧ e.faultCount ≤ 255

/-- What the second part of O60 keeps, by the block that each bound is about. -/
structure Bounded (s : State) : Prop where
  events : s.events.length ≤ eventCapacity
  buffer : BufferGood s.buffer
  faults : FaultsGood s.engine
  bits : s.mgmt.bits.length < 8
  settings : SettingsInRange s

theorem bounded_iff {s : State} : Bounded s ↔ WithinCapacity s ∧ SettingsInRange s :=
  ⟨fun h => ⟨⟨h.events, h.buffer.1, h.buffer.2, h.faults.1, h.faults.2, h.bits⟩, h.settings⟩,
    fun ⟨hc, hs⟩ => ⟨hc.events, ⟨hc.buffer, hc.head⟩, ⟨hc.faultList, hc.faultCount⟩, hc.bits, hs⟩⟩

section
variable {s t : State}

/-- A block that stays as it is stays within its bounds. -/
theorem Bounded.frame (h : Bounded s)
    (he : t.events = s.events ∨ t.events.length ≤ eventCapacity := by exact .inl (by simp))
    (hb : t.buffer = s.buffer ∨ BufferGood t.buffer := by exact .inl (by simp))
    (hf : (t.engine.faultList = s.engine.faultList ∧ t.engine.faultCount = s.engine.faultCount) ∨ FaultsGood t.engine :=
      by exact .inl (by simp))
    (hm : t.mgmt.bits = s.mgmt.bits ∨ t.mgmt.bits.length < 8 := by exact .inl (by simp))
    (hs : t.settings = s.settings := by simp) : Bounded t := by
  refine ⟨he.elim (fun e => e ▸ h.events) id, hb.elim (fun e => e ▸ h.buffer) id, ?_,
    hm.elim (fun e => e ▸ h.bits) id, ?_⟩
  · rcases hf with ⟨hl, hn⟩ | hf
    · rw [FaultsGood, hl, hn]; exact h.faults
    · exact hf
  · obtain ⟨hhold, hfilter, hdelay⟩ := h.settings
    exact ⟨hs ▸ hhold, hs ▸ hfilter, hs ▸ hdelay⟩

theorem settingsInRange_of_reset (h : t.settings = .reset := by rfl) : SettingsInRange t := by
  constructor <;> rw [h] <;> decide

/-- With every block but the settings empty the bounds hold (R8, R18). -/
theorem Bounded.of_empty (hs : SettingsInRange t) (hm : t.mgmt.bits.length < 8) (he : t.events = [] := by rfl)
    (hb : t.buffer = { entries := [], head := none } := by rfl) (hf : t.engine = .reset := by rfl) : Bounded t := by
  refine ⟨by simp [he], ?_, ?_, hm, hs⟩
  · simp [BufferGood, hb]
  · rw [FaultsGood, hf]; decide

/-! ### Events (R168) -/

theorem pushEvent_events_le (h : s.events.length ≤ eventCapacity) (e : Event) :
    (pushEvent s e).events.length ≤ eventCapacity := by
  unfold pushEvent
  split
  · simp only [List.length_append, List.length_singleton]; omega
  · exact h

theorem Bounded.pushEvent (h : Bounded s) (e : Event) : Bounded (pushEvent s e) :=
  h.frame (.inr (pushEvent_events_le h.events e))

/-! ### The posted-write buffer (R127, R128) -/

theorem bufferFrom_good {es : List PostedEntry} (h : es.length ≤ bufferCapacity) : BufferGood (bufferFrom es) := by
  refine ⟨h, ?_⟩
  cases es <;> simp [bufferFrom]

theorem appendPosted_good {b : PostedBuffer} (h : BufferGood b) (hl : b.entries.length < bufferCapacity)
    (e : PostedEntry) : BufferGood (appendPosted b e) := by
  unfold appendPosted
  split
  · exact bufferFrom_good (by simp [bufferCapacity])
  · rename_i x xs hx
    refine ⟨?_, ?_⟩
    · simp only [List.length_append, List.length_singleton]; omega
    · simpa [hx] using h.2

theorem discardTagged_good {b : PostedBuffer} (h : BufferGood b) (c : ContextId) : BufferGood (discardTagged b c) := by
  have hl := h.1
  unfold discardTagged
  dsimp only
  split
  · exact h
  · rename_i x xs hx
    have hle := List.length_filter_le (fun e : PostedEntry => decide (e.tag ≠ some c)) xs
    rw [hx, List.length_cons] at hl
    split
    · refine ⟨?_, ?_⟩
      · simp only [List.length_cons]; omega
      · simpa [hx] using h.2
    · exact bufferFrom_good (by omega)

/-! ### The access path -/

theorem Bounded.completeFault (h : Bounded s) (r : Request) (f : FaultReason) : Bounded (completeFault s r f) := by
  have ended : Bounded (completeHost s r (some f) 0) := h.frame
  unfold Machine.completeFault
  dsimp only
  split
  · exact ended.pushEvent _
  · exact ended

theorem Bounded.failContext (h : Bounded s) (r : Request) (c : ContextId) (f : FailReason) :
    Bounded (failContext s r c f) := by
  unfold Machine.failContext
  exact Bounded.pushEvent h.frame _

/-- A write is posted where step 8 finds a free entry (R120). -/
theorem Bounded.acceptWrite (h : Bounded s) (hl : s.buffer.entries.length < bufferCapacity) (r : Request) (d : Word)
    (l : Lanes) (p : WritePlan) : Bounded (acceptWrite s r d l p) :=
  h.frame (.inl (by simp)) (.inr (by simpa [Machine.acceptWrite] using appendPosted_good h.buffer hl _))

theorem Bounded.classifyRequest (h : Bounded s) (r : Request) : Bounded (classifyRequest s r) := by
  unfold Machine.classifyRequest
  generalize hv : classify s r = v
  cases v with
  | fault f => exact h.completeFault r f
  | allocationFault c f => exact h.failContext r c f
  | withoutEffect | hold _ _ | grantRead _ => exact h.frame (.inl rfl) (.inl rfl) (.inl ⟨rfl, rfl⟩) (.inl rfl) rfl
  | post p =>
    obtain ⟨d, l, hop, -, -, hl, -⟩ := classify_post hv
    rw [settle, hop]
    exact h.acceptWrite hl r d l p

theorem Bounded.releaseHeld (h : Bounded s) (w : HoldReason) : Bounded (releaseHeld s w) := by
  unfold Machine.releaseHeld
  repeat' split
  · exact h.classifyRequest _
  all_goals exact h

theorem Bounded.releaseReadWait (h : Bounded s) : Bounded (releaseReadWait s) := by
  unfold Machine.releaseReadWait
  repeat' split
  · exact h.classifyRequest _
  all_goals exact h

theorem Bounded.faultWaiting (h : Bounded s) (f : FaultReason) : Bounded (faultWaiting s f) := by
  unfold Machine.faultWaiting
  repeat' split
  · exact h.completeFault _ _
  all_goals exact h

/-! ### Recovery and FORMAT -/

/-- A faulty entry is counted, and joins the list while the count is below the capacity of the list (R94). -/
theorem faulty_good {l : List Nat} {n : Nat} (hl : l.length = min faultListCapacity n) (hn : n ≤ 255) (p : Nat) :
    (if l.length < faultListCapacity then l ++ [p] else l).length = min faultListCapacity (min 255 (n + 1)) ∧
      min 255 (n + 1) ≤ 255 := by
  refine ⟨?_, by omega⟩
  rw [faultListCapacity] at *
  split
  · simp only [List.length_append, List.length_singleton]; omega
  · omega

theorem Bounded.tally (h : Bounded s) (i : Nat) (faulty : Bool) (p : Nat) : Bounded (tally s i faulty p) := by
  unfold Machine.tally
  split
  · cases faulty
    · exact h.frame
    · exact h.frame (.inl rfl) (.inl rfl) (.inr (faulty_good h.faults.1 h.faults.2 p))
  · exact h

theorem Bounded.seekEntry (l : List (Nat × Nat × Slot × RecordItem)) (h : Bounded s) : Bounded (seekEntry l s) := by
  induction l generalizing s with
  | nil => exact h.frame (t := enterStage s .retire .start)
  | cons x rest ih =>
    obtain ⟨j, i, sl, it⟩ := x
    have loaded : Bounded (loadSlot s sl) := h.frame
    simp only [Machine.seekEntry]
    split
    · exact ih (loaded.tally _ _ _)
    · exact h.frame

theorem Bounded.reportRecovery (h : Bounded s) : Bounded (reportRecovery s) := by
  unfold Machine.reportRecovery
  split
  · exact Bounded.pushEvent h.frame _
  · exact h

theorem Bounded.endScan (h : Bounded s) : Bounded (endScan s) := by
  have listed : Bounded { s with engine := { s.engine with
      lastSequence := largestSequence s.engine, applyList := liveSlots s.engine } } := h.frame
  unfold Machine.endScan
  dsimp only
  split
  · exact listed.reportRecovery
  · exact listed.seekEntry _

theorem setImage_faults (e : Engine) (sl : Slot) (im : SlotImage) :
    (setImage e sl im).faultList = e.faultList ∧ (setImage e sl im).faultCount = e.faultCount := by
  cases sl <;> exact ⟨rfl, rfl⟩

theorem Bounded.scanWord (h : Bounded s) (w : Word) : Bounded (scanWord s w) := by
  unfold Machine.scanWord
  split
  · rename_i sl _
    dsimp only
    split
    · exact h.frame
    · have built : Bounded { s with engine := { setImage s.engine sl (imageOf (s.engine.scanWords ++ [w])) with
          scanWords := [], pos := { s.engine.pos with slotIndex := s.engine.pos.slotIndex + 1 } } } :=
        h.frame (.inl rfl) (.inl rfl) (.inl (setImage_faults _ _ _))
      split
      · exact built
      · exact built.endScan
  · exact h

theorem Bounded.verifyWord (h : Bounded s) (w : Word) : Bounded (verifyWord s w) := by
  have summed : Bounded (addToSums s w) := h.frame
  unfold Machine.verifyWord
  split
  · dsimp only
    split
    · exact summed.frame
    · split
      · exact (summed.tally _ _ _).seekEntry _
      · exact (summed.tally _ _ _).frame (.inl rfl) (.inl rfl) (.inl ⟨rfl, rfl⟩) (.inl rfl) rfl
  · exact h

theorem Bounded.applyWritten (h : Bounded s) : Bounded (applyWritten s) := by
  unfold Machine.applyWritten
  repeat' split
  · exact h.frame
  · exact h.seekEntry _
  · exact h

theorem Bounded.recoveryRetired (h : Bounded s) : Bounded (recoveryRetired s) := by
  have moved : Bounded (setPos s { s.engine.pos with slotIndex := s.engine.pos.slotIndex + 1 }) := h.frame
  unfold Machine.recoveryRetired
  dsimp only
  split
  · exact moved
  · exact moved.reportRecovery

theorem Bounded.formatWritten (h : Bounded s) : Bounded (formatWritten s) := by
  unfold Machine.formatWritten
  repeat' split
  · exact h.frame
  · exact h.frame
  · exact Bounded.pushEvent h.frame _

theorem Bounded.commitPoint (h : Bounded s) : Bounded (commitPoint s) := by
  unfold Machine.commitPoint
  split
  · exact Bounded.pushEvent h.frame _
  · exact h

theorem Bounded.retireCommit (h : Bounded s) : Bounded (retireCommit s) := by
  have retired : Bounded { s.retireClaim with
      engine := { s.retireClaim.engine with record := none, stage := .idle, pos := .start } } := h.frame
  exact retired.releaseHeld .record

/-! ### Trips, resumes and departures -/

theorem Bounded.startDelay (h : Bounded s) : Bounded (startDelay s) := h.frame

theorem Bounded.takeTrip (h : Bounded s) : Bounded (takeTrip s) := by
  unfold Machine.takeTrip
  split
  case h_5 | h_6 | h_7 => exact h
  all_goals
    split
    · have faulted := h.faultWaiting .frozen
      refine Bounded.startDelay (Bounded.pushEvent ?_ _)
      exact faulted.frame
    · refine Bounded.startDelay (Bounded.pushEvent ?_ _)
      exact h.frame

theorem Bounded.startFilter (h : Bounded s) : Bounded (startFilter s) := by
  unfold Machine.startFilter
  split
  · exact h.takeTrip
  · exact h.frame

theorem Bounded.enterArmed (h : Bounded s) : Bounded (enterArmed s) := by
  unfold Machine.enterArmed
  dsimp only
  split
  · exact Bounded.startFilter h.frame
  · exact h.frame

theorem Bounded.resumeBridge (h : Bounded s) : Bounded (resumeBridge s) := by
  unfold Machine.resumeBridge
  split
  · exact Bounded.enterArmed (Bounded.pushEvent (Bounded.frame h) .resumed)
  · exact h

theorem Bounded.autoResume (h : Bounded s) : Bounded (autoResume s) := by
  unfold Machine.autoResume
  split
  · exact h.resumeBridge
  · exact h

theorem Bounded.departHead (h : Bounded s) : Bounded (departHead s) := by
  have left : Bounded { s with buffer := bufferFrom s.buffer.entries.tail } :=
    h.frame (.inl rfl) (.inr (bufferFrom_good (by have := h.buffer.1; simp only [List.length_tail]; omega)))
  have released : Bounded (releaseDeparture { s with buffer := bufferFrom s.buffer.entries.tail }) :=
    (left.releaseHeld .bufferFull).releaseReadWait
  exact Bounded.autoResume released.frame

theorem Bounded.judgeAnchor (h : Bounded s) (ws : List Word) : Bounded (judgeAnchor s ws) := by
  unfold Machine.judgeAnchor
  dsimp only
  split
  · exact Bounded.enterArmed (Bounded.pushEvent h.frame _)
  · exact Bounded.enterArmed (h.frame (.inl (by simp)) (.inl (by simp)) (.inr ⟨rfl, Nat.zero_le _⟩))

theorem Bounded.lineAsserted (h : Bounded s) : Bounded (lineAsserted s) := by
  unfold Machine.lineAsserted
  split
  case h_2 => exact h.startFilter
  all_goals exact h.frame

/-! ### Commands of the management port -/

theorem Bounded.commitContext (h : Bounded s) (c : ContextId) : Bounded (commitContext s c) := by
  unfold Machine.commitContext
  dsimp only
  split
  · exact Bounded.pushEvent h.frame _
  · exact h.frame

theorem Bounded.abortHost (h : Bounded s) (c : ContextId) (removed : List MapEntry) (freed : Bool) :
    Bounded (abortHost s c removed freed) := by
  unfold Machine.abortHost
  split
  · exact h
  · split
    case h_1 =>
      split
      · exact h.releaseHeld .bufferFull
      · exact h
    all_goals
      repeat' split
      all_goals first
        | exact h
        | exact h.completeFault _ _
        | exact h.frame

theorem Bounded.abortContext (h : Bounded s) (c : ContextId) : Bounded (abortContext s c) := by
  unfold Machine.abortContext
  refine Bounded.abortHost ?_ _ _ _
  exact h.frame (.inl rfl) (.inr (discardTagged_good h.buffer c))

/-- An item is set to a value in its range (R155, R165). -/
theorem setItem_inRange {c d : Settings} {i v : Nat} (h : c.setItem i v = some d)
    (hc : c.holdTimeout ≤ 65535 ∧ c.tripFilter ≤ 4 ∧ 1 ≤ c.resumeDelay ∧ c.resumeDelay ≤ 255) :
    d.holdTimeout ≤ 65535 ∧ d.tripFilter ≤ 4 ∧ 1 ≤ d.resumeDelay ∧ d.resumeDelay ≤ 255 := by
  unfold Settings.setItem at h
  split at h
  case h_7 => cases h
  all_goals
    obtain ⟨hv, hd⟩ := Option.ite_none_right_eq_some.mp h
    obtain rfl := Option.some.inj hd
    grind

theorem Bounded.setConfig (h : Bounded s) {c : Settings} {i v : Nat} (hc : s.settings.setItem i v = some c) :
    Bounded (itemEffect { s with settings := c } i) := by
  obtain ⟨hhold, hfilter, hlow, hhigh⟩ := setItem_inRange hc
    ⟨h.settings.holdTimeout, h.settings.tripFilter, h.settings.resumeDelay⟩
  have configured : Bounded { s with settings := c } :=
    ⟨h.events, h.buffer, h.faults, h.bits, ⟨hhold, hfilter, hlow, hhigh⟩⟩
  unfold itemEffect
  split
  · split
    · exact configured.enterArmed
    · exact configured
  · exact configured.autoResume
  · exact configured

theorem Bounded.enterResetting (h : Bounded s) : Bounded (enterResetting s) := by
  unfold Machine.enterResetting
  split
  · exact h
  · exact Bounded.frame (h.faultWaiting .notReady)

theorem Bounded.enterFormatting (h : Bounded s) (frames : Nat) : Bounded (enterFormatting s frames) := by
  unfold Machine.enterFormatting
  exact Bounded.frame (h.faultWaiting .notReady)

theorem Bounded.popEvents (h : Bounded s) (n : Nat) : Bounded (popEvents s n) := by
  refine h.frame (.inr ?_)
  have := h.events
  simp only [Machine.popEvents, List.length_drop]
  omega

/-! ### The commands -/

theorem Bounded.whenPowered {f : State → State} (h : Bounded s) (hf : Bounded (f s)) : Bounded (whenPowered s f) :=
  whenPowered_induct h fun _ => hf

theorem Bounded.decodeCommand {code : Byte} {args : List Byte} {f : State → Answer} (h : Bounded s)
    (hf : Bounded (f s).state) : Bounded (decodeCommand s code args f) :=
  decodeCommand_induct (fun _ _ h => h.frame (.inl rfl) (.inl rfl) (.inl ⟨rfl, rfl⟩) (.inr (Nat.zero_lt_succ 7))) h fun _ => hf

theorem Bounded.contextCommand {c : Byte} {f : ContextId → Answer} (h : Bounded s)
    (hf : ∀ k, Bounded (f k).state) : Bounded (contextCommand s c f).state := by
  rcases contextCommand_cases s c f with ⟨_, k, _, e⟩ | e <;> rw [e]
  · exact hf k
  · exact h

theorem Bounded.onCompletion {p : Purpose} {f : Transfer → Word → State → State} (h : Bounded s)
    (hf : ∀ t w u, Bounded u → Bounded (f t w u)) : Bounded (onCompletion s p f) :=
  onCompletion_induct h fun t w _ _ _ => hf t w _ h.frame

theorem Bounded.onEngineCompletion {p : Purpose} {st : Stage} {o : TakenOrder} {f : Word → State → State}
    (h : Bounded s) (hf : ∀ w u, Bounded u → Bounded (f w u)) : Bounded (onEngineCompletion s p st o f) :=
  onEngineCompletion_induct h (fun _ => h.frame) (fun _ w hc _ _ => hf w _ hc)
    (fun _ h => h.frame (.inl (by simp)) (.inl (by simp)) (.inl (by simp))) fun _ h => h.autoResume

/-- A head entry that goes on stays the head (R128, R130). -/
theorem Bounded.setHead (h : Bounded s) (x : DrainHead) (hx : s.buffer.head.isSome = true) : Bounded (setHead s x) := by
  refine h.frame (.inl rfl) (.inr ⟨h.buffer.1, ?_⟩)
  simpa using h.buffer.2.mp hx

/-- The head of the buffer stays its head when its transfer begins (R128). -/
theorem Bounded.beginTransfer (h : Bounded s) (g : Grant) : Bounded (beginTransfer s g) := by
  refine h.frame (.inl (by simp)) (.inr ?_)
  cases g with
  | drain t => exact ⟨h.buffer.1, by simpa [Machine.beginTransfer] using h.buffer.2⟩
  | read t | engine t => exact h.buffer

end

theorem Bounded.exec {c : Instr} {s t : State} (h : Bounded s) (he : exec c s = .next t) : Bounded t := by
  cases c
  all_goals obtain rfl : _ = t := Host.Outcome.next.inj he
  case powerOnReset pins =>
    have on : Bounded (powerOnState s pins) := .of_empty settingsInRange_of_reset (by exact Nat.zero_lt_succ 7)
    dsimp only
    split
    · exact on
    · exact on.enterResetting
  case powerLoss =>
    refine h.whenPowered ?_
    repeat' split
    all_goals exact .of_empty settingsInRange_of_reset (by exact Nat.zero_lt_succ 7)
  case warmResetPoint =>
    have warm : Bounded (warmResetState s) := .of_empty ⟨h.settings.1, h.settings.2, h.settings.3⟩ h.bits
    refine h.whenPowered ?_
    dsimp only
    repeat' split
    · exact warm.frame
    · exact warm
    · exact h
  case rstNFall =>
    refine h.whenPowered ?_
    split
    · exact Bounded.enterResetting h.frame
    · exact h
  case restart => exact h.decodeCommand h.enterResetting
  case supplyFallAssert =>
    refine h.whenPowered ?_
    split
    · exact h
    · exact Bounded.lineAsserted h.frame
  case trip =>
    refine h.whenPowered ?_
    split
    · exact h.takeTrip
    · exact h
  case rearmDelayMet =>
    refine h.whenPowered ?_
    split
    · exact h.enterArmed
    · exact h
  case resumeDelayMet =>
    refine h.whenPowered ?_
    split
    · exact Bounded.autoResume h.frame
    · exact h
  case holdTimeout =>
    refine h.whenPowered ?_
    repeat' split
    · exact h.completeFault _ _
    all_goals exact h
  case frameStart | frameEnd | badCommand =>
    refine h.whenPowered ?_
    split
    all_goals first
      | exact h
      | exact h.frame (.inl rfl) (.inl rfl) (.inl ⟨rfl, rfl⟩) (.inr (Nat.zero_lt_succ 7))
  case byteComplete bits =>
    exact h.whenPowered (h.frame (.inl rfl) (.inl rfl) (.inl ⟨rfl, rfl⟩) (.inr (takeBits_incomplete bits _ h.bits)))
  case arrayGrant =>
    refine h.whenPowered ?_
    split
    · exact h.beginTransfer _
    · exact h
  case supplyFallDeassert | gateOpen | hreqFall | rstNRise | takeWork =>
    refine h.whenPowered ?_
    repeat' split
    all_goals exact h.frame
  case readEvents n =>
    refine h.decodeCommand ?_
    split
    · exact h.popEvents _
    · exact h
  case clearFaults =>
    refine h.decodeCommand ?_
    split
    · exact h
    · exact h.frame (.inl rfl) (.inl rfl) (.inr ⟨rfl, Nat.zero_le _⟩)
  case status | readContext | lookup | readFaults | getConfig | getRegion | setRegion =>
    refine h.decodeCommand ?_
    repeat' split
    all_goals exact h.frame
  case resume =>
    refine h.decodeCommand ?_
    split
    · exact h.resumeBridge
    · exact h
  case setConfig item value =>
    refine h.decodeCommand ?_
    split
    · exact h
    · exact h.setConfig ‹_›
  case format frames =>
    refine h.decodeCommand ?_
    repeat' split
    · exact h.enterFormatting _
    all_goals exact h
  case openContext c =>
    refine h.decodeCommand (h.contextCommand fun k => ?_)
    split
    all_goals exact h.frame
  case commit c =>
    refine h.decodeCommand (h.contextCommand fun k => ?_)
    repeat' split
    case h_1.isFalse => exact h.commitContext k
    all_goals exact h
  case abort c =>
    refine h.decodeCommand (h.contextCommand fun k => ?_)
    split
    case h_4 | h_5 => exact h
    all_goals exact h.abortContext k
  case hostRequest addr tag op =>
    have raised : Bounded { s with host := { s.host with hreq := true } } := h.frame
    refine h.whenPowered ?_
    dsimp only
    repeat' split
    · exact h
    · exact raised
    · exact raised.classifyRequest _
  case hostReadComplete =>
    refine h.onCompletion fun t w u hu => Bounded.autoResume ?_
    repeat' split
    all_goals exact hu.frame
  case fillRead | fillWrite =>
    refine h.onCompletion fun t w u hu => ?_
    split
    · split
      all_goals first
        | exact hu
        | exact hu.setHead _ (by simp [*])
    · exact hu
  case drainWrite => exact h.onCompletion fun t w u hu => hu.departHead
  case anchorRead =>
    refine h.onCompletion fun t w u hu => ?_
    dsimp only
    repeat' split
    case h_1.isFalse.isFalse => exact hu.judgeAnchor _
    all_goals exact hu.frame
  case sumRead | journalWrite | copyRead | applyCopyRead | copyWrite =>
    exact h.onEngineCompletion fun w u hu => hu.frame
  case markWrite => exact h.onEngineCompletion fun w u hu => hu.commitPoint
  case retireWrite => exact h.onEngineCompletion fun w u hu => hu.retireCommit
  case scanRead => exact h.onEngineCompletion fun w u hu => hu.scanWord w
  case verifyRead => exact h.onEngineCompletion fun w u hu => hu.verifyWord w
  case applyCopyWrite => exact h.onEngineCompletion fun w u hu => hu.applyWritten
  case recoveryRetireWrite => exact h.onEngineCompletion fun w u hu => hu.recoveryRetired
  case formatWrite =>
    refine h.onEngineCompletion fun w u hu => ?_
    split
    · exact hu.formatWritten
    · exact hu

theorem step_keeps_bounds {s t : State} (hc : WithinCapacity s) (hr : SettingsInRange s) (hs : step s = .next t) :
    WithinCapacity t ∧ SettingsInRange t :=
  bounded_iff.mp (step_induct (P := Bounded) (fun _ _ h => h.frame) (fun _ _ _ h he => h.exec he)
    (bounded_iff.mpr ⟨hc, hr⟩) hs)

end Sys2Proof.Machine.Invariants
end

section
/-! SUPPORT. The outstanding request through every command: its hold timer, the bridge states it may wait in, its transfer,
and what a phase needs (R103, R121, R124). -/

namespace Sys2Proof.Machine

-- One proof at a time: each proof run beside the others takes a thread, and its stack counts against the memory
-- limit of the check.
set_option Elab.async false

/-! ### The invariant -/

/-- A host read is the transfer in progress (R136). -/
def ReadInProgress (s : State) : Prop := s.port.map Transfer.purpose = some .hostRead

/-- No request waits, so that the bridge state may change (R124). -/
def NoneWaiting (s : State) : Prop := ∀ r, s.host.outstanding = some r → r.phase.waiting = false

section
variable {s t : State} {r : Request}

theorem not_reading_of_phase (h : RequestAccounted s) (hr : s.host.outstanding = some r)
    (hp : r.phase ≠ .readTransfer) : ¬ ReadInProgress s := by
  intro hread
  obtain ⟨q, hq, hphase⟩ := h.transfer.mpr hread
  rw [hr] at hq
  cases hq
  exact hp hphase

/-- A request waits in SERVING and UNFORMATTED alone. -/
theorem noneWaiting_elsewhere (h : RequestAccounted s) (hs : s.bridge.state ≠ .serving)
    (hu : s.bridge.state ≠ .unformatted) : NoneWaiting s := by
  intro r hr
  by_contra hw
  exact (h.served r hr (by simpa using hw)).elim hs hu

/-- With the request as it is, the bridge state may change where none waits. -/
theorem RequestAccounted.frame (h : RequestAccounted s)
    (hs : t.bridge.state = s.bridge.state ∨ NoneWaiting s := by exact .inl (by simp))
    (hp : t.port.map Transfer.purpose = s.port.map Transfer.purpose := by simp)
    (hh : t.host.outstanding = s.host.outstanding ∧ t.host.holdTimer = s.host.holdTimer := by simp) :
    RequestAccounted t := by
  obtain ⟨hout, htimer⟩ := hh
  refine ⟨by rw [hout, htimer]; exact h.timer, fun r hr hw => ?_, by rw [hout, hp]; exact h.transfer,
    by rw [hout]; exact h.settled⟩
  rw [hout] at hr
  rcases hs with hs | hs
  · rw [hs]; exact h.served r hr hw
  · rw [hs r hr] at hw; cases hw

/-- With no request outstanding nothing is asked for but that no host read is in progress. -/
theorem requestAccounted_of_none (hout : t.host.outstanding = none) (htimer : t.host.holdTimer = none)
    (hp : ¬ ReadInProgress t) : RequestAccounted t :=
  ⟨by simp [hout, htimer], by simp [hout], by simpa [hout, ReadInProgress] using hp, by simp [hout]⟩

/-- A request that is HELD or in READ_GRANT. -/
theorem requestAccounted_of_waiting (hout : t.host.outstanding = some r) (hw : r.phase.waiting = true)
    (htimer : t.host.holdTimer.isSome = true ↔ ∃ h, r.phase = .held h)
    (hs : t.bridge.state = .serving ∨ t.bridge.state = .unformatted) (hp : ¬ ReadInProgress t)
    (hr : (r.phase = .readGrant ∨ r.phase = .held .readWait) → r.resolved.isSome = true ∧ r.op = .read) :
    RequestAccounted t := by
  have hphase : r.phase ≠ .readTransfer ∧ r.phase ≠ .classifying := by
    constructor <;> intro h <;> simp [h, HostPhase.waiting] at hw
  refine ⟨by simpa [hout] using htimer, fun _ _ _ => hs, ?_, fun q hq => ?_⟩
  · simp only [hout, Option.some.injEq]
    exact ⟨fun ⟨q, hq, hx⟩ => absurd (hq ▸ hx) hphase.1, fun h => absurd h hp⟩
  · rw [hout] at hq
    cases hq
    exact ⟨hphase.2, hr⟩

/-! ### The access path -/

theorem completeHost_accounted (h : ¬ ReadInProgress s) (r : Request) (f : Option FaultReason) (w : Word) :
    RequestAccounted (completeHost s r f w) :=
  requestAccounted_of_none rfl rfl h

theorem completeFault_none (s : State) (r : Request) (f : FaultReason) :
    (completeFault s r f).host.outstanding = none ∧ (completeFault s r f).host.holdTimer = none := by
  unfold completeFault
  dsimp only
  split <;> simp

theorem completeFault_accounted (h : ¬ ReadInProgress s) (r : Request) (f : FaultReason) :
    RequestAccounted (completeFault s r f) :=
  requestAccounted_of_none (completeFault_none s r f).1 (completeFault_none s r f).2 (by simpa [ReadInProgress] using h)

/-- Whatever a classification makes of a request, the request is accounted for (R104, R121). -/
theorem classifyRequest_accounted (h : ¬ ReadInProgress s) (r : Request) : RequestAccounted (classifyRequest s r) := by
  have passed (hf : faultSteps s r = none) : s.bridge.state = .serving ∨ s.bridge.state = .unformatted :=
    stateStep_none.mp (faultSteps_none.mp hf).1
  unfold classifyRequest
  generalize hv : classify s r = v
  cases v with
  | fault f => exact completeFault_accounted h r f
  | allocationFault c f =>
    exact requestAccounted_of_none (by simp [settle, failContext]) (by simp [settle, failContext])
      (by simpa [settle, ReadInProgress] using h)
  | withoutEffect => exact completeHost_accounted h r none 0
  | hold w a =>
    obtain ⟨hf, hcase⟩ := classify_hold hv
    refine requestAccounted_of_waiting rfl rfl (by simp [settle, holdRequest]) (passed hf) h ?_
    simp only [reduceCtorEq, HostPhase.held.injEq, false_or]
    rintro rfl
    simp only [reduceCtorEq, false_and, or_false, true_and] at hcase
    obtain ⟨hop, ha, -⟩ := hcase
    exact ⟨by rw [ha]; rfl, hop⟩
  | grantRead a =>
    obtain ⟨hop, hf, -⟩ := classify_grantRead hv
    exact requestAccounted_of_waiting rfl rfl (by simp [settle, Machine.grantRead]) (passed hf) h fun _ => ⟨rfl, hop⟩
  | post p =>
    obtain ⟨d, l, hop, -⟩ := classify_post hv
    rw [settle, hop]
    exact requestAccounted_of_none rfl rfl (by simpa [ReadInProgress] using h)

theorem RequestAccounted.releaseHeld (h : RequestAccounted s) (w : HoldReason) : RequestAccounted (releaseHeld s w) := by
  unfold Machine.releaseHeld
  split
  · rename_i r hr
    split
    · exact classifyRequest_accounted (not_reading_of_phase h hr (by simp [*])) _
    · exact h
  · exact h

theorem RequestAccounted.releaseReadWait (h : RequestAccounted s) : RequestAccounted (releaseReadWait s) := by
  unfold Machine.releaseReadWait
  split
  · rename_i r hr
    split
    · rename_i hc
      simp only [Bool.and_eq_true, decide_eq_true_eq] at hc
      exact classifyRequest_accounted (not_reading_of_phase h hr (by simp [hc.1])) _
    · exact h
  · exact h

/-- A change of bridge state finds no request waiting once the waiting one has faulted (R124). -/
theorem RequestAccounted.faultWaiting (h : RequestAccounted s) (f : FaultReason) :
    RequestAccounted (faultWaiting s f) ∧ NoneWaiting (faultWaiting s f) := by
  unfold Machine.faultWaiting
  split
  · rename_i r hr
    split
    · rename_i hw
      have hphase : r.phase ≠ .readTransfer := by rintro hp; simp [hp, HostPhase.waiting] at hw
      exact ⟨completeFault_accounted (not_reading_of_phase h hr hphase) r f,
        fun q hq => by simp [(completeFault_none s r f).1] at hq⟩
    · rename_i hw
      refine ⟨h, fun q hq => ?_⟩
      rw [hr] at hq
      cases hq
      simpa using hw
  · rename_i hn
    exact ⟨h, fun q hq => by simp [hn] at hq⟩

/-! ### Trips, resumes and departures -/

theorem RequestAccounted.enterFrozen (h : RequestAccounted s) : RequestAccounted (enterFrozen s) := by
  obtain ⟨accounted, none⟩ := h.faultWaiting .frozen
  exact accounted.frame (.inr none) (by simp [Machine.enterFrozen]) (by simp [Machine.enterFrozen])

theorem RequestAccounted.takeTrip (h : RequestAccounted s) : RequestAccounted (takeTrip s) := by
  unfold Machine.takeTrip
  split
  case h_5 | h_6 | h_7 => exact h
  all_goals
    split
    · exact h.enterFrozen
    · exact h.frame

theorem RequestAccounted.startFilter (h : RequestAccounted s) : RequestAccounted (startFilter s) := by
  unfold Machine.startFilter
  split
  · exact h.takeTrip
  · exact h.frame

theorem RequestAccounted.enterArmed (h : RequestAccounted s) : RequestAccounted (enterArmed s) := by
  unfold Machine.enterArmed
  dsimp only
  split
  · exact RequestAccounted.startFilter h.frame
  · exact h.frame

/-- A resume finds no request waiting: FROZEN faults every request (R105, R124). -/
theorem RequestAccounted.resumeBridge (h : RequestAccounted s) (hs : s.bridge.state = .frozen) :
    RequestAccounted (resumeBridge s) := by
  have none : NoneWaiting s := noneWaiting_elsewhere h (by simp [hs]) (by simp [hs])
  unfold Machine.resumeBridge
  split
  · exact RequestAccounted.enterArmed (h.frame (.inr none))
  · exact h

theorem RequestAccounted.autoResume (h : RequestAccounted s) : RequestAccounted (autoResume s) := by
  unfold Machine.autoResume
  split
  · rename_i hd
    simp only [autoResumeDue, Bool.and_eq_true, decide_eq_true_eq] at hd
    exact h.resumeBridge hd.1.1.1
  · exact h

theorem RequestAccounted.departHead (h : RequestAccounted s) : RequestAccounted (departHead s) := by
  have left : RequestAccounted { s with buffer := bufferFrom s.buffer.entries.tail } := h.frame
  have released : RequestAccounted (releaseDeparture { s with buffer := bufferFrom s.buffer.entries.tail }) :=
    (left.releaseHeld .bufferFull).releaseReadWait
  exact RequestAccounted.autoResume released.frame

theorem RequestAccounted.lineAsserted (h : RequestAccounted s) : RequestAccounted (lineAsserted s) := by
  unfold Machine.lineAsserted
  split
  · refine h.frame (hp := ?_)
    cases hport : s.port with
    | none => simp [stopDelay, abandonAnchorRead, hport]
    | some t => by_cases hu : t.purpose = .anchorRead <;> simp [stopDelay, abandonAnchorRead, hport, hu]
  · exact h.startFilter
  all_goals exact h.frame

theorem RequestAccounted.itemEffect (h : RequestAccounted s) (item : Nat) : RequestAccounted (itemEffect s item) := by
  unfold Machine.itemEffect
  split
  · split
    · exact h.enterArmed
    · exact h
  · exact h.autoResume
  · exact h

/-! ### The engine -/

theorem RequestAccounted.reportRecovery (h : RequestAccounted s) : RequestAccounted (reportRecovery s) := by
  unfold Machine.reportRecovery
  split
  · rename_i hs
    exact h.frame (.inr (noneWaiting_elsewhere h (by simp [hs]) (by simp [hs])))
  · exact h

theorem RequestAccounted.endScan (h : RequestAccounted s) : RequestAccounted (endScan s) := by
  have listed : RequestAccounted { s with engine := { s.engine with
      lastSequence := largestSequence s.engine, applyList := liveSlots s.engine } } := h.frame
  unfold Machine.endScan
  dsimp only
  split
  · exact listed.reportRecovery
  · exact listed.frame

theorem RequestAccounted.scanWord (h : RequestAccounted s) (w : Word) : RequestAccounted (scanWord s w) := by
  unfold Machine.scanWord
  split
  · rename_i sl _
    dsimp only
    split
    · exact h.frame
    · have built : RequestAccounted { s with engine := { setImage s.engine sl (imageOf (s.engine.scanWords ++ [w])) with
          scanWords := [], pos := { s.engine.pos with slotIndex := s.engine.pos.slotIndex + 1 } } } := h.frame
      split
      · exact built
      · exact built.endScan
  · exact h

theorem RequestAccounted.recoveryRetired (h : RequestAccounted s) : RequestAccounted (recoveryRetired s) := by
  have moved : RequestAccounted (setPos s { s.engine.pos with slotIndex := s.engine.pos.slotIndex + 1 }) := h.frame
  unfold Machine.recoveryRetired
  dsimp only
  split
  · exact moved
  · exact moved.reportRecovery

theorem RequestAccounted.formatWritten (h : RequestAccounted s) (hs : s.bridge.state = .formatting) :
    RequestAccounted (formatWritten s) :=
  h.frame (.inr (noneWaiting_elsewhere h (by simp [hs]) (by simp [hs])))

theorem RequestAccounted.retireCommit (h : RequestAccounted s) : RequestAccounted (retireCommit s) := by
  have retired : RequestAccounted { s.retireClaim with
      engine := { s.retireClaim.engine with record := none, stage := .idle, pos := .start } } := h.frame
  exact retired.releaseHeld .record

theorem RequestAccounted.judgeAnchor (h : RequestAccounted s) (hs : s.bridge.state = .starting) (ws : List Word) :
    RequestAccounted (judgeAnchor s ws) := by
  have none : NoneWaiting s := noneWaiting_elsewhere h (by simp [hs]) (by simp [hs])
  unfold Machine.judgeAnchor
  dsimp only
  split
  all_goals exact RequestAccounted.enterArmed (h.frame (.inr none))

/-! ### Resets, FORMAT and ABORT -/

theorem RequestAccounted.enterResetting (h : RequestAccounted s) : RequestAccounted (enterResetting s) := by
  obtain ⟨accounted, none⟩ := h.faultWaiting .notReady
  unfold Machine.enterResetting
  split
  · exact h
  · refine accounted.frame (.inr none) ?_ (by simp)
    simp only [abandonAnchorRead, faultWaiting_frame]
    cases hport : s.port with
    | none => rfl
    | some t => by_cases hu : t.purpose = .anchorRead <;> simp [hu]

theorem RequestAccounted.enterStarting (h : RequestAccounted s) (hs : s.bridge.state = .resetting) :
    RequestAccounted (enterStarting s) :=
  h.frame (.inr (noneWaiting_elsewhere h (by simp [hs]) (by simp [hs])))

/-- At the warm-reset point no request is held, so that no hold timer runs (R18, R124). -/
theorem RequestAccounted.warmResetState (h : RequestAccounted s) (hs : s.bridge.state = .resetting) :
    RequestAccounted (warmResetState s) := by
  have none : NoneWaiting s := noneWaiting_elsewhere h (by simp [hs]) (by simp [hs])
  have stopped : s.host.holdTimer = Option.none := by
    by_contra hn
    obtain ⟨r, w, hr, hp⟩ := h.timer.mp (Option.isSome_iff_ne_none.mpr hn)
    simpa [hp, HostPhase.waiting] using none r hr
  exact h.frame (.inl rfl) (by simp) ⟨by simp, by simp [Machine.warmResetState, stopped]⟩

theorem RequestAccounted.enterFormatting (h : RequestAccounted s) (frames : Nat) :
    RequestAccounted (enterFormatting s frames) := by
  obtain ⟨accounted, none⟩ := h.faultWaiting .notReady
  unfold Machine.enterFormatting
  exact accounted.frame (.inr none)

theorem RequestAccounted.abortHost (h : RequestAccounted s) (c : ContextId) (removed : List MapEntry) (freed : Bool) :
    RequestAccounted (abortHost s c removed freed) := by
  unfold Machine.abortHost
  split
  · exact h
  · rename_i r hr
    have waits (w : r.phase.waiting = true) := h.served r hr w
    split
    case h_1 =>
      split
      · exact h.releaseHeld .bufferFull
      · exact h
    case h_2 hp =>
      have idle := not_reading_of_phase h hr (by simp [hp])
      split
      · exact completeFault_accounted idle _ _
      · split
        · split
          · exact h
          · exact requestAccounted_of_waiting rfl rfl (by simp [Machine.grantRead])
              (waits (by simp [hp, HostPhase.waiting])) idle fun _ => ⟨rfl, ((h.settled r hr).2 (.inr hp)).2⟩
        · exact h
    case h_3 hp =>
      split
      · exact completeFault_accounted (not_reading_of_phase h hr (by simp [hp])) _ _
      · exact h
    all_goals exact h

theorem RequestAccounted.abortContext (h : RequestAccounted s) (c : ContextId) : RequestAccounted (abortContext s c) := by
  unfold Machine.abortContext
  refine RequestAccounted.abortHost ?_ _ _ _
  exact h.frame

/-! ### Transfers -/

theorem stageTransfer_purpose {t : Transfer} (h : stageTransfer s = some t) : t.purpose ≠ .hostRead := by
  unfold stageTransfer blockTransfer retireTransfer scanTransfer at h
  revert h
  repeat' split
  all_goals
    simp only [Option.map_eq_some_iff, reduceCtorEq, false_implies]
    try
      rintro ⟨x, -, rfl⟩
      simp [readTransfer, writeTransfer]

theorem engineAsks_purpose {t : Transfer} (h : engineAsks s = some t) : t.purpose ≠ .hostRead := by
  unfold engineAsks at h
  split at h
  · obtain ⟨ws, -, rfl⟩ := Option.map_eq_some_iff.mp h
    simp [readTransfer]
  · split at h
    · exact stageTransfer_purpose h
    · cases h

theorem drainAsks_purpose {t : Transfer} (h : drainAsks s = some t) : t.purpose ≠ .hostRead := by
  unfold drainAsks at h
  split at h
  · obtain rfl := Option.some.inj h
    split <;> simp [readTransfer, writeTransfer]
  · cases h

/-- The read path asks for the word of a request in READ_GRANT (R137). -/
theorem readAsks_eq_some {t : Transfer} (h : readAsks s = some t) :
    ∃ r, s.host.outstanding = some r ∧ r.phase = .readGrant ∧ t.purpose = .hostRead := by
  unfold readAsks at h
  split at h
  · rename_i r hr
    split at h
    · obtain ⟨a, -, rfl⟩ := Option.map_eq_some_iff.mp h
      exact ⟨r, hr, ‹_›, rfl⟩
    · cases h
  · cases h

/-- A decision grants what one of the three clients asks for (R137, R138). -/
theorem decideGrant_asks {g : Grant} (h : decideGrant s = some g) :
    match g with
    | .drain t => drainAsks s = some t
    | .read t => readAsks s = some t
    | .engine t => engineAsks s = some t := by
  unfold decideGrant at h
  split at h
  · obtain ⟨d, hd, rfl⟩ := Option.map_eq_some_iff.mp h
    exact hd
  · cases hd : drainAsks s <;> cases hr : readAsks s <;> cases he : engineAsks s <;> simp only [hd, hr, he] at h <;> grind

/-- A grant begins a host read exactly when it puts the request in READ_TRANSFER (R115, R135). -/
theorem RequestAccounted.beginTransfer (h : RequestAccounted s) (hn : s.port = none) {g : Grant}
    (hg : decideGrant s = some g) : RequestAccounted (beginTransfer s g) := by
  have hasks := decideGrant_asks hg
  have idle : ∀ r, s.host.outstanding = some r → r.phase ≠ .readTransfer := fun r hr hp => by
    simpa [hn] using h.transfer.mp ⟨r, hr, hp⟩
  have other {t : Transfer} {u : State} (ht : t.purpose ≠ .hostRead) (hu : u.port = some t) (hh : u.host = s.host)
      (hb : u.bridge = s.bridge) : RequestAccounted u := by
    refine ⟨by rw [hh]; exact h.timer, by rw [hh, hb]; exact h.served, ?_, by rw [hh]; exact h.settled⟩
    rw [hh, hu]
    exact ⟨fun ⟨r, hr, hp⟩ => absurd hp (idle r hr), fun hp => absurd (Option.some.inj hp) ht⟩
  cases g with
  | drain t => exact other (drainAsks_purpose hasks) rfl rfl rfl
  | engine t => exact other (engineAsks_purpose hasks) rfl rfl rfl
  | read t =>
    obtain ⟨r, hr, hp, hu⟩ := readAsks_eq_some hasks
    have stopped : ¬ s.host.holdTimer.isSome = true := fun ht => by
      obtain ⟨q, w, hq, hheld⟩ := h.timer.mp ht
      rw [hr] at hq
      cases hq
      simp [hp] at hheld
    refine ⟨?_, ?_, ?_, ?_⟩
    · simpa [Machine.beginTransfer, hr] using stopped
    · simp [Machine.beginTransfer, hr, HostPhase.waiting]
    · simp [Machine.beginTransfer, hr, hu]
    · simp [Machine.beginTransfer, hr]

/-- The completion of any transfer but a host read finds no request in READ_TRANSFER (R115). -/
theorem RequestAccounted.completeTransfer (h : RequestAccounted s) {t : Transfer} (ht : s.port = some t)
    (hu : t.purpose ≠ .hostRead) : RequestAccounted (completeTransfer s t) := by
  have idle : ∀ r, s.host.outstanding = some r → r.phase ≠ .readTransfer := fun r hr hp => by
    have := h.transfer.mp ⟨r, hr, hp⟩
    simp [ht, hu] at this
  refine ⟨h.timer, h.served, ⟨fun ⟨r, hr, hp⟩ => absurd hp (idle r hr), fun hp => ?_⟩, h.settled⟩
  simp at hp

/-- The completion of a host read ends the request it is for (R115). -/
theorem RequestAccounted.hostReadComplete (h : RequestAccounted s) {t : Transfer} (ht : s.port = some t)
    (hu : t.purpose = .hostRead) (w : Word) : RequestAccounted
      (match (Machine.completeTransfer s t).host.outstanding with
       | some r => if r.phase = .readTransfer then completeDone (Machine.completeTransfer s t) r w
                   else Machine.completeTransfer s t
       | none => Machine.completeTransfer s t) := by
  obtain ⟨r, hr, hp⟩ := h.transfer.mpr (by simp [ht, hu])
  simp only [completeTransfer_frame, hr, hp, if_true]
  exact completeHost_accounted (by simp [ReadInProgress]) _ _ _

/-! ### The commands -/

theorem RequestAccounted.whenPowered {f : State → State} (h : RequestAccounted s) (hf : RequestAccounted (f s)) :
    RequestAccounted (whenPowered s f) :=
  whenPowered_induct h fun _ => hf

theorem RequestAccounted.decodeCommand {code : Byte} {args : List Byte} {f : State → Answer} (h : RequestAccounted s)
    (hf : RequestAccounted (f s).state) : RequestAccounted (decodeCommand s code args f) :=
  decodeCommand_induct (fun _ _ h => h.frame) h fun _ => hf

theorem RequestAccounted.contextCommand {c : Byte} {f : ContextId → Answer} (h : RequestAccounted s)
    (hf : ∀ k, RequestAccounted (f k).state) : RequestAccounted (contextCommand s c f).state := by
  rcases contextCommand_cases s c f with ⟨_, k, _, e⟩ | e <;> rw [e]
  · exact hf k
  · exact h

theorem RequestAccounted.onCompletion {p : Purpose} {f : Transfer → Word → State → State} (h : RequestAccounted s)
    (hp : p ≠ .hostRead) (hf : ∀ t w u, RequestAccounted u → RequestAccounted (f t w u)) :
    RequestAccounted (onCompletion s p f) :=
  onCompletion_induct h fun t w _ ht hu => hf t w _ (h.completeTransfer ht (hu ▸ hp))

theorem RequestAccounted.onEngineCompletion {p : Purpose} {st : Stage} {o : TakenOrder} {f : Word → State → State}
    (h : RequestAccounted s) (hp : p ≠ .hostRead) (hf : ∀ w u, RequestAccounted u → RequestAccounted (f w u)) :
    RequestAccounted (onEngineCompletion s p st o f) := by
  refine h.onCompletion hp fun t w u hu => RequestAccounted.autoResume ?_
  have effect : RequestAccounted (if engineCounts u o = true ∧ u.engine.stage = st then f w u else u) := by
    split
    · exact hf w u hu
    · exact hu
  exact effect.frame

end

theorem RequestAccounted.exec {c : Instr} {s t : State} (h : RequestAccounted s) (he : exec c s = .next t) :
    RequestAccounted t := by
  cases c
  all_goals obtain rfl : _ = t := Host.Outcome.next.inj he
  case powerOnReset pins =>
    have on : RequestAccounted (powerOnState s pins) := requestAccounted_of_none rfl rfl nofun
    dsimp only
    split
    · exact on
    · exact on.enterResetting
  case powerLoss =>
    refine h.whenPowered ?_
    repeat' split
    all_goals exact requestAccounted_of_none rfl rfl nofun
  case warmResetPoint =>
    refine h.whenPowered ?_
    split
    · rename_i hw
      have warm := h.warmResetState hw.1
      dsimp only
      split
      · exact warm.enterStarting hw.1
      · exact warm
    · exact h
  case rstNFall =>
    refine h.whenPowered ?_
    split
    · exact RequestAccounted.enterResetting h.frame
    · exact h
  case rstNRise =>
    have raised : RequestAccounted { s with bridge := { s.bridge with rstN := true } } := h.frame
    refine h.whenPowered ?_
    dsimp only
    repeat' split
    · exact h
    · rename_i hw
      exact raised.enterStarting hw.1
    · exact raised
  case restart => exact h.decodeCommand h.enterResetting
  case supplyFallAssert =>
    refine h.whenPowered ?_
    split
    · exact h
    · exact RequestAccounted.lineAsserted h.frame
  case trip =>
    refine h.whenPowered ?_
    split
    · exact h.takeTrip
    · exact h
  case rearmDelayMet =>
    refine h.whenPowered ?_
    split
    · exact h.enterArmed
    · exact h
  case resumeDelayMet =>
    refine h.whenPowered ?_
    split
    · exact RequestAccounted.autoResume h.frame
    · exact h
  case holdTimeout =>
    refine h.whenPowered ?_
    split
    · rename_i r hr
      split
      · rename_i hheld
        refine completeFault_accounted (not_reading_of_phase h hr fun hp => ?_) _ _
        simp [hp, HostPhase.isHeld] at hheld
      · exact h
    · exact h
  case arrayGrant =>
    refine h.whenPowered ?_
    split
    · exact h.beginTransfer ‹_› ‹_›
    · exact h
  case supplyFallDeassert | gateOpen | hreqFall | takeWork | frameStart | frameEnd | badCommand | byteComplete =>
    refine h.whenPowered ?_
    repeat' split
    all_goals exact h.frame
  case status | readContext | lookup | readEvents | readFaults | getConfig | getRegion | setRegion | clearFaults =>
    refine h.decodeCommand ?_
    repeat' split
    all_goals exact h.frame
  case resume =>
    refine h.decodeCommand ?_
    split
    · rename_i hs
      exact h.resumeBridge hs.1
    · exact h
  case setConfig item value =>
    refine h.decodeCommand ?_
    split
    · exact h
    · exact RequestAccounted.itemEffect h.frame _
  case format frames =>
    refine h.decodeCommand ?_
    repeat' split
    · exact h.enterFormatting _
    all_goals exact h
  case openContext c | commit c =>
    refine h.decodeCommand (h.contextCommand fun k => ?_)
    repeat' split
    all_goals exact h.frame
  case abort c =>
    refine h.decodeCommand (h.contextCommand fun k => ?_)
    split
    case h_4 | h_5 => exact h
    all_goals exact h.abortContext k
  case hostRequest addr tag op =>
    have raised : RequestAccounted { s with host := { s.host with hreq := true } } := h.frame
    refine h.whenPowered ?_
    dsimp only
    split
    · exact h
    · split
      · exact raised
      · rename_i hout
        refine classifyRequest_accounted (fun hp => hout ?_) _
        obtain ⟨r, hr, -⟩ := raised.transfer.mpr hp
        exact Option.isSome_iff_exists.mpr ⟨r, hr⟩
  case hostReadComplete =>
    exact onCompletion_induct h fun t w _ ht hu => (h.hostReadComplete ht hu w).autoResume
  case fillRead | fillWrite =>
    refine h.onCompletion (by decide) fun t w u hu => ?_
    repeat' split
    all_goals exact hu.frame
  case drainWrite => exact h.onCompletion (by decide) fun t w u hu => hu.departHead
  case anchorRead =>
    refine h.onCompletion (by decide) fun t w u hu => ?_
    dsimp only
    repeat' split
    case h_1.isFalse.isFalse hstate _ => exact hu.judgeAnchor (by simp at hstate; exact hstate.2) _
    all_goals exact hu.frame
  case sumRead | journalWrite | markWrite | copyRead | applyCopyRead | copyWrite | verifyRead | applyCopyWrite =>
    exact h.onEngineCompletion (by decide) fun w u hu => hu.frame
  case retireWrite => exact h.onEngineCompletion (by decide) fun w u hu => hu.retireCommit
  case scanRead => exact h.onEngineCompletion (by decide) fun w u hu => hu.scanWord w
  case recoveryRetireWrite => exact h.onEngineCompletion (by decide) fun w u hu => hu.recoveryRetired
  case formatWrite =>
    refine h.onEngineCompletion (by decide) fun w u hu => ?_
    split
    · exact hu.formatWritten ‹_›
    · exact hu

theorem step_keeps_request {s t : State} (h : RequestAccounted s) (hs : step s = .next t) : RequestAccounted t :=
  step_induct (P := RequestAccounted) (fun _ _ h => h.frame) (fun _ _ _ h he => h.exec he) h hs

end Sys2Proof.Machine
end

section
/-! SUPPORT. The bridge state against the monitor phase, the return state, the geometry and the pause, through every
command (R3, R4, R5, R78, R143), and O60. -/

namespace Sys2Proof.Machine.Invariants

-- One proof at a time: each proof run beside the others takes a thread, and its stack counts against the memory
-- limit of the check.
set_option Elab.async false

/-! ### The invariant -/

/-- What the first part of O60 keeps. -/
structure Consistent (s : State) : Prop where
  bridge : BridgeConsistent s
  geometry : GeometryAcceptable s

/-- What a bridge state in which trips are taken asks of the geometry (R3, R4, R7, R10). -/
structure GeometryFits (b : BridgeState) (g : Option Geometry) : Prop where
  present : b = .recovering ∨ b = .serving → g.isSome = true
  absent : b = .unformatted → g = none
  acceptable : ∀ x, g = some x → x.acceptable

/-- What FORMATTING asks of the engine (R14). -/
def FormatFits (s : State) : Prop :=
  s.engine.stage = .format ∧ ∃ f, s.engine.formatFrames = some f ∧ frameCountAcceptable s.bridge.strapPages f = true

section
variable {s t : State}

theorem Consistent.geometryFits (h : Consistent s) : GeometryFits s.activeState s.bridge.geometry :=
  ⟨h.bridge.present, fun hu => h.bridge.absent (.inr (.inl hu)), h.geometry.geometry⟩

/-- The engine is in no stage but its FORMAT stage while the bridge is FORMATTING. -/
theorem Consistent.not_formatting (h : Consistent s) (hs : s.engine.stage ≠ .format) : s.activeState ≠ .formatting :=
  fun ha => hs (h.geometry.format ha).1

/-- What the agreement does not look at may change; the stage too, but in FORMATTING. -/
theorem Consistent.frame (h : Consistent s)
    (hf : (t.engine.stage = s.engine.stage ∧ t.engine.formatFrames = s.engine.formatFrames) ∨
      s.activeState ≠ .formatting := by exact .inl (by simp))
    (hb : t.bridge.state = s.bridge.state ∧ t.bridge.returnState = s.bridge.returnState ∧
      t.bridge.geometry = s.bridge.geometry ∧ t.bridge.warmPointPassed = s.bridge.warmPointPassed ∧
      t.bridge.strapPages = s.bridge.strapPages := by simp)
    (hm : t.monitor.phase = s.monitor.phase := by simp) (hp : t.engine.pause = s.engine.pause := by simp) :
    Consistent t := by
  obtain ⟨hstate, hreturn, hgeometry, hwarm, hstrap⟩ := hb
  have hactive : t.activeState = s.activeState := by rw [State.activeState, State.activeState, hreturn, hstate]
  obtain ⟨⟨b1, b2, b3, b4, b5, b6, b7, b8, b9⟩, ⟨g1, g2⟩⟩ := h
  refine ⟨⟨?_, ?_, ?_, ?_, ?_, ?_, ?_, ?_, ?_⟩, ⟨by rwa [hgeometry], fun ha => ?_⟩⟩
  case refine_10 =>
    rw [hactive] at ha
    rcases hf with ⟨hstage, hframes⟩ | hf
    · rw [hstage, hframes, hstrap]; exact g2 ha
    · exact absurd ha hf
  all_goals simpa only [hstate, hreturn, hgeometry, hwarm, hactive, hm, hp]

/-- In a bridge state that takes trips no return state is present, the monitor is ARMED or REPORTED, and the engine is not
paused (R5, R78, R143). -/
theorem Consistent.of_trippable (hs : t.bridge.state.trippable = true) (hr : t.bridge.returnState = none)
    (hm : t.monitor.phase = .armed ∨ t.monitor.phase = .reported) (hp : t.engine.pause = .running)
    (hg : GeometryFits t.bridge.state t.bridge.geometry) (hf : t.bridge.state = .formatting → FormatFits t) :
    Consistent t := by
  have hactive : t.activeState = t.bridge.state := by simp [State.activeState, hr]
  have hstate : t.bridge.state ≠ .starting ∧ t.bridge.state ≠ .frozen ∧ t.bridge.state ≠ .resetting := by
    refine ⟨?_, ?_, ?_⟩ <;> intro he <;> simp [he, BridgeState.trippable] at hs
  obtain ⟨hstarting, hfrozen, hresetting⟩ := hstate
  refine ⟨⟨?_, ?_, ?_, ?_, by simp [hr], ?_, ?_, by simp [hfrozen], by simp [hp]⟩, ⟨hg.acceptable, ?_⟩⟩
  · rcases hm with hm | hm <;> simp [hm, hstarting]
  · rcases hm with hm | hm <;> simp [hm, hfrozen]
  · rcases hm with hm | hm <;> simp [hm, hresetting]
  · simp [hr, hfrozen]
  · rw [hactive]; exact hg.present
  · rw [hactive]
    rintro (he | he | he)
    · exact absurd he hstarting
    · exact hg.absent he
    · exact absurd he.1 hresetting
  · rw [hactive]; exact hf

theorem Consistent.returnState_none (h : Consistent s) (hs : s.bridge.state ≠ .frozen) : s.bridge.returnState = none := by
  simpa [hs] using h.bridge.frozen

theorem Consistent.activeState_eq (h : Consistent s) (hs : s.bridge.state ≠ .frozen) : s.activeState = s.bridge.state := by
  simp [State.activeState, h.returnState_none hs]

theorem trippable_not_frozen (hs : s.bridge.state.trippable = true) : s.bridge.state ≠ .frozen := by
  rintro he
  simp [he, BridgeState.trippable] at hs

theorem Consistent.phase_of_trippable (h : Consistent s) (hs : s.bridge.state.trippable = true) :
    s.monitor.phase = .armed ∨ s.monitor.phase = .reported := by
  have hgating := h.bridge.gating
  have hwait := h.bridge.resumeWait
  have hignoring := h.bridge.ignoring
  cases hb : s.bridge.state <;> cases hp : s.monitor.phase <;> simp_all [BridgeState.trippable]

theorem Consistent.trippable_of_phase (h : Consistent s) (hp : s.monitor.phase = .armed ∨ s.monitor.phase = .reported) :
    s.bridge.state.trippable = true := by
  have hgating := h.bridge.gating
  have hwait := h.bridge.resumeWait
  have hignoring := h.bridge.ignoring
  cases hb : s.bridge.state <;> rcases hp with hp | hp <;> simp_all [BridgeState.trippable]

theorem Consistent.running_of_trippable (h : Consistent s) (hs : s.bridge.state.trippable = true) :
    s.engine.pause = .running := by
  by_contra hp
  rcases h.bridge.runsElsewhere hp with hb | ⟨hb, -⟩ <;> simp [hb, BridgeState.trippable] at hs

/-- A change of the monitor alone, between ARMED and REPORTED. -/
theorem Consistent.rearm (h : Consistent s) (hs : s.bridge.state.trippable = true)
    (hm : t.monitor.phase = .armed ∨ t.monitor.phase = .reported) (hb : t.bridge = s.bridge := by simp)
    (he : t.engine = s.engine := by simp) : Consistent t := by
  have hactive := h.activeState_eq (trippable_not_frozen hs)
  refine .of_trippable (by rwa [hb]) (by rw [hb]; exact h.returnState_none (trippable_not_frozen hs)) hm
    (by rw [he]; exact h.running_of_trippable hs) ?_ ?_
  · rw [hb, ← hactive]; exact h.geometryFits
  · rw [FormatFits, hb, he, ← hactive]; exact h.geometry.format

/-- One state that takes trips follows another. -/
theorem Consistent.move (h : Consistent s) (hs : s.bridge.state.trippable = true) (ht : t.bridge.state.trippable = true)
    (hg : GeometryFits t.bridge.state t.bridge.geometry) (hf : t.bridge.state = .formatting → FormatFits t)
    (hr : t.bridge.returnState = s.bridge.returnState := by simp) (hm : t.monitor.phase = s.monitor.phase := by simp)
    (hp : t.engine.pause = s.engine.pause := by simp) : Consistent t :=
  .of_trippable ht (hr.trans (h.returnState_none (trippable_not_frozen hs)))
    (by rw [hm]; exact h.phase_of_trippable hs) (hp.trans (h.running_of_trippable hs)) hg hf

/-! ### Trips and resumes -/

/-- FROZEN keeps the state it left as return state (R146). -/
theorem Consistent.enterFrozen (h : Consistent s) (hs : s.bridge.state.trippable = true) : Consistent (enterFrozen s) := by
  have hactive := h.activeState_eq (trippable_not_frozen hs)
  have entered : (Machine.enterFrozen s).bridge.state = .frozen ∧
      (Machine.enterFrozen s).bridge.returnState = some s.bridge.state ∧
      (Machine.enterFrozen s).monitor.phase = .resumeWait ∧ (Machine.enterFrozen s).engine.pause ≠ .running := by
    refine ⟨by simp [Machine.enterFrozen], by simp [Machine.enterFrozen], by simp [Machine.enterFrozen], ?_⟩
    simp only [Machine.enterFrozen, startDelay_frame, pushEvent_frame]
    split <;> simp
  have kept : (Machine.enterFrozen s).activeState = s.activeState := by
    rw [State.activeState, entered.2.1, hactive]; rfl
  obtain ⟨hstate, hreturn, hphase, hpause⟩ := entered
  have hresetting : s.activeState ≠ .resetting := by
    rw [hactive]; rintro he; simp [he, BridgeState.trippable] at hs
  refine ⟨⟨by simp [hphase, hstate], by simp [hphase, hstate], by simp [hphase, hstate], by simp [hreturn, hstate],
    ?_, ?_, ?_, fun _ => hpause, fun _ => .inl hstate⟩, ⟨?_, ?_⟩⟩
  · rw [hreturn]; rintro _ ⟨⟩; exact hs
  · rw [kept]; simpa using h.bridge.present
  · rw [kept]
    rintro (he | he | he)
    · simpa using h.bridge.absent (.inl he)
    · simpa using h.bridge.absent (.inr (.inl he))
    · exact absurd he.1 hresetting
  · simpa using h.geometry.geometry
  · rw [kept]; simpa using h.geometry.format

theorem Consistent.takeTrip (h : Consistent s) : Consistent (takeTrip s) := by
  unfold Machine.takeTrip
  split
  case h_5 | h_6 | h_7 => exact h
  all_goals
    rename_i hs
    have trips : s.bridge.state.trippable = true := by rw [hs]; rfl
    split
    · exact h.enterFrozen trips
    · exact h.rearm trips (.inr (by simp [reportSupplyLow])) (by simp) (by simp)

theorem Consistent.startFilter (h : Consistent s) : Consistent (startFilter s) := by
  unfold Machine.startFilter
  split
  · exact h.takeTrip
  · exact h.frame

theorem Consistent.enterArmed (h : Consistent (armedIdle s)) : Consistent (enterArmed s) := by
  unfold Machine.enterArmed
  dsimp only
  split
  · exact Consistent.startFilter h
  · exact h

theorem restartStage_format (hs : s.bridge.state = .formatting) :
    (restartStage s).engine.stage = s.engine.stage ∧
      (restartStage s).engine.formatFrames = s.engine.formatFrames := by
  simp [restartStage, hs]

/-- A resume gives the bridge the state and the engine the stage it was paused in (R153). -/
theorem Consistent.resumeBridge (h : Consistent s) : Consistent (resumeBridge s) := by
  unfold Machine.resumeBridge
  split
  · rename_i r hr
    have hactive : s.activeState = r := by simp [State.activeState, hr]
    refine Consistent.enterArmed (.of_trippable ?_ (by simp [armedIdle]) (.inl rfl) (by simp [armedIdle]) ?_ ?_)
    · simpa [armedIdle] using h.bridge.returnState r hr
    · simpa [armedIdle, hactive] using h.geometryFits
    · intro hf
      have hf : r = .formatting := by simpa [armedIdle] using hf
      have fits := h.geometry.format (hactive.trans hf)
      simpa [FormatFits, armedIdle, restartStage_format, hf] using fits
  · exact h

theorem Consistent.autoResume (h : Consistent s) : Consistent (autoResume s) := by
  unfold Machine.autoResume
  split
  · exact h.resumeBridge
  · exact h

theorem Consistent.lineAsserted (h : Consistent s) : Consistent (lineAsserted s) := by
  unfold Machine.lineAsserted
  split
  · exact h.frame
  · exact h.startFilter
  all_goals exact h.frame

theorem Consistent.rearmed (h : Consistent s) (hp : s.monitor.phase = .reported) : Consistent (Machine.enterArmed s) :=
  .enterArmed (h.rearm (h.trippable_of_phase (.inr hp)) (.inl rfl) rfl rfl)

theorem Consistent.itemEffect (h : Consistent s) (item : Nat) : Consistent (itemEffect s item) := by
  unfold Machine.itemEffect
  split
  · split
    · rename_i hc
      exact h.rearmed hc.1
    · exact h
  · exact h.autoResume
  · exact h

/-- In FROZEN an engine that has been paused is not running (R78). -/
theorem Consistent.takePause (h : Consistent s) : Consistent (takePause s) := by
  unfold Machine.takePause
  split
  · rename_i hs
    obtain ⟨⟨b1, b2, b3, b4, b5, b6, b7, -, -⟩, ⟨g1, g2⟩⟩ := h
    exact ⟨⟨b1, b2, b3, b4, b5, b6, b7, fun _ => nofun, fun _ => .inl hs⟩, ⟨g1, g2⟩⟩
  · exact h

/-! ### The engine -/

/-- DRAIN and SUM are stages of a commit. -/
theorem Consistent.endDrain (h : Consistent s) : Consistent (endDrain s) := by
  unfold Machine.endDrain
  split
  · split
    · rename_i hc
      simp only [Bool.and_eq_true, decide_eq_true_eq] at hc
      exact h.frame (.inr (h.not_formatting (by simp [hc.1.1])))
    · exact h
  · exact h

/-- Recovery ends in SERVING with the geometry it had (R12, R95). -/
theorem Consistent.reportRecovery (h : Consistent s) : Consistent (reportRecovery s) := by
  unfold Machine.reportRecovery
  split
  · rename_i hs
    have fits := h.geometryFits
    rw [h.activeState_eq (by simp [hs]), hs] at fits
    exact h.move (by rw [hs]; rfl) (by simp [BridgeState.trippable])
      ⟨fun _ => by simpa using fits.present (.inl rfl), by simp, by simpa using fits.acceptable⟩ (by simp)
  · exact h

theorem Consistent.endScan (h : Consistent s) (hs : s.engine.stage = .scan) : Consistent (endScan s) := by
  have listed : Consistent { s with engine := { s.engine with
      lastSequence := largestSequence s.engine, applyList := liveSlots s.engine } } := h.frame
  unfold Machine.endScan
  dsimp only
  split
  · exact listed.reportRecovery
  · exact listed.frame (.inr (listed.not_formatting (by simp [hs])))

theorem Consistent.scanWord (h : Consistent s) (hs : s.engine.stage = .scan) (w : Word) : Consistent (scanWord s w) := by
  unfold Machine.scanWord
  split
  · rename_i sl _
    dsimp only
    split
    · exact h.frame
    · have built : Consistent { s with engine := { setImage s.engine sl (imageOf (s.engine.scanWords ++ [w])) with
          scanWords := [], pos := { s.engine.pos with slotIndex := s.engine.pos.slotIndex + 1 } } } := h.frame
      split
      · exact built
      · exact built.endScan (by simpa using hs)
  · exact h

theorem Consistent.recoveryRetired (h : Consistent s) : Consistent (recoveryRetired s) := by
  have moved : Consistent (setPos s { s.engine.pos with slotIndex := s.engine.pos.slotIndex + 1 }) := h.frame
  unfold Machine.recoveryRetired
  dsimp only
  split
  · exact moved
  · exact moved.reportRecovery

/-- A geometry of an acceptable frame count is acceptable (R3, R4). -/
theorem geometryOf_acceptable {pages frames : Nat} (h : frameCountAcceptable pages frames = true) :
    (geometryOf pages frames).acceptable := by
  simp only [frameCountAcceptable, decide_eq_true_eq] at h
  simp only [Geometry.acceptable, geometryOf]
  omega

/-- FORMAT ends in SERVING with the geometry of its frame count (R15). -/
theorem Consistent.formatWritten (h : Consistent s) (hs : s.bridge.state = .formatting) : Consistent (formatWritten s) := by
  obtain ⟨-, f, hf, hok⟩ := h.geometry.format ((h.activeState_eq (by simp [hs])).trans hs)
  unfold Machine.formatWritten
  split
  · exact h.frame
  · split
    · exact h.frame
    · have finished : (finishFormat s).bridge.state = .serving ∧
          (finishFormat s).bridge.geometry = some (geometryOf s.bridge.strapPages f) := by
        simp [finishFormat, hf]
      obtain ⟨hstate, hgeometry⟩ := finished
      refine h.move (by rw [hs]; rfl) (by rw [hstate]; rfl) ?_ (by simp [hstate])
      rw [hstate, hgeometry]
      exact ⟨fun _ => rfl, nofun, fun _ hg => Option.some.inj hg ▸ geometryOf_acceptable hok⟩

/-- The anchor test accepts an acceptable geometry of the strap size alone (R7). -/
theorem testAnchor_valid {pages : Nat} {ws : List Word} {g : Geometry} (h : testAnchor pages ws = .valid g) :
    g.arrayPages = pages ∧ g.acceptable := by
  unfold testAnchor at h
  dsimp only at h
  split at h
  · cases h
  · split at h
    · cases h
    · split at h
      · obtain rfl := AnchorVerdict.valid.inj h
        simp only [Geometry.acceptable]
        omega
      · cases h

/-- The test of the anchor ends STARTING, in which the geometry is absent and the engine runs (R10). -/
theorem Consistent.judgeAnchor (h : Consistent s) (hs : s.bridge.state = .starting) (ws : List Word) :
    Consistent (judgeAnchor s ws) := by
  have hnone := h.returnState_none (by simp [hs])
  have habsent : s.bridge.geometry = none := h.bridge.absent (.inl ((h.activeState_eq (by simp [hs])).trans hs))
  have running : s.engine.pause = .running := by
    by_contra hp
    rcases h.bridge.runsElsewhere hp with hb | ⟨hb, -⟩ <;> simp [hs] at hb
  unfold Machine.judgeAnchor
  dsimp only
  split
  · refine Consistent.enterArmed (.of_trippable ?_ ?_ (.inl rfl) ?_ ⟨?_, ?_, ?_⟩ ?_)
    all_goals simp [armedIdle, BridgeState.trippable, hnone, running, habsent]
  · rename_i g hg
    refine Consistent.enterArmed (.of_trippable ?_ ?_ (.inl rfl) ?_ ⟨?_, ?_, ?_⟩ ?_)
    all_goals simp [armedIdle, BridgeState.trippable, hnone, running, (testAnchor_valid hg).2]

theorem Consistent.departHead (h : Consistent s) : Consistent (departHead s) := by
  have released : Consistent (releaseDeparture { s with buffer := bufferFrom s.buffer.entries.tail }) := h.frame
  exact (Consistent.frame released.endDrain).autoResume

/-! ### Resets and FORMAT -/

/-- RESETTING before its warm-reset point keeps the geometry, with no other agreement to keep but its own (R18). -/
theorem Consistent.enterResetting (h : Consistent s) : Consistent (enterResetting s) := by
  by_cases hs : s.bridge.state = .resetting
  · rwa [Machine.enterResetting, if_pos hs]
  · have entered : (Machine.enterResetting s).bridge.returnState = none ∧
        (Machine.enterResetting s).bridge.state = .resetting ∧
        (Machine.enterResetting s).bridge.warmPointPassed = false ∧
        (Machine.enterResetting s).monitor.phase = .ignoring ∧
        (Machine.enterResetting s).bridge.geometry = s.bridge.geometry := by
      simp [Machine.enterResetting, hs]
    obtain ⟨hreturn, hstate, hwarm, hphase, hgeometry⟩ := entered
    have hactive : (Machine.enterResetting s).activeState = .resetting := by simp [State.activeState, hreturn, hstate]
    refine ⟨⟨?_, ?_, ?_, ?_, ?_, ?_, ?_, ?_, fun _ => .inr ⟨hstate, hwarm⟩⟩, ⟨by rw [hgeometry]; exact h.geometry.geometry, ?_⟩⟩
    all_goals simp [hphase, hstate, hreturn, hactive, hwarm]

/-- Past the warm-reset point the geometry is absent and the engine not paused (R18, R37). -/
theorem Consistent.enterStarting (h : Consistent s) (hs : s.bridge.state = .resetting)
    (hw : s.bridge.warmPointPassed = true) : Consistent (enterStarting s) := by
  have habsent : s.bridge.geometry = none :=
    h.bridge.absent (.inr (.inr ⟨(h.activeState_eq (by simp [hs])).trans hs, hw⟩))
  have running : s.engine.pause = .running := by
    by_contra hp
    rcases h.bridge.runsElsewhere hp with hb | ⟨-, hb⟩
    · simp [hs] at hb
    · simp [hw] at hb
  refine ⟨⟨?_, ?_, ?_, ?_, ?_, ?_, ?_, ?_, ?_⟩, ⟨?_, ?_⟩⟩
  all_goals simp [Machine.enterStarting, startDelay, State.activeState, habsent, running]

theorem Consistent.warmResetState (h : Consistent s) (hs : s.bridge.state = .resetting) : Consistent (warmResetState s) := by
  have hnone := h.returnState_none (by simp [hs])
  have hphase : s.monitor.phase = .ignoring := h.bridge.ignoring.mpr hs
  refine ⟨⟨?_, ?_, ?_, ?_, ?_, ?_, ?_, ?_, ?_⟩, ⟨?_, ?_⟩⟩
  all_goals simp [Machine.warmResetState, State.activeState, Engine.reset, hs, hnone, hphase]

theorem Consistent.powerOnState (s : State) (pins : PinLevels) : Consistent (powerOnState s pins) := by
  refine ⟨⟨?_, ?_, ?_, ?_, ?_, ?_, ?_, ?_, ?_⟩, ⟨?_, ?_⟩⟩
  all_goals simp [Machine.powerOnState, State.activeState, State.reset, Engine.reset]

theorem Consistent.unpoweredState (s : State) (m : Memory) (n : Nat) : Consistent (unpoweredState s m n) := by
  refine ⟨⟨?_, ?_, ?_, ?_, ?_, ?_, ?_, ?_, ?_⟩, ⟨?_, ?_⟩⟩
  all_goals simp [Machine.unpoweredState, State.activeState, State.reset, Engine.reset]

/-- FORMAT is admitted in UNFORMATTED and SERVING, with an acceptable frame count (R4, R14). -/
theorem Consistent.enterFormatting (h : Consistent s) (hs : formatAdmitted s = true) {frames : Nat}
    (hf : frameCountAcceptable s.bridge.strapPages frames = true) : Consistent (enterFormatting s frames) := by
  have trips : s.bridge.state.trippable = true := by rcases formatAdmitted_state hs with hs | hs <;> rw [hs] <;> rfl
  unfold Machine.enterFormatting
  exact h.move trips (by simp [BridgeState.trippable]) ⟨by simp, by simp, by simpa using h.geometry.geometry⟩
    fun _ => ⟨by simp, frames, by simp, by simpa using hf⟩

/-! ### The commands -/

theorem Consistent.whenPowered {f : State → State} (h : Consistent s) (hf : Consistent (f s)) :
    Consistent (whenPowered s f) :=
  whenPowered_induct h fun _ => hf

theorem Consistent.decodeCommand {code : Byte} {args : List Byte} {f : State → Answer} (h : Consistent s)
    (hf : Consistent (f s).state) : Consistent (decodeCommand s code args f) :=
  decodeCommand_induct (fun _ _ h => h.frame) h fun _ => hf

theorem Consistent.contextCommand {c : Byte} {f : ContextId → Answer} (h : Consistent s)
    (hf : ∀ k, Consistent (f k).state) : Consistent (contextCommand s c f).state := by
  rcases contextCommand_cases s c f with ⟨_, k, _, e⟩ | e <;> rw [e]
  · exact hf k
  · exact h

theorem Consistent.onCompletion {p : Purpose} {f : Transfer → Word → State → State} (h : Consistent s)
    (hf : ∀ t w u, Consistent u → Consistent (f t w u)) : Consistent (onCompletion s p f) :=
  onCompletion_induct h fun t w _ _ _ => hf t w _ h.frame

theorem Consistent.onEngineCompletion {p : Purpose} {st : Stage} {o : TakenOrder} {f : Word → State → State}
    (h : Consistent s) (hf : ∀ w u, Consistent u → u.engine.stage = st → Consistent (f w u)) :
    Consistent (onEngineCompletion s p st o f) :=
  onEngineCompletion_induct h (fun _ => h.frame) (fun _ w hc hs _ => hf w _ hc hs) (fun _ h => h.takePause)
    fun _ h => h.autoResume

end

theorem Consistent.exec {c : Instr} {s t : State} (h : Consistent s) (he : exec c s = .next t) : Consistent t := by
  cases c
  all_goals obtain rfl : _ = t := Host.Outcome.next.inj he
  case powerOnReset pins =>
    dsimp only
    split
    · exact .powerOnState s pins
    · exact (Consistent.powerOnState s pins).enterResetting
  case powerLoss =>
    refine h.whenPowered ?_
    repeat' split
    all_goals exact .unpoweredState _ _ _
  case warmResetPoint =>
    refine h.whenPowered ?_
    split
    · rename_i hw
      have warm := h.warmResetState hw.1
      dsimp only
      split
      · exact warm.enterStarting hw.1 rfl
      · exact warm
    · exact h
  case rstNFall =>
    refine h.whenPowered ?_
    split
    · exact Consistent.enterResetting h.frame
    · exact h
  case rstNRise =>
    have raised : Consistent { s with bridge := { s.bridge with rstN := true } } := h.frame
    refine h.whenPowered ?_
    dsimp only
    repeat' split
    · exact h
    · rename_i hw
      exact raised.enterStarting hw.1 hw.2
    · exact raised
  case restart => exact h.decodeCommand h.enterResetting
  case supplyFallAssert =>
    refine h.whenPowered ?_
    split
    · exact h
    · exact Consistent.lineAsserted h.frame
  case trip =>
    refine h.whenPowered ?_
    split
    · exact h.takeTrip
    · exact h
  case gateOpen =>
    refine h.whenPowered ?_
    split
    · rename_i hg
      obtain ⟨⟨b1, b2, b3, b4, b5, b6, b7, b8, b9⟩, ⟨g1, g2⟩⟩ := h
      have hnone : s.bridge.returnState = none := by simpa [hg.1] using b4
      exact ⟨⟨b1, b2, b3, b4, b5, b6, b7, b8, b9⟩, ⟨g1, fun ha => by simp [State.activeState, hnone, hg.1] at ha⟩⟩
    · exact h
  case rearmDelayMet =>
    refine h.whenPowered ?_
    split
    · rename_i hp
      exact h.rearmed hp.1
    · exact h
  case resumeDelayMet =>
    refine h.whenPowered ?_
    split
    · exact Consistent.autoResume h.frame
    · exact h
  case supplyFallDeassert | holdTimeout | hreqFall | frameStart | frameEnd | badCommand | arrayGrant | byteComplete =>
    refine h.whenPowered ?_
    repeat' split
    all_goals exact h.frame
  case status | readContext | lookup | readEvents | readFaults | getConfig | getRegion | setRegion | clearFaults =>
    refine h.decodeCommand ?_
    repeat' split
    all_goals exact h.frame
  case resume =>
    refine h.decodeCommand ?_
    split
    · exact h.resumeBridge
    · exact h
  case setConfig item value =>
    refine h.decodeCommand ?_
    split
    · exact h
    · exact Consistent.itemEffect h.frame _
  case format frames =>
    refine h.decodeCommand ?_
    repeat' split
    · exact h.enterFormatting ‹_› ‹_›
    all_goals exact h
  case openContext c | commit c | abort c =>
    refine h.decodeCommand (h.contextCommand fun k => ?_)
    repeat' split
    all_goals exact h.frame
  case takeWork =>
    refine h.whenPowered ?_
    repeat' split
    · rename_i hw
      exact Consistent.endDrain (h.frame (.inr (h.not_formatting (by simp [hw.1]))))
    all_goals exact h
  case hostRequest addr tag op =>
    refine h.whenPowered ?_
    dsimp only
    repeat' split
    all_goals exact h.frame
  case hostReadComplete =>
    refine h.onCompletion fun t w u hu => Consistent.autoResume ?_
    repeat' split
    all_goals exact hu.frame
  case fillRead | fillWrite =>
    refine h.onCompletion fun t w u hu => ?_
    repeat' split
    all_goals exact hu.frame
  case drainWrite => exact h.onCompletion fun t w u hu => hu.departHead
  case anchorRead =>
    refine h.onCompletion fun t w u hu => ?_
    dsimp only
    repeat' split
    case h_1.isFalse.isFalse hstate _ => exact hu.judgeAnchor (by simp at hstate; exact hstate.2) _
    all_goals exact hu.frame
  case sumRead | journalWrite | markWrite | copyRead | applyCopyRead | copyWrite | verifyRead | applyCopyWrite =>
    exact h.onEngineCompletion fun w u hu hs => hu.frame (.inr (hu.not_formatting (by simp [hs])))
  case retireWrite => exact h.onEngineCompletion fun w u hu hs => hu.frame (.inr (hu.not_formatting (by simp [hs])))
  case scanRead => exact h.onEngineCompletion fun w u hu hs => hu.scanWord hs w
  case recoveryRetireWrite => exact h.onEngineCompletion fun w u hu hs => hu.recoveryRetired
  case formatWrite =>
    refine h.onEngineCompletion fun w u hu hs => ?_
    split
    · exact hu.formatWritten ‹_›
    · exact hu

/-- Settles O60: three invariants of their own, each kept by every command. -/
theorem blocksStayConsistent : Obligations.BlocksStayConsistent := by
  refine ⟨fun s t hb hg hs => ?_, fun s t hc hr hs => step_keeps_bounds hc hr hs, fun s t h hs => step_keeps_request h hs⟩
  have kept : Consistent t := step_induct (P := Consistent) (fun _ _ h => h.frame) (fun _ _ _ h he => h.exec he)
    ⟨hb, hg⟩ hs
  exact ⟨kept.bridge, kept.geometry⟩

end Sys2Proof.Machine.Invariants
end

section
/-! SUPPORT. Every command as a whole, and power and reset: what POWER_ON_RESET, the two ways into RESETTING and the way out
of it leave (R8, R18, R80). -/

namespace Sys2Proof.Machine.PowerAndReset

-- One proof at a time: each proof run beside the others takes a thread, and its stack counts against the memory
-- limit of the check.
set_option Elab.async false

/-! ### The queue of commands -/

section
variable {s : State}

/-- No command touches the queue of commands: each shared operation leaves it as it is. -/
theorem exec_pending {c : Instr} {t : State} (he : exec c s = .next t) : t.pending = s.pending := by
  have answered (code : Byte) (args : List Byte) (f : State → Answer) (hf : (f s).state.pending = s.pending) :
      (decodeCommand s code args f).pending = s.pending :=
    decodeCommand_induct (P := fun u => u.pending = s.pending) (fun _ _ h => by simpa using h) rfl fun _ => hf
  have context (k : Byte) (f : ContextId → Answer) (hf : ∀ c, (f c).state.pending = s.pending) :
      (contextCommand s k f).state.pending = s.pending := by
    rcases contextCommand_cases s k f with ⟨_, c, _, e⟩ | e <;> rw [e]
    exact hf c
  have event (f : State → State) (hf : (f s).pending = s.pending) : (whenPowered s f).pending = s.pending :=
    whenPowered_induct (P := fun u => u.pending = s.pending) rfl fun _ => hf
  have completion (p : Purpose) (f : Transfer → Word → State → State) (hf : ∀ t w u, (f t w u).pending = u.pending) :
      (onCompletion s p f).pending = s.pending :=
    onCompletion_induct (P := fun u => u.pending = s.pending) rfl fun t w _ _ _ => by rw [hf]; simp
  have engine (p : Purpose) (st : Stage) (o : TakenOrder) (f : Word → State → State)
      (hf : ∀ w u, (f w u).pending = u.pending) : (onEngineCompletion s p st o f).pending = s.pending := by
    refine completion p _ fun t w u => ?_
    split <;> simp [hf]
  cases c
  all_goals obtain rfl : _ = t := Host.Outcome.next.inj he
  case powerOnReset => dsimp only; split <;> simp
  case rstNRise | warmResetPoint | hostRequest =>
    refine event _ ?_
    dsimp only
    repeat' split
    all_goals simp
  case rstNFall | supplyFallAssert | supplyFallDeassert | trip | gateOpen | resumeDelayMet | rearmDelayMet | holdTimeout
      | hreqFall | frameStart | frameEnd | badCommand | takeWork | arrayGrant | byteComplete | powerLoss =>
    refine event _ ?_
    repeat' split
    all_goals simp
  case status | readContext | lookup | readEvents | readFaults | getConfig | getRegion | setRegion | setConfig | clearFaults
      | format | resume | restart =>
    refine answered _ _ _ ?_
    repeat' split
    all_goals simp
  case openContext | commit | abort =>
    refine answered _ _ _ (context _ _ fun k => ?_)
    repeat' split
    all_goals simp
  case hostReadComplete | fillRead | fillWrite | drainWrite | anchorRead =>
    refine completion _ _ fun t w u => ?_
    repeat' split
    all_goals simp
  all_goals
    refine engine _ _ _ _ fun w u => ?_
    try split
    all_goals simp

/-- A part without its supply ignores every command but POWER_ON_RESET (assumption log 5). -/
theorem exec_unpowered {c : Instr} (hp : s.powered = false) (hc : ∀ pins, c ≠ .powerOnReset pins) :
    exec c s = .next s := by
  have frameless (code : Byte) (args : List Byte) (f : State → Answer) : decodeCommand s code args f = s :=
    decodeCommand_elsewhere (by simp [atDecode, hp]) f
  have completionless (p : Purpose) (f : Transfer → Word → State → State) : onCompletion s p f = s := by
    unfold onCompletion
    split <;> simp [hp]
  cases c
  case powerOnReset pins => exact absurd rfl (hc pins)
  case status | readContext | lookup | readEvents | readFaults | getConfig | getRegion | setRegion | setConfig | clearFaults
      | format | resume | restart | openContext | commit | abort =>
    exact congrArg _ (frameless _ _ _)
  case hostReadComplete | fillRead | fillWrite | drainWrite | anchorRead | sumRead | journalWrite | markWrite | copyRead
      | copyWrite | retireWrite | scanRead | verifyRead | applyCopyRead | applyCopyWrite | recoveryRetireWrite
      | formatWrite =>
    exact congrArg _ (completionless _ _)
  all_goals exact congrArg _ (whenPowered_off hp _)

end

/-- Settles O2: no command is refused or faults, and each leaves the queue to the step. -/
theorem everyCommandCompletes : Obligations.EveryCommandCompletes := by
  refine ⟨fun c s => ?_, fun c s hp hc => exec_unpowered hp hc⟩
  obtain ⟨t, ht⟩ := exec_next c s
  exact ⟨t, ht, exec_pending ht⟩

/-! ### Reset -/

/-- Settles O7: with RST_N low the power-on state goes to RESETTING, where no request waits and no read is under way. -/
theorem powerOnReset : Obligations.PowerOnReset := by
  rintro pins s _ rfl
  refine congrArg Host.Outcome.next ?_
  dsimp only
  split <;> rfl

open Invariants in
/-- Settles O8: the array is empty, and so is every block that an invariant bounds. -/
theorem resetIsConsistent : Obligations.ResetIsConsistent := by
  have accounted : Accounted State.reset := .of_reset nofun rfl rfl
  have bounded : Bounded State.reset := .of_empty (settingsInRange_of_reset rfl) (by decide) rfl rfl rfl
  have consistent : Consistent State.reset := .powerOnState State.reset { rstN := true, hreq := false, supplyFall := false, mselN := true }
  obtain ⟨capacity, settings⟩ := bounded_iff.mp bounded
  refine ⟨?array, ?frames, ?map, ?queue, accounted.contexts, accounted.record, ?record, capacity, settings,
    consistent.bridge, consistent.geometry, requestAccounted_of_none rfl rfl nofun⟩
  case array => exact ⟨.nil, nofun⟩
  case frames => exact .refl _
  case map => exact ⟨.nil, nofun, nofun⟩
  case queue => exact ⟨.nil, fun c => by cases c <;> decide, nofun⟩
  case record => exact fun _ _ h => by cases h

/-- No request waits, so that a change of bridge state faults none (R124). -/
theorem faultWaiting_nobody {s : State} (h : ∀ r, s.host.outstanding = some r → r.phase.waiting = false)
    (f : FaultReason) : faultWaiting s f = s := by
  unfold faultWaiting
  split
  · rename_i r hr
    simp [h r hr]
  · rfl

theorem enterResetting_nobody {s : State} (hs : s.bridge.state ≠ .resetting)
    (h : ∀ r, s.host.outstanding = some r → r.phase.waiting = false) : enterResetting s =
      { abandonAnchorRead s with
        bridge := { (abandonAnchorRead s).bridge with state := .resetting, returnState := none, warmPointPassed := false }
        monitor := { s.monitor with phase := .ignoring, filterTimer := none } } := by
  rw [enterResetting, if_neg hs, faultWaiting_nobody h]
  rfl

/-- Settles O9: the entry abandons the anchor read, and RESETTING is not entered again. -/
theorem resettingEntered : Obligations.ResettingEntered := by
  intro s hp
  refine ⟨fun hs hn u hu => ⟨fun hrst => ?_, fun hat => ?_⟩, fun hs => ⟨fun hrst => ?_, fun hat => ?_⟩⟩
  · rw [HostAccess.exec_rstNFall hp hrst, hu]
    exact congrArg _ (enterResetting_nobody (s := { s with bridge := { s.bridge with rstN := false } }) hs hn)
  · rw [HostAccess.exec_restart hat, enterResetting_nobody hs hn, hu]
    rfl
  · rw [HostAccess.exec_rstNFall hp hrst, enterResetting, if_pos hs]
  · rw [HostAccess.exec_restart hat, enterResetting, if_pos hs]

/-- Settles O11: RST_N high takes the bridge to STARTING once the warm-reset point has passed. -/
theorem warmResetSequence : Obligations.WarmResetSequence := by
  intro s hp hs
  have rises (hrst : s.bridge.rstN = false) : exec .rstNRise s = .next
      (if s.bridge.state = .resetting ∧ s.bridge.warmPointPassed = true then
        enterStarting { s with bridge := { s.bridge with rstN := true } }
       else { s with bridge := { s.bridge with rstN := true } }) := by
    refine congrArg _ ((whenPowered_on hp _).trans ?_)
    rw [hrst]
    rfl
  refine ⟨fun hrst hw => ?_, fun hrst hw => ?_, fun hw hbuffer hport u hu => ?_⟩
  · rw [rises hrst, if_neg fun h => absurd h.2 (by simp [hw])]
  · rw [rises hrst, if_pos ⟨hs, hw⟩]
    rfl
  · have drained : drainFinished s = true := by simp [drainFinished, hbuffer, hport]
    refine congrArg _ ((whenPowered_on hp _).trans ?_)
    rw [if_pos ⟨hs, hw, drained⟩, hu]
    dsimp only
    split <;> rfl

end Sys2Proof.Machine.PowerAndReset
end

section
/-! SUPPORT. The supply line, the delays, RESUME and the configuration items that act on them (R9, R10, R143 to R155), and
CLEAR_FAULTS and FORMAT (R14, R100). -/

namespace Sys2Proof.Machine.SupplyMonitor

-- One proof at a time: each proof run beside the others takes a thread, and its stack counts against the memory
-- limit of the check.
set_option Elab.async false

/-! ### The monitor becomes ARMED -/

section
variable {s u : State} {us : Nat}

/-- The filter times of the trip filter codes (R144). -/
theorem filterTime_of_code (h : (s.settings.tripFilter, us) ∈ [(1, 2), (2, 4), (3, 8), (4, 16)]) :
    s.settings.filterTime = us ∧ us ≠ 0 := by
  simp only [List.mem_cons, Prod.mk.injEq, List.not_mem_nil, or_false] at h
  rcases h with ⟨hk, rfl⟩ | ⟨hk, rfl⟩ | ⟨hk, rfl⟩ | ⟨hk, rfl⟩ <;> simp [Settings.filterTime, hk]

theorem startFilter_timed (h : (s.settings.tripFilter, us) ∈ [(1, 2), (2, 4), (3, 8), (4, 16)]) :
    startFilter s = { s with monitor := { s.monitor with filterTimer := some us } } := by
  obtain ⟨htime, hpos⟩ := filterTime_of_code h
  rw [startFilter, htime, if_neg hpos]

/-- With filter code 0 the trip is taken at once (R144; assumption log 15). -/
theorem startFilter_at_once (h : s.settings.tripFilter = 0) (ht : s.bridge.state.trippable = true) :
    startFilter s = tripped s := by
  have htime : s.settings.filterTime = 0 := by simp [Settings.filterTime, h]
  rw [startFilter, if_pos htime, HostAccess.takeTrip_trippable ht]

theorem enterArmed_asserted (h : s.monitor.level = true) : enterArmed s = startFilter (armedIdle s) :=
  if_pos h

/-- The statements' term for the entry to ARMED is what the model does. -/
theorem enterArmed_of_armsTo (h : armsTo s u) : enterArmed s = u := by
  rcases h with ⟨hl, rfl⟩ | ⟨hl, us, hus, rfl⟩ | ⟨hl, hk, ht, rfl⟩
  · exact Completions.enterArmed_deasserted hl
  · rw [enterArmed_asserted hl]
    exact startFilter_timed (s := armedIdle s) hus
  · rw [enterArmed_asserted hl]
    exact startFilter_at_once (s := armedIdle s) hk ht

end

/-! ### The line and the timers -/

/-- Settles O13: an edge of the line acts by the phase of the monitor it finds. -/
theorem supplyLineMoves : Obligations.SupplyLineMoves := by
  intro s hp
  refine ⟨fun hl => ?rises, fun hl => ?falls⟩
  case rises =>
    have edge : exec .supplyFallAssert s = .next (lineAsserted { s with monitor := { s.monitor with level := true } }) := by
      refine congrArg _ ((whenPowered_on hp _).trans ?_)
      rw [hl]
      rfl
    rw [edge]
    refine ⟨fun hphase => ?_, fun k us hk hcode hphase => ?_, fun hcode hphase ht => ?_, fun hphase => ?_, fun hphase => ?_⟩
    · simp only [lineAsserted, hphase]
      rfl
    · simp only [lineAsserted, hphase]
      exact congrArg _ (startFilter_timed (hcode ▸ hk))
    · simp only [lineAsserted, hphase]
      exact congrArg _ (startFilter_at_once hcode ht)
    · rcases hphase with hphase | hphase
      all_goals
        simp only [lineAsserted, hphase]
        rfl
    · simp only [lineAsserted, hphase]
  case falls =>
    have edge : exec .supplyFallDeassert s =
        .next (lineDeasserted { s with monitor := { s.monitor with level := false } }) :=
      congrArg _ ((whenPowered_on hp _).trans (if_pos hl))
    rw [edge]
    refine ⟨fun hphase => ?_, fun hphase => ?_, fun hphase => ?_⟩
    · simp only [lineDeasserted, hphase]
    · rcases hphase with hphase | hphase | hphase
      all_goals
        simp only [lineDeasserted, hphase]
        rfl
    · simp only [lineDeasserted, hphase]

theorem autoResume_not_due {s : State}
    (h : s.settings.autoResume = false ∨ s.buffer.entries ≠ [] ∨ s.port.isSome = true) : autoResume s = s := by
  have notDue : autoResumeDue s = false := by
    rcases h with h | h | h
    · simp [autoResumeDue, h]
    · simp [autoResumeDue, drainFinished, h]
    · obtain ⟨t, ht⟩ := Option.isSome_iff_exists.mp h
      simp [autoResumeDue, drainFinished, ht]
  rw [autoResume, notDue]
  rfl

section
variable {s : State} {ms : Nat}

theorem exec_resumeDelayMet (hp : s.powered = true) (ht : s.monitor.delayTimer = .running ms)
    (hphase : s.monitor.phase = .resumeWait) :
    exec .resumeDelayMet s = .next (autoResume { s with monitor := { s.monitor with delayTimer := .met } }) :=
  congrArg _ ((whenPowered_on hp _).trans (if_pos ⟨hphase, by rw [ht]; rfl⟩))

/-- Settles O15: each timer acts in its own phase. -/
theorem delaysMet : Obligations.DelaysMet := by
  intro s ms hp ht
  have runs : s.monitor.delayTimer.isRunning = true := by rw [ht]; rfl
  refine ⟨fun size hs => ?_, fun hphase hoff => ?_, fun u hphase hu => ?_⟩
  · exact congrArg _ ((whenPowered_on hp _).trans (if_pos ⟨hs, runs⟩))
  · rw [exec_resumeDelayMet hp ht hphase]
    exact congrArg _ (autoResume_not_due hoff)
  · exact congrArg _ ((whenPowered_on hp _).trans ((if_pos ⟨hphase, runs⟩).trans (enterArmed_of_armsTo hu)))

/-! ### RESUME -/

theorem drainFinished_iff : drainFinished s = true ↔ s.buffer.entries = [] ∧ s.port = none := by
  simp [drainFinished]

/-- Settles O16: RESUME checks what the drain and the line hold, and the resume delay resumes where auto-resume is on. -/
theorem resumeRestartsStage : Obligations.ResumeRestartsStage := by
  refine ⟨fun s hat hnot => ?_, fun s r e hs hr hl hd hport hrestart => ⟨fun hat => ?_, fun ms hp ha hphase ht => ?_⟩⟩
  · have refuses : ¬ (s.bridge.state = .frozen ∧ s.monitor.level = false ∧ drainFinished s = true) := by
      rintro ⟨hs, hl, hd⟩
      obtain ⟨hempty, hport⟩ := drainFinished_iff.mp hd
      rcases hnot with h | h | h | h
      · exact h hs
      · simp [hl] at h
      · exact h hempty
      · simp [hport] at h
    exact congrArg _ (Updates.decodeCommand_refused hat (if_neg refuses))
  · refine congrArg _ (Updates.decodeCommand_accepted hat ?_)
    rw [if_pos ⟨hs, hl, drainFinished_iff.mpr ⟨hd, hport⟩⟩, Completions.resumeBridge_eq hrestart rfl rfl hr hl hd]
  · rw [exec_resumeDelayMet hp ht hphase]
    have ready : Completions.ReadyToResume { s with monitor := { s.monitor with delayTimer := .met } } r :=
      ⟨hs, hr, hl, rfl, hd, hport⟩
    exact congrArg _ (Completions.autoResume_eq ready ha hrestart)

end

/-! ### Configuration items -/

section
variable {s : State} {item : Byte} {v : BitVec 16}

theorem exec_setConfig_set {c : Settings} {u : State} (hat : atDecode s 0x20 [item, highByte v, lowByte v] = true)
    (hset : s.settings.setItem item.toNat v.toNat = some c)
    (hu : itemEffect { s with settings := c } item.toNat = u) :
    exec (.setConfig item v) s = .next (acceptedWith u 0x20 [item, highByte v, lowByte v] []) := by
  refine congrArg _ (Updates.decodeCommand_accepted hat ?_)
  rw [hset, ← hu]

theorem exec_setConfig_refused (hat : atDecode s 0x20 [item, highByte v, lowByte v] = true)
    (hset : s.settings.setItem item.toNat v.toNat = none) :
    exec (.setConfig item v) s = .next (refusedWith s 0x20 [item, highByte v, lowByte v] .badArgument) := by
  refine congrArg _ (Updates.decodeCommand_refused hat ?_)
  rw [hset]

/-- An item whose number is unknown, or a value outside the range of its item (R165). -/
theorem setItem_none (c : Settings) (h : item = 0 ∨ 7 ≤ item.toNat ∨ (item = 2 ∧ 5 ≤ v.toNat) ∨
    (item ∈ [3, 4, 6] ∧ 2 ≤ v.toNat) ∨ (item = 5 ∧ (v = 0 ∨ 256 ≤ v.toNat))) :
    c.setItem item.toNat v.toNat = none := by
  rcases h with rfl | h | ⟨rfl, h⟩ | ⟨h, hv⟩ | ⟨rfl, h⟩
  · rfl
  · unfold Settings.setItem
    split
    case h_7 => rfl
    all_goals omega
  · exact if_neg (by omega)
  · simp only [List.mem_cons, List.not_mem_nil, or_false] at h
    rcases h with rfl | rfl | rfl <;> exact if_neg (by omega)
  · refine if_neg ?_
    rcases h with rfl | h
    · decide
    · omega

/-- Settles O35: an item in its range is set, and two items act on the monitor and the bridge. -/
theorem setConfigApplies : Obligations.SetConfigApplies := by
  rintro s item v _ rfl hat _ rfl
  refine ⟨?_, ?_, ?_, ?_, ?_, ?_, ?_, ?_, ?_, fun h => exec_setConfig_refused hat (setItem_none _ h)⟩
  · rintro rfl
    exact exec_setConfig_set hat (if_pos (by have := v.isLt; omega)) rfl
  · rintro rfl hv
    exact exec_setConfig_set hat (if_pos hv) rfl
  · rintro rfl rfl
    exact exec_setConfig_set hat (c := { s.settings with tripMode := .report }) rfl (if_neg (by simp))
  · rintro rfl rfl hphase
    exact exec_setConfig_set hat (c := { s.settings with tripMode := .freeze }) rfl (if_neg (by simp [hphase]))
  · rintro u rfl rfl hphase hu
    exact exec_setConfig_set hat (c := { s.settings with tripMode := .freeze }) rfl
      ((if_pos ⟨hphase, rfl⟩).trans (enterArmed_of_armsTo hu))
  · rintro rfl rfl
    exact exec_setConfig_set hat (c := { s.settings with autoResume := false }) rfl (autoResume_not_due (.inl rfl))
  · rintro rfl rfl hnot
    refine exec_setConfig_set hat (c := { s.settings with autoResume := true }) rfl ?_
    rcases hnot with hnot | hport
    · exact Completions.autoResume_of_noResumeDue hnot
    · exact autoResume_not_due (.inr (.inr hport))
  · rintro rfl h1 h2
    exact exec_setConfig_set hat (if_pos ⟨h1, h2⟩) rfl
  · rintro rfl hv
    have flag : decide (v.toNat = 1) = (v == 1) := by
      rw [Bool.eq_iff_iff, decide_eq_true_eq, beq_iff_eq, BitVec.toNat_eq]
      rfl
    exact exec_setConfig_set hat ((if_pos hv).trans (by rw [flag])) rfl

end

/-! ### CLEAR_FAULTS and FORMAT -/

/-- Settles O40: the list and the count are emptied, which STATUS reports as FAULT_COUNT 0. -/
theorem clearFaultsApplies : Obligations.ClearFaultsApplies := by
  intro s hat
  refine ⟨fun h => congrArg _ (Updates.decodeCommand_refused hat (if_pos h)), fun h => ?_⟩
  have clears : exec .clearFaults s = .next (acceptedWith
      { s with engine := { s.engine with faultList := [], faultCount := 0 } } 0x22 [] []) :=
    congrArg _ (Updates.decodeCommand_accepted hat (if_neg h))
  refine ⟨clears, fun t u ht hatu hu => ?_⟩
  obtain rfl := Host.Outcome.next.inj (clears.symm.trans ht)
  have hcount : u.engine.faultCount = 0 := by rw [hu]; rfl
  have reads := ManagementPort.statusAnswers.2 u hatu
  rw [hcount] at reads
  exact ⟨_, reads, rfl⟩

/-- The bridge states that FORMAT is accepted in (R14). -/
theorem formatAdmitted_iff {s : State} : formatAdmitted s = true ↔ s.bridge.state = .unformatted ∨
    (s.bridge.state = .serving ∧ (∀ c, (s.contexts.get c).state = .idle) ∧ s.commitQueue = [] ∧
      s.engine.stage = .idle) := by
  have everyContext : allContexts.all (fun c => decide ((s.contexts.get c).state = .idle)) = true ↔
      ∀ c, (s.contexts.get c).state = .idle := by
    rw [List.all_eq_true]
    exact ⟨fun h c => of_decide_eq_true (h c (by cases c <;> decide)), fun h c _ => decide_eq_true (h c)⟩
  unfold formatAdmitted
  cases s.bridge.state <;> simp [everyContext, and_assoc]

/-- With a buffer that is empty FORMAT is past its drain step at once (R15). -/
theorem enterFormatting_nobody {s : State} {f : Nat} (hrun : s.engine.pause = .running)
    (hn : ∀ r, s.host.outstanding = some r → r.phase.waiting = false) : enterFormatting s f = { s with
      bridge := { s.bridge with state := .formatting }
      engine := { s.engine with
        stage := .format, formatFrames := some f
        formatStep := if s.buffer.entries = [] then some 2 else some 1
        pos := { slotIndex := 0, entry := 0, block := 0, word := 0, pass := .checksum } } } := by
  rw [enterFormatting, PowerAndReset.faultWaiting_nobody hn, endFormatDrain]
  by_cases hb : s.buffer.entries = [] <;> simp [engineRuns, hrun, hb, enterFormatStep, Position.start]

/-- Settles O41: the state conditions come first, then the frame count. -/
theorem formatDecided : Obligations.FormatDecided := by
  rintro s f _ rfl hat ready hready
  rw [← formatAdmitted_iff] at hready
  rw [hready]
  refine ⟨fun hnot => congrArg _ (Updates.decodeCommand_refused hat (if_neg hnot)), fun hadm hbad => ?_,
    fun hadm h1 h2 h3 hrun hn => ?_⟩
  · have unacceptable : ¬ frameCountAcceptable s.bridge.strapPages f.toNat = true := by
      simp only [frameCountAcceptable, decide_eq_true_eq]
      omega
    exact congrArg _ (Updates.decodeCommand_refused hat ((if_pos hadm).trans (if_neg unacceptable)))
  · have acceptable : frameCountAcceptable s.bridge.strapPages f.toNat = true := by
      simp only [frameCountAcceptable, decide_eq_true_eq]
      omega
    rw [HostAccess.exec_format_accepted hadm acceptable hat, enterFormatting_nobody hrun hn]

end Sys2Proof.Machine.SupplyMonitor
end

section
/-! SUPPORT. The answers of READ_CONTEXT, LOOKUP, READ_FAULTS and GET_REGION, byte by byte (R39, R40, R59, R99, R110,
R177). -/

namespace Sys2Proof.Machine.Records

-- One proof at a time: each proof run beside the others takes a thread, and its stack counts against the memory
-- limit of the check.
set_option Elab.async false

/-! ### Fields -/

/-- The number that names a context is its own (R41). -/
theorem number_of_contextOf {n : Nat} {x : BitVec n} {c : ContextId} (h : contextOf x = some c) : c.number = x.toNat := by
  unfold contextOf contextOfNumber at h
  split at h
  case h_5 => cases h
  all_goals
    obtain rfl := Option.some.inj h
    symm
    assumption

theorem byteField_context {b : Byte} {c : ContextId} (h : contextOf b = some c) : byteField c.number = [b] := by
  rw [byteField, number_of_contextOf h, BitVec.ofNat_toNat, BitVec.setWidth_eq]

/-- A 16-bit field is its two bytes. -/
theorem twoBytes_toNat (v : BitVec 16) : twoBytes v.toNat = [highByte v, lowByte v] := by
  have high : v.toNat / 256 % 256 = v.toNat / 256 := Nat.mod_eq_of_lt (by omega)
  simp [twoBytes, highByte, lowByte, BitVec.toNat_eq, BitVec.extractLsb'_toNat, Nat.shiftRight_eq_div_pow, high]

/-- The places of a list that is padded with zeros. -/
theorem padTo_eq_map (n : Nat) (xs : List Nat) : padTo n xs = (List.range n).map fun i => xs.getD i 0 := by
  refine List.ext_getElem (by simp [padTo]) fun i h1 h2 => ?_
  have hi : i < n := by simpa using h2
  rw [List.getElem_map, List.getElem_range]
  simp only [padTo, List.getElem_take]
  by_cases hx : i < xs.length
  · rw [List.getElem_append_left hx]
    simp [List.getD_eq_getElem?_getD, hx]
  · rw [List.getElem_append_right (by omega)]
    simp [List.getD_eq_getElem?_getD, hx]

/-! ### The context record -/

section
variable {s : State}

/-- A command that answers with a record leaves all else as it is (R161). -/
theorem answers_with {code : Byte} {args data record : List Byte} {f : State → Answer} (hat : atDecode s code args = true)
    (hf : f s = accepted s record) (hr : record = data) :
    (.next (decodeCommand s code args f) : Host.Outcome State Fault Refusal) = .next (acceptedWith s code args data) :=
  congrArg _ (ManagementPort.decodeCommand_answered hat (hr ▸ hf))

/-- QUEUE_POSITION counts from 1 at the head, and is 0 out of the queue (R59). -/
theorem queuePosition_eq {q : List ContextId} {k : ContextId} {n : Nat} (h : (n = 0 ∧ k ∉ q) ∨
    (q[n - 1]? = some k ∧ 1 ≤ n ∧ ∀ j, j < n - 1 → q[j]? ≠ some k)) : queuePosition q k = n := by
  unfold queuePosition
  rcases h with ⟨rfl, hk⟩ | ⟨hk, hn, hfirst⟩
  · have absent : q.findIdx? (· = k) = none := by
      rw [List.findIdx?_eq_none_iff]
      rintro x hx
      exact decide_eq_false fun e => hk (e ▸ hx)
    rw [absent]
  · have found : q.findIdx? (· = k) = some (n - 1) := by
      rw [List.findIdx?_eq_some_iff_getElem]
      obtain ⟨hlt, he⟩ := List.getElem?_eq_some_iff.mp hk
      refine ⟨hlt, by simpa using he, fun j hj => ?_⟩
      have := hfirst j hj
      rw [List.getElem?_eq_getElem (by omega)] at this
      simpa using this
    rw [found]
    exact Nat.sub_add_cancel hn

/-- The context record with FAIL_REASON and FAIL_ADDRESS by its state: those of a FAILED context, and 0 otherwise (R59). -/
theorem contextRecordBytes_eq (s : State) (k : ContextId) : contextRecordBytes s k =
    byteField k.number ++ byteField (s.contexts.get k).state.code ++ byteField (s.contexts.get k).entryCount
      ++ byteField (queuePosition s.commitQueue k) ++ failFields (s.contexts.get k).state
      ++ bigEndian (s.contexts.get k).lastSequence := by
  rw [contextRecordBytes]
  cases hx : (s.contexts.get k).state with
  | failed r a =>
    simp only [ManagementPort.fourBytes_addr, ManagementPort.fourBytes_word]
    cases r <;> rfl
  | _ =>
    simp only [ManagementPort.fourBytes_word]
    rfl

/-- Settles O31: each field of the two records is its bytes. -/
theorem contextAndLookupRecords : Obligations.ContextAndLookupRecords := by
  refine ⟨fun s c hat => ⟨fun k q hc hq => ?_, fun hc => ?_⟩, ?_⟩
  · refine answers_with hat (record := contextRecordBytes s k) ?_ ?_
    · rw [hc]
    · rw [contextRecordBytes_eq, byteField_context hc, queuePosition_eq hq]
      rfl
  · refine congrArg _ (Updates.decodeCommand_refused hat ?_)
    rw [Updates.contextOf_out_of_range hc]
  · rintro s p _ _ rfl rfl hat
    refine ⟨fun hg => congrArg _ (Updates.decodeCommand_refused hat ?_), fun g hg => ⟨fun hp => ?_, fun hp hn => ?_, fun e hp he => ?_⟩⟩
    · rw [hg]
    · refine congrArg _ (Updates.decodeCommand_refused hat ?_)
      rw [hg]
      exact if_pos hp
    · refine answers_with hat (record := lookupRecord s p.toNat) ?_ ?_
      · rw [hg]
        exact if_neg (by omega)
      · rw [lookupRecord, lookupPage_none.mpr hn, twoBytes_toNat]
        rfl
    · refine answers_with hat (record := lookupRecord s p.toNat) ?_ ?_
      · rw [hg]
        exact if_neg (by omega)
      · rw [lookupRecord, he]
        dsimp only
        rw [twoBytes_toNat, twoBytes_toNat]
        cases hx : e.state <;> simp [MapEntry.position?, hx, byteField]

/-! ### The fault record and the region record -/

/-- Settles O32: the list in eight places, and a descriptor by its number. -/
theorem faultAndRegionRecords : Obligations.FaultAndRegionRecords := by
  refine ⟨fun s hat => ?_, fun s i hat => ⟨fun hi => ?_, fun j hj => ?_⟩⟩
  · refine answers_with hat rfl ?_
    rw [faultRecord, padTo_eq_map, List.flatMap_map]
    rfl
  · refine congrArg _ (Updates.decodeCommand_refused hat ?_)
    have absent : s.region? i.toNat = none := by simp [State.region?, hi]
    rw [absent]
  · have found : s.region? i.toNat = some s.regions[j] := by simp [State.region?, hj]
    refine answers_with hat (record := regionRecord i.toNat s.regions[j]) ?_ ?_
    · rw [found]
    · have index : byteField i.toNat = [i] := by rw [byteField, BitVec.ofNat_toNat, BitVec.setWidth_eq]
      rw [regionRecord, index]
      cases hk : s.regions[j].kind with
      | none => rfl
      | some k => cases k <;> rfl

end

end Sys2Proof.Machine.Records
end

section
/-! SUPPORT. The two-sum over its byte stream, and the anchor that FORMAT writes against its test (R3, R4, R6, R7, R86). -/

namespace Sys2Proof.Machine.Checksums

-- One proof at a time: each proof run beside the others takes a thread, and its stack counts against the memory
-- limit of the check.
set_option Elab.async false

/-! ### The two sums (R86) -/

theorem feedBytes_append (s : Sums) (xs : List Byte) (x : Byte) :
    feedBytes s (xs ++ [x]) = feedByte (feedBytes s xs) x := by
  simp [feedBytes]

/-- Both sums are remainders modulo 65535. -/
theorem feedBytes_le (xs : List Byte) : (feedBytes .zero xs).first ≤ 65534 ∧ (feedBytes .zero xs).second ≤ 65534 := by
  rcases List.eq_nil_or_concat xs with rfl | ⟨ys, y, rfl⟩
  · decide
  · rw [List.concat_eq_append, feedBytes_append]
    exact ⟨Nat.le_of_lt_succ (Nat.mod_lt _ (by decide)), Nat.le_of_lt_succ (Nat.mod_lt _ (by decide))⟩

theorem checksum_toNat {s : Sums} (h1 : s.first ≤ 65534) (h2 : s.second ≤ 65534) :
    s.checksum.toNat = s.second * 65536 + s.first := by
  rw [Sums.checksum, BitVec.toNat_ofNat, Nat.mod_eq_of_lt (by omega)]

/-- Neither half of a checksum is FFFFh. -/
theorem checksum_halves {s : Sums} (h1 : s.first ≤ 65534) (h2 : s.second ≤ 65534) :
    s.checksum.extractLsb' 16 16 ≠ 0xFFFF ∧ s.checksum.extractLsb' 0 16 ≠ 0xFFFF := by
  have value := checksum_toNat h1 h2
  constructor
  all_goals
    intro h
    have := congrArg BitVec.toNat h
    rw [BitVec.extractLsb'_toNat, value, Nat.shiftRight_eq_div_pow] at this
    simp at this
    omega

/-- The sums of a stream of zeros stay 0. -/
theorem feedBytes_zeros (n : Nat) : feedBytes .zero (List.replicate n 0) = .zero := by
  induction n with
  | zero => rfl
  | succ n ih =>
    rw [List.replicate_succ', feedBytes_append, ih]
    rfl

/-- The first sum is the sum of the bytes modulo 65535. -/
theorem feedBytes_first (xs : List Byte) : (feedBytes .zero xs).first = (xs.map BitVec.toNat).sum % 65535 := by
  induction xs using List.reverseRecOn with
  | nil => rfl
  | append_singleton xs x ih => simp [feedBytes_append, feedByte, ih]

/-- The stream of a list of words is that of their bytes, lanes 0 to 3 of each in turn (R1). -/
theorem feedWords_eq (s : Sums) (ws : List Word) : feedWords s ws = feedBytes s (ws.flatMap wordBytes) := by
  rw [feedWords, feedBytes, List.foldl_flatMap]
  rfl

/-- Settles O3: the sums byte by byte, by induction on the stream from its end. -/
theorem checksumRule : Obligations.ChecksumRule := by
  refine ⟨rfl, fun xs x => feedBytes_append .zero xs x, fun xs => ?_, fun n => ?_, ?_, fun ws => ?_⟩
  · obtain ⟨h1, h2⟩ := feedBytes_le xs
    obtain ⟨high, low⟩ := checksum_halves h1 h2
    refine ⟨h1, h2, checksum_toNat h1 h2, high, low, fun h => ?_⟩
    rw [h] at high
    exact high rfl
  · rw [feedBytes_zeros]
    rfl
  · rw [feedBytes_first, List.map_replicate, List.sum_replicate]
    rfl
  · rw [checksumOf, feedWords_eq]
    rfl

/-! ### The anchor (R6, R7) -/

/-- The array has at most 16384 pages (R2). -/
theorem sizePages_le (n : BitVec 3) : sizePages n ≤ 16384 :=
  calc 128 * 2 ^ n.toNat ≤ 128 * 2 ^ 7 := Nat.mul_le_mul_left _ (Nat.pow_le_pow_right (by decide) (by omega))
    _ = 16384 := rfl

/-- Settles O4: the words that FORMAT writes pass the three steps, and the test asks for what an acceptable geometry is. -/
theorem anchorRoundTrip : Obligations.AnchorRoundTrip := by
  refine ⟨fun n frames h => ?_, fun strap ws g h => Invariants.testAnchor_valid h⟩
  have hsize := sizePages_le n
  generalize sizePages n = pages at *
  simp only [frameCountAcceptable, decide_eq_true_eq] at h
  have word {k : Nat} (hk : k ≤ 16384) : (BitVec.ofNat 32 k).toNat = k := by
    rw [BitVec.toNat_ofNat, Nat.mod_eq_of_lt (by omega)]
  have h1 : (BitVec.ofNat 32 pages).toNat = pages := word hsize
  have h2 : (BitVec.ofNat 32 frames).toNat = frames := word (by omega)
  have h3 : (BitVec.ofNat 32 (pages - 9 - frames)).toNat = pages - 9 - frames := word (by omega)
  have geometry : 16 ≤ frames ∧ frames ≤ 256 ∧ pages - 9 - frames + 9 + frames = pages ∧ 64 ≤ pages - 9 - frames := by
    omega
  simp [testAnchor, anchorWords, geometryOf, h1, h2, h3, geometry]

end Sys2Proof.Machine.Checksums
end

section
/-! SUPPORT. Steps 7 and 8 for a write under a context, and what each answer of a classification leaves of the machine
(R27 to R31, R53, R119, R120), with the statements about a tagged write that arrives. -/

namespace Sys2Proof.Machine.HostAccess

-- One proof at a time: each proof run beside the others takes a thread, and its stack counts against the memory
-- limit of the check.
set_option Elab.async false

/-! ### The page map around one page (R20) -/

section
variable {before after : List MapEntry} {e : MapEntry} {p : Nat}

theorem noEntry_between (hb : ∀ x ∈ before, x.homePage < p) (ha : ∀ x ∈ after, p < x.homePage) :
    ∀ x ∈ before ++ after, x.homePage ≠ p := by
  intro x hx
  rcases List.mem_append.mp hx with hx | hx
  · exact Nat.ne_of_lt (hb x hx)
  · exact Nat.ne_of_gt (ha x hx)

/-- An entry put in the map takes its place by HOME_PAGE. -/
theorem insertEntry_between (hb : ∀ x ∈ before, x.homePage < e.homePage) (ha : ∀ x ∈ after, e.homePage < x.homePage) :
    insertEntry e (before ++ after) = before ++ e :: after := by
  induction before with
  | nil =>
    cases after with
    | nil => rfl
    | cons x xs => exact if_pos (ha x List.mem_cons_self)
  | cons x xs ih =>
    have later : ¬ e.homePage < x.homePage := Nat.not_lt.mpr (Nat.le_of_lt (hb x List.mem_cons_self))
    rw [List.cons_append, insertEntry, if_neg later, ih fun y hy => hb y (List.mem_cons_of_mem _ hy), List.cons_append]

theorem lookupPage_middle (hp : e.homePage = p) (hn : ∀ x ∈ before ++ after, x.homePage ≠ p) :
    lookupPage (before ++ e :: after) p = some e := by
  have absent : before.find? (fun x => x.homePage = p) = none := by
    rw [List.find?_eq_none]
    intro x hx
    simpa using hn x (List.mem_append_left _ hx)
  rw [lookupPage, List.find?_append, absent, Option.none_or]
  exact List.find?_cons_of_pos (by simpa using hp)

theorem updatePage_elsewhere {m : List MapEntry} {f : MapEntry → MapEntry} (hn : ∀ x ∈ m, x.homePage ≠ p) :
    updatePage m p f = m :=
  (List.map_congr_left fun x hx => if_neg (hn x hx)).trans (List.map_id m)

theorem updatePage_middle {f : MapEntry → MapEntry} (hp : e.homePage = p) (hn : ∀ x ∈ before ++ after, x.homePage ≠ p) :
    updatePage (before ++ e :: after) p f = before ++ f e :: after := by
  have hbefore : updatePage before p f = before := updatePage_elsewhere fun x hx => hn x (List.mem_append_left _ hx)
  have hafter : updatePage after p f = after := updatePage_elsewhere fun x hx => hn x (List.mem_append_right _ hx)
  rw [updatePage] at hbefore hafter ⊢
  rw [List.map_append, List.map_cons, hbefore, hafter, if_pos hp]

end

/-! ### Steps 7 and 8 of a tagged write (R119, R120) -/

section
variable {s : State} {r : Request} {c : ContextId} {e : MapEntry} {k : Nat} {rest : List Nat}

/-- A write to a page without entry asks for a frame where step 8 finds a free entry (R119). -/
theorem classifyWrite_first (hs : s.bridge.state = .serving) (hc : contextOf r.tag = some c)
    (hn : noEntryFor s (pageOf r.addr)) (hfree : s.buffer.entries.length < bufferCapacity) :
    classifyWrite s r = requestFrame s c := by
  simp [classifyWrite, hs, hc, lookupPage_none.mpr hn, ifBufferFree_free hfree]

theorem requestFrame_granted (hcount : (s.contexts.get c).entryCount < contextCapacity) (hk : s.freeFrames = k :: rest) :
    requestFrame s c = .post (.allocate c k) := by
  rw [requestFrame, if_neg (Nat.not_le.mpr hcount), hk]

theorem requestFrame_contextFull (hcount : contextCapacity ≤ (s.contexts.get c).entryCount) :
    requestFrame s c = .allocationFault c .contextFull := if_pos hcount

theorem requestFrame_poolExhausted (hcount : (s.contexts.get c).entryCount < contextCapacity) (hk : s.freeFrames = []) :
    requestFrame s c = .allocationFault c .poolExhausted := by
  rw [requestFrame, if_neg (Nat.not_le.mpr hcount), hk]

/-- A write to a page that its context holds goes to the frame, with the block added where it is new (R119). -/
theorem classifyWrite_own (hs : s.bridge.state = .serving) (hc : contextOf r.tag = some c)
    (hl : lookupPage s.pageMap (pageOf r.addr) = some e) (he : e.state = .context c)
    (hfree : s.buffer.entries.length < bufferCapacity) : classifyWrite s r =
      .post (if e.written.getLsbD (blockOf r.addr) then .toFrame c e.frame else .grow c e.frame) := by
  simp [classifyWrite, hs, hc, hl, he, ifBufferFree_free hfree, hasBlock]
  rfl

end

/-! ### What the answers leave (R30, R31, R53, R120) -/

section
variable {s : State} {r : Request} {data : Word} {lanes : Lanes} {c : ContextId} {k : Nat} {rest : List Nat}
  {before after : List MapEntry}

/-- An accepted write takes its claim at the map and is posted (R120). -/
theorem settle_post (hop : r.op = .write data lanes) (p : WritePlan) :
    settle s r (.post p) = posted (planClaim s r p) (postedEntry s r data lanes p) := by
  have claimed : (planClaim s r p).host = s.host := by cases p <;> rfl
  simp only [settle, hop, acceptWrite, completeDone_write hop, appendPosted_eq, posted]

/-- A granted allocation adds its entry in place by HOME_PAGE, with the frame at the head of the list (R30). -/
theorem allocate_eq {p b : Nat} (hmap : s.pageMap = before ++ after) (hb : ∀ e ∈ before, e.homePage < p)
    (ha : ∀ e ∈ after, p < e.homePage) (hk : s.freeFrames = k :: rest) : s.allocate c k p b = { s with
      freeFrames := rest
      pageMap := before ++ { homePage := p, frame := k, state := .context c, written := BitVec.ofNat 16 (2 ^ b) } :: after
      contexts := s.contexts.set c { s.contexts.get c with entryCount := (s.contexts.get c).entryCount + 1 } } := by
  have first : addToBlocks 0 b = BitVec.ofNat 16 (2 ^ b) := BitVec.zero_or
  rw [State.allocate, hmap, hk, first,
    insertEntry_between (e := { homePage := p, frame := k, state := .context c, written := BitVec.ofNat 16 (2 ^ b) }) hb ha,
    List.tail_cons]

theorem settle_allocate (hop : r.op = .write data lanes) (hmap : s.pageMap = before ++ after)
    (hb : ∀ e ∈ before, e.homePage < pageOf r.addr) (ha : ∀ e ∈ after, pageOf r.addr < e.homePage)
    (hk : s.freeFrames = k :: rest) : settle s r (.post (.allocate c k)) = { posted s
        { target := .frame k, addr := BitVec.ofNat 21 ((s.homePages + k) * 128 + r.addr.toNat % 128), data := data,
          lanes := lanes, tag := some c
          fill := some (BitVec.ofNat 21 (pageOf r.addr * 128 + blockOf r.addr * 8)) } with
      freeFrames := rest
      pageMap := before ++ { homePage := pageOf r.addr, frame := k, state := .context c,
                             written := BitVec.ofNat 16 (2 ^ blockOf r.addr) } :: after
      contexts := s.contexts.set c { s.contexts.get c with entryCount := (s.contexts.get c).entryCount + 1 } } := by
  rw [settle_post hop, planClaim, allocate_eq hmap hb ha hk]
  rfl

theorem settle_toFrame (hop : r.op = .write data lanes) : settle s r (.post (.toFrame c k)) = posted s
    { target := .frame k, addr := BitVec.ofNat 21 ((s.homePages + k) * 128 + r.addr.toNat % 128), data := data,
      lanes := lanes, tag := some c, fill := none } :=
  settle_post hop _

theorem settle_grow {e : MapEntry} (hop : r.op = .write data lanes) (hmap : s.pageMap = before ++ e :: after)
    (hpage : e.homePage = pageOf r.addr) (hn : ∀ x ∈ before ++ after, x.homePage ≠ pageOf r.addr) :
    settle s r (.post (.grow c k)) = { posted s
        { target := .frame k, addr := BitVec.ofNat 21 ((s.homePages + k) * 128 + r.addr.toNat % 128), data := data,
          lanes := lanes, tag := some c
          fill := some (BitVec.ofNat 21 (pageOf r.addr * 128 + blockOf r.addr * 8)) } with
      pageMap := before ++ { e with written := e.written ||| BitVec.ofNat 16 (2 ^ blockOf r.addr) } :: after } := by
  rw [settle_post hop, planClaim, addBlockClaim, hmap, updatePage_middle hpage hn]
  rfl

/-- A refused allocation fails the write and the context (R28, R29, R53). -/
theorem settle_allocationFault (hop : r.op = .write data lanes) (f : FailReason) :
    settle s r (.allocationFault c f) = allocationRefused s r c f.fault f := by
  rw [settle, failContext, completeHost_fault, hop]
  rfl

end

/-! ### A tagged write that arrives -/

section
variable {s : State} {addr : WordAddr} {tag : BitVec 3} {c : ContextId} {data : Word} {lanes : Lanes}

/-- Step 7 and step 8 decide for an admitted write with a lane (R104). -/
theorem classify_admitted (hadm : writeAdmitted s addr tag) (hl : lanes ≠ 0) :
    classify s (sampledRequest addr tag (.write data lanes)) =
      classifyWrite s (sampledRequest addr tag (.write data lanes)) :=
  classify_write (faultSteps_write_admitted rfl hadm) rfl hl

/-- Settles O22: step 8 asks for a frame, and the answer of the allocation settles the write. -/
theorem firstTaggedWrite : Obligations.FirstTaggedWrite := by
  intro s addr tag c data lanes before after h hadm hs hc hl hfree hmap hb ha
  have page : noEntryFor s (pageOf addr) := by rw [noEntryFor, hmap]; exact noEntry_between hb ha
  have asks : classify s (sampledRequest addr tag (.write data lanes)) = requestFrame s c :=
    (classify_admitted hadm hl).trans (classifyWrite_first hs hc page hfree)
  refine ⟨fun k rest hcount hk => ?_, fun hcount => ?_, fun hcount hk => ?_⟩
  · rw [exec_hostRequest h (asks.trans (requestFrame_granted hcount hk))]
    exact congrArg _ (settle_allocate (s := arrived s) rfl hmap hb ha hk)
  · rw [exec_hostRequest h (asks.trans (requestFrame_contextFull hcount)), settle_allocationFault rfl]
    rfl
  · rw [exec_hostRequest h (asks.trans (requestFrame_poolExhausted hcount hk)), settle_allocationFault rfl]
    rfl

/-- Settles O23: the entry of the page is the context's own, with or without the block. -/
theorem writeToOwnEntry : Obligations.WriteToOwnEntry := by
  intro s addr tag c data lanes e before after h hadm hs hc hl hfree hmap hpage he hn x hx
  have found : lookupPage s.pageMap (pageOf addr) = some e := by rw [hmap]; exact lookupPage_middle hpage hn
  have own := (classify_admitted (data := data) hadm hl).trans (classifyWrite_own hs hc found he hfree)
  subst hx
  refine ⟨fun hblock => ?_, fun hblock => ?_⟩
  · rw [exec_hostRequest h (own.trans (congrArg Verdict.post (if_pos hblock)))]
    exact congrArg _ (settle_toFrame (s := arrived s) rfl)
  · have new : ¬ e.written.getLsbD (blockOf addr) = true := by simp [hblock]
    rw [exec_hostRequest h (own.trans (congrArg Verdict.post (if_neg new)))]
    exact congrArg _ (settle_grow (s := arrived s) rfl hmap hpage hn)

end

end Sys2Proof.Machine.HostAccess
end

section
/-! SUPPORT. The release of a held request (R122): what its second classification leaves, at a departure from the buffer
(R131), at the retire of a record (R74) and at an ABORT (R56). -/

namespace Sys2Proof.Machine.HostAccess

-- One proof at a time: each proof run beside the others takes a thread, and its stack counts against the memory
-- limit of the check.
set_option Elab.async false

/-! ### The write that is classified again (R104, R108, R117 to R122) -/

section
variable {s v : State} {r : Request} {data : Word} {lanes : Lanes} {w : HoldReason}

/-- Steps 1 to 4 pass for a write that is released: the region descriptors are not looked at again (R108). -/
theorem regionStep_passed (h : r.regionPassed = true) : regionStep s r = none := by
  simp [regionStep, h]

theorem faultSteps_tagAdmitted (hop : r.op = .write data lanes) (hr : r.regionPassed = true)
    (ha : addressAdmitted s r.addr) (ht : tagAdmitted s r.tag) : faultSteps s r = none := by
  rw [faultSteps_admitted ha (tagAdmitted_le ht), regionStep_passed hr, Option.none_or]
  rcases ht with ht | ⟨c, hc, hopen⟩
  · exact contextStep_direct ht
  · exact (contextStep_write (by simp [Request.isWrite, hop]) hc).mpr hopen

/-- A write that is held again keeps its hold timer and what it has passed (R108, R121). -/
theorem holdRequest_again (hr : r.regionPassed = true)
    {us : Nat} (ht : s.host.holdTimer = some us) (a : Option WordAddr) :
    holdRequest s r w a = heldAgain s r w a := by
  simp [holdRequest, heldAgain, hr, ht]

/-- The answer of a classification settles the request. -/
theorem classifyRequest_eq {x : Verdict} (h : classify s r = x) : classifyRequest s r = settle s r x := by
  rw [classifyRequest, h]

/-- A released write settles as the statements say (R104, R117 to R122). -/
theorem classifyRequest_write (hop : r.op = .write data lanes) (hr : r.regionPassed = true)
    (ha : addressAdmitted s r.addr) (h : WriteSettles s r data lanes v) :
    classifyRequest s { r with phase := .classifying } = v := by
  have write : ({ r with phase := .classifying } : Request).isWrite = true := by simp [Request.isWrite, hop]
  have faults {c : ContextId} {f : FaultReason} (hc : contextOf r.tag = some c) (hf : f.reportable = true)
      (hstep : contextStep s { r with phase := .classifying } = some f) :
      classifyRequest s { r with phase := .classifying } = writeFaulted s r f := by
    rw [classifyRequest_eq (classify_of_contextStep (r := { r with phase := .classifying }) ha hc
      (regionStep_passed hr) hstep), settle, completeFault_reportable hf, writeFaulted]
    simp only [hop, faultData]
  have passed (hl : lanes ≠ 0) (ht : tagAdmitted s r.tag) :
      classify s { r with phase := .classifying } = classifyWrite s { r with phase := .classifying } :=
    classify_write (faultSteps_tagAdmitted hop hr ha ht) hop hl
  have opened {c : ContextId} (hc : contextOf r.tag = some c) (ho : (s.contexts.get c).state = .opened) :
      tagAdmitted s r.tag := .inr ⟨c, hc, ho⟩
  cases h with
  | closed c hc hs =>
    refine faults hc rfl ?_
    simp only [List.mem_cons, List.not_mem_nil, or_false] at hs
    rcases hs with hs | hs | hs <;> simp [contextStep, hc, hs, write]
  | failed c g a hc hs => exact faults hc rfl (by simp [contextStep, hc, hs, write])
  | conflict e owner hl ht hs hpage he hother =>
    rw [classifyRequest_eq ((passed hl ht).trans (classifyWrite_conflict hs hpage he hother)), settle,
      completeFault_reportable rfl, writeFaulted]
    simp only [hop, faultData]
  | record e n us hl ht hs hpage he htimer =>
    rw [classifyRequest_eq ((passed hl ht).trans (classifyWrite_record hs hpage he))]
    exact holdRequest_again hr htimer none
  | full us hl ht hpage hfull htimer =>
    rw [classifyRequest_eq ((passed hl ht).trans (classifyWrite_full hfull hpage))]
    exact holdRequest_again hr htimer none
  | home hl ht hpage hfree =>
    have direct : contextOf r.tag = none := by rw [ht, contextOf_zero]
    rw [classifyRequest_eq ((passed hl (.inl ht)).trans
      ((classifyWrite_home (hpage.imp_right fun hn => ⟨direct, hn⟩)).trans (ifBufferFree_free hfree _)))]
    exact settle_post (r := { r with phase := .classifying }) hop .home
  | allocate c k rest before after hl hs hc ho hfree hmap hb hafter hcount hk =>
    have page : noEntryFor s (pageOf r.addr) := by rw [noEntryFor, hmap]; exact noEntry_between hb hafter
    rw [classifyRequest_eq ((passed hl (opened hc ho)).trans
      ((classifyWrite_first hs hc page hfree).trans (requestFrame_granted hcount hk)))]
    exact settle_allocate hop hmap hb hafter hk
  | contextFull c hl hs hc ho hfree hn hcount =>
    rw [classifyRequest_eq ((passed hl (opened hc ho)).trans
      ((classifyWrite_first hs hc hn hfree).trans (requestFrame_contextFull hcount)))]
    exact settle_allocationFault hop _
  | poolExhausted c hl hs hc ho hfree hn hcount hk =>
    rw [classifyRequest_eq ((passed hl (opened hc ho)).trans
      ((classifyWrite_first hs hc hn hfree).trans (requestFrame_poolExhausted hcount hk)))]
    exact settle_allocationFault hop _
  | ownEntry e c before after x _ hl hs hc ho hfree hmap hpage he hn hx hv =>
    have found : lookupPage s.pageMap (pageOf r.addr) = some e := by rw [hmap]; exact lookupPage_middle hpage hn
    rw [classifyRequest_eq ((passed hl (opened hc ho)).trans (classifyWrite_own hs hc found he hfree)), hv, hx]
    dsimp only
    split
    · exact settle_toFrame hop
    · exact settle_grow hop hmap hpage hn

/-- A write is never held for a departure that a read waits for. -/
theorem writeSettles_not_readWait (h : WriteSettles s r data lanes v) {q : Request}
    (hq : v.host.outstanding = some q) : q.phase ≠ .held .readWait := by
  cases h
  case record | full =>
    cases hq
    simp
  case ownEntry hv =>
    rw [hv] at hq
    split at hq <;> cases hq
  all_goals simp [writeFaulted, allocationRefused, posted, hostFaulted, hostDone] at hq

/-- A write held for this reason is released as its classification says (R122). -/
theorem releaseHeld_write (hout : s.host.outstanding = some r) (hp : r.phase = .held w) (hop : r.op = .write data lanes)
    (hr : r.regionPassed = true) (ha : addressAdmitted s r.addr) (h : WriteSettles s r data lanes v) :
    releaseHeld s w = v := by
  simp only [releaseHeld, hout, hp, if_true]
  exact classifyRequest_write hop hr ha h

theorem releaseHeld_other (h : ∀ r, s.host.outstanding = some r → r.phase ≠ .held w) : releaseHeld s w = s := by
  unfold releaseHeld
  split
  · exact if_neg (h _ ‹_›)
  · rfl

theorem releaseReadWait_other (h : ∀ r, s.host.outstanding = some r → r.phase ≠ .held .readWait) :
    releaseReadWait s = s := by
  unfold releaseReadWait
  split
  · simp [h _ ‹_›]
  · rfl

end

/-! ### The read that is classified again (R112, R115, R122) -/

section
variable {s v : State} {r : Request} {a : WordAddr}

theorem classifyRequest_read (hop : r.op = .read) (ha : addressAdmitted s r.addr) (h : ReadSettles s r v) :
    classifyRequest s { r with phase := .classifying } = v := by
  have view {b : WordAddr} (hres : readResolves s r.addr r.tag b) :
      classify s { r with phase := .classifying } = classifyRead s { r with phase := .classifying } :=
    classify_read (faultSteps_read_resolved hop ha hres) hop
  cases h with
  | closed c hc hs =>
    have fails : contextStep s { r with phase := .classifying } = some .contextClosed :=
      (contextStep_read hop hc).trans (if_pos hs)
    rw [classifyRequest_eq (classify_of_contextStep (r := { r with phase := .classifying }) ha hc
      (regionStep_read hop) fails), settle, completeFault_reportable rfl]
    simp only [hop, faultData]
  | granted a hres hfree => rw [classifyRequest_eq ((view hres).trans (classifyRead_free hres hfree))]; rfl
  | held a us hres hconflict htimer =>
    rw [classifyRequest_eq ((view hres).trans (classifyRead_conflict hres hconflict))]
    simp [settle, holdRequest, heldAgain, Request.isWrite, hop, htimer]

theorem releaseReadWait_read (hout : s.host.outstanding = some r) (hp : r.phase = .held .readWait)
    (hres : r.resolved = some a) (hfree : ∀ e ∈ s.buffer.entries, e.addr.toNat / 8 ≠ a.toNat / 8) :
    releaseReadWait s = classifyRequest s { r with phase := .classifying } := by
  have noConflict : conflicts s.buffer a = false := by
    rw [← Bool.not_eq_true, conflicts_iff]
    rintro ⟨e, he, heq⟩
    exact hfree e he heq
  simp [releaseReadWait, hout, hp, hres, noConflict]

/-- A read waits on while a conflicting entry is left (R122, R133). -/
theorem releaseReadWait_waits (hout : s.host.outstanding = some r) (hres : r.resolved = some a)
    (hconflict : ∃ e ∈ s.buffer.entries, e.addr.toNat / 8 = a.toNat / 8) : releaseReadWait s = s := by
  simp [releaseReadWait, hout, hres, conflicts_iff.mpr hconflict]

/-- What a departure makes of the outstanding request is what the statements say (R122, R131). -/
theorem releaseDeparture_eq (h : RequestReleased s v) : releaseDeparture s = v := by
  unfold releaseDeparture
  cases h with
  | other hn =>
    rw [releaseHeld_other fun r hr => (hn r hr).1, releaseReadWait_other fun r hr => (hn r hr).2]
  | write r data lanes _ hout hp hop hr ha hw =>
    rw [releaseHeld_write hout hp hop hr ha hw]
    exact releaseReadWait_other fun q hq => writeSettles_not_readWait hw hq
  | read r a _ hout hp hop hres ha hfree hr =>
    have notFull : ∀ q, s.host.outstanding = some q → q.phase ≠ .held .bufferFull := by
      intro q hq
      obtain rfl := Option.some.inj (hout.symm.trans hq)
      simp [hp]
    rw [releaseHeld_other notFull, releaseReadWait_read hout hp hres hfree]
    exact classifyRequest_read hop ha hr
  | waits r a hout hp hres hconflict =>
    have notFull : ∀ q, s.host.outstanding = some q → q.phase ≠ .held .bufferFull := by
      intro q hq
      obtain rfl := Option.some.inj (hout.symm.trans hq)
      simp [hp]
    rw [releaseHeld_other notFull, releaseReadWait_waits hout hres hconflict]

end

/-! ### The end of DRAIN and of the drain step of FORMAT (R15, R66, R131) -/

section
variable {s v : State}

theorem engineRuns_iff : engineRuns s = true ↔ procedureRuns s := by
  unfold engineRuns procedureRuns
  cases s.bridge.state <;> simp

theorem holdsTag_iff {b : PostedBuffer} {c : ContextId} : holdsTag b c = true ↔ ∃ e ∈ b.entries, e.tag = some c := by
  simp [holdsTag]

theorem endDrain_waits {r : CurrentRecord} {c : ContextId} (hr : s.engine.record = some r) (hc : r.context = some c)
    (h : ∃ e ∈ s.buffer.entries, e.tag = some c) : endDrain s = s := by
  simp [endDrain, hr, hc, holdsTag_iff.mpr h]

theorem endDrain_ends {r : CurrentRecord} {c : ContextId} (hs : s.engine.stage = .drain) (hr : s.engine.record = some r)
    (hc : r.context = some c) (hrun : procedureRuns s) (h : ∀ e ∈ s.buffer.entries, e.tag ≠ some c) :
    endDrain s = beginSum s := by
  have gone : holdsTag s.buffer c = false := by
    rw [← Bool.not_eq_true, holdsTag_iff]
    rintro ⟨e, he, heq⟩
    exact h e he heq
  simp [endDrain, hr, hc, hs, engineRuns_iff.mpr hrun, gone]

theorem endDrain_stopped (h : ¬ procedureRuns s) : endDrain s = s := by
  have stopped : engineRuns s = false := by rwa [← Bool.not_eq_true, engineRuns_iff]
  unfold endDrain
  split
  · simp [stopped]
  · rfl

theorem endFormatDrain_stopped (h : ¬ procedureRuns s) : endFormatDrain s = s := by
  have stopped : engineRuns s = false := by rwa [← Bool.not_eq_true, engineRuns_iff]
  simp [endFormatDrain, stopped]

/-- SUM begins at the first block of item 0 (R67). -/
theorem beginSum_at {r : CurrentRecord} {it : RecordItem} {b : Nat} (hr : s.engine.record = some r)
    (hi : r.items[0]? = some it) (hb : firstBlock it.written = some b) : beginSum s = { s with engine := { s.engine with
      stage := .sum, sums := { first := 0, second := 0 }
      record := some { r with items := r.items.map fun it => { it with checksum := none }, recordChecksum := none }
      pos := { slotIndex := 0, entry := 0, block := b, word := 0, pass := .checksum } } } := by
  rw [Completions.beginSum_eq hr, Completions.itemStart_first_block hi hb]
  rfl

/-- What a departure makes of the engine is what the statements say (R15, R66, R131). -/
theorem endDrainSteps_eq (h : DrainStepEnded s v) : endFormatDrain (endDrain s) = v := by
  cases h with
  | other hd hf =>
    rw [ArrayPort.endDrain_elsewhere hd]
    simp [endFormatDrain, hf]
  | stopped hrun => rw [endDrain_stopped hrun, endFormatDrain_stopped hrun]
  | waits r c hs hr hc h =>
    rw [endDrain_waits hr hc h, ArrayPort.endFormatDrain_elsewhere (by simp [hs])]
  | sum r c it b hs hr hc hi hb hrun h =>
    rw [endDrain_ends hs hr hc hrun h, beginSum_at hr hi hb]
    exact ArrayPort.endFormatDrain_elsewhere (by simp)
  | formatWaits hs hd =>
    rw [ArrayPort.endDrain_elsewhere (by simp [hs])]
    simp [endFormatDrain, hd]
  | formatGoesOn hs hstep hd hrun =>
    rw [ArrayPort.endDrain_elsewhere (by simp [hs])]
    simp [endFormatDrain, hs, hstep, hd, engineRuns_iff.mpr hrun, enterFormatStep, Position.start]

end

/-- Settles O46: the departure is handed on to the request, then to the engine. -/
theorem departureReleases : Obligations.DepartureReleases := by
  intro s t u v w ⟨hp, ht⟩ hpurpose hu hv hw hn
  refine congrArg Host.Outcome.next ((onCompletion_at hp ht hpurpose _).trans ?_)
  have left : { completeTransfer s t with buffer := bufferFrom (completeTransfer s t).buffer.entries.tail } = u := by
    rw [hu, ArrayPort.bufferFrom_tail]
    rfl
  rw [departHead, left, releaseDeparture_eq hv, endDrainSteps_eq hw, Completions.autoResume_of_noResumeDue hn]

end Sys2Proof.Machine.HostAccess
end

section
/-! SUPPORT. The retire of a record and the ABORT of a context: what each removes, and the request that each may release
(R25, R33, R54 to R56, R74, R116, R122, R134). -/

namespace Sys2Proof.Machine.HostAccess

-- One proof at a time: each proof run beside the others takes a thread, and its stack counts against the memory
-- limit of the check.
set_option Elab.async false

/-! ### The entries of the record in its order (R22, R25) -/

/-- The place of an entry in its record; 0 for an entry that a context owns. -/
def recordPlace (e : MapEntry) : Nat := e.position?.getD 0

theorem ofRecord_place {e : MapEntry} {n : Nat} (h : e.ofRecord n) : inRecord e = true ∧ recordPlace e = n := by
  rcases h with h | h <;> simp [inRecord, recordPlace, MapEntry.position?, h]

theorem inRecord_iff {e : MapEntry} : inRecord e = true ↔ ∃ n, e.ofRecord n := by
  refine ⟨fun h => ?_, fun ⟨n, hn⟩ => (ofRecord_place hn).1⟩
  unfold inRecord MapEntry.position? at h
  cases hs : e.state with
  | context c => simp [hs] at h
  | pending n => exact ⟨n, .inl hs⟩
  | copied n => exact ⟨n, .inr hs⟩

theorem insertByPosition_sorted {e : MapEntry} {m : List MapEntry}
    (h : m.Pairwise fun a b => recordPlace a ≤ recordPlace b) :
    (insertByPosition e m).Pairwise fun a b => recordPlace a ≤ recordPlace b := by
  induction m with
  | nil => exact List.pairwise_singleton _ _
  | cons x xs ih =>
    obtain ⟨hx, hxs⟩ := List.pairwise_cons.mp h
    unfold insertByPosition
    split
    · rename_i hle
      refine List.pairwise_cons.mpr ⟨fun y hy => ?_, h⟩
      rcases List.mem_cons.mp hy with rfl | hy
      · exact hle
      · exact Nat.le_trans hle (hx y hy)
    · rename_i hlt
      refine List.pairwise_cons.mpr ⟨fun y hy => ?_, ih hxs⟩
      rcases List.mem_cons.mp ((insertByPosition_perm e xs).mem_iff.mp hy) with rfl | hy
      · exact Nat.le_of_not_le hlt
      · exact hx y hy

theorem entriesOfRecord_sorted (m : List MapEntry) :
    (entriesOfRecord m).Pairwise fun a b => recordPlace a ≤ recordPlace b := by
  unfold entriesOfRecord
  induction m.filter inRecord with
  | nil => exact .nil
  | cons x xs ih => exact insertByPosition_sorted ih

/-- The second walk visits the entries of the record in record order (R22). -/
theorem entriesOfRecord_eq {m l : List MapEntry} (hm : m.Nodup) (hl : ∀ e, e ∈ l ↔ e ∈ m ∧ ∃ n, e.ofRecord n)
    (ho : l.Pairwise fun a b => ∃ i j, a.ofRecord i ∧ b.ofRecord j ∧ i < j) : entriesOfRecord m = l := by
  have strict : l.Pairwise fun a b => recordPlace a < recordPlace b := by
    refine ho.imp ?_
    rintro a b ⟨i, j, ha, hb, hij⟩
    rwa [(ofRecord_place ha).2, (ofRecord_place hb).2]
  have nodup : l.Nodup := strict.imp fun h e => by rw [e] at h; exact Nat.lt_irrefl _ h
  have perm : (entriesOfRecord m).Perm l := by
    refine (entriesOfRecord_perm m).trans ((List.perm_ext_iff_of_nodup (hm.filter _) nodup).mpr fun e => ?_)
    rw [List.mem_filter, hl, inRecord_iff]
  have places : (l.map recordPlace).Nodup :=
    List.pairwise_map.mpr (strict.imp Nat.ne_of_lt)
  refine List.Perm.eq_of_pairwise (le := fun a b => recordPlace a ≤ recordPlace b) (fun a b ha hb h1 h2 => ?_)
    (entriesOfRecord_sorted m) (strict.imp Nat.le_of_lt) perm
  exact List.inj_on_of_nodup_map places (perm.mem_iff.mp ha) hb (Nat.le_antisymm h1 h2)

/-! ### The retire of a commit (R25, R74) -/

section
variable {s v : State} {t : Transfer} {o : TakenOrder} {p : Pause} {pu : Purpose} {st : Stage} {f : Word → State → State}

/-- A completion that counts leaves what its effect leaves, with the pause the premise names, where the effect changes
nothing that an auto-resume in FROZEN looks at (R78, R151). -/
theorem onEngineCompletion_effect (ht : transferring s t) (hu : t.purpose = pu) (hc : completionCounts s o p)
    (hs : s.engine.stage = st) (hf : f (readWord s.array t.addr) (completeTransfer s t) = v)
    (hb : v.bridge.state = s.bridge.state := by rfl) (hp : v.engine.pause = s.engine.pause := by rfl)
    (hset : v.settings = s.settings := by rfl) (hm : v.monitor = s.monitor := by rfl)
    (hd : v.buffer = s.buffer := by rfl) :
    onEngineCompletion s pu st o f = { v with engine := { v.engine with pause := p } } := by
  rw [Completions.onEngineCompletion_at ht hu,
    Completions.engineTakes_counted (Completions.engineCounts_of_completionCounts hc) hs, hf]
  rcases hc with ⟨hs, hrun, rfl⟩ | ⟨hs, -, -, rfl, hn⟩
  · have running : v.bridge.state ≠ .frozen := by rw [hb]; rintro hf; simp [hf] at hs
    rw [Completions.takePause_elsewhere running, Completions.autoResume_of_noResumeDue (.inl running), ← hrun, ← hp]
  · rw [Completions.takePause_frozen (hb.trans hs)]
    refine Completions.autoResume_of_noResumeDue ?_
    rw [noResumeDue, hset, hm, hd]
    rcases hn with hn | hn
    · exact absurd hs hn
    · exact .inr hn

/-- The Retire claim keeps the entries that contexts own, and the frames go to the tail of the list in record order
(R25). -/
theorem retireClaim_eq {l : List MapEntry} (hl : entriesOfRecord s.pageMap = l) : s.retireClaim = { s with
    pageMap := s.pageMap.filter fun e => match e.state with
      | .context _ => true
      | .pending _ | .copied _ => false
    freeFrames := s.freeFrames ++ l.map MapEntry.frame } := by
  have kept : s.pageMap.filter (fun e => !inRecord e) = s.pageMap.filter fun e => match e.state with
      | .context _ => true
      | .pending _ | .copied _ => false := by
    refine List.filter_congr fun e _ => ?_
    cases hs : e.state <;> simp [inRecord, MapEntry.position?, hs]
  rw [State.retireClaim, kept, hl]

/-- The machine after the Retire claim that gives back the frames of `l`, with this pause (R25, R74). -/
def retiredTo (s : State) (t : Transfer) (l : List MapEntry) (p : Pause) : State :=
  { completed s t { s.engine with
      stage := .idle, record := none, pause := p
      pos := { slotIndex := 0, entry := 0, block := 0, word := 0, pass := .checksum } } with
    pageMap := s.pageMap.filter fun e => match e.state with
      | .context _ => true
      | .pending _ | .copied _ => false
    freeFrames := s.freeFrames ++ l.map MapEntry.frame }

theorem retireCommit_eq {l : List MapEntry} (hl : entriesOfRecord s.pageMap = l) :
    retireCommit (completeTransfer s t) = releaseHeld (retiredTo s t l s.engine.pause) .record := by
  have claim := retireClaim_eq (s := completeTransfer s t) hl
  rw [retireCommit, claim]
  rfl

end

/-- Settles O51: the claim in record order, then the write that waited for it. -/
theorem recordRetired : Obligations.RecordRetired := by
  rintro s t o p l _ ht hu hc hs hl ho hm rfl
  have retires : retireCommit (completeTransfer s t) = releaseHeld (retiredTo s t l s.engine.pause) .record :=
    retireCommit_eq (entriesOfRecord_eq hm hl ho)
  refine ⟨fun hn => ?_, fun r data lanes v hr hphase hop hpassed ha hw => ?_⟩
  · have kept : releaseHeld (retiredTo s t l s.engine.pause) .record = retiredTo s t l s.engine.pause :=
      releaseHeld_other hn
    exact congrArg _ (onEngineCompletion_effect (v := retiredTo s t l s.engine.pause) ht hu hc hs (retires.trans kept))
  · have notFrozen : s.bridge.state ≠ .frozen := by
      rcases ha with ⟨hs, -⟩ | ⟨hs, -⟩ <;> simp [hs]
    obtain ⟨hrun, rfl⟩ : s.engine.pause = .running ∧ p = .running := by
      rcases hc with ⟨-, hrun, hp⟩ | ⟨hf, -⟩
      · exact ⟨hrun, hp⟩
      · exact absurd hf notFrozen
    have released : releaseHeld (retiredTo s t l s.engine.pause) .record = v := by
      rw [hrun]
      exact releaseHeld_write hr hphase hop hpassed ha hw
    have state : v.bridge.state ≠ .frozen := by
      rw [← released, (releaseHeld_frame _ _).2.1]
      exact notFrozen
    refine congrArg _ ((Completions.onEngineCompletion_at ht hu).trans ?_)
    rw [Completions.engineTakes_counted (Completions.engineCounts_of_completionCounts hc) hs, retires, released,
      Completions.takePause_elsewhere state, Completions.autoResume_of_noResumeDue (.inl state)]

/-! ### ABORT (R33, R55, R56) -/

section
variable {s : State} {k : ContextId}

theorem discardTagged_eq (b : PostedBuffer) (k : ContextId) : discardTagged b k = afterAbort b k := by
  have begun : (b.head.map DrainHead.begun).getD false = true ↔ b.head.map DrainHead.begun = some true := by
    cases b.head with
    | none => simp
    | some h => simp
  unfold discardTagged afterAbort
  cases hx : b.entries with
  | nil => rfl
  | cons x xs =>
    simp only [Bool.or_eq_true, decide_eq_true_eq, begun]
    split
    · rfl
    · exact ArrayPort.bufferFrom_tail { b with entries := x :: xs.filter fun e => decide (e.tag ≠ some k) }

/-- The claim of ABORT at queue, buffer, map and context, before the outstanding request is looked at (R55). -/
theorem abortContext_eq : abortContext s k = abortHost (aborted s k) k (entriesOf s.pageMap k)
    (decide ((afterAbort s.buffer k).entries.length < s.buffer.entries.length)) := by
  have kept : s.pageMap.filter (fun e => !ownedBy k e) = s.pageMap.filter fun e => decide (e.state ≠ .context k) := by
    refine List.filter_congr fun e _ => ?_
    simp [ownedBy]
  simp only [abortContext, discardTagged_eq, State.abortClaim, kept]
  rfl

theorem exec_abort_accepted {c : Byte} (hs : s.bridge.state = .serving) (hc : contextOf c = some k)
    (hat : atDecode s 0x12 [c] = true) (hst : (s.contexts.get k).state = .opened ∨ (s.contexts.get k).state = .queued ∨
      ∃ r a, (s.contexts.get k).state = .failed r a) {v : State}
    (hv : abortHost (aborted s k) k (entriesOf s.pageMap k)
      (decide ((afterAbort s.buffer k).entries.length < s.buffer.entries.length)) = v) :
    exec (.abort c) s = .next (acceptedWith v 0x12 [c] []) := by
  subst hv
  rw [← abortContext_eq]
  refine Updates.step3_accepted hat hs hc ?_
  rcases hst with hst | hst | ⟨r, a, hst⟩ <;> rw [hst]

theorem abortHost_nobody {u : State} (hn : u.host.outstanding = none) (removed : List MapEntry) (freed : Bool) :
    abortHost u k removed freed = u := by
  simp [abortHost, hn]

/-- A read of a frame of a removed entry (R56). -/
theorem readsFrameOf_iff {r : Request} {a : WordAddr} (hres : r.resolved = some a) :
    readsFrameOf (aborted s k) r k (entriesOf s.pageMap k) = true ↔
      contextOf r.tag = some k ∧ ∃ e ∈ s.pageMap, e.state = .context k ∧ pageOf a = s.homePages + e.frame := by
  have pages : (aborted s k).homePages = s.homePages := rfl
  simp [readsFrameOf, hres, entriesOf, ownedBy, pages]

section
variable {r : Request} {removed : List MapEntry} {freed : Bool} {u : State} {a : WordAddr}

theorem abortHost_read_closed (hr : u.host.outstanding = some r) (hop : r.op = .read)
    (hp : r.phase = .held .readWait ∨ r.phase = .readGrant) (hreads : readsFrameOf u r k removed = true) :
    abortHost u k removed freed = pushEvent { u with host := hostFaulted u.host .contextClosed 0 }
      (.hostFault r.tag .contextClosed r.addr) := by
  have faults : completeFault u r .contextClosed = pushEvent { u with host := hostFaulted u.host .contextClosed 0 }
      (.hostFault r.tag .contextClosed r.addr) := by
    rw [completeFault_reportable rfl, hop]
    rfl
  rw [← faults]
  rcases hp with hp | hp <;> simp [abortHost, hr, hp, hreads]

theorem abortHost_read_granted (hr : u.host.outstanding = some r) (hp : r.phase = .held .readWait)
    (hres : r.resolved = some a) (hreads : readsFrameOf u r k removed = false)
    (hfree : ∀ e ∈ u.buffer.entries, e.addr.toNat / 8 ≠ a.toNat / 8) : abortHost u k removed freed = { u with
      host := { u.host with outstanding := some { r with phase := .readGrant }, holdTimer := none } } := by
  have noConflict : conflicts u.buffer a = false := by
    rw [← Bool.not_eq_true, conflicts_iff]
    rintro ⟨e, he, heq⟩
    exact hfree e he heq
  simp [abortHost, hr, hp, hreads, hres, noConflict, grantRead]

theorem abortHost_read_stays (hr : u.host.outstanding = some r) (hres : r.resolved = some a)
    (hp : r.phase = .held .readWait ∨ r.phase = .readGrant) (hreads : readsFrameOf u r k removed = false)
    (hstays : r.phase = .readGrant ∨ ∃ e ∈ u.buffer.entries, e.addr.toNat / 8 = a.toNat / 8) :
    abortHost u k removed freed = u := by
  rcases hp with hp | hp
  · have conflict : conflicts u.buffer a = true := conflicts_iff.mpr (hstays.resolve_left (by simp [hp]))
    simp [abortHost, hr, hp, hreads, hres, conflict]
  · simp [abortHost, hr, hp, hreads]

end

end

/-- Settles O39: the request is looked at in the machine that the claim leaves. -/
theorem abortAccepted : Obligations.AbortAccepted := by
  intro s c k hs hc hat hst
  refine ⟨fun hn => exec_abort_accepted hs hc hat hst ?_, fun r hr => ⟨fun a hop hres hp => ⟨fun htag hframe => ?_,
    fun hother => ?_⟩, fun data lanes v hop hp hfreed haddr hpassed hw => ?_⟩⟩
  · cases hr : s.host.outstanding with
    | none => exact abortHost_nobody (u := aborted s k) hr _ _
    | some r =>
      have out : (aborted s k).host.outstanding = some r := hr
      rcases hn r hr with hp | hp | ⟨hp, hlen⟩
      · simp [abortHost, out, hp]
      · simp [abortHost, out, hp]
      · simp [abortHost, out, hp, hlen]
  · exact exec_abort_accepted hs hc hat hst
      (abortHost_read_closed (u := aborted s k) hr hop hp ((readsFrameOf_iff hres).mpr ⟨htag, hframe⟩))
  · have spared : readsFrameOf (aborted s k) r k (entriesOf s.pageMap k) = false := by
      rw [← Bool.not_eq_true, readsFrameOf_iff hres]
      rintro ⟨htag, e, he, hstate, hpage⟩
      exact hother.elim (fun h => h htag) fun h => h e he hstate hpage
    exact ⟨fun hw hfree => exec_abort_accepted hs hc hat hst
        (abortHost_read_granted (u := aborted s k) hr hw hres spared hfree),
      fun hstays => exec_abort_accepted hs hc hat hst
        (abortHost_read_stays (u := aborted s k) hr hres hp spared hstays)⟩
  · refine exec_abort_accepted hs hc hat hst ?_
    have out : (aborted s k).host.outstanding = some r := hr
    have released : releaseHeld (aborted s k) .bufferFull = v :=
      releaseHeld_write hr hp hop hpassed (.inl ⟨hs, haddr⟩) hw
    simp [abortHost, out, hp, hfreed, released]

end Sys2Proof.Machine.HostAccess
end

section
/-! SUPPORT. The take of work, the commit point, the copy of COPY and APPLY, and the end of recovery and of FORMAT: each
step of the engine by the transfer that completes (R15, R23, R24, R51, R65, R70 to R73, R93, R95). -/

namespace Sys2Proof.Machine.EngineSteps

-- One proof at a time: each proof run beside the others takes a thread, and its stack counts against the memory
-- limit of the check.
set_option Elab.async false

/-! ### The take (R51, R61, R65, R66) -/

section
variable {s : State} {c : ContextId} {rest : List ContextId}

theorem exec_takeWork (hp : s.powered = true) (hq : s.commitQueue = c :: rest) (hi : s.engine.stage = .idle)
    (hs : s.bridge.state = .serving) (hrun : s.engine.pause = .running) :
    exec .takeWork s = .next (takeContext s c rest) := by
  have runs : engineRuns s = true := by simp [engineRuns, hs, hrun]
  refine congrArg _ ((whenPowered_on hp _).trans ?_)
  rw [hq]
  exact if_pos ⟨hi, hs, runs⟩

theorem exec_takeWork_nothing (hp : s.powered = true)
    (h : s.commitQueue = [] ∨ s.engine.stage ≠ .idle ∨ s.bridge.state ≠ .serving) : exec .takeWork s = .next s := by
  refine congrArg _ ((whenPowered_on hp _).trans ?_)
  cases hq : s.commitQueue with
  | nil => rfl
  | cons c rest =>
    refine if_neg ?_
    rintro ⟨hi, hs, -⟩
    simp [hq, hi, hs] at h

end

/-- Settles O42: the record is formed at the take, and DRAIN ends at once with no entry of the context in the buffer. -/
theorem workTaken : Obligations.WorkTaken := by
  intro s hp
  refine ⟨exec_takeWork_nothing hp, fun c rest e es b hq hi hs hrun hentries hb u r hr hu => ?_⟩
  have formed : recordFor s c = r := by
    have owned : entriesOf s.pageMap c = e :: es := hentries
    rw [recordFor, owned, hr]
    rfl
  have taken : takeContext s c rest = endDrain u := by
    rw [takeContext, formed, hu]
    rfl
  have record : u.engine.record = some r ∧ r.context = some c ∧ u.buffer = s.buffer ∧ u.engine.stage = .drain := by
    rw [hu, hr]
    exact ⟨rfl, rfl, rfl, rfl⟩
  obtain ⟨hrec, hctx, hbuf, hstage⟩ := record
  rw [exec_takeWork hp hq hi hs hrun, taken]
  refine ⟨fun htag => ?_, fun htag => ?_⟩
  · rw [HostAccess.endDrain_waits hrec hctx (by rwa [hbuf])]
  · have runs : procedureRuns u := by
      rw [hu]
      exact ⟨by simp [hs], hrun⟩
    have first : r.items[0]? = some (itemOfEntry e) := by rw [hr]; rfl
    have clear : r.clearChecksums = r := by
      rw [hr]
      simp [CurrentRecord.clearChecksums]
    rw [HostAccess.endDrain_ends hstage hrec hctx runs (by rwa [hbuf]), Completions.beginSum_eq hrec, clear,
      Completions.itemStart_first_block first hb, ← hrec]
    rfl

/-! ### Completions that change more than the engine -/

section
variable {s v : State} {t : Transfer} {o : TakenOrder} {p : Pause} {pu : Purpose} {st : Stage} {f : Word → State → State}

/-- A completion that counts outside FROZEN leaves what its effect leaves (R78). -/
theorem onEngineCompletion_running (ht : transferring s t) (hu : t.purpose = pu) (hc : completionCounts s o p)
    (hs : s.engine.stage = st) (hf : f (readWord s.array t.addr) (completeTransfer s t) = v)
    (hv : v.bridge.state ≠ .frozen) : onEngineCompletion s pu st o f = v := by
  rw [Completions.onEngineCompletion_at ht hu,
    Completions.engineTakes_counted (Completions.engineCounts_of_completionCounts hc) hs, hf,
    Completions.takePause_elsewhere hv, Completions.autoResume_of_noResumeDue (.inl hv)]

theorem pause_of_running (hc : completionCounts s o p) (hs : s.bridge.state ≠ .frozen) : s.engine.pause = p := by
  rcases hc with ⟨-, hrun, rfl⟩ | ⟨hf, -⟩
  · exact hrun
  · exact absurd hf hs

theorem pushEvent_engine (s : State) (x : Event) (e : Engine) :
    { pushEvent s x with engine := e } = pushEvent { s with engine := e } x := by
  simp only [pushEvent]
  split <;> rfl

end

/-! ### The commit point (R23, R52, R70 to R72) -/

/-- The Mark claim gives each entry of the context its position among them, counted from `n` (R23). -/
theorem markClaim_eq (c : ContextId) (n : Nat) (m : List MapEntry) : markClaim c n m = m.mapIdx fun i e =>
    if e.state = .context c then { e with state := .pending (n + (m.take i).countP fun x => x.state = .context c) }
    else e := by
  induction m generalizing n with
  | nil => rfl
  | cons e es ih =>
    rw [List.mapIdx_cons, markClaim]
    by_cases he : e.state = .context c
    · simp only [ownedBy, he, decide_true, if_true, ih, List.take_zero, List.countP_nil, Nat.add_zero, List.take_succ_cons,
        List.countP_cons, Nat.add_assoc, Nat.add_comm 1]
    · simp only [ownedBy, he, decide_false, Bool.false_eq_true, if_false, ih, List.take_succ_cons, List.countP_cons,
        Nat.add_zero]

/-- Settles O49: the claim, the context and the engine change in one step, and COMMITTED is queued. -/
theorem commitPointPassed : Obligations.CommitPointPassed := by
  intro s t o p r c it b ht hu hc hs hr hctx hi hb
  have passes : commitPoint (completeTransfer s t) = pushEvent { completeTransfer s t with
      pageMap := markClaim c 0 s.pageMap
      contexts := s.contexts.set c { state := .idle, entryCount := 0, lastSequence := r.sequence }
      engine := { s.engine with
        lastSequence := r.sequence, stage := .copy, copyStore := []
        pos := { slotIndex := 0, entry := 0, block := b, word := 0, pass := .copyRead } } }
      (.committed c r.sequence r.entryCount) := by
    simp [commitPoint, hr, hctx, Completions.itemStart_first_block hi hb]
  refine congrArg _ ((HostAccess.onEngineCompletion_effect ht hu hc hs passes (by simp) (by simp) (by simp) (by simp)
    (by simp)).trans ?_)
  rw [pushEvent_engine, markClaim_eq]
  simp only [pushEvent_frame, Nat.zero_add]
  rfl

/-! ### The copy of an item (R24, R73, R93) -/

section
variable {s : State} {r : CurrentRecord} {it : RecordItem} {q : Position} {w : Word}

theorem nextCopy_in_block (h : q.word < 7) : nextCopy it q = some { q with word := q.word + 1 } := if_pos h

theorem nextCopy_writes (h : q.word = 7) (hp : q.pass = .copyRead) :
    nextCopy it q = some { q with word := 0, pass := .copyWrite } :=
  (if_neg (by omega)).trans (if_pos hp)

theorem nextCopy_next_block {b : Nat} (h : q.word = 7) (hp : q.pass = .copyWrite)
    (hb : (blockList it.written).find? (fun x => q.block < x) = some b) :
    nextCopy it q = some { q with block := b, word := 0, pass := .copyRead } := by
  rw [nextCopy, if_neg (by omega), if_neg (by simp [hp]), nextBlock, hb]
  rfl

theorem nextCopy_last (h : q.word = 7) (hp : q.pass = .copyWrite) (hb : ∀ b ∈ blockList it.written, b ≤ q.block) :
    nextCopy it q = none := by
  have hnone : nextBlock it.written q.block = none := List.find?_eq_none.mpr fun b hm => by simpa using hb b hm
  rw [nextCopy, if_neg (by omega), if_neg (by simp [hp]), hnone]
  rfl

theorem item_at {e : Engine} (hr : e.record = some r) (hi : r.items[e.pos.entry]? = some it) : e.item? = some it := by
  simp [Engine.item?, hr, hi]

theorem copyWordRead_next (hr : s.engine.record = some r) (hi : r.items[s.engine.pos.entry]? = some it)
    (hn : nextCopy it s.engine.pos = some q) : copyWordRead s w = { s with engine := { s.engine with
      copyStore := s.engine.copyStore.take s.engine.pos.word ++ [w], pos := q } } := by
  simp only [copyWordRead, item_at hr hi, hn]
  rfl

theorem copyWritten_next (hr : s.engine.record = some r) (hi : r.items[s.engine.pos.entry]? = some it)
    (hn : nextCopy it s.engine.pos = some q) : copyWritten s = setPos s q := by
  simp only [copyWritten, item_at hr hi, hr, hn]

theorem applyWritten_next (hr : s.engine.record = some r) (hi : r.items[s.engine.pos.entry]? = some it)
    (hn : nextCopy it s.engine.pos = some q) : applyWritten s = setPos s q := by
  simp only [applyWritten, item_at hr hi, hn]

/-- The last write of an item takes the Copied claim (R24). -/
theorem copyWritten_last (hr : s.engine.record = some r) (hi : r.items[s.engine.pos.entry]? = some it)
    (hn : nextCopy it s.engine.pos = none) : copyWritten s =
      if s.engine.pos.entry + 1 < r.items.length then
        setPos { s with pageMap := copiedClaim s.pageMap it.homePage }
          (itemStart r.items 0 (s.engine.pos.entry + 1) .copyRead)
      else enterStage { s with pageMap := copiedClaim s.pageMap it.homePage } .retire .start := by
  simp only [copyWritten, item_at hr hi, hr, hn]

/-- The Copied claim makes the PENDING entry of the page COPIED at its position (R24). -/
theorem copiedClaim_eq (m : List MapEntry) (h : Nat) : copiedClaim m h = m.map fun x =>
    match x.state with
    | .pending n => if x.homePage = h then { x with state := .copied n } else x
    | _ => x := by
  refine List.map_congr_left fun x _ => ?_
  unfold MapEntry.toCopied
  cases x.state <;> simp

end

/-- Settles O50: the words of a block, the blocks of an item, and the claim at its end. -/
theorem copyAdvances : Obligations.CopyAdvances := by
  intro s t o p r it e q ht hc hr hi he hq
  subst he hq
  refine ⟨fun c hcmd _ hp store hstore => ?reads, fun c hcmd hp => ?writes, fun hu hs hp hw hb m hm => ?last⟩
  case reads =>
    subst hstore
    have step {n : Position} (hn : nextCopy it s.engine.pos = some n) : exec c s = .next (completed s t { s.engine with
        pause := p, copyStore := s.engine.copyStore.take s.engine.pos.word ++ [readWord s.array t.addr], pos := n }) := by
      have effect : copyWordRead (completeTransfer s t) (readWord s.array t.addr) = completed s t { s.engine with
          copyStore := s.engine.copyStore.take s.engine.pos.word ++ [readWord s.array t.addr], pos := n } :=
        copyWordRead_next (s := completeTransfer s t) hr hi hn
      rcases hcmd with ⟨rfl, hu, hs⟩ | ⟨rfl, hu, hs⟩
      all_goals exact congrArg _ (Completions.onEngineCompletion_counted (f := fun w u => copyWordRead u w) ht hu hc hs effect rfl)
    exact ⟨fun hw => step (nextCopy_in_block hw), fun hw => step (nextCopy_writes hw hp)⟩
  case writes =>
    have step {n : Position} (hn : nextCopy it s.engine.pos = some n) :
        exec c s = .next (completed s t { s.engine with pause := p, pos := n }) := by
      rcases hcmd with ⟨rfl, hu, hs⟩ | ⟨rfl, hu, hs⟩
      · have effect : copyWritten (completeTransfer s t) = completed s t { s.engine with pos := n } :=
          copyWritten_next (s := completeTransfer s t) hr hi hn
        exact congrArg _ (Completions.onEngineCompletion_counted (f := fun _ => copyWritten) ht hu hc hs effect rfl)
      · have effect : applyWritten (completeTransfer s t) = completed s t { s.engine with pos := n } :=
          applyWritten_next (s := completeTransfer s t) hr hi hn
        exact congrArg _ (Completions.onEngineCompletion_counted (f := fun _ => applyWritten) ht hu hc hs effect rfl)
    exact ⟨fun hw => step (nextCopy_in_block hw), fun b hw hb => step (nextCopy_next_block hw hp hb)⟩
  case last =>
    have ends := copyWritten_last (s := completeTransfer s t) hr hi (nextCopy_last hw hp hb)
    have claim : copiedClaim (completeTransfer s t).pageMap it.homePage = m := (copiedClaim_eq _ _).trans hm.symm
    rw [claim] at ends
    refine ⟨fun it2 b hi2 hb2 => ?_, fun hl => ?_⟩
    · have more : (completeTransfer s t).engine.pos.entry + 1 < r.items.length := (List.getElem?_eq_some_iff.mp hi2).1
      have start := Completions.itemStart_first_block hi2 hb2 0 .copyRead
      rw [if_pos more] at ends
      replace ends := ends.trans (congrArg (setPos { completeTransfer s t with pageMap := m }) start)
      exact congrArg _ ((HostAccess.onEngineCompletion_effect (f := fun _ => copyWritten) ht hu hc hs ends).trans rfl)
    · have noMore : ¬ (completeTransfer s t).engine.pos.entry + 1 < r.items.length := Nat.not_lt.mpr (Nat.le_of_eq hl.symm)
      rw [if_neg noMore] at ends
      exact congrArg _ ((HostAccess.onEngineCompletion_effect (f := fun _ => copyWritten) ht hu hc hs ends).trans rfl)

end Sys2Proof.Machine.EngineSteps
end

section
/-! SUPPORT. The end of STARTING, of recovery and of FORMAT: the anchor read and its test, the last retire write, and the
FORMAT writes (R3, R7, R10, R12, R15, R35, R90, R95, R97). -/

namespace Sys2Proof.Machine.EngineSteps

-- One proof at a time: each proof run beside the others takes a thread, and its stack counts against the memory
-- limit of the check.
set_option Elab.async false

/-! ### The anchor (R7, R10) -/

section
variable {s v : State} {t : Transfer} {ws : List Word}

/-- The anchor test on the five words (R7). -/
theorem testAnchor_words (strap : Nat) (w0 w1 w2 w3 w4 : Word) : testAnchor strap [w0, w1, w2, w3, w4] =
    if w4 ≠ checksumOf [w0, w1, w2, w3] ∨ w0 ≠ 1 then .invalid .checksum
    else if w1.toNat ≠ strap then .invalid .mismatch
    else if 16 ≤ w2.toNat ∧ w2.toNat ≤ 256 ∧ 64 ≤ w3.toNat ∧ w1.toNat = w3.toNat + 9 + w2.toNat then
      .valid { arrayPages := w1.toNat, frames := w2.toNat, homePages := w3.toNat }
    else .invalid .geometry := by
  have geometry : (16 ≤ w2.toNat ∧ w2.toNat ≤ 256 ∧ w3.toNat + 9 + w2.toNat = w1.toNat ∧ 64 ≤ w3.toNat) ↔
      (16 ≤ w2.toNat ∧ w2.toNat ≤ 256 ∧ 64 ≤ w3.toNat ∧ w1.toNat = w3.toNat + 9 + w2.toNat) := by omega
  simp only [testAnchor, List.getD_cons_zero, List.getD_cons_succ, geometry]

/-- The data of an abandoned read is discarded, and so is that of a read with no anchor read under way (R9, R10). -/
theorem exec_anchorRead_discarded (ht : transferring s t) (hu : t.purpose = .anchorRead) (hw : t.isWrite = false)
    (h : t.abandoned = true ∨ s.bridge.anchorRead = none) : exec .anchorRead s = .next { s with port := none } := by
  have ended : completeTransfer s t = { s with port := none } := by
    rw [ArrayPort.completeTransfer_eq, ArrayPort.arrayAfter_read hw]
  refine congrArg _ ((onCompletion_at ht.1 ht.2 hu _).trans ?_)
  rw [ended]
  rcases h with h | h
  · cases s.bridge.anchorRead <;> simp [h]
  · simp [h]

/-- A word of the anchor read in STARTING is kept, or judged with the four before it (R10). -/
theorem exec_anchorRead_word (hs : s.bridge.state = .starting) (ht : transferring s t) (hu : t.purpose = .anchorRead)
    (hw : t.isWrite = false) (ha : t.abandoned = false) (hr : s.bridge.anchorRead = some ws) :
    exec .anchorRead s = .next
      (if ws.length < 4 then
        { s with port := none, bridge := { s.bridge with anchorRead := some (ws ++ [readWord s.array t.addr]) } }
       else judgeAnchor { s with port := none } (ws ++ [readWord s.array t.addr])) := by
  have ended : completeTransfer s t = { s with port := none } := by
    rw [ArrayPort.completeTransfer_eq, ArrayPort.arrayAfter_read hw]
  refine congrArg _ ((onCompletion_at ht.1 ht.2 hu _).trans ?_)
  rw [ended]
  simp [hr, ha, hs]

theorem judgeAnchor_invalid {reason : AnchorReason} (h : testAnchor s.bridge.strapPages ws = .invalid reason)
    (hv : armsTo (pushEvent { s with bridge := { s.bridge with state := .unformatted, anchorRead := none } }
      (.anchorInvalid reason)) v) : judgeAnchor s ws = v := by
  rw [judgeAnchor, h]
  exact SupplyMonitor.enterArmed_of_armsTo hv

theorem judgeAnchor_valid {g : Geometry} (h : testAnchor s.bridge.strapPages ws = .valid g)
    (hv : armsTo { s with
      bridge := { s.bridge with state := .recovering, geometry := some g, anchorRead := none }
      pageMap := [], freeFrames := List.range g.frames
      engine := { s.engine with
        stage := .scan, lastSequence := 0, record := none, image0 := none, image1 := none, applyList := []
        scanWords := [], tallyPosition := 0, faultList := [], faultCount := 0
        pos := { slotIndex := 0, entry := 0, block := 0, word := 0, pass := .checksum } } } v) :
    judgeAnchor s ws = v := by
  rw [judgeAnchor, h]
  exact SupplyMonitor.enterArmed_of_armsTo hv

end

/-- Settles O47: four words are kept, and the fifth is judged with them. -/
theorem anchorJudged : Obligations.AnchorJudged := by
  refine ⟨testAnchor_words, fun s t ht hu hw h => exec_anchorRead_discarded ht hu hw h,
    fun s t ws all hs ht hu hw ha hr hall => ?_⟩
  have word := exec_anchorRead_word hs ht hu hw ha hr
  rw [← hall] at word
  refine ⟨fun hlen => word.trans (by rw [if_pos hlen]), fun hlen v => ?_⟩
  have judged : exec .anchorRead s = .next (judgeAnchor { s with port := none } all) :=
    word.trans (by rw [if_neg (by omega)])
  exact ⟨fun reason h hv => judged.trans (congrArg _ (judgeAnchor_invalid h hv)),
    fun g h hv => judged.trans (congrArg _ (judgeAnchor_valid h hv))⟩

/-! ### The end of recovery (R12, R95) -/

section
variable {s : State} {t : Transfer} {o : TakenOrder} {p : Pause}

/-- The end of recovery is reported in RECOVERING (R12, R95). -/
theorem reportRecovery_recovering (hs : s.bridge.state = .recovering) : reportRecovery s = pushEvent { s with
    bridge := { s.bridge with state := .serving }
    engine := { s.engine with
      stage := .idle, record := none, image0 := none, image1 := none, applyList := [], pos := .start } }
    (.recoveryDone (appliedSequence s.engine) s.engine.faultCount) := if_pos hs

theorem recoveryRetired_next (h : s.engine.pos.slotIndex + 1 < s.engine.applyList.length ∨ s.bridge.state = .frozen) :
    recoveryRetired s = setPos s { s.engine.pos with slotIndex := s.engine.pos.slotIndex + 1 } := by
  unfold recoveryRetired
  dsimp only
  split
  · rfl
  · rename_i hlast
    exact Completions.reportRecovery_frozen (h.resolve_left hlast)

theorem recoveryRetired_last (h : s.engine.pos.slotIndex + 1 = s.engine.applyList.length) : recoveryRetired s =
    reportRecovery (setPos s { s.engine.pos with slotIndex := s.engine.pos.slotIndex + 1 }) :=
  if_neg (Nat.not_lt.mpr (Nat.le_of_eq h.symm))

/-- A formatting completion in FROZEN is not taken further (R16). -/
theorem exec_formatWrite_frozen (ht : transferring s t) (hu : t.purpose = .formatWrite) (hc : completionCounts s o p)
    (hs : s.engine.stage = .format) (hb : s.bridge.state = .frozen) :
    exec (.formatWrite o) s = .next (completed s t { s.engine with pause := p }) :=
  congrArg _ (Completions.onEngineCompletion_counted ht hu hc hs (if_neg (by simp [hb])) rfl)

theorem exec_formatWrite_formatting {v : State} (ht : transferring s t) (hu : t.purpose = .formatWrite)
    (hc : completionCounts s o p) (hs : s.engine.stage = .format) (hb : s.bridge.state = .formatting)
    (hf : formatWritten (completeTransfer s t) = v) (hv : v.bridge.state ≠ .frozen) :
    exec (.formatWrite o) s = .next v :=
  congrArg _ (onEngineCompletion_running ht hu hc hs ((if_pos (by simpa using hb)).trans hf) hv)

end

/-! ### The FORMAT writes (R15) -/

section
variable {s : State} {f : Nat}

/-- The four slot words of step 2 and the five anchor words of step 3. -/
theorem formatWrites_length : (s.engine.formatStep = some 2 → (formatWrites s).length = 4) ∧
    (s.engine.formatStep = some 3 → (formatWrites s).length = 5) := by
  refine ⟨fun h => ?_, fun h => ?_⟩ <;> rw [formatWrites, h] <;> rfl

theorem formatWritten_next (h : (s.engine.formatStep = some 2 ∧ s.engine.pos.word < 3) ∨
    (s.engine.formatStep = some 3 ∧ s.engine.pos.word < 4)) :
    formatWritten s = setPos s { s.engine.pos with word := s.engine.pos.word + 1 } := by
  refine if_pos ?_
  rcases h with ⟨hstep, hw⟩ | ⟨hstep, hw⟩
  · rw [formatWrites_length.1 hstep]; omega
  · rw [formatWrites_length.2 hstep]; omega

theorem formatWritten_step (hstep : s.engine.formatStep = some 2) (hw : s.engine.pos.word = 3) :
    formatWritten s = enterFormatStep s 3 := by
  rw [formatWritten, if_neg (by rw [formatWrites_length.1 hstep, hw]; decide), if_pos hstep]

/-- The last anchor word ends FORMAT with the geometry of its frame count (R3, R15). -/
theorem formatWritten_last (hstep : s.engine.formatStep = some 3) (hw : s.engine.pos.word = 4)
    (hf : s.engine.formatFrames = some f) : formatWritten s = pushEvent { s with
      bridge := { s.bridge with
        state := .serving
        geometry := some { arrayPages := s.bridge.strapPages, frames := f, homePages := s.bridge.strapPages - 9 - f } }
      pageMap := []
      freeFrames := List.range f
      engine := { s.engine with
        stage := .idle, lastSequence := 0, record := none, formatFrames := none, formatStep := none
        image0 := none, image1 := none, applyList := []
        pos := { slotIndex := 0, entry := 0, block := 0, word := 0, pass := .checksum } } } (.formatDone f) := by
  rw [formatWritten, if_neg (by rw [formatWrites_length.2 hstep, hw]; decide), if_neg (by simp [hstep]), finishFormat, hf]
  rfl

end

/-- Settles O54: within a stage the position goes on, and its last completion ends it. -/
theorem recoveryAndFormatEnd : Obligations.RecoveryAndFormatEnd := by
  rintro s t o p _ ht hc rfl
  refine ⟨fun hu hs => ⟨fun hnext => ?_, fun sl hsl hlast hb => ?_⟩,
    fun hu hs hb => exec_formatWrite_frozen ht hu hc hs hb, fun hu hs hb => ?_⟩
  · have goesOn : recoveryRetired (completeTransfer s t) =
        completed s t { s.engine with pos := { s.engine.pos with slotIndex := s.engine.pos.slotIndex + 1 } } :=
      recoveryRetired_next (s := completeTransfer s t) hnext
    exact congrArg _ (Completions.onEngineCompletion_counted (f := fun _ => recoveryRetired) ht hu hc hs goesOn rfl)
  · have applied : appliedSequence s.engine = s.engine.imageSequence sl := by
      have last : s.engine.applyList.getLast? = some sl := hsl
      simp [appliedSequence, last]
    have ends := (recoveryRetired_last (s := completeTransfer s t) hlast).trans (reportRecovery_recovering (by exact hb))
    have pause : s.engine.pause = p := pause_of_running hc (by simp [hb])
    subst pause
    refine congrArg _ ((onEngineCompletion_running (f := fun _ => recoveryRetired) ht hu hc hs ends (by simp)).trans ?_)
    exact congrArg (fun q => pushEvent _ (.recoveryDone q _)) applied
  · have pause : s.engine.pause = p := pause_of_running hc (by simp [hb])
    subst pause
    refine ⟨fun hnext => ?_, fun hstep hw => ?_, fun f hstep hw hf => ?_⟩
    · exact exec_formatWrite_formatting ht hu hc hs hb (formatWritten_next (s := completeTransfer s t) hnext)
        (by simp [completed, hb])
    · exact exec_formatWrite_formatting ht hu hc hs hb (formatWritten_step (s := completeTransfer s t) hstep hw)
        (by simp [completed, hb])
    · exact exec_formatWrite_formatting ht hu hc hs hb (formatWritten_last (s := completeTransfer s t) hstep hw hf)
        (by simp)

end Sys2Proof.Machine.EngineSteps
end

section
/-! SUPPORT. What each client of the sequencer asks for: the drain, the read path, bridge control and the engine by its stage
(R10, R15, R67 to R74, R90, R93, R95, R130, R137). -/

namespace Sys2Proof.Machine.ArrayPort

-- One proof at a time: each proof run beside the others takes a thread, and its stack counts against the memory
-- limit of the check.
set_option Elab.async false

/-! ### The drain and the read path (R115, R130) -/

section
variable {s : State} {x : PostedEntry} {xs : List PostedEntry} {h : DrainHead}

theorem drainAsks_empty (hb : s.buffer.entries = []) : drainAsks s = none := by
  rw [drainAsks, hb]

theorem drainAsks_fillRead {i : Nat} {f : WordAddr} (hb : s.buffer.entries = x :: xs) (hh : s.buffer.head = some h)
    (hp : h.pos = .fillRead i) (hf : x.fill = some f) :
    drainAsks s = some (readOf .fillRead (BitVec.ofNat 21 (f.toNat + i))) := by
  have word : BitVec.ofNat 21 (f.toNat + i) = f + BitVec.ofNat 21 i := by
    rw [BitVec.ofNat_add, BitVec.ofNat_toNat, BitVec.setWidth_eq]
  simp only [drainAsks, hb, hh, hp, hf, word]
  rfl

theorem drainAsks_fillWrite {i : Nat} {w : Word} (hb : s.buffer.entries = x :: xs) (hh : s.buffer.head = some h)
    (hp : h.pos = .fillWrite i) (hw : h.store[i]? = some w) :
    drainAsks s = some (writeOf .fillWrite (BitVec.ofNat 21 (x.addr.toNat / 8 * 8 + i)) w) := by
  have kept : h.store.getD i 0 = w := by rw [List.getD_eq_getElem?_getD, hw, Option.getD_some]
  simp only [drainAsks, hb, hh, hp, kept]
  rfl

theorem drainAsks_write (hb : s.buffer.entries = x :: xs) (hh : s.buffer.head = some h) (hp : h.pos = .write) :
    drainAsks s = some { writeOf .drainWrite x.addr x.data with lanes := x.lanes } := by
  simp only [drainAsks, hb, hh, hp]
  rfl

theorem readAsks_nobody (hn : ∀ r, s.host.outstanding = some r → r.phase ≠ .readGrant) : readAsks s = none := by
  unfold readAsks
  split
  · exact if_neg (hn _ ‹_›)
  · rfl

theorem readAsks_granted {r : Request} {a : WordAddr} (hr : s.host.outstanding = some r) (hp : r.phase = .readGrant)
    (ha : r.resolved = some a) : readAsks s = some (readOf .hostRead a) := by
  simp only [readAsks, hr, hp, if_true, ha]
  rfl

end

/-! ### The engine and bridge control (R10, R137) -/

section
variable {s : State}

theorem engineAsks_starting {ws : List Word} (hs : s.bridge.state = .starting) (hr : s.bridge.anchorRead = some ws) :
    engineAsks s = some (readOf .anchorRead (pageWord (s.bridge.strapPages - 1) ws.length)) := by
  rw [engineAsks, if_pos hs, hr]
  rfl

theorem engineAsks_elsewhere (hs : s.bridge.state ≠ .starting) :
    engineAsks s = if engineRuns s = true then stageTransfer s else none := if_neg hs

theorem engineAsks_running (hs : s.bridge.state ∈ [.serving, .recovering, .formatting])
    (hp : s.engine.pause = .running) : engineAsks s = stageTransfer s := by
  rw [engineAsks_elsewhere (by rintro h; simp [h] at hs), if_pos (HostAccess.engineRuns_iff.mpr ⟨hs, hp⟩)]

/-- Outside its procedures, paused, IDLE and in DRAIN the engine asks for nothing (R77, R78). -/
theorem engineAsks_nothing (h : s.bridge.state ∉ [.starting, .serving, .recovering, .formatting] ∨
    (s.bridge.state ≠ .starting ∧
      (s.engine.pause ≠ .running ∨ s.engine.stage = .idle ∨ s.engine.stage = .drain))) : engineAsks s = none := by
  have notStarting : s.bridge.state ≠ .starting := by
    rcases h with h | h
    · rintro hs; simp [hs] at h
    · exact h.1
  rw [engineAsks_elsewhere notStarting]
  split
  · rename_i hrun
    obtain ⟨hs, hp⟩ := HostAccess.engineRuns_iff.mp hrun
    rcases h with h | ⟨-, h | h | h⟩
    · exact absurd (List.mem_cons_of_mem _ hs) h
    · exact absurd hp h
    · rw [stageTransfer, h]
    · rw [stageTransfer, h]
  · rfl

end

/-! ### The stages of a commit (R67 to R74, R93) -/

section
variable {s : State} {r : CurrentRecord} {it : RecordItem}

theorem blockTransfer_read {rd wr : Purpose} (hi : s.engine.item? = some it) (hp : s.engine.pos.pass ≠ .copyWrite) :
    blockTransfer s rd wr =
      some (readOf rd (pageWord (s.homePages + it.frame) (s.engine.pos.block * 8 + s.engine.pos.word))) := by
  rw [blockTransfer, hi]
  cases h : s.engine.pos.pass with
  | copyWrite => exact absurd h hp
  | checksum | copyRead => rfl

theorem blockTransfer_write {rd wr : Purpose} {w : Word} (hi : s.engine.item? = some it)
    (hp : s.engine.pos.pass = .copyWrite) (hw : s.engine.copyStore[s.engine.pos.word]? = some w) :
    blockTransfer s rd wr = some (writeOf wr (pageWord it.homePage (s.engine.pos.block * 8 + s.engine.pos.word)) w) := by
  have kept : s.engine.copyStore.getD s.engine.pos.word 0 = w := by
    rw [List.getD_eq_getElem?_getD, hw, Option.getD_some]
  simp only [blockTransfer, hi, hp, kept]
  rfl

/-- The writes of a journal record: the mark word, four header words, the entry words (R69). -/
theorem journalWrites_mark (pages : Nat) (r : CurrentRecord) :
    (journalWrites pages r)[0]? = some (pageWord (headerPage pages r.slot) 8, 0) := rfl

theorem journalWrites_header {pages i : Nat} {w : Word} (hi : i < 4)
    (hw : (headerWords r ++ [r.recordChecksum.getD 0])[i]? = some w) :
    (journalWrites pages r)[i + 1]? = some (pageWord (headerPage pages r.slot) i, w) := by
  rw [journalWrites, List.cons_append, List.getElem?_cons_succ, List.getElem?_append_left (by simpa [headerWords] using hi),
    List.getElem?_map, List.getElem?_zipIdx, hw]
  simp [headerWord, pageWord, wordAt]

theorem journalWrites_entry {pages j : Nat} {w : Word} (hw : (entryWords r)[j]? = some w) :
    (journalWrites pages r)[j + 5]? = some (pageWord (headerPage pages r.slot + 1 + j / 128) (j % 128), w) := by
  rw [journalWrites, List.cons_append, List.getElem?_cons_succ,
    List.getElem?_append_right (by simp [headerWords]), List.getElem?_map, List.getElem?_zipIdx]
  simp [headerWords, hw, areaWord, pageWord, wordAt]

theorem stageTransfer_write {a : WordAddr} {w : Word} (hs : s.engine.stage = .write) (hr : s.engine.record = some r)
    (hw : (journalWrites s.arrayPages r)[s.engine.pos.word]? = some (a, w)) :
    stageTransfer s = some (writeOf .journalWrite a w) := by
  simp only [stageTransfer, hs, hr, Option.bind_some, hw, Option.map_some]
  rfl

theorem stageTransfer_mark (hs : s.engine.stage = .mark) (hr : s.engine.record = some r) :
    stageTransfer s = some (writeOf .markWrite (pageWord (headerPage s.arrayPages r.slot) 8) r.sequence) := by
  simp only [stageTransfer, hs, hr, Option.map_some]
  rfl

theorem stageTransfer_retire (hs : s.engine.stage = .retire) (hb : s.bridge.state ≠ .recovering)
    (hr : s.engine.record = some r) :
    stageTransfer s = some (writeOf .retireWrite (pageWord (headerPage s.arrayPages r.slot) 16) r.sequence) := by
  simp only [stageTransfer, hs, retireTransfer, hb, if_false, hr, Option.map_some]
  rfl

end

/-! ### The stages of recovery and FORMAT (R15, R90, R95) -/

section
variable {s : State} {sl : Slot}

theorem stageTransfer_scanHeader {w : Nat} (hs : s.engine.stage = .scan) (hsl : slotOfIndex s.engine.pos.slotIndex = some sl)
    (hw : [0, 1, 2, 3, 8, 16][s.engine.scanWords.length]? = some w) :
    stageTransfer s = some (readOf .scanRead (pageWord (headerPage s.arrayPages sl) w)) := by
  simp only [stageTransfer, hs, scanTransfer, hsl, Option.map_some, scanHeaderOffsets, hw]
  rfl

theorem stageTransfer_scanEntry (hs : s.engine.stage = .scan) (hsl : slotOfIndex s.engine.pos.slotIndex = some sl)
    (hk : 6 ≤ s.engine.scanWords.length) : stageTransfer s = some (readOf .scanRead
      (pageWord (headerPage s.arrayPages sl + 1 + (s.engine.scanWords.length - 6) / 128)
        ((s.engine.scanWords.length - 6) % 128))) := by
  have past : scanHeaderOffsets[s.engine.scanWords.length]? = none := List.getElem?_eq_none hk
  simp only [stageTransfer, hs, scanTransfer, hsl, Option.map_some, past]
  rfl

theorem stageTransfer_recoveryRetire (hs : s.engine.stage = .retire) (hb : s.bridge.state = .recovering)
    (hsl : s.engine.applyList[s.engine.pos.slotIndex]? = some sl) : stageTransfer s =
      some (writeOf .recoveryRetireWrite (pageWord (headerPage s.arrayPages sl) 16) (s.engine.imageSequence sl)) := by
  simp only [stageTransfer, hs, retireTransfer, hb, if_true, hsl, Option.map_some]
  rfl

theorem stageTransfer_format {a : WordAddr} {w : Word} (hs : s.engine.stage = .format)
    (hw : (formatWrites s)[s.engine.pos.word]? = some (a, w)) : stageTransfer s = some (writeOf .formatWrite a w) := by
  simp only [stageTransfer, hs, hw, Option.map_some]
  rfl

theorem stageTransfer_formatDrain (hs : s.engine.stage = .format) (hstep : s.engine.formatStep = some 1) :
    stageTransfer s = none := by
  simp [stageTransfer, hs, formatWrites, hstep]

/-- The writes of step 2: the mark word and the retire word of both slots (R15). -/
theorem formatWrites_slots (hstep : s.engine.formatStep = some 2) : formatWrites s =
    [pageWord (s.bridge.strapPages - 9) 8, pageWord (s.bridge.strapPages - 9) 16,
      pageWord (s.bridge.strapPages - 5) 8, pageWord (s.bridge.strapPages - 5) 16].map fun x => (x, 0) := by
  rw [formatWrites, hstep]
  rfl

/-- The writes of step 3: the words of the anchor (R6, R15). -/
theorem formatWrites_anchor {f : Nat} (hstep : s.engine.formatStep = some 3) (hf : s.engine.formatFrames = some f) :
    formatWrites s = (anchorWords s.bridge.strapPages f).zipIdx.map fun (w, i) =>
      (pageWord (s.bridge.strapPages - 1) i, w) := by
  rw [formatWrites, hstep, hf]
  rfl

end

/-- Settles O44: each client by what its own position or phase names. -/
theorem clientsAsk : Obligations.ClientsAsk := by
  intro s
  refine ⟨drainAsks_empty, fun x xs h hb hh => ⟨fun i f hp hf => drainAsks_fillRead hb hh hp hf,
    fun i w hp hw => drainAsks_fillWrite hb hh hp hw, drainAsks_write hb hh⟩, readAsks_nobody,
    fun r a hr hp ha => readAsks_granted hr hp ha, fun ws hs hr => engineAsks_starting hs hr, engineAsks_nothing, ?_⟩
  rintro hs hp _ _ rfl rfl
  rw [engineAsks_running hs hp]
  refine ⟨fun r it fw hw hr hi hfw hhw => ?item, fun r hpage hr hh => ?record, fun sl hpage hh => ?slot, fun hst a f ha hf => ?format⟩
  case item =>
    have item := EngineSteps.item_at hr hi
    subst hfw hhw
    have reads {rd wr : Purpose} (h : s.engine.pos.pass ≠ .copyWrite) := blockTransfer_read (rd := rd) (wr := wr) item h
    refine ⟨fun hst hpass => ?_, fun hst hpass => ?_, fun w hst hpass hw => ?_, fun hst hpass => ?_, fun hst hpass => ?_,
      fun w hst hpass hw => ?_⟩
    · simp only [stageTransfer, hst]
      exact reads (by simp [hpass])
    · simp only [stageTransfer, hst]
      exact reads (by simp [hpass])
    · simp only [stageTransfer, hst]
      exact blockTransfer_write item hpass hw
    · simp only [stageTransfer, hst, hpass, if_true]
      exact reads (by simp [hpass])
    · simp only [stageTransfer, hst, hpass, reduceCtorEq, if_false]
      exact reads (by simp [hpass])
    · simp only [stageTransfer, hst, hpass, reduceCtorEq, if_false]
      exact blockTransfer_write item hpass hw
  case record =>
    obtain rfl : hpage = headerPage s.arrayPages r.slot := hh.trans (by cases r.slot <;> rfl)
    refine ⟨fun hst => ⟨fun hw => ?_, fun i w hi hw hword => ?_, fun j w hw hword => ?_⟩,
      fun hst => stageTransfer_mark hst hr, fun hst hb => stageTransfer_retire hst hb hr⟩
    · exact stageTransfer_write hst hr (hw ▸ journalWrites_mark _ _)
    · exact stageTransfer_write hst hr (hw ▸ journalWrites_header hi hword)
    · exact stageTransfer_write hst hr (hw ▸ journalWrites_entry hword)
  case slot =>
    obtain rfl : hpage = headerPage s.arrayPages sl := hh.trans (by cases sl <;> rfl)
    refine ⟨fun k hst hsl hk => ?_, fun hst hb hsl => stageTransfer_recoveryRetire hst hb hsl⟩
    have slot : slotOfIndex s.engine.pos.slotIndex = some sl := by rw [hsl]; cases sl <;> rfl
    subst hk
    exact ⟨fun w hw => stageTransfer_scanHeader hst slot hw, fun hk => stageTransfer_scanEntry hst slot hk⟩
  case format =>
    subst ha
    refine ⟨stageTransfer_formatDrain hst, fun x hstep hx => ?_, fun w hstep hw => ?_⟩
    · refine stageTransfer_format hst ?_
      rw [formatWrites_slots hstep, List.getElem?_map, hx]
      rfl
    · refine stageTransfer_format hst ?_
      have word : (anchorWords s.bridge.strapPages f)[s.engine.pos.word]? = some w := hw
      rw [formatWrites_anchor hstep hf, List.getElem?_map, List.getElem?_zipIdx, word]
      simp

end Sys2Proof.Machine.ArrayPort
end

section
/-! SUPPORT. SCAN and APPLY: the image of a slot, the order in which APPLY goes through the entries of the live slots, and
the transfers of the two stages (R12, R84, R85, R88, R90 to R96). -/

namespace Sys2Proof.Machine.Recovery

-- One proof at a time: each proof run beside the others takes a thread, and its stack counts against the memory
-- limit of the check.
set_option Elab.async false

/-! ### The order of APPLY (R92 to R94) -/

section
variable {α β : Type} {l : List α} {i : Nat} {a : α}

/-- The elements of a list from the `i`-th on, each with its index. -/
theorem filterMap_zipIdx_from (f : α × Nat → β) (l : List α) (i : Nat) :
    (l.zipIdx.filterMap fun x => if i ≤ x.2 then some (f x) else none) = ((l.drop i).zipIdx i).map f := by
  by_cases hi : i ≤ l.length
  · have before : ((l.take i).zipIdx.filterMap fun x => if i ≤ x.2 then some (f x) else none) = [] := by
      refine List.filterMap_eq_nil_iff.mpr fun x hx => if_neg ?_
      have := List.snd_lt_of_mem_zipIdx hx
      rw [List.length_take] at this
      omega
    have after : (((l.drop i).zipIdx i).filterMap fun x => if i ≤ x.2 then some (f x) else none) =
        ((l.drop i).zipIdx i).map f := by
      rw [← List.filterMap_eq_map]
      exact List.filterMap_congr fun x hx => if_pos (List.le_snd_of_mem_zipIdx hx)
    conv_lhs => rw [← List.take_append_drop i l]
    rw [List.zipIdx_append, List.filterMap_append, before, List.nil_append, List.length_take, Nat.min_eq_left hi,
      Nat.zero_add, after]
  · rw [List.drop_eq_nil_of_le (by omega)]
    refine List.filterMap_eq_nil_iff.mpr fun x hx => if_neg ?_
    have := List.snd_lt_of_mem_zipIdx hx
    omega

theorem filterMap_zipIdx_cons (f : α × Nat → β) (h : l[i]? = some a) :
    (l.zipIdx.filterMap fun x => if i ≤ x.2 then some (f x) else none) =
      f (a, i) :: l.zipIdx.filterMap fun x => if i + 1 ≤ x.2 then some (f x) else none := by
  obtain ⟨hi, rfl⟩ := List.getElem?_eq_some_iff.mp h
  rw [filterMap_zipIdx_from, filterMap_zipIdx_from, List.drop_eq_getElem_cons hi]
  rfl

theorem filterMap_zipIdx_nil (f : α × Nat → β) (h : l.length ≤ i) :
    (l.zipIdx.filterMap fun x => if i ≤ x.2 then some (f x) else none) = [] := by
  rw [filterMap_zipIdx_from, List.drop_eq_nil_of_le h]
  rfl

end

/-- The entries of the image of a slot. -/
def slotEntries (e : Engine) (sl : Slot) : List RecordItem := ((e.image sl).map SlotImage.entries).getD []

/-- What one slot of the apply list gives to `applySteps`. -/
def slotSteps (e : Engine) (j i : Nat) (x : Slot × Nat) : List (Nat × Nat × Slot × RecordItem) :=
  (slotEntries e x.1).zipIdx.filterMap fun y =>
    if j < x.2 ∨ (j = x.2 ∧ i ≤ y.2) then some (x.2, y.2, x.1, y.1) else none

theorem applySteps_eq (e : Engine) (j i : Nat) : applySteps e j i = e.applyList.zipIdx.flatMap (slotSteps e j i) := rfl

section
variable {e : Engine} {j i : Nat} {sl : Slot} {it : RecordItem} {x : Slot × Nat}

theorem slotSteps_before (h : x.2 < j) : slotSteps e j i x = [] :=
  List.filterMap_eq_nil_iff.mpr fun _ _ => if_neg (by omega)

theorem slotSteps_after (h : j < x.2) : slotSteps e j i x = slotSteps e x.2 0 x :=
  List.filterMap_congr fun _ _ => by simp [h]

theorem slotSteps_at (e : Engine) (j i : Nat) (sl : Slot) : slotSteps e j i (sl, j) =
    (slotEntries e sl).zipIdx.filterMap fun y => if i ≤ y.2 then some (j, y.2, sl, y.1) else none :=
  List.filterMap_congr fun _ _ => by simp

/-- What is left of the `j`-th slot, then the slots after it. -/
theorem applySteps_slot (h : e.applyList[j]? = some sl) (i : Nat) :
    applySteps e j i = slotSteps e j i (sl, j) ++ applySteps e (j + 1) 0 := by
  obtain ⟨hj, rfl⟩ := List.getElem?_eq_some_iff.mp h
  have parts : e.applyList.zipIdx = (e.applyList.take j).zipIdx ++
      (e.applyList[j], j) :: (e.applyList.drop (j + 1)).zipIdx (j + 1) := by
    conv_lhs => rw [← List.take_append_drop j e.applyList, List.drop_eq_getElem_cons hj]
    rw [List.zipIdx_append, List.length_take, Nat.min_eq_left (Nat.le_of_lt hj), Nat.zero_add, List.zipIdx_cons]
  have before (k i : Nat) (hk : j ≤ k) : (e.applyList.take j).zipIdx.flatMap (slotSteps e k i) = [] := by
    refine List.flatMap_eq_nil_iff.mpr fun x hx => slotSteps_before ?_
    have := List.snd_lt_of_mem_zipIdx hx
    rw [List.length_take] at this
    omega
  have after : ((e.applyList.drop (j + 1)).zipIdx (j + 1)).flatMap (slotSteps e j i) =
      ((e.applyList.drop (j + 1)).zipIdx (j + 1)).flatMap (slotSteps e (j + 1) 0) := by
    refine List.flatMap_congr fun x hx => ?_
    have hle := List.le_snd_of_mem_zipIdx hx
    rw [slotSteps_after (by omega)]
    rcases Nat.lt_or_eq_of_le hle with hlt | heq
    · exact (slotSteps_after hlt).symm
    · rw [← heq]
  rw [applySteps_eq, applySteps_eq, parts, List.flatMap_append, List.flatMap_append, List.flatMap_cons, List.flatMap_cons,
    before j i (Nat.le_refl j), before (j + 1) 0 (Nat.le_succ j), after,
    slotSteps_before (x := (e.applyList[j], j)) (Nat.lt_succ_self j)]
  rfl

theorem applySteps_entry (h : e.applyList[j]? = some sl) (hi : (slotEntries e sl)[i]? = some it) :
    applySteps e j i = (j, i, sl, it) :: applySteps e j (i + 1) := by
  rw [applySteps_slot h, applySteps_slot h, slotSteps_at, slotSteps_at, filterMap_zipIdx_cons _ hi]
  rfl

theorem applySteps_nextSlot (h : e.applyList[j]? = some sl) (hi : (slotEntries e sl).length ≤ i) :
    applySteps e j i = applySteps e (j + 1) 0 := by
  rw [applySteps_slot h, slotSteps_at, filterMap_zipIdx_nil _ hi]
  rfl

theorem applySteps_done (h : e.applyList.length ≤ j) : applySteps e j i = [] := by
  refine List.flatMap_eq_nil_iff.mpr fun x hx => slotSteps_before ?_
  have := List.snd_lt_of_mem_zipIdx hx
  omega

/-- The index in apply order of an entry of the first and of the second slot (R94). -/
theorem applyIndex_of_applyPlace {index : Nat} (h : applyPlace e j i index) : applyIndex e j i = index := by
  rcases h with ⟨rfl, rfl⟩ | ⟨rfl, sl, q, n, es, k, hsl, him, rfl⟩
  · simp [applyIndex]
  · obtain ⟨a, rest, hl⟩ : ∃ a rest, e.applyList = a :: rest := List.exists_cons_of_ne_nil (by rintro h; simp [h] at hsl)
    obtain rfl : a = sl := by simpa [hl] using hsl
    simp [applyIndex, hl, him, SlotImage.entries]

end

/-! ### APPLY goes on -/

section
variable {s u : State} {e e' : Engine} {j i index : Nat} {sl : Slot} {it : RecordItem}

theorem tally_eq (s : State) (index : Nat) (faulty : Bool) (h : Nat) :
    tally s index faulty h = { s with engine := tallied s.engine index faulty h } := by
  have count : min 255 (s.engine.faultCount + 1) = if s.engine.faultCount < 255 then s.engine.faultCount + 1 else 255 := by
    split <;> omega
  unfold tally tallied
  by_cases hi : s.engine.tallyPosition ≤ index
  · rw [if_pos hi, if_neg (Nat.not_lt.mpr hi)]
    cases faulty
    · rfl
    · simp only [if_true, count]
      rfl
  · rw [if_neg hi, if_pos (Nat.not_le.mp hi)]

/-- The tally neither reads nor changes the pause, the position and the sums. -/
theorem tallied_with (e : Engine) (x : Pause) (y : Position) (index : Nat) (faulty : Bool) (h : Nat) :
    tallied { e with pause := x, pos := y } index faulty h = { tallied e index faulty h with pause := x, pos := y } := by
  unfold tallied
  dsimp only
  split
  · rfl
  · split <;> rfl

theorem tallied_applyList (e : Engine) (index : Nat) (faulty : Bool) (h : Nat) :
    (tallied e index faulty h).applyList = e.applyList ∧ (tallied e index faulty h).image = e.image := by
  unfold tallied
  split
  · exact ⟨rfl, rfl⟩
  · split <;> exact ⟨rfl, rfl⟩

/-- The order of APPLY is that of the apply list and the images. -/
theorem applySteps_congr {d : Engine} (hl : d.applyList = e.applyList) (hi : d.image = e.image) (j i : Nat) :
    applySteps d j i = applySteps e j i := by
  unfold applySteps
  rw [hl, hi]

theorem invalidItem_iff (hp : u.homePages = s.homePages) (hf : u.frames = s.frames) :
    invalidItem u it = true ↔ ¬ validItem s it := by
  unfold invalidItem validItem
  rw [decide_eq_true_iff, hp, hf, not_and_or, not_and_or, not_not, Nat.not_lt, Nat.not_lt]

theorem loadSlot_live {q k : Word} {n : Nat} {es : List RecordItem} (h : u.engine.image sl = some (.live q n es k)) :
    loadSlot u sl = { u with engine := { u.engine with record := some {
      sequence := q, slot := sl, context := none, entryCount := n, items := es, recordChecksum := some k } } } := by
  rw [loadSlot, h]
  rfl

/-- A valid entry: its verify pass begins (R92, R93). -/
theorem applyFrom_valid {b : Nat} (hl : u.engine.applyList[j]? = some sl) (hi : (slotEntries u.engine sl)[i]? = some it)
    (hv : validItem (loadSlot u sl) it) (hb : firstBlock it.written = some b) :
    applyFrom u j i = { loadSlot u sl with engine := { (loadSlot u sl).engine with
      stage := .apply, sums := .zero
      pos := { slotIndex := j, entry := i, block := b, word := 0, pass := .checksum } } } := by
  have valid : ¬ invalidItem (loadSlot u sl) it = true := fun h => (invalidItem_iff rfl rfl).mp h hv
  rw [applyFrom, applySteps_entry hl hi]
  exact (if_neg valid).trans (by rw [hb]; rfl)

/-- An invalid entry: it is tallied as faulty, and APPLY goes on behind it (R92, R94). -/
theorem applyFrom_invalid (hl : u.engine.applyList[j]? = some sl) (hi : (slotEntries u.engine sl)[i]? = some it)
    (hv : ¬ validItem (loadSlot u sl) it) (hp : applyPlace u.engine j i index) :
    applyFrom u j i = applyFrom { loadSlot u sl with
      engine := tallied (loadSlot u sl).engine index true it.homePage } j (i + 1) := by
  have place : applyIndex (loadSlot u sl).engine j i = index := applyIndex_of_applyPlace hp
  obtain ⟨hlist, himage⟩ := tallied_applyList (loadSlot u sl).engine index true it.homePage
  have same := applySteps_congr (hlist.trans (b := u.engine.applyList) rfl) (himage.trans (b := u.engine.image) rfl) j (i + 1)
  rw [applyFrom, applySteps_entry hl hi, applyFrom, same]
  exact (if_pos ((invalidItem_iff rfl rfl).mpr hv)).trans (by rw [place, tally_eq])

theorem applyFrom_nextSlot (hl : u.engine.applyList[j]? = some sl) (hi : (slotEntries u.engine sl).length ≤ i) :
    applyFrom u j i = applyFrom u (j + 1) 0 := by
  rw [applyFrom, applySteps_nextSlot hl hi, applyFrom]

theorem applyFrom_done (hl : u.engine.applyList.length ≤ j) : applyFrom u j i = enterStage u .retire .start := by
  rw [applyFrom, applySteps_done hl, seekEntry]

theorem tallied_pause (e : Engine) (index : Nat) (faulty : Bool) (h : Nat) :
    (tallied e index faulty h).pause = e.pause := by
  unfold tallied
  split
  · rfl
  · split <;> rfl

theorem appliesFrom_pause (h : AppliesFrom s e j i e') : e'.pause = e.pause := by
  induction h with
  | verify | done => rfl
  | invalid _ _ _ _ _ _ _ _ _ _ _ _ _ _ _ _ _ ih => exact ih.trans (tallied_pause ..)
  | nextSlot _ _ _ _ _ _ _ _ _ _ _ _ _ ih => exact ih

theorem slotEntries_live {q k : Word} {n : Nat} {es : List RecordItem} (h : e.image sl = some (.live q n es k)) :
    slotEntries e sl = es := by
  rw [slotEntries, h]
  rfl

/-- What the model does from an entry on is what the statement says, whatever the pause and the position before. -/
theorem applyFrom_of_appliesFrom (h : AppliesFrom s e j i e') {x : Pause} {y : Position}
    (hu : u.engine = { e with pause := x, pos := y }) (hp : u.homePages = s.homePages) (hf : u.frames = s.frames) :
    applyFrom u j i = { u with engine := { e' with pause := x } } := by
  induction h generalizing u y with
  | verify e j i sl q k n es it b hl him hi hv hb =>
    have image : u.engine.image sl = some (.live q n es k) := by rw [hu]; exact him
    have valid : validItem (loadSlot u sl) it := by
      have : validItem u it := by unfold validItem; rwa [hp, hf]
      exact this
    rw [applyFrom_valid (by rw [hu]; exact hl) (by rwa [slotEntries_live image]) valid hb, loadSlot_live image, hu]
    rfl
  | invalid e e' j i index sl q k n es it hl him hi hv hplace _ ih =>
    have image : u.engine.image sl = some (.live q n es k) := by rw [hu]; exact him
    have invalid : ¬ validItem (loadSlot u sl) it := by
      have : ¬ validItem u it := by unfold validItem; rwa [hp, hf]
      exact this
    have goesOn := applyFrom_invalid (by rw [hu]; exact hl) (by rwa [slotEntries_live image]) invalid
      (by rw [hu]; exact hplace)
    have engine := tallied_with { e with record := some {
      sequence := q, slot := sl, context := none, entryCount := n, items := es, recordChecksum := some k } }
      x y index true it.homePage
    rw [loadSlot_live image, hu] at goesOn
    have rest := ih (y := y) (u := { u with engine := _ }) engine hp hf
    exact goesOn.trans rest
  | nextSlot e e' j i sl q k n es hl him hi _ ih =>
    have image : u.engine.image sl = some (.live q n es k) := by rw [hu]; exact him
    rw [applyFrom_nextSlot (by rw [hu]; exact hl) (by rwa [slotEntries_live image])]
    exact ih hu hp hf
  | done e j i hl =>
    rw [applyFrom_done (by rw [hu]; exact hl), enterStage, hu]
    rfl

end

/-- The same behind the completion of a transfer, which ends the port's part alone. -/
theorem applyFrom_completed {s : State} {t : Transfer} {e d e' : Engine} {j i : Nat} {y : Position}
    (h : AppliesFrom s e j i e') (hd : d = { e with pause := s.engine.pause, pos := y }) :
    applyFrom (completed s t d) j i = completed s t { e' with pause := s.engine.pause } :=
  applyFrom_of_appliesFrom (u := completed s t d) h hd rfl rfl

/-- A completion that leaves the engine of the statement but for its pause. -/
theorem onEngineCompletion_leaves {s : State} {t : Transfer} {o : TakenOrder} {p : Pause} {pu : Purpose} {st : Stage}
    {f : Word → State → State} {e : Engine} (ht : transferring s t) (hu : t.purpose = pu) (hc : completionCounts s o p)
    (hs : s.engine.stage = st) (he : e.pause = p)
    (hf : f (readWord s.array t.addr) (completeTransfer s t) = completed s t { e with pause := s.engine.pause }) :
    onEngineCompletion s pu st o f = completed s t e := by
  subst he
  exact Completions.onEngineCompletion_counted (e := { e with pause := s.engine.pause }) ht hu hc hs hf rfl

/-! ### The verify pass and the end of an entry (R93, R94) -/

section
variable {s : State} {it : RecordItem} {q : Position} {w : Word} {index : Nat}

theorem verifyWord_next (hi : s.engine.item? = some it) (hn : nextWord it s.engine.pos = some q) :
    verifyWord s w = setPos (addToSums s w) q := by
  simp only [verifyWord, hi, hn]

/-- The last word of an entry: the checksum is compared and the outcome tallied (R93, R94). -/
theorem verifyWord_last (hi : s.engine.item? = some it) (hn : nextWord it s.engine.pos = none)
    (hp : applyPlace s.engine s.engine.pos.slotIndex s.engine.pos.entry index) : verifyWord s w =
      if it.checksum = some (feedWord s.engine.sums w).checksum then
        { s with engine := { tallied { s.engine with sums := feedWord s.engine.sums w } index false it.homePage with
          copyStore := []
          pos := { s.engine.pos with block := (firstBlock it.written).getD 0, word := 0, pass := .copyRead } } }
      else applyFrom { s with
          engine := tallied { s.engine with sums := feedWord s.engine.sums w } index true it.homePage }
        s.engine.pos.slotIndex (s.engine.pos.entry + 1) := by
  have place : applyIndex (addToSums s w).engine s.engine.pos.slotIndex s.engine.pos.entry = index :=
    applyIndex_of_applyPlace hp
  have sums : (addToSums s w).engine.sums = feedWord s.engine.sums w := rfl
  simp only [verifyWord, hi, hn, tally_eq, place, sums]
  by_cases hm : it.checksum = some (feedWord s.engine.sums w).checksum
  · have outcome : decide (it.checksum ≠ some (feedWord s.engine.sums w).checksum) = false := by simpa using hm
    rw [if_pos hm, outcome]
    rfl
  · have outcome : decide (it.checksum ≠ some (feedWord s.engine.sums w).checksum) = true := by simpa using hm
    rw [if_neg hm, outcome]
    rfl

theorem applyWritten_last (hi : s.engine.item? = some it) (hn : nextCopy it s.engine.pos = none) :
    applyWritten s = applyFrom s s.engine.pos.slotIndex (s.engine.pos.entry + 1) := by
  simp only [applyWritten, hi, hn]

/-- Taking the sums apart from the tally, as `tallied_with` does for the pause and the position. -/
theorem tallied_sums (e : Engine) (x : Sums) (index : Nat) (faulty : Bool) (h : Nat) :
    tallied { e with sums := x } index faulty h = { tallied e index faulty h with sums := x } := by
  unfold tallied
  dsimp only
  split
  · rfl
  · split <;> rfl

end

/-- Settles O53: a word, a block, the outcome of an entry, and the entries APPLY passes on its way to the next. -/
theorem entriesVerifiedAndApplied : Obligations.EntriesVerifiedAndApplied := by
  intro s t o p it e q sl sq n es k index ht hc hs he hq hl him hr hi hplace
  subst he hq
  have item : s.engine.item? = some it := EngineSteps.item_at hr hi
  refine ⟨fun sums hu _ hsums => ?_, fun e2 hu hpass hw hb hgo => ?_⟩
  · have fed : feedWord s.engine.sums (readWord s.array t.addr) = sums := hsums.symm
    have step {x : Position} (hn : nextWord it s.engine.pos = some x) : exec (.verifyRead o) s = .next (completed s t
        { s.engine with pause := p, sums := sums, pos := x }) := by
      have effect : verifyWord (completeTransfer s t) (readWord s.array t.addr) =
          completed s t { s.engine with sums := sums, pos := x } :=
        (verifyWord_next (s := completeTransfer s t) item hn).trans (by rw [← fed]; rfl)
      exact congrArg _ (Completions.onEngineCompletion_counted (f := fun w u => verifyWord u w) ht hu hc hs effect rfl)
    refine ⟨fun hw => step (Completions.nextWord_in_block hw), fun hw =>
      ⟨fun b hb => step (Completions.nextWord_next_block hw hb), fun hb => ?_⟩⟩
    have ends := verifyWord_last (s := completeTransfer s t) (w := readWord s.array t.addr) item
      (Completions.nextWord_last hw hb) hplace
    have engine : (completeTransfer s t).engine = s.engine := rfl
    have checksum : sums.checksum = BitVec.ofNat 32 (sums.second * 65536 + sums.first) := rfl
    rw [engine, fed, checksum] at ends
    refine ⟨fun b hmatch hfirst => ?_, fun e2 hfaulty hgo => ?_⟩
    · have kept := tallied_with s.engine p s.engine.pos index false it.homePage
      rw [if_pos hmatch, hfirst, tallied_sums] at ends
      refine congrArg _ ((Completions.onEngineCompletion_counted (f := fun w u => verifyWord u w) ht hu hc hs ends
        (tallied_pause ..)).trans ?_)
      exact congrArg (fun e : Engine => completed s t { e with
        sums := sums, copyStore := [], pos := { s.engine.pos with block := b, word := 0, pass := .copyRead } }) kept.symm
    · have kept := tallied_with { s.engine with sums := sums, pause := p } s.engine.pause s.engine.pos index true it.homePage
      have goesOn := ends.trans ((if_neg hfaulty).trans (applyFrom_completed hgo kept))
      exact congrArg _ (onEngineCompletion_leaves (f := fun w u => verifyWord u w) ht hu hc hs
        ((appliesFrom_pause hgo).trans (tallied_pause ..)) goesOn)
  · have goesOn := (applyWritten_last (s := completeTransfer s t) item (EngineSteps.nextCopy_last hw hpass hb)).trans
      (applyFrom_completed (y := s.engine.pos) hgo rfl)
    exact congrArg _ (onEngineCompletion_leaves (f := fun _ => applyWritten) ht hu hc hs (appliesFrom_pause hgo) goesOn)

/-! ### SCAN (R84, R85, R88, R90) -/

section
variable {s : State} {w : Word} {ws : List Word}

theorem headerTests_iff (ws : List Word) : headerTests ws = true ↔
    ws.getD 0 0 ≠ 0 ∧ ws.getD 4 0 = ws.getD 0 0 ∧ 1 ≤ (ws.getD 2 0).toNat ∧ (ws.getD 2 0).toNat ≤ 128 :=
  decide_eq_true_iff

theorem imageOf_unmarked {w0 w1 w2 w3 w4 w5 : Word} {es : List Word}
    (h : w0 = 0 ∨ w4 ≠ w0 ∨ w2 = 0 ∨ 128 < w2.toNat ∨ w3 ≠ checksumOf ([w0, w1, w2] ++ es)) :
    imageOf ([w0, w1, w2, w3, w4, w5] ++ es) = .unmarked := by
  have zero : w2 = 0 ↔ w2.toNat = 0 := by rw [← BitVec.toNat_inj]; rfl
  have fails : ¬ (headerTests ([w0, w1, w2, w3, w4, w5] ++ es) &&
      decide (w3 = checksumOf ([w0, w1, w2] ++ es))) = true := by
    rw [Bool.and_eq_true, headerTests_iff, decide_eq_true_iff]
    rintro ⟨⟨h0, h4, hlow, hhigh⟩, h3⟩
    simp only [List.cons_append, List.getD_cons_zero, List.getD_cons_succ] at h0 h4 hlow hhigh
    rcases h with h | h | h | h | h
    · exact h0 h
    · exact h h4
    · rw [zero] at h
      omega
    · omega
    · exact h h3
  exact if_neg fails

/-- SCAN has words of the slot to read: of its header, or of the entries a header that passes the tests names (R90). -/
theorem scan_short_iff (ws : List Word) : (ws.length < 6 ∨ ws.length < scanLength ws) ↔
    ws.length < 6 ∨ (ws.getD 0 0 ≠ 0 ∧ ws.getD 4 0 = ws.getD 0 0 ∧ 1 ≤ (ws.getD 2 0).toNat ∧
      (ws.getD 2 0).toNat ≤ 128 ∧ ws.length < 6 + 3 * (ws.getD 2 0).toNat) := by
  unfold scanLength
  by_cases h : headerTests ws = true
  · have tests := (headerTests_iff ws).mp h
    rw [if_pos h]
    tauto
  · have tests := (headerTests_iff ws).not.mp h
    rw [if_neg h]
    tauto

theorem scanWord_short {sl : Slot} (hsl : slotOfIndex s.engine.pos.slotIndex = some sl)
    (hw : s.engine.scanWords ++ [w] = ws) (h : ws.length < 6 ∨ ws.length < scanLength ws) :
    scanWord s w = { s with engine := { s.engine with scanWords := ws } } := by
  subst hw
  simp only [scanWord, hsl]
  exact if_pos h

theorem scanWord_slot0 (hi : s.engine.pos.slotIndex = 0) (hw : s.engine.scanWords ++ [w] = ws)
    (h : ¬ (ws.length < 6 ∨ ws.length < scanLength ws)) : scanWord s w = { s with engine := { s.engine with
      image0 := some (imageOf ws), scanWords := [], pos := { s.engine.pos with slotIndex := 1 } } } := by
  subst hw
  have slot : slotOfIndex s.engine.pos.slotIndex = some .slot0 := by rw [hi]; rfl
  simp only [scanWord, slot]
  refine (if_neg h).trans ((if_pos trivial).trans ?_)
  rw [hi]
  rfl

theorem scanWord_slot1 (hi : s.engine.pos.slotIndex = 1) (hw : s.engine.scanWords ++ [w] = ws)
    (h : ¬ (ws.length < 6 ∨ ws.length < scanLength ws)) : scanWord s w = endScan { s with engine := { s.engine with
      image1 := some (imageOf ws), scanWords := [], pos := { s.engine.pos with slotIndex := 2 } } } := by
  subst hw
  have slot : slotOfIndex s.engine.pos.slotIndex = some .slot1 := by rw [hi]; rfl
  simp only [scanWord, slot]
  refine (if_neg h).trans ((if_neg (by decide)).trans ?_)
  rw [hi]
  rfl

end

/-! ### The end of SCAN (R88, R91, R95, R96) -/

section
variable {s : State} {e : Engine} {i0 i1 : SlotImage}

theorem largestSequence_eq (h0 : e.image0 = some i0) (h1 : e.image1 = some i1) : largestSequence e =
    if (i0.sequence?.getD 0).toNat ≤ (i1.sequence?.getD 0).toNat then i1.sequence?.getD 0 else i0.sequence?.getD 0 := by
  simp [largestSequence, Engine.imageSequence, Engine.image, h0, h1]

theorem liveSlots_eq (h0 : e.image0 = some i0) (h1 : e.image1 = some i1) : liveSlots e =
    (if (i0.sequence?.getD 0).toNat ≤ (i1.sequence?.getD 0).toNat then [Slot.slot0, .slot1] else [.slot1, .slot0]).filter
      e.slotLive ∧ e.slotLive .slot0 = i0.isLive ∧ e.slotLive .slot1 = i1.isLive := by
  simp [liveSlots, Engine.slotLive, Engine.imageSequence, Engine.image, h0, h1]

/-- No slot, the one live slot, or both in ascending sequence (R89, R96). -/
theorem liveSlots_none (h0 : e.image0 = some i0) (h1 : e.image1 = some i1) (d0 : i0.isLive = false)
    (d1 : i1.isLive = false) : liveSlots e = [] := by
  obtain ⟨hl, hl0, hl1⟩ := liveSlots_eq h0 h1
  rw [hl]
  split <;> simp [hl0, hl1, d0, d1]

theorem liveSlots_live {live : List Slot} (h0 : e.image0 = some i0) (h1 : e.image1 = some i1)
    (h : i0.isLive = true ∧ i1.isLive = false ∧ live = [.slot0] ∨ i0.isLive = false ∧ i1.isLive = true ∧ live = [.slot1] ∨
      i0.isLive = true ∧ i1.isLive = true ∧
        live = if (i0.sequence?.getD 0).toNat ≤ (i1.sequence?.getD 0).toNat then [.slot0, .slot1] else [.slot1, .slot0]) :
    liveSlots e = live ∧ live ≠ [] := by
  obtain ⟨hl, hl0, hl1⟩ := liveSlots_eq h0 h1
  rw [hl]
  rcases h with ⟨d0, d1, rfl⟩ | ⟨d0, d1, rfl⟩ | ⟨d0, d1, rfl⟩
  all_goals split <;> simp [hl0, hl1, d0, d1]

theorem endScan_none {t : Transfer} (h0 : e.image0 = some i0) (h1 : e.image1 = some i1) (d0 : i0.isLive = false)
    (d1 : i1.isLive = false) : endScan (completed s t e) = reportRecovery (completed s t { e with
      lastSequence := if (i0.sequence?.getD 0).toNat ≤ (i1.sequence?.getD 0).toNat then i1.sequence?.getD 0
        else i0.sequence?.getD 0
      applyList := [] }) := by
  rw [← largestSequence_eq h0 h1, ← liveSlots_none h0 h1 d0 d1]
  exact if_pos (liveSlots_none h0 h1 d0 d1)

theorem endScan_live {t : Transfer} {live : List Slot} (h0 : e.image0 = some i0) (h1 : e.image1 = some i1)
    (h : liveSlots e = live) (hne : live ≠ []) : endScan (completed s t e) = applyFrom (completed s t { e with
      lastSequence := if (i0.sequence?.getD 0).toNat ≤ (i1.sequence?.getD 0).toNat then i1.sequence?.getD 0
        else i0.sequence?.getD 0
      applyList := live }) 0 0 := by
  subst h
  rw [← largestSequence_eq h0 h1]
  exact if_neg hne

end

/-- Settles O52: the words of a slot, its image, and what the two images lead to. -/
theorem scanBuildsImages : Obligations.ScanBuildsImages := by
  refine ⟨fun w0 w1 w2 w3 w4 w5 es => imageOf_unmarked, ?_⟩
  intro s t o p e ws ht hu _ hc hs he hws short hshort
  subst he
  have words : s.engine.scanWords ++ [readWord s.array t.addr] = ws := hws.symm
  rw [← scan_short_iff] at hshort
  refine ⟨fun h hi => ?_, fun h hi => ?_, fun h hi i0 i1 h0 h1 q0 q1 last e1 hq0 hq1 hlast he1 => ?_⟩
  · obtain ⟨sl, hsl⟩ : ∃ sl, slotOfIndex s.engine.pos.slotIndex = some sl := by
      have small : s.engine.pos.slotIndex = 0 ∨ s.engine.pos.slotIndex = 1 := Nat.le_one_iff_eq_zero_or_eq_one.mp hi
      rcases small with hi | hi <;> (rw [hi]; exact ⟨_, rfl⟩)
    have kept : scanWord (completeTransfer s t) (readWord s.array t.addr) = completed s t { s.engine with scanWords := ws } :=
      scanWord_short (s := completeTransfer s t) hsl words (hshort.mp h)
    exact congrArg _ (Completions.onEngineCompletion_counted (f := fun w u => scanWord u w) ht hu hc hs kept rfl)
  · have built : scanWord (completeTransfer s t) (readWord s.array t.addr) = completed s t { s.engine with
        image0 := some (imageOf ws), scanWords := [], pos := { s.engine.pos with slotIndex := 1 } } :=
      scanWord_slot0 (s := completeTransfer s t) hi words (hshort.not.mp h)
    exact congrArg _ (Completions.onEngineCompletion_counted (f := fun w u => scanWord u w) ht hu hc hs built rfl)
  · subst hq0 hq1 hlast he1 h1
    have built : scanWord (completeTransfer s t) (readWord s.array t.addr) = endScan (completed s t { s.engine with
        image1 := some (imageOf ws), scanWords := [], pos := { s.engine.pos with slotIndex := 2 } }) :=
      scanWord_slot1 (s := completeTransfer s t) hi words (hshort.not.mp h)
    have image0 : s.engine.image0 = some i0 := h0
    refine ⟨fun d0 d1 => ?_, fun live e2 hlive hgo => ?_⟩
    · have nothing := built.trans (endScan_none image0 rfl d0 d1)
      refine ⟨fun hb => ?_, fun hb => ?_⟩
      · have pause : s.engine.pause = p := EngineSteps.pause_of_running hc (by simp [hb])
        subst pause
        have ends := nothing.trans (EngineSteps.reportRecovery_recovering (by exact hb))
        exact congrArg _ ((EngineSteps.onEngineCompletion_running (f := fun w u => scanWord u w) ht hu hc hs ends
          (by simp)).trans rfl)
      · have ends := nothing.trans (Completions.reportRecovery_frozen (by exact hb))
        exact congrArg _ ((HostAccess.onEngineCompletion_effect (f := fun w u => scanWord u w) ht hu hc hs ends).trans rfl)
    · obtain ⟨order, nonempty⟩ := liveSlots_live (e := { s.engine with
        image1 := some (imageOf ws), scanWords := [], pos := { s.engine.pos with slotIndex := 2 } }) image0 rfl hlive
      have goesOn := built.trans (endScan_live image0 rfl order nonempty)
      exact congrArg _ (onEngineCompletion_leaves (f := fun w u => scanWord u w) ht hu hc hs (appliesFrom_pause hgo)
        (goesOn.trans (applyFrom_completed (y := { s.engine.pos with slotIndex := 2 }) hgo rfl)))

end Sys2Proof.Machine.Recovery
end
